-- ==== Sys2Proof/Word.lean ====
section
/-! DEFINITION. The words that cross a link port: a byte, and a 16-bit field (spec/12, R166, R177 to R185).
The layouts over them stand in Machine/Operands.lean and Machine/Flags.lean. -/

namespace Sys2Proof

/-- One byte of a frame (R166). -/
abbrev Byte := BitVec 8

/-- A 16-bit field of a frame. A set of outputs is such a field: bit n stands for output n (spec/12, opening). -/
abbrev Word16 := BitVec 16

/-- A set of outputs, as the frames carry it and the configuration store holds it. -/
abbrev OutputSet := BitVec 16

end Sys2Proof
end

