-- ==== Sys2Proof/Syntax.lean ====
section
/-! DEFINITION. The commands of the block: one constructor per row of spec/opcode_table.json.
The rows of the command engine carry no operand: the request they carry out, with its tag and parameters, is the one the
engine takes from a mailbox (R171). Input pins that are sampled stand as operands of the step that samples them. -/

namespace Sys2Proof

/-- The two link ports (spec/00 section 1, R165). -/
inductive Port where
  | control
  | supervisor
deriving DecidableEq, Repr

/-- A slot of the permit table, 0 to 31 (R1). -/
abbrev SlotNo := Fin 32

/-- An output and the feedback input paired with it, 0 to 15 (spec/00 section 5). -/
abbrev OutputNo := Fin 16

/-- An exclusion group, 0 to 7 (R46). -/
abbrev GroupNo := Fin 8

/-- A trip line, 0 to 3 (R129). -/
abbrev LineNo := Fin 4

/-- The steps of the part, in the order of the opcode table. -/
inductive Instr where
  /-- The supply reaches its operating level (R162). -/
  | powerOn
  /-- RSTn has been held low for `lowPeriods` periods of REFCLK (R162; 4 or more are a reset). -/
  | rstnReset (lowPeriods : Nat)
  /-- RSTn is deasserted (R162, R176). -/
  | resetRelease
  /-- Chip select of port `p` is asserted (R167). -/
  | transactionStart (p : Port)
  /-- Chip select of port `p` is deasserted (R167, R169). -/
  | transactionEnd (p : Port)
  | unknownCommand
  | nop
  | claim
  | release
  | retire
  | query
  | list
  | revoke
  | purge
  | renew
  | restage
  | find
  | readNotice
  | deviceStatus
  | configureTickDivider
  | configureOutput
  | configureGroup
  | configureTrip
  | configureReserved
  | configureQuota
  | configureNoticeMask
  | configureNoticePromote
  | readConfig
  | enterRun
  | hold
  | resume
  | restart
  | clearTrip
  | clearFault
  /-- A tick (R161), with the electrical levels of FB0 to FB15 and TRIP0 to TRIP3 that it samples: bit n is 1 where input
  n stands at the high level (R116, R131). -/
  | tick (feedback : BitVec 16) (trips : BitVec 4)
  /-- The lease timer of slot `i` takes the tick that ends the lease (R62). -/
  | leaseExpiry (i : SlotNo)
  /-- The wait timer of slot `i` takes the tick that ends the wait (R35). -/
  | waitTimeout (i : SlotNo)
  /-- The pattern generator of slot `i` takes the tick that ends an ON phase (R78). -/
  | onPhaseEnd (i : SlotNo)
  /-- The pattern generator of slot `i` takes the tick that ends an OFF phase (R82). -/
  | cycleBoundary (i : SlotNo)
  /-- The chain unit takes the tick that ends the delay of slot `i` (R104). -/
  | delayEnd (i : SlotNo)
  /-- The quiet timer of group `g` takes the tick that ends its quiet time (R54). -/
  | quietEnd (g : GroupNo)
  /-- The settle timer of output `o` takes the tick that ends its settle time (R118). -/
  | settleEnd (o : OutputNo)
  /-- The filter of trip line `l` takes the sample that makes a filtered assertion (R132). -/
  | filteredAssertion (l : LineNo)
  /-- The supply falls below its operating level (R162, R176). -/
  | powerLoss
  /-- Eight rising edges of the clock of port `p`: one byte each way, `data` being the one on data-in (R166). -/
  | completeByteShifted (p : Port) (data : Byte)
  /-- One period of REFCLK that does not bring a tick (R161). -/
  | refclkPeriod
  | configureUnknownItem
deriving DecidableEq, Repr

end Sys2Proof
end

