-- ==== Sys2Proof/WellFormed.lean ====
section
/-! DEFINITION. Which terms of `Instr` are steps of the part. Slots, outputs, groups, lines and ports are typed by their
ranges, so one check is left: an RSTn reset is RSTn held low for at least 4 periods of REFCLK (R162). The machine gives
the shorter pulse its meaning too (no reset, no change). -/

namespace Sys2Proof

/-- The least number of REFCLK periods for which a low RSTn is a reset (R162). -/
def resetPeriods : Nat := 4

/-- The step is one the spec describes (R162 for `rstnReset`; every other operand is in range by its type). -/
def Instr.wellFormed : Instr → Bool
  | .rstnReset lowPeriods => decide (resetPeriods ≤ lowPeriods)
  | .powerOn => true
  | .resetRelease => true
  | .transactionStart _ => true
  | .transactionEnd _ => true
  | .unknownCommand => true
  | .nop => true
  | .claim => true
  | .release => true
  | .retire => true
  | .query => true
  | .list => true
  | .revoke => true
  | .purge => true
  | .renew => true
  | .restage => true
  | .find => true
  | .readNotice => true
  | .deviceStatus => true
  | .configureTickDivider => true
  | .configureOutput => true
  | .configureGroup => true
  | .configureTrip => true
  | .configureReserved => true
  | .configureQuota => true
  | .configureNoticeMask => true
  | .configureNoticePromote => true
  | .readConfig => true
  | .enterRun => true
  | .hold => true
  | .resume => true
  | .restart => true
  | .clearTrip => true
  | .clearFault => true
  | .tick _ _ => true
  | .leaseExpiry _ => true
  | .waitTimeout _ => true
  | .onPhaseEnd _ => true
  | .cycleBoundary _ => true
  | .delayEnd _ => true
  | .quietEnd _ => true
  | .settleEnd _ => true
  | .filteredAssertion _ => true
  | .powerLoss => true
  | .completeByteShifted _ _ => true
  | .refclkPeriod => true
  | .configureUnknownItem => true

end Sys2Proof
end

