-- ==== Sys2Proof/Decode.lean ====
section
/-! DEFINITION. The command that a word of the opcode table spells. No row of spec/opcode_table.json gives bits (its
"fields" are empty and it has no "fixed"; spec/98_reader.md counts 0 rows with either), so no word spells a command.
How the bytes of a request frame are read is R180 and R181: Machine/Operands.lean. -/

namespace Sys2Proof

/-- The row's command, for the rows that give bits: none does. -/
def decodeTableWord (_nbits _w : Nat) : Option Instr := none

end Sys2Proof
end

