-- ==== Sys2Proof/Config.lean ====
section
/-! DEFINITION. What the spec leaves open: free values with no body, so that nothing in Lean can evaluate one or prove
what it is. Each is applied to the model's own counter `State.choices`, which advances at every use. -/

namespace Sys2Proof.Config

/-- DESIGN CHOICE (log entry 3). When one departure's scan has granted permits and the departure has also set going
END dependents of delay 0, R38 and R102 both say "once the scan has ended" and no rule orders the two kinds of work:
true puts the END dependents' claim tests before the GRANT events of the granted permits. -/
opaque endTestsFirst : Nat → Bool

/-- DESIGN CHOICE (log entry 4). The events of one tick that the queue of commands has not taken by the next period of
REFCLK are taken then, in an order no rule fixes (R54, R92, R107, R126, R133): the index of the next one. -/
opaque tickOrder : Nat → Nat

/-- DESIGN CHOICE (log entry 5). A LIST from the Control Port that names the Supervisor Port and also carries a start
slot above 31 meets two refusals of R18, and no rule orders them: true answers NOT_PERMITTED, false BAD_PARAM. -/
opaque listRefusesPortFirst : Nat → Bool

end Sys2Proof.Config
end

