-- ==== Sys2Proof/Machine/State.lean ====
section
/-! DEFINITION. The state of the part: every register, table, queue, counter, mode and pin the spec names, as plain data,
and the queue of commands that wait. Durations and counts of ticks are natural numbers; their ranges are invariants
(Safety.lean), kept by what CLAIM and CONFIGURE accept. -/

namespace Sys2Proof.Machine

/-- One value for each link port. -/
structure PerPort (α : Type) where
  control : α
  supervisor : α
deriving DecidableEq, Repr

/-- The operating modes (R152). -/
inductive Mode where
  | setup
  | run
  | hold
deriving DecidableEq, Repr

/-- The event that last brought the part to SETUP (R152). -/
inductive ResetCause where
  | powerOn
  | pin
  | restart
deriving DecidableEq, Repr

/-- A logical level of an output or a feedback input: ON or OFF in the output's polarity (R112). -/
inductive Level where
  | off
  | on
deriving DecidableEq, Repr

/-- An electrical level of a line (spec/00 section 5; the active levels of R129). -/
inductive Electrical where
  | low
  | high
deriving DecidableEq, Repr

/-- Which electrical level is an output's ON level (R112). -/
inductive Polarity where
  | activeHigh
  | activeLow
deriving DecidableEq, Repr

/-- The phase of a LIVE permit's pattern (R74). -/
inductive Phase where
  | on
  | off
  | done
deriving DecidableEq, Repr

/-- The event of an anchor that a chained permit awaits: GRANT or END (R96). -/
inductive AwaitedEvent where
  | grant
  | ending
deriving DecidableEq, Repr

/-- Why a claim is not granted at once (R28). -/
inductive BlockReason where
  | held
  | group
  | quiet
  | trip
  | fault
  | hold
  | queueAhead
deriving DecidableEq, Repr

/-- The name of a permit: epoch, generation and slot (R5). -/
structure Handle where
  epoch : BitVec 4
  generation : BitVec 7
  slot : SlotNo
deriving DecidableEq, Repr

/-- Why a permit closed, with the subject of the causes that have one (R3). -/
inductive Closure where
  | expired
  | tripped (line : LineNo)
  | fault (output : OutputNo)
  | revoked
  | anchorLost (anchor : Handle)
  | waitTimeout
  | blocked (reason : BlockReason)
  | completed
deriving DecidableEq, Repr

/-- The waveform of a permit with the parameters its kind uses (R75). -/
inductive Pattern where
  | steady
  | pulse (on : Nat)
  | cycle (on off : Nat)
  | burst (on off count : Nat)
deriving DecidableEq, Repr

/-- One entry of an output list (R2). -/
structure OutputEntry where
  output : OutputNo
  invert : Bool
deriving DecidableEq, Repr

/-- The anchor of a chained permit, as given in the CLAIM (R2, R96). -/
structure Anchor where
  handle : Handle
  event : AwaitedEvent
  delay : Nat
deriving DecidableEq, Repr

/-- The permit record (the fields of R2). -/
structure Permit where
  owner : Port
  outputs : List OutputEntry
  pattern : Pattern
  closeOnCompletion : Bool
  lease : Nat
  renewGuard : Option Nat
  waitLimit : Nat
  anchor : Option Anchor
  chainDepth : Nat
  label : Option Nat
deriving DecidableEq, Repr

/-- The armed part (R3, R96): the sub-phase, with the delay remaining of DELAYING. -/
inductive ArmedPart where
  | awaitingEvent
  | delaying (remaining : Nat)
deriving DecidableEq, Repr

/-- The run part (R3, R74). -/
structure RunPart where
  leaseRemaining : Option Nat
  phase : Phase
  phaseRemaining : Option Nat
  cyclesRemaining : Option Nat
  staged : Option (Nat × Nat)
deriving DecidableEq, Repr

/-- The state of a slot, with the record and the part that go with it (R1, R2, R3). -/
inductive SlotState where
  | free
  | waiting (record : Permit) (waitRemaining : Nat)
  | armed (record : Permit) (part : ArmedPart)
  | live (record : Permit) (part : RunPart)
  | closed (record : Permit) (closure : Closure)
deriving DecidableEq, Repr

/-- A slot of the permit table (R1). -/
structure Slot where
  generation : BitVec 7
  state : SlotState
deriving DecidableEq, Repr

/-- An exclusion group (R46). -/
structure Group where
  members : OutputSet
  deadTime : Nat
  quietRemaining : Nat
deriving DecidableEq, Repr

/-- The state of an output channel; a HELD output has a holder and an invert flag in force (R112). -/
inductive ChannelState where
  | idle
  | held (holder : SlotNo) (invert : Bool)
  | faulted
deriving DecidableEq, Repr

/-- The supervision phase of a channel, with the settle remaining of SETTLING (R112, R117). -/
inductive Supervision where
  | unsupervised
  | settling (remaining : Nat)
  | watching
  | suspended
deriving DecidableEq, Repr

/-- An output channel (R112). -/
structure Channel where
  state : ChannelState
  polarity : Polarity
  settleTime : Nat
  expected : Level
  feedback : Level
  supervision : Supervision
deriving DecidableEq, Repr

/-- A trip line (R129). -/
structure TripLine where
  enabled : Bool
  activeLevel : Electrical
  filterLength : Nat
  map : OutputSet
  filterCount : Nat
  latched : Bool
deriving DecidableEq, Repr

/-- The five kinds of notice (R141). -/
inductive NoticeKind where
  | trip
  | fault
  | closed
  | granted
  | completed
deriving DecidableEq, Repr

/-- A notice: its kind and its subject (R141). -/
inductive Notice where
  | trip (line : LineNo)
  | fault (output : OutputNo)
  | closed (permit : Handle)
  | granted (permit : Handle)
  | completed (permit : Handle)
deriving DecidableEq, Repr

/-- An entry of a notice set (R141). -/
structure NoticeEntry where
  notice : Notice
  count : Nat
deriving DecidableEq, Repr

/-- One port's part of the notice unit (R141): its notice set, kept in the order of kinds and subjects of R145 so that
equal sets are equal data, its NOTICE_MASK (kind k is bit k-1) and its NOTICE_PROMOTE. -/
structure NoticeUnit where
  entries : List NoticeEntry
  mask : BitVec 5
  promoted : Option NoticeKind
deriving DecidableEq, Repr

/-- The judgement of a port's most recent completed transaction (R165). -/
inductive RequestOutcome where
  | none
  | accepted
  | full
  | badCheck
  | badLength
deriving DecidableEq, Repr

/-- The statuses of a response (R179). -/
inductive Status where
  | ok
  | granted
  | queued
  | armed
  | replaced
  | empty
  | stale
  | notOwner
  | wrongState
  | noSlot
  | badParam
  | selfConflict
  | blocked
  | reserved
  | notRunning
  | locked
  | tooEarly
  | notLeased
  | badAnchor
  | chainDepth
  | stillActive
  | stillFaulty
  | notPermitted
  | unknownCommand
  | invalidConfig
deriving DecidableEq, Repr

/-- An accepted request in a mailbox (R165). -/
structure Request where
  code : Byte
  tag : Byte
  params : List Byte
deriving DecidableEq, Repr

/-- A response waiting to be collected (R165). -/
structure Response where
  tag : Byte
  status : Status
  payload : List Byte
deriving DecidableEq, Repr

/-- The status header that a port forms when a transaction begins (R167). -/
structure StatusHeader where
  mode : Mode
  attention : Bool
  outcome : RequestOutcome
  epoch : BitVec 4
  freePlaces : Nat
  responseFollows : Bool
deriving DecidableEq, Repr

/-- A transaction in progress: the header formed at its start, the transmit selection and the receive shifter (R165,
R167). A byte goes out for every byte that comes in (R166), so the length of `received` counts both. -/
structure Transaction where
  header : StatusHeader
  selected : Option Response
  received : List Byte
deriving DecidableEq, Repr

/-- A link port (R165), with the level of its chip-select line (R166, R176). -/
structure LinkPort where
  chipSelect : Bool
  transaction : Option Transaction
  mailbox : List Request
  responses : List Response
  outcome : RequestOutcome
deriving DecidableEq, Repr

/-- The work of a tick that ends a count and is taken as an event of its own, in any order (R161, R21): the counter that
the tick has reached and that has not yet taken it. `trip` carries the level sampled (R131). -/
inductive TickEvent where
  | lease (i : SlotNo)
  | wait (i : SlotNo)
  | phase (i : SlotNo)
  | delay (i : SlotNo)
  | quiet (g : GroupNo)
  | settle (o : OutputNo)
  | trip (l : LineNo) (sample : Electrical)
deriving DecidableEq, Repr

/-- The whole part. -/
structure State where
  /-- The supply is at its operating level (R162). -/
  powered : Bool
  /-- RSTn is asserted and the reset has been taken (R162). -/
  rstnLow : Bool
  /-- The operating mode (R152). -/
  mode : Mode
  /-- The reset cause (R152). -/
  resetCause : ResetCause
  /-- The device epoch (R1, R7). -/
  epoch : BitVec 4
  /-- The configuration item TICK_DIVIDER (R161). -/
  tickDivider : Nat
  /-- The divider count of the time base (R161). -/
  dividerCount : Nat
  /-- The permit table (R1). -/
  slots : Vector Slot 32
  /-- The wait queue, oldest entry first (R34). -/
  waitQueue : List SlotNo
  /-- The exclusion groups (R46). -/
  groups : Vector Group 8
  /-- The output channels (R112). -/
  channels : Vector Channel 16
  /-- The trip lines (R129). -/
  tripLines : Vector TripLine 4
  /-- The configuration item RESERVED (R160). -/
  reserved : OutputSet
  /-- The configuration item QUOTA(port) (R9, R160). -/
  quota : PerPort Nat
  /-- The notice unit (R141). -/
  notices : PerPort NoticeUnit
  /-- The link ports (R165). -/
  ports : PerPort LinkPort
  /-- The port the command engine served last (R171). -/
  lastServed : Port
  /-- The model's own: the events of the last tick that are still to be taken (log entry 2). -/
  due : List TickEvent
  /-- The model's own: how many free choices have been taken (log entries 3, 4 and 5). -/
  choices : Nat
  /-- The commands that wait, first in, first out. -/
  pending : List Instr
deriving DecidableEq, Repr

/-- No command of this part stops the machine with a fault: the spec gives every step an effect. -/
inductive Fault where
deriving DecidableEq, Repr

/-- Reasons for which a command has no meaning. -/
inductive Refusal where
  /-- Raised by an arm of `exec` for a command not modelled yet; safe. No arm raises it. -/
  | notModelled (mnemonic : String)
deriving DecidableEq, Repr

/-- A channel after power-on and after RSTn (R128). -/
def resetChannel : Channel :=
  { state := .idle, polarity := .activeHigh, settleTime := 0, expected := .off, feedback := .off,
    supervision := .unsupervised }

/-- A trip line after power-on and after RSTn (R140). -/
def resetTripLine : TripLine :=
  { enabled := false, activeLevel := .high, filterLength := 1, map := 0, filterCount := 0, latched := false }

/-- A port's part of the notice unit after power-on and after RSTn (R150). -/
def resetNotices : NoticeUnit := { entries := [], mask := 0b11111, promoted := none }

/-- A link port after power-on and after RSTn (R176), its chip select deasserted (log entry 9). -/
def resetPort : LinkPort :=
  { chipSelect := false, transaction := none, mailbox := [], responses := [], outcome := .none }

/-- The part right after power-on, with RSTn deasserted: the defaults of R22, R45, R57, R128, R140, R150, R161, R162 and
R176 and of the store table of spec/10 section 10.4. -/
def State.reset : State :=
  { powered := true
    rstnLow := false
    mode := .setup
    resetCause := .powerOn
    epoch := 0
    tickDivider := 1000
    dividerCount := 0
    slots := Vector.replicate 32 { generation := 0, state := .free }
    waitQueue := []
    groups := Vector.replicate 8 { members := 0, deadTime := 0, quietRemaining := 0 }
    channels := Vector.replicate 16 resetChannel
    tripLines := Vector.replicate 4 resetTripLine
    reserved := 0
    quota := { control := 24, supervisor := 8 }
    notices := { control := resetNotices, supervisor := resetNotices }
    ports := { control := resetPort, supervisor := resetPort }
    lastServed := .control
    due := []
    choices := 0
    pending := [] }

end Sys2Proof.Machine
end

