-- ==== Sys2Proof/Machine/Operands.lean ====
section
/-! DEFINITION. How the bytes of a request are read: byte order, handles, the check byte, the codes of section 12.3, the
command codes and parameter layouts of section 12.4 (R178 to R181). Total on any bytes. -/

namespace Sys2Proof.Machine

/-! ## Bytes and sets -/

/-- The byte at position `k`, as a number; 0 where there is none. -/
def byteAt (bs : List Byte) (k : Nat) : Nat := (bs.getD k 0).toNat

/-- The 16-bit field at positions `k` and `k + 1`, most significant byte first (R166). -/
def wordAt (bs : List Byte) (k : Nat) : Nat := byteAt bs k * 256 + byteAt bs (k + 1)

/-- One byte of a payload. -/
def byteOf (n : Nat) : List Byte := [BitVec.ofNat 8 n]

/-- A 16-bit field of a payload, most significant byte first (R166). -/
def wordOf (n : Nat) : List Byte := [BitVec.ofNat 8 (n / 256), BitVec.ofNat 8 n]

/-- Output `o` is in the set: bit n stands for output n (spec/12, opening). -/
def inSet (s : OutputSet) (o : OutputNo) : Bool := s.getLsbD o.val

/-- All slots, in ascending order. -/
def allSlots : List SlotNo := List.finRange 32

/-- All outputs, in ascending order. -/
def allOutputs : List OutputNo := List.finRange 16

/-- All exclusion groups, in ascending order. -/
def allGroups : List GroupNo := List.finRange 8

/-- All trip lines, in ascending order. -/
def allLines : List LineNo := List.finRange 4

/-! ## Handles and codes (R179) -/

/-- The 16-bit layout of a handle: epoch, generation, slot (R179). -/
def handleWord (h : Handle) : Word16 := h.epoch ++ h.generation ++ BitVec.ofNat 5 h.slot.val

/-- The handle that a 16-bit field names (R179). -/
def handleOfWord (w : Word16) : Handle :=
  { epoch := w.extractLsb' 12 4
    generation := w.extractLsb' 5 7
    slot := ⟨(w.extractLsb' 0 5).toNat, (w.extractLsb' 0 5).isLt⟩ }

/-- The handle at position `k` of the parameters. -/
def handleAt (bs : List Byte) (k : Nat) : Handle := handleOfWord (BitVec.ofNat 16 (wordAt bs k))

/-- Codes of the ports (R179). -/
def portCode : Port → Nat
  | .control => 0
  | .supervisor => 1

/-- The port that a code names, if it names one (R179). -/
def portOfCode : Nat → Option Port
  | 0 => some .control
  | 1 => some .supervisor
  | _ => none

/-- Codes of the modes (R179). -/
def modeCode : Mode → Nat
  | .setup => 0
  | .run => 1
  | .hold => 2

/-- Codes of the reset causes (R179). -/
def resetCauseCode : ResetCause → Nat
  | .powerOn => 0
  | .pin => 1
  | .restart => 2

/-- Codes of the polarities (R179). -/
def polarityCode : Polarity → Nat
  | .activeHigh => 0
  | .activeLow => 1

/-- The polarity that a code names (R179). -/
def polarityOfCode : Nat → Option Polarity
  | 0 => some .activeHigh
  | 1 => some .activeLow
  | _ => none

/-- Codes of a trip line's active level (R179). -/
def activeLevelCode : Electrical → Nat
  | .high => 0
  | .low => 1

/-- The active level that a code names (R179). -/
def activeLevelOfCode : Nat → Option Electrical
  | 0 => some .high
  | 1 => some .low
  | _ => none

/-- Codes of the phases (R179). -/
def phaseCode : Phase → Nat
  | .on => 0
  | .off => 1
  | .done => 2

/-- Codes of the awaited events (R179). -/
def eventCode : AwaitedEvent → Nat
  | .grant => 0
  | .ending => 1

/-- The awaited event that a code names (R179, R181). -/
def eventOfCode : Nat → Option AwaitedEvent
  | 0 => some .grant
  | 1 => some .ending
  | _ => none

/-- Codes of the block reasons (R179). -/
def blockReasonCode : BlockReason → Nat
  | .held => 1
  | .group => 2
  | .quiet => 3
  | .trip => 4
  | .fault => 5
  | .hold => 6
  | .queueAhead => 7

/-- Codes of the closure causes (R179). -/
def causeCode : Closure → Nat
  | .expired => 1
  | .tripped _ => 2
  | .fault _ => 3
  | .revoked => 4
  | .anchorLost _ => 5
  | .waitTimeout => 6
  | .blocked _ => 7
  | .completed => 8

/-- Codes of the notice kinds (R179). -/
def noticeKindCode : NoticeKind → Nat
  | .trip => 1
  | .fault => 2
  | .closed => 3
  | .granted => 4
  | .completed => 5

/-- The notice kind that a code names (R179). -/
def noticeKindOfCode : Nat → Option NoticeKind
  | 1 => some .trip
  | 2 => some .fault
  | 3 => some .closed
  | 4 => some .granted
  | 5 => some .completed
  | _ => none

/-- Codes of the slot states (R179). -/
def slotStateCode : SlotState → Nat
  | .free => 0
  | .waiting _ _ => 1
  | .armed _ _ => 2
  | .live _ _ => 3
  | .closed _ _ => 4

/-- Codes of the pattern kinds (R179). -/
def patternCode : Pattern → Nat
  | .steady => 0
  | .pulse _ => 1
  | .cycle _ _ => 2
  | .burst _ _ _ => 3

/-- Codes of the channel states (R179). -/
def channelStateCode : ChannelState → Nat
  | .idle => 0
  | .held _ _ => 1
  | .faulted => 2

/-- Codes of the supervision phases (R179). -/
def supervisionCode : Supervision → Nat
  | .unsupervised => 0
  | .settling _ => 1
  | .watching => 2
  | .suspended => 3

/-- Codes of the request outcomes in the status header (R177). -/
def outcomeCode : RequestOutcome → Nat
  | .none => 0
  | .accepted => 1
  | .full => 2
  | .badCheck => 3
  | .badLength => 4

/-- Codes of the statuses (R179). -/
def statusCode : Status → Nat
  | .ok => 0x00
  | .granted => 0x01
  | .queued => 0x02
  | .armed => 0x03
  | .replaced => 0x04
  | .empty => 0x05
  | .stale => 0x81
  | .notOwner => 0x82
  | .wrongState => 0x83
  | .noSlot => 0x84
  | .badParam => 0x85
  | .selfConflict => 0x86
  | .blocked => 0x87
  | .reserved => 0x88
  | .notRunning => 0x89
  | .locked => 0x8A
  | .tooEarly => 0x8B
  | .notLeased => 0x8C
  | .badAnchor => 0x8D
  | .chainDepth => 0x8E
  | .stillActive => 0x8F
  | .stillFaulty => 0x90
  | .notPermitted => 0x91
  | .unknownCommand => 0x92
  | .invalidConfig => 0x93

/-! ## The check byte (R178) -/

/-- One shift of the CRC register (R178). -/
def crcShift (r : Byte) : Byte := if r.msb then (r <<< 1) ^^^ 0x07 else r <<< 1

/-- The CRC register after one more byte (R178). -/
def crcByte (r b : Byte) : Byte :=
  crcShift (crcShift (crcShift (crcShift (crcShift (crcShift (crcShift (crcShift (r ^^^ b))))))))

/-- The check byte of the bytes before it (R178). -/
def crc8 (bs : List Byte) : Byte := bs.foldl crcByte 0

/-! ## Commands (R180) -/

/-- What the command engine can find at the head of a mailbox: one constructor for each row of the opcode table that the
engine carries out. CONFIGURE is split by its item code. -/
inductive Command where
  | unknown
  | nop
  | claim
  | release
  | retire
  | renew
  | restage
  | query
  | list
  | find
  | readNotice
  | deviceStatus
  | revoke
  | purge
  | configureTickDivider
  | configureOutput
  | configureGroup
  | configureTrip
  | configureReserved
  | configureQuota
  | configureNoticeMask
  | configureNoticePromote
  | configureUnknownItem
  | readConfig
  | enterRun
  | hold
  | resume
  | restart
  | clearTrip
  | clearFault
deriving DecidableEq, Repr

/-- Which CONFIGURE a request with these parameters is: the item code is the first of them (R158, R180). A CONFIGURE
with no parameter carries no item code (R181). -/
def configureOf (params : List Byte) : Command :=
  match params with
  | [] => .configureUnknownItem
  | item :: _ =>
    match item.toNat with
    | 1 => .configureTickDivider
    | 2 => .configureOutput
    | 3 => .configureGroup
    | 4 => .configureTrip
    | 5 => .configureReserved
    | 6 => .configureQuota
    | 7 => .configureNoticeMask
    | 8 => .configureNoticePromote
    | _ => .configureUnknownItem

/-- The command that a request carries (R180); `unknown` where its code names none (check 1 of R172). -/
def commandOf (r : Request) : Command :=
  match r.code.toNat with
  | 0x01 => .nop
  | 0x10 => .claim
  | 0x11 => .release
  | 0x12 => .retire
  | 0x13 => .renew
  | 0x14 => .restage
  | 0x15 => .query
  | 0x16 => .list
  | 0x17 => .find
  | 0x18 => .readNotice
  | 0x19 => .deviceStatus
  | 0x20 => .revoke
  | 0x21 => .purge
  | 0x22 => configureOf r.params
  | 0x23 => .readConfig
  | 0x24 => .enterRun
  | 0x25 => .hold
  | 0x26 => .resume
  | 0x27 => .restart
  | 0x28 => .clearTrip
  | 0x29 => .clearFault
  | _ => .unknown

/-- The commands the Control Port may send (R173). -/
def controlMaySend : Command → Bool
  | .nop => true
  | .claim => true
  | .release => true
  | .retire => true
  | .renew => true
  | .restage => true
  | .query => true
  | .list => true
  | .find => true
  | .readNotice => true
  | .deviceStatus => true
  | .readConfig => true
  | .unknown => false
  | .revoke => false
  | .purge => false
  | .configureTickDivider => false
  | .configureOutput => false
  | .configureGroup => false
  | .configureTrip => false
  | .configureReserved => false
  | .configureQuota => false
  | .configureNoticeMask => false
  | .configureNoticePromote => false
  | .configureUnknownItem => false
  | .enterRun => false
  | .hold => false
  | .resume => false
  | .restart => false
  | .clearTrip => false
  | .clearFault => false

/-- Check 2 of R172: the command may be sent from the port (R173). -/
def permitted (c : Command) : Port → Bool
  | .control => controlMaySend c
  | .supervisor => true

/-! ## The CLAIM parameters (R180, R181) -/

/-- Bit 6 of the CLAIM flags: a renew guard is present. -/
def claimHasGuard (params : List Byte) : Bool := (params.getD 0 0).getLsbD 6

/-- Bit 5 of the CLAIM flags: an anchor is present. -/
def claimHasAnchor (params : List Byte) : Bool := (params.getD 0 0).getLsbD 5

/-- Bit 4 of the CLAIM flags: a label is present. -/
def claimHasLabel (params : List Byte) : Bool := (params.getD 0 0).getLsbD 4

/-- The length that the flags and the output count of a CLAIM give (R181). -/
def claimLength (params : List Byte) : Nat :=
  11 + byteAt params 1 + (if claimHasGuard params then 2 else 0) + (if claimHasAnchor params then 5 else 0)
    + (if claimHasLabel params then 2 else 0)

/-- The parameters of a CLAIM as received, before any check of R25 (R24, R180). -/
structure ClaimFields where
  kind : Nat
  closeOnCompletion : Bool
  entries : List (Nat × Bool)
  on : Nat
  off : Nat
  count : Nat
  lease : Nat
  waitLimit : Nat
  renewGuard : Option Nat
  anchor : Option (Handle × Nat × Nat)
  label : Option Nat
deriving DecidableEq, Repr

/-- An output entry: bit 7 the invert flag, bits 6 to 0 the output number (R181). -/
def readEntry (b : Byte) : Nat × Bool := (b.toNat % 128, b.getLsbD 7)

/-- The CLAIM parameters, read by the layout of section 12.4 (R180, R181). -/
def readClaim (params : List Byte) : ClaimFields :=
  let n := byteAt params 1
  let base := 2 + n
  let anchorPos := base + 9 + (if claimHasGuard params then 2 else 0)
  let labelPos := anchorPos + (if claimHasAnchor params then 5 else 0)
  { kind := byteAt params 0 % 8
    closeOnCompletion := (params.getD 0 0).getLsbD 7
    entries := ((params.drop 2).take n).map readEntry
    on := wordAt params base
    off := wordAt params (base + 2)
    count := byteAt params (base + 4)
    lease := wordAt params (base + 5)
    waitLimit := wordAt params (base + 7)
    renewGuard := if claimHasGuard params then some (wordAt params (base + 9)) else none
    anchor :=
      if claimHasAnchor params then
        some (handleAt params anchorPos, byteAt params (anchorPos + 2), wordAt params (anchorPos + 3))
      else none
    label := if claimHasLabel params then some (wordAt params labelPos) else none }

/-! ### The CLAIM parameters written out -/

/-- An output entry as its byte (R181). -/
def entryByte (e : Nat × Bool) : Byte := BitVec.ofNat 8 (e.1 + if e.2 then 128 else 0)

/-- The flags byte of a CLAIM (section 12.4). -/
def claimFlags (f : ClaimFields) : Byte :=
  BitVec.ofNat 8
    (f.kind + (if f.label.isSome then 16 else 0) + (if f.anchor.isSome then 32 else 0)
      + (if f.renewGuard.isSome then 64 else 0) + (if f.closeOnCompletion then 128 else 0))

/-- An optional 16-bit field of a frame: its bytes where it is present. -/
def optField : Option Nat → List Byte
  | some n => wordOf n
  | none => []

/-- The anchor field of a CLAIM: handle, awaited event and delay. -/
def anchorBytes : Option (Handle × Nat × Nat) → List Byte
  | some (h, event, delay) => wordOf (handleWord h).toNat ++ byteOf event ++ wordOf delay
  | none => []

/-- The parameter bytes of a CLAIM with these fields, in the order of section 12.4. -/
def claimParams (f : ClaimFields) : List Byte :=
  claimFlags f :: BitVec.ofNat 8 f.entries.length ::
    (f.entries.map entryByte ++ wordOf f.on ++ wordOf f.off ++ byteOf f.count ++ wordOf f.lease ++ wordOf f.waitLimit
      ++ optField f.renewGuard ++ anchorBytes f.anchor ++ optField f.label)

/-! ## Parameter lengths (check 3 of R172) -/

/-- The configuration items that have an index (section 12.4). -/
def itemHasIndex (item : Nat) : Bool :=
  item == 2 || item == 3 || item == 4 || item == 6 || item == 7 || item == 8

/-- Check 3 of R172 for a READ_CONFIG: not made for an unknown item code; no item code fails it (R172, R181). -/
def readConfigLengthOk (params : List Byte) : Bool :=
  match params with
  | [] => false
  | item :: _ =>
    if 1 ≤ item.toNat ∧ item.toNat ≤ 8 then params.length == (if itemHasIndex item.toNat then 2 else 1) else true

/-- Check 3 of R172: the parameter length is the one that the command's layout gives (R180, R181). -/
def lengthOk (c : Command) (params : List Byte) : Bool :=
  match c with
  | .unknown => true
  | .nop => params.length == 0
  | .claim => decide (2 ≤ params.length) && params.length == claimLength params && decide (params.length ≤ 32)
  | .release => params.length == 2
  | .retire => params.length == 2
  | .renew => params.length == 2
  | .restage => params.length == 6
  | .query => params.length == 2
  | .list => params.length == 1 || params.length == 2
  | .find => params.length == 1
  | .readNotice => params.length == 0
  | .deviceStatus => params.length == 0
  | .revoke => params.length == 2
  | .purge => params.length == 1
  | .configureTickDivider => params.length == 3
  | .configureOutput => params.length == 4
  | .configureGroup => params.length == 6
  | .configureTrip => params.length == 7
  | .configureReserved => params.length == 3
  | .configureQuota => params.length == 3
  | .configureNoticeMask => params.length == 3
  | .configureNoticePromote => params.length == 3
  | .configureUnknownItem => !params.isEmpty
  | .readConfig => readConfigLengthOk params
  | .enterRun => params.length == 0
  | .hold => params.length == 0
  | .resume => params.length == 0
  | .restart => params.length == 0
  | .clearTrip => params.length == 1
  | .clearFault => params.length == 1

/-! ## Request frames (R168, R169) -/

/-- What the bytes shifted in during a transaction amount to (cases 1 to 3 of R169, and the request of a frame that
passes them). -/
inductive Judgement where
  | noRequest
  | badLength
  | badCheck
  | request (r : Request)
deriving DecidableEq, Repr

/-- The bytes received, judged as a request frame: command code, tag, parameter length N, N parameters and the check byte;
the bytes after it are ignored (R168, R169). -/
def judgeBytes (bs : List Byte) : Judgement :=
  match bs with
  | [] => .noRequest
  | code :: _ =>
    if code = 0 then .noRequest
    else
      let n := byteAt bs 2
      if bs.length < 3 ∨ 32 < n ∨ bs.length < n + 4 then .badLength
      else if bs.getD (n + 3) 0 = crc8 (bs.take (n + 3)) then
        .request { code := code, tag := bs.getD 1 0, params := (bs.drop 3).take n }
      else .badCheck

/-- The frame that carries a request (section 12.2). -/
def requestFrame (r : Request) : List Byte :=
  let head := r.code :: r.tag :: BitVec.ofNat 8 r.params.length :: r.params
  head ++ [crc8 head]

end Sys2Proof.Machine
end

