-- ==== Sys2Proof/Machine/Flags.lean ====
section
/-! DEFINITION. What the part shows: the status header and response frames on a port's data-out line, the attention lines,
the output lines, and the sets and counts that the responses report (R113, R149, R164, R167, R177, R182 to R185).
All of it is computed from the state; none of it is state of its own. -/

namespace Sys2Proof.Machine

/-! ## Reading one of a number -/

/-- The value of port `p`. -/
def PerPort.get {α : Type} (x : PerPort α) : Port → α
  | .control => x.control
  | .supervisor => x.supervisor

/-- The values with port `p`'s replaced. -/
def PerPort.set {α : Type} (x : PerPort α) (p : Port) (a : α) : PerPort α :=
  match p with
  | .control => { x with control := a }
  | .supervisor => { x with supervisor := a }

/-- Slot `i` of the permit table. -/
def State.slot (s : State) (i : SlotNo) : Slot := s.slots.get i

/-- Output channel `o`. -/
def State.channel (s : State) (o : OutputNo) : Channel := s.channels.get o

/-- Exclusion group `g`. -/
def State.group (s : State) (g : GroupNo) : Group := s.groups.get g

/-- Trip line `l`. -/
def State.line (s : State) (l : LineNo) : TripLine := s.tripLines.get l

/-- The part works: the supply is at its operating level and RSTn is not asserted (R162). -/
def State.working (s : State) : Bool := s.powered && !s.rstnLow

/-! ## Slots and permits -/

/-- The record of a slot that is not FREE (R1). -/
def SlotState.record : SlotState → Option Permit
  | .free => none
  | .waiting r _ => some r
  | .armed r _ => some r
  | .live r _ => some r
  | .closed r _ => some r

/-- The slot is FREE. -/
def SlotState.isFree (st : SlotState) : Bool := st.record.isNone

/-- The slot's owner is `p` and it is not FREE (R1, R4). -/
def SlotState.ownedBy (st : SlotState) (p : Port) : Bool :=
  match st.record with
  | some r => decide (r.owner = p)
  | none => false

/-- A port's used count: the slots that are not FREE and whose owner is the port (R1). -/
def State.usedCount (s : State) (p : Port) : Nat := allSlots.countP fun i => (s.slot i).state.ownedBy p

/-- The handle of the permit in slot `i`, or of the next one (R5). -/
def State.handle (s : State) (i : SlotNo) : Handle :=
  { epoch := s.epoch, generation := (s.slot i).generation, slot := i }

/-- The outputs of an output list. -/
def Permit.outputNos (r : Permit) : List OutputNo := r.outputs.map OutputEntry.output

/-- The queue position of slot `i`, 1 being the oldest entry (R34). -/
def State.queuePosition (s : State) (i : SlotNo) : Nat := s.waitQueue.idxOf i + 1

/-! ## Channels -/

/-- The output is HELD. -/
def ChannelState.isHeld : ChannelState → Bool
  | .held _ _ => true
  | .idle => false
  | .faulted => false

/-- Slot `i` holds the output. -/
def ChannelState.heldBy (st : ChannelState) (i : SlotNo) : Bool :=
  match st with
  | .held holder _ => decide (holder = i)
  | .idle => false
  | .faulted => false

/-- The drive level of an output in a phase, by the invert flag of its entry (R76). -/
def driveLevel : Phase → Bool → Level
  | .on, false => .on
  | .on, true => .off
  | .off, false => .off
  | .off, true => .on
  | .done, _ => .off

/-- The electrical level of an ON or OFF level under a polarity (R112). -/
def electrical : Polarity → Level → Electrical
  | .activeHigh, .on => .high
  | .activeHigh, .off => .low
  | .activeLow, .on => .low
  | .activeLow, .off => .high

/-- The level of a feedback input that stands at an electrical level, in the output's polarity (R112, R116). -/
def levelOfInput (p : Polarity) (e : Electrical) : Level := if electrical p .on = e then .on else .off

/-- The electrical level on line OUTn (R112, R113). -/
def State.outputLine (s : State) (o : OutputNo) : Electrical :=
  electrical (s.channel o).polarity (s.channel o).expected

/-- The output is in the map of an enabled trip line whose latch is set (R28, R125). -/
def State.underTrip (s : State) (o : OutputNo) : Bool :=
  allLines.any fun l => (s.line l).enabled && (s.line l).latched && inSet (s.line l).map o

/-- The latched trip set of DEVICE_STATUS, bit l standing for line l (R183). -/
def State.latchedSet (s : State) : Nat := (allLines.map fun l => if (s.line l).latched then 2 ^ l.val else 0).sum

/-- The faulted output set of DEVICE_STATUS (R164). -/
def State.faultedSet (s : State) : Nat :=
  (allOutputs.map fun o => if (s.channel o).state = .faulted then 2 ^ o.val else 0).sum

/-! ## Notices -/

/-- The kind of a notice. -/
def Notice.kind : Notice → NoticeKind
  | .trip _ => .trip
  | .fault _ => .fault
  | .closed _ => .closed
  | .granted _ => .granted
  | .completed _ => .completed

/-- The subject field of a notice: the full handle for the permit kinds, the line or output number otherwise (R183). -/
def Notice.subject : Notice → Nat
  | .trip l => l.val
  | .fault o => o.val
  | .closed h => (handleWord h).toNat
  | .granted h => (handleWord h).toNat
  | .completed h => (handleWord h).toNat

/-- The slot that a permit notice names. -/
def Notice.slot : Notice → Option SlotNo
  | .trip _ => none
  | .fault _ => none
  | .closed h => some h.slot
  | .granted h => some h.slot
  | .completed h => some h.slot

/-- The place of a notice in the order of R145: by kind, then by subject number (the slot for the permit kinds), and, so
that different handles of one slot have different places too, by generation and epoch. -/
def Notice.place : Notice → Nat
  | .trip l => l.val
  | .fault o => 65536 + o.val
  | .closed h => 2 * 65536 + h.slot.val * 2048 + h.generation.toNat * 16 + h.epoch.toNat
  | .granted h => 3 * 65536 + h.slot.val * 2048 + h.generation.toNat * 16 + h.epoch.toNat
  | .completed h => 4 * 65536 + h.slot.val * 2048 + h.generation.toNat * 16 + h.epoch.toNat

/-- The kind is in the port's NOTICE_MASK (R141). -/
def maskHas (mask : BitVec 5) (k : NoticeKind) : Bool := mask.getLsbD (noticeKindCode k - 1)

/-- The port's attention line is asserted: its notice set holds an entry (R149). -/
def State.attention (s : State) (p : Port) : Bool := !(s.notices.get p).entries.isEmpty

/-- The electrical level on line ATTN_C or ATTN_S: low while it is asserted, high while it is not (R149). -/
def State.attentionLine (s : State) (p : Port) : Electrical := if s.attention p then .low else .high

/-! ## The status header and the bytes that go out -/

/-- The header that port `p` forms at the start of a transaction (R167). -/
def State.formHeader (s : State) (p : Port) : StatusHeader :=
  { mode := s.mode
    attention := s.attention p
    outcome := (s.ports.get p).outcome
    epoch := s.epoch
    freePlaces := 4 - (s.ports.get p).mailbox.length
    responseFollows := !(s.ports.get p).responses.isEmpty }

/-- The two header bytes (R177). -/
def headerBytes (h : StatusHeader) : List Byte :=
  [ BitVec.ofNat 2 (modeCode h.mode) ++ BitVec.ofBool h.attention ++ BitVec.ofNat 3 (outcomeCode h.outcome) ++ 0#2,
    h.epoch ++ BitVec.ofNat 3 h.freePlaces ++ BitVec.ofBool h.responseFollows ]

/-- The bytes of a response frame (section 12.2, R178). -/
def responseFrame (r : Response) : List Byte :=
  let head := r.tag :: BitVec.ofNat 8 (statusCode r.status) :: BitVec.ofNat 8 r.payload.length :: r.payload
  head ++ [crc8 head]

/-- The bytes that a transaction sends before the 0x00 filler: the header, and the frame of the selected response. -/
def Transaction.outBytes (t : Transaction) : List Byte :=
  headerBytes t.header ++ (match t.selected with | some r => responseFrame r | none => [])

/-- The byte on data-out, that goes out while the next byte comes in (R166, R167); 0x00 after the frame. -/
def Transaction.dataOut (t : Transaction) : Byte := t.outBytes.getD t.received.length 0

/-- What stands on the data-out line of port `p`: a byte, or high impedance (R166, R176). -/
def State.dataOut (s : State) (p : Port) : Option Byte := (s.ports.get p).transaction.map Transaction.dataOut

/-- Every byte of the selected response's frame has been shifted out (R167). -/
def Transaction.delivered (t : Transaction) : Bool :=
  t.selected.isSome && decide (t.outBytes.length ≤ t.received.length)

/-! ## Response payloads (R182 to R185) -/

/-- The on duration of a pattern, 0 where its kind has none. -/
def Pattern.on : Pattern → Nat
  | .steady => 0
  | .pulse on => on
  | .cycle on _ => on
  | .burst on _ _ => on

/-- The off duration of a pattern, 0 where its kind has none. -/
def Pattern.off : Pattern → Nat
  | .steady => 0
  | .pulse _ => 0
  | .cycle _ off => off
  | .burst _ off _ => off

/-- The count of a pattern, 0 where its kind has none. -/
def Pattern.count : Pattern → Nat
  | .steady => 0
  | .pulse _ => 0
  | .cycle _ _ => 0
  | .burst _ _ count => count

/-- A number whose bit is set for a true flag. -/
def flagBit (b : Bool) (weight : Nat) : Nat := if b then weight else 0

/-- The subject field of a closure part (R185). -/
def closureSubject : Closure → Nat
  | .tripped l => l.val
  | .fault o => o.val
  | .anchorLost h => (handleWord h).toNat
  | .blocked reason => blockReasonCode reason
  | .expired => 0
  | .revoked => 0
  | .waitTimeout => 0
  | .completed => 0

/-- The flags byte of a QUERY record (section 12.6). -/
def queryFlags (r : Permit) : Nat :=
  flagBit (decide (r.owner = .supervisor)) 128 + flagBit r.closeOnCompletion 64 + flagBit r.renewGuard.isSome 32
    + flagBit r.anchor.isSome 16 + flagBit r.label.isSome 8 + patternCode r.pattern

/-- The part of a QUERY record that belongs to the slot's state (R17, R185). -/
def State.queryPart (s : State) (i : SlotNo) : List Byte :=
  match (s.slot i).state with
  | .free => []
  | .waiting _ w => wordOf w ++ byteOf (s.queuePosition i)
  | .armed _ .awaitingEvent => byteOf 0 ++ wordOf 0
  | .armed _ (.delaying d) => byteOf 1 ++ wordOf d
  | .live _ run =>
    byteOf (flagBit run.leaseRemaining.isSome 128 + flagBit run.phaseRemaining.isSome 64
        + flagBit run.cyclesRemaining.isSome 32 + flagBit run.staged.isSome 16)
      ++ byteOf (phaseCode run.phase) ++ optField run.leaseRemaining ++ optField run.phaseRemaining
      ++ (match run.cyclesRemaining with | some c => byteOf c | none => [])
      ++ (match run.staged with | some pair => wordOf pair.1 ++ wordOf pair.2 | none => [])
  | .closed _ c => byteOf (causeCode c) ++ wordOf (closureSubject c)

/-- The QUERY record of slot `i`, whose record is `r` (R17, R184, R185). -/
def State.queryRecord (s : State) (i : SlotNo) (r : Permit) : List Byte :=
  wordOf (handleWord (s.handle i)).toNat ++ byteOf (slotStateCode (s.slot i).state) ++ byteOf (queryFlags r)
    ++ byteOf r.outputs.length
    ++ r.outputs.map (fun e => BitVec.ofNat 8 (flagBit e.invert 128 + e.output.val))
    ++ wordOf r.pattern.on ++ wordOf r.pattern.off ++ byteOf r.pattern.count
    ++ wordOf r.lease ++ wordOf r.waitLimit ++ byteOf r.chainDepth
    ++ optField r.renewGuard
    ++ (match r.anchor with
        | some a => wordOf (handleWord a.handle).toNat ++ byteOf (eventCode a.event) ++ wordOf a.delay
        | none => [])
    ++ optField r.label ++ s.queryPart i

/-- The DEVICE_STATUS payload (R164, R182, R183). -/
def State.statusPayload (s : State) : List Byte :=
  byteOf (modeCode s.mode) ++ byteOf s.epoch.toNat ++ byteOf (resetCauseCode s.resetCause)
    ++ byteOf (32 - (s.usedCount .control + s.usedCount .supervisor)) ++ byteOf s.waitQueue.length
    ++ byteOf s.latchedSet ++ wordOf s.faultedSet
    ++ byteOf (s.usedCount .control) ++ byteOf (s.usedCount .supervisor)

/-- The owner of the permit that holds an output, if one holds it. -/
def State.holderOwner (s : State) (o : OutputNo) : Option (Port × Handle) :=
  match (s.channel o).state with
  | .held i _ =>
    match (s.slot i).state.record with
    | some r => some (r.owner, s.handle i)
    | none => none
  | .idle => none
  | .faulted => none

/-- The invert flag in force of an output, false where there is none (R112). -/
def ChannelState.inverted : ChannelState → Bool
  | .held _ invert => invert
  | .idle => false
  | .faulted => false

/-- The FIND payload for output `o`, asked by port `p` (R125, R182, R183). DEDUCED (log entry 26): bits 1 and 0 of the flags
byte, which R183 does not name, are 0. -/
def State.findPayload (s : State) (p : Port) (o : OutputNo) : List Byte :=
  let c := s.channel o
  let holder := s.holderOwner o
  let given := match holder with | some (owner, _) => decide (owner = p) | none => false
  byteOf (channelStateCode c.state)
    ++ byteOf (flagBit holder.isSome 128 + flagBit given 64 + flagBit c.state.inverted 32
        + flagBit (decide (c.expected = .on)) 16 + flagBit (decide (c.feedback = .on)) 8 + flagBit (s.underTrip o) 4)
    ++ byteOf (match holder with | some (owner, _) => portCode owner | none => 0)
    ++ wordOf (match holder with | some (_, h) => if given then (handleWord h).toNat else 0 | none => 0)
    ++ byteOf (supervisionCode c.supervision)
    ++ byteOf (match c.supervision with | .settling n => n | .unsupervised => 0 | .watching => 0 | .suspended => 0)

/-- The slots of port `p` from `start` on that are not FREE, in ascending order (R18). -/
def State.listed (s : State) (p : Port) (start : Nat) : List SlotNo :=
  allSlots.filter fun i => decide (start ≤ i.val) && (s.slot i).state.ownedBy p

/-- The next slot of a LIST: the one after the last entry if more follow, 0xFF otherwise (R18, R183). -/
def nextSlot (listed : List SlotNo) : Nat :=
  if listed.length ≤ 16 then 0xFF
  else match (listed.take 16).getLast? with
    | some i => i.val + 1
    | none => 0xFF

/-- The LIST payload (R18, R182, R183). -/
def State.listPayload (s : State) (p : Port) (start : Nat) : List Byte :=
  let listed := s.listed p start
  byteOf (listed.take 16).length ++ byteOf (nextSlot listed)
    ++ (listed.take 16).flatMap fun i =>
        wordOf (handleWord (s.handle i)).toNat ++ byteOf (slotStateCode (s.slot i).state)

/-- The READ_CONFIG payload of GROUP(g) (R47, R183). -/
def groupPayload (g : Group) : List Byte := wordOf g.members.toNat ++ wordOf g.deadTime ++ wordOf g.quietRemaining

/-- The READ_CONFIG payload of TRIP(l) (R130, R183). -/
def linePayload (t : TripLine) : List Byte :=
  byteOf (flagBit t.enabled 1) ++ byteOf (activeLevelCode t.activeLevel) ++ byteOf t.filterLength
    ++ wordOf t.map.toNat ++ byteOf t.filterCount ++ byteOf (flagBit t.latched 1)

/-- The READ_CONFIG payload of OUTPUT(o) (R114, R183). -/
def outputPayload (c : Channel) : List Byte := byteOf (polarityCode c.polarity) ++ byteOf c.settleTime

/-- The code of a promoted kind, 0 for none (section 12.4). -/
def promotedCode : Option NoticeKind → Nat
  | some k => noticeKindCode k
  | none => 0

end Sys2Proof.Machine
end

