-- ==== Sys2Proof/Machine/Ops.lean ====
section
/-! DEFINITION. The named operations that every command is built from: writing one slot, channel, group or line; notices;
levels and supervision; quiet timers; the claim test; entering LIVE, CLOSED and FREE; chain events; the queue scan; the
departures from WAITING, ARMED and LIVE. One definition for each operation that the spec describes once. -/

namespace Sys2Proof.Machine

/-! ## Writing -/

/-- The tick's event concerns a part of slot `i`'s record. -/
def TickEvent.ofSlot (i : SlotNo) : TickEvent → Bool
  | .lease j => decide (j = i)
  | .wait j => decide (j = i)
  | .phase j => decide (j = i)
  | .delay j => decide (j = i)
  | .quiet _ => false
  | .settle _ => false
  | .trip _ _ => false

/-- Slot `i` replaced as a whole. A part that is dropped takes its timers with it, so an event of the last tick that was
still due to one of them is due no longer (R21). -/
def State.setSlot (i : SlotNo) (x : Slot) (s : State) : State :=
  { s with slots := s.slots.set i.val x i.isLt, due := s.due.filter fun e => !e.ofSlot i }

/-- Slot `i` in a new state, its generation kept. -/
def State.setSlotState (i : SlotNo) (st : SlotState) (s : State) : State :=
  s.setSlot i { s.slot i with state := st }

/-- The part of slot `i` counted on in place: its timers go on. -/
def State.countSlot (i : SlotNo) (st : SlotState) (s : State) : State :=
  { s with slots := s.slots.set i.val { s.slot i with state := st } i.isLt }

/-- Channel `o` replaced. -/
def State.setChannel (o : OutputNo) (c : Channel) (s : State) : State :=
  { s with channels := s.channels.set o.val c o.isLt }

/-- Group `g` replaced. -/
def State.setGroup (g : GroupNo) (x : Group) (s : State) : State :=
  { s with groups := s.groups.set g.val x g.isLt }

/-- Trip line `l` replaced. -/
def State.setLine (l : LineNo) (x : TripLine) (s : State) : State :=
  { s with tripLines := s.tripLines.set l.val x l.isLt }

/-- Port `p` replaced. -/
def State.setPort (p : Port) (x : LinkPort) (s : State) : State := { s with ports := s.ports.set p x }

/-- Port `p`'s part of the notice unit replaced. -/
def State.setNotices (p : Port) (u : NoticeUnit) (s : State) : State := { s with notices := s.notices.set p u }

/-! ## Notices -/

/-- A notice added to a set: a standing entry's repeat count rises, up to 15; otherwise a new entry of count 1 takes its
place in the order of R145 (R142). -/
def insertNotice (n : Notice) : List NoticeEntry → List NoticeEntry
  | [] => [{ notice := n, count := 1 }]
  | e :: rest =>
    if e.notice = n then { e with count := if e.count < 15 then e.count + 1 else e.count } :: rest
    else if n.place < e.notice.place then { notice := n, count := 1 } :: e :: rest
    else e :: insertNotice n rest

/-- A post to one port's set: dropped where the mask lacks the kind (R142). -/
def NoticeUnit.post (n : Notice) (u : NoticeUnit) : NoticeUnit :=
  if maskHas u.mask n.kind then { u with entries := insertNotice n u.entries } else u

/-- A post to port `p` (R142). -/
def State.post (p : Port) (n : Notice) (s : State) : State := s.setNotices p ((s.notices.get p).post n)

/-- A post to both ports, as TRIP and FAULT notices make (R141). -/
def State.postBoth (n : Notice) (s : State) : State := (s.post .control n).post .supervisor n

/-- The permit notices of slot `i` leave the set (R14). -/
def NoticeUnit.dropSlot (i : SlotNo) (u : NoticeUnit) : NoticeUnit :=
  { u with entries := u.entries.filter fun e => decide (e.notice.slot ≠ some i) }

/-! ## Levels and supervision -/

/-- Supervision started afresh from the settle time (R114, R117, R124). -/
def freshSupervision (settleTime : Nat) : Supervision :=
  if settleTime = 0 then .unsupervised else .settling settleTime

/-- A level handed to a channel. A level equal to the expected one is no change; a change moves the line and, in SETTLING
and WATCHING, starts the settle time again (R113, R117). -/
def Channel.hand (lvl : Level) (c : Channel) : Channel :=
  if c.expected = lvl then c
  else
    { c with
      expected := lvl
      supervision :=
        match c.supervision with
        | .settling _ => freshSupervision c.settleTime
        | .watching => freshSupervision c.settleTime
        | .unsupervised => .unsupervised
        | .suspended => .suspended }

/-- The channel becomes HELD by slot `i` and takes the ON-phase level (R115, R77). -/
def Channel.take (i : SlotNo) (invert : Bool) (c : Channel) : Channel :=
  Channel.hand (driveLevel .on invert) { c with state := .held i invert }

/-- The channel leaves HELD for IDLE, driven at OFF level (R115). -/
def Channel.letGo (c : Channel) : Channel := Channel.hand .off { c with state := .idle }

/-- The channel becomes FAULTED: SUSPENDED and driven at OFF level (R121). -/
def Channel.fail (c : Channel) : Channel :=
  { c with state := .faulted, expected := .off, supervision := .suspended }

/-- The level of a phase handed to the channel if slot `i` holds it (R83, R113). -/
def Channel.handPhase (i : SlotNo) (ph : Phase) (c : Channel) : Channel :=
  match c.state with
  | .held holder invert => if holder = i then c.hand (driveLevel ph invert) else c
  | .idle => c
  | .faulted => c

/-- Every output of slot `i`'s permit takes its level of a phase, as one event (R83). -/
def State.handPhase (i : SlotNo) (ph : Phase) (s : State) : State :=
  { s with channels := Vector.ofFn fun o => (s.channel o).handPhase i ph }

/-! ## Quiet timers -/

/-- The quiet time of a group one of whose members has left HELD: raised to the dead time if that is greater (R52). -/
def Group.startQuiet (x : Group) : Group :=
  if x.quietRemaining < x.deadTime then { x with quietRemaining := x.deadTime } else x

/-- The outputs in `left` have left HELD: every group of any of them starts its quiet time (R52). -/
def State.startQuiet (left : OutputNo → Bool) (s : State) : State :=
  { s with
    groups := Vector.ofFn fun g =>
      if allOutputs.any (fun o => left o && inSet (s.group g).members o) then (s.group g).startQuiet else s.group g }

/-- The outputs that slot `i` holds. -/
def State.holds (s : State) (i : SlotNo) (o : OutputNo) : Bool := (s.channel o).state.heldBy i

/-- The outputs of `left` leave HELD for IDLE at OFF level, and the groups respond (R115, R52). -/
def State.letGo (left : OutputNo → Bool) (s : State) : State :=
  let t : State :=
    { s with channels := Vector.ofFn fun o => if left o then (s.channel o).letGo else s.channel o }
  t.startQuiet left

/-! ## The claim test -/

/-- Output `o` belongs to a group that has another member HELD (test 2, R50). -/
def State.groupHeld (s : State) (o : OutputNo) : Bool :=
  allGroups.any fun g =>
    inSet (s.group g).members o &&
      allOutputs.any fun o' => decide (o' ≠ o) && inSet (s.group g).members o' && (s.channel o').state.isHeld

/-- Output `o` belongs to a group whose quiet timer is running (test 3, R50). -/
def State.groupQuiet (s : State) (o : OutputNo) : Bool :=
  allGroups.any fun g => inSet (s.group g).members o && decide (0 < (s.group g).quietRemaining)

/-- Two output lists contend: an output in common, or a group with a member in each (R29). -/
def State.contend (s : State) (a b : List OutputNo) : Bool :=
  a.any (fun o => b.contains o) ||
    allGroups.any fun g => a.any (inSet (s.group g).members) && b.any (inSet (s.group g).members)

/-- The output list of the permit in slot `i`. -/
def State.outputsOf (s : State) (i : SlotNo) : List OutputNo :=
  match (s.slot i).state.record with
  | some r => r.outputNos
  | none => []

/-- The claim test over an output list, with the entries of the wait queue that stand ahead; none where it is clear
(R28, R29). -/
def State.claimTest (s : State) (outs : List OutputNo) (ahead : List SlotNo) : Option BlockReason :=
  if outs.any (fun o => (s.channel o).state.isHeld) then some .held
  else if outs.any s.groupHeld then some .group
  else if outs.any s.groupQuiet then some .quiet
  else if outs.any s.underTrip then some .trip
  else if outs.any (fun o => decide ((s.channel o).state = .faulted)) then some .fault
  else if s.mode = .hold then some .hold
  else if ahead.any (fun j => s.contend outs (s.outputsOf j)) then some .queueAhead
  else none

/-! ## Entering LIVE, WAITING, CLOSED and FREE -/

/-- The phase remaining with which a phase of a pattern begins (R77, R80). -/
def Pattern.phaseTime (pat : Pattern) : Phase → Option Nat
  | .on =>
    match pat with
    | .steady => none
    | .pulse on => some on
    | .cycle on _ => some on
    | .burst on _ _ => some on
  | .off =>
    match pat with
    | .steady => none
    | .pulse _ => none
    | .cycle _ off => some off
    | .burst _ off _ => some off
  | .done => none

/-- The run part with which a permit enters LIVE (R10, R60, R77). -/
def newRun (r : Permit) : RunPart :=
  { leaseRemaining := if r.lease = 0 then none else some r.lease
    phase := .on
    phaseRemaining := r.pattern.phaseTime .on
    cyclesRemaining := match r.pattern with
      | .burst _ _ count => some count
      | .steady => none
      | .pulse _ => none
      | .cycle _ _ => none
    staged := none }

/-- The listed outputs become HELD by slot `i` (R115). -/
def State.takeOutputs (i : SlotNo) (entries : List OutputEntry) (s : State) : State :=
  { s with
    channels := Vector.ofFn fun o =>
      match entries.find? (fun e => decide (e.output = o)) with
      | some e => (s.channel o).take i e.invert
      | none => s.channel o }

/-- Slot `i` leaves the wait queue (R34). -/
def State.leaveQueue (i : SlotNo) (s : State) : State :=
  { s with waitQueue := s.waitQueue.filter fun j => decide (j ≠ i) }

/-- Slot `i` enters LIVE with record `r` (R10). -/
def State.enterLive (i : SlotNo) (r : Permit) (s : State) : State :=
  ((s.setSlotState i (.live r (newRun r))).leaveQueue i).takeOutputs i r.outputs

/-- Slot `i` enters WAITING with record `r` and joins the wait queue at its tail (R31, R34). -/
def State.enterWaiting (i : SlotNo) (r : Permit) (s : State) : State :=
  let t := s.setSlotState i (.waiting r r.waitLimit)
  { t with waitQueue := t.waitQueue ++ [i] }

/-- Slot `i` enters CLOSED, and its owner's CLOSED notice is posted (R12). -/
def State.enterClosed (i : SlotNo) (c : Closure) (s : State) : State :=
  match (s.slot i).state.record with
  | some r => (s.setSlotState i (.closed r c)).post r.owner (.closed (s.handle i))
  | none => s

/-- Slot `i` enters FREE: the generation rises, the permit notices of the slot leave its owner's set, and the record is
dropped (R7, R14). -/
def State.enterFree (i : SlotNo) (s : State) : State :=
  match (s.slot i).state.record with
  | some r =>
    let t := s.setSlot i { generation := (s.slot i).generation + 1, state := .free }
    t.setNotices r.owner ((t.notices.get r.owner).dropSlot i)
  | none => s

/-- Slot `i` ends: CLOSED with a cause, or FREE. -/
def State.enterEnd (i : SlotNo) (ending : Option Closure) (s : State) : State :=
  match ending with
  | some c => s.enterClosed i c
  | none => s.enterFree i

/-! ## Chain events -/

/-- The anchor of an ARMED permit in AWAITING_EVENT. -/
def SlotState.awaitedAnchor : SlotState → Option Anchor
  | .armed r .awaitingEvent => r.anchor
  | .armed _ (.delaying _) => none
  | .free => none
  | .waiting _ _ => none
  | .live _ _ => none
  | .closed _ _ => none

/-- Slot `j` holds a dependent of the permit with handle `h`: an ARMED permit in AWAITING_EVENT whose anchor handle is the
whole of `h` (R96). -/
def State.dependsOn (s : State) (j : SlotNo) (h : Handle) : Bool :=
  match (s.slot j).state.awaitedAnchor with
  | some a => decide (a.handle = h)
  | none => false

/-- The dependent in slot `j` awaits this event of the permit with handle `h`. -/
def State.awaits (s : State) (j : SlotNo) (h : Handle) (ev : AwaitedEvent) : Bool :=
  match (s.slot j).state.awaitedAnchor with
  | some a => decide (a.handle = h) && decide (a.event = ev)
  | none => false

/-- The delay of the anchor that slot `j` awaits, 0 where it awaits none. -/
def State.awaitedDelay (s : State) (j : SlotNo) : Nat :=
  match (s.slot j).state.awaitedAnchor with
  | some a => a.delay
  | none => 0

/-- The permit in slot `j` receives its event: it enters DELAYING with its delay (R100, R101). -/
def State.startDelay (j : SlotNo) (s : State) : State :=
  match (s.slot j).state with
  | .armed r .awaitingEvent =>
    (match r.anchor with
     | some a => s.setSlotState j (.armed r (.delaying a.delay))
     | none => s)
  | .armed _ (.delaying _) => s
  | .free => s
  | .waiting _ _ => s
  | .live _ _ => s
  | .closed _ _ => s

/-- The dependents of the permit with handle `h` are closed ANCHOR_LOST in ascending slot order, each after its own
dependents, and each once (R12, R13, R105). The permit in slot `i`, whose departure began the cascade, is not closed by it. The
number bounds the depth; 32 is never reached, for every level is a slot of its own (log entry 17). -/
def closeDependents (i : SlotNo) : Nat → Handle → State → State
  | 0, _, s => s
  | n + 1, h, s =>
    allSlots.foldl (init := s) fun t j =>
      if j ≠ i ∧ t.dependsOn j h = true then
        let u := closeDependents i n (t.handle j) t
        if u.dependsOn j h then u.enterClosed j (.anchorLost h) else u
      else t

/-- The anchor loss of R13 for the permit in slot `i`. -/
def State.loseAnchor (i : SlotNo) (s : State) : State := closeDependents i 32 (s.handle i) s

/-- The delay end of slot `j`: its claim test, with every entry of the queue ahead, and what follows from it; `give`
delivers the GRANT event of a granted permit (R104). -/
def delayEndWith (give : Handle → State → State) (j : SlotNo) (s : State) : State :=
  match (s.slot j).state with
  | .armed r (.delaying _) =>
    (match s.claimTest r.outputNos s.waitQueue with
     | none => give (s.handle j) ((s.enterLive j r).post r.owner (.granted (s.handle j)))
     | some reason =>
       if 0 < r.waitLimit then s.enterWaiting j r
       else (s.loseAnchor j).enterClosed j (.blocked reason))
  | .armed _ .awaitingEvent => s
  | .free => s
  | .waiting _ _ => s
  | .live _ _ => s
  | .closed _ _ => s

/-- The GRANT event of the permit with handle `h`: its dependents awaiting GRANT enter DELAYING in ascending slot order,
and one of delay 0 makes its claim test at once (R100, R102). The first argument bounds the depth as above. -/
def giveGrant : Nat → Handle → State → State
  | 0, _, s => s
  | n + 1, h, s =>
    allSlots.foldl (init := s) fun t j =>
      if t.awaits j h .grant then
        (if t.awaitedDelay j = 0 then delayEndWith (giveGrant n) j (t.startDelay j) else t.startDelay j)
      else t

/-- The GRANT event of the permit in slot `i` (R100). -/
def State.grantEvent (i : SlotNo) (s : State) : State := giveGrant 32 (s.handle i) s

/-- The delay end of slot `j` (R104). -/
def State.endDelay (j : SlotNo) (s : State) : State := delayEndWith (giveGrant 32) j s

/-- The dependents of the permit with handle `h` that await END and have a delay of 0, in ascending slot order (R102). -/
def State.endsAtOnce (s : State) (h : Handle) : List SlotNo :=
  allSlots.filter fun j => s.awaits j h .ending && decide (s.awaitedDelay j = 0)

/-- The END event of the permit with handle `h`: its dependents awaiting END enter DELAYING in ascending slot order
(R101). -/
def State.endEvent (h : Handle) (s : State) : State :=
  allSlots.foldl (init := s) fun t j => if t.awaits j h .ending then t.startDelay j else t

/-! ## The queue scan -/

/-- What a scan carries from one entry to the next: the part, the visited entries left waiting, and the granted ones in
the order of their grants. -/
structure ScanState where
  part : State
  waiting : List SlotNo
  granted : List SlotNo

/-- One entry of a scan: granted if its claim is clear against the entries left waiting before it (R36, R38). -/
def scanEntry (acc : ScanState) (i : SlotNo) : ScanState :=
  match (acc.part.slot i).state with
  | .waiting r _ =>
    (match acc.part.claimTest r.outputNos acc.waiting with
     | none =>
       { part := (acc.part.enterLive i r).post r.owner (.granted (acc.part.handle i))
         waiting := acc.waiting
         granted := acc.granted ++ [i] }
     | some _ => { acc with waiting := acc.waiting ++ [i] })
  | .free => acc
  | .armed _ _ => acc
  | .live _ _ => acc
  | .closed _ _ => acc

/-- The walk over the wait queue, from the oldest entry to the newest (R36). -/
def State.walkQueue (s : State) : ScanState :=
  s.waitQueue.foldl scanEntry { part := s, waiting := [], granted := [] }

/-- The GRANT events of the permits in these slots, in this order (R38). -/
def State.grantEvents (granted : List SlotNo) (s : State) : State :=
  granted.foldl (fun t i => t.grantEvent i) s

/-- The claim tests of dependents of delay 0 that received an END event, in this order (R102). -/
def State.endDelays (zeros : List SlotNo) (s : State) : State := zeros.foldl (fun t j => t.endDelay j) s

/-- A queue scan and the GRANT events that follow it (R36 to R38). -/
def State.scan (s : State) : State := s.walkQueue.part.grantEvents s.walkQueue.granted

/-- The scan of a departure, with the claim tests of the departed permit's END dependents of delay 0 (R11, R38, R102).
Where the scan has granted permits and there are such dependents, no rule orders their work: a free choice (log entry 3). -/
def State.scanDeparture (zeros : List SlotNo) (s : State) : State :=
  let walked := s.walkQueue
  if zeros.isEmpty then walked.part.grantEvents walked.granted
  else if walked.granted.isEmpty then walked.part.endDelays zeros
  else
    let t : State := { walked.part with choices := walked.part.choices + 1 }
    if Config.endTestsFirst walked.part.choices then (t.endDelays zeros).grantEvents walked.granted
    else (t.grantEvents walked.granted).endDelays zeros

/-! ## Departures -/

/-- The exit from LIVE of slot `i`, to CLOSED with a cause or to FREE (R11): the new state, the outputs let go with their
groups' quiet time, the END event, and the scan of the departure. -/
def State.exitLive (i : SlotNo) (ending : Option Closure) (s : State) : State :=
  match (s.slot i).state with
  | .live _ _ =>
    let h := s.handle i
    let released := (s.enterEnd i ending).letGo (s.holds i)
    (released.endEvent h).scanDeparture (released.endsAtOnce h)
  | .free => s
  | .waiting _ _ => s
  | .armed _ _ => s
  | .closed _ _ => s

/-- The departure of slot `i` from WAITING, to CLOSED or FREE (R13, R35). -/
def State.exitWaiting (i : SlotNo) (ending : Option Closure) (s : State) : State :=
  (((s.leaveQueue i).loseAnchor i).enterEnd i ending).scan

/-- The departure of slot `i` from ARMED, to CLOSED or FREE; no scan (R13, R15, R106). -/
def State.exitArmed (i : SlotNo) (ending : Option Closure) (s : State) : State :=
  (s.loseAnchor i).enterEnd i ending

/-- The end of a WAITING, ARMED or LIVE permit by a command, RELEASE or REVOKE (R15, R19). -/
def State.endPermit (i : SlotNo) (ending : Option Closure) (s : State) : State :=
  match (s.slot i).state with
  | .waiting _ _ => s.exitWaiting i ending
  | .armed _ _ => s.exitArmed i ending
  | .live _ _ => s.exitLive i ending
  | .free => s
  | .closed _ _ => s

/-! ## Resets -/

/-- Every block in its state after a reset of the whole part, with this epoch and cause (R22, R45, R57, R73, R95, R111,
R128, R140, R150, R162, R176). The supply, the RSTn line, the chip-select lines and the waiting commands are not reset. -/
def State.resetBlocks (epoch : BitVec 4) (cause : ResetCause) (s : State) : State :=
  { State.reset with
    powered := s.powered
    rstnLow := s.rstnLow
    resetCause := cause
    epoch := epoch
    ports :=
      { control := { resetPort with chipSelect := s.ports.control.chipSelect }
        supervisor := { resetPort with chipSelect := s.ports.supervisor.chipSelect } }
    choices := s.choices
    pending := s.pending }

end Sys2Proof.Machine
end

