-- ==== Sys2Proof/Machine/Engine.lean ====
section
/-! DEFINITION. The command engine (R171 to R174): which request it takes, the checks made on every request, the response;
and the commands that need nothing else, UNKNOWN_COMMAND and NOP. -/

namespace Sys2Proof.Machine

/-- What carrying out a command leaves: the part, and the status and payload of the response (R172). -/
structure Reply where
  state : State
  status : Status
  payload : List Byte

/-- A refusal: no change, no payload (R172). -/
def refuse (st : Status) (s : State) : Reply := { state := s, status := st, payload := [] }

/-- An accepted command without a payload. -/
def accept (s : State) : Reply := { state := s, status := .ok, payload := [] }

/-- The other port. -/
def otherPort : Port → Port
  | .control => .supervisor
  | .supervisor => .control

/-- Port `p` qualifies for service: a request waits and there is room for its response (R171). -/
def State.qualifies (s : State) (p : Port) : Bool :=
  !(s.ports.get p).mailbox.isEmpty && decide ((s.ports.get p).responses.length < 4)

/-- The port the engine serves now: of two that qualify, the one it did not serve last (R171); none while the part takes
no request (R162). -/
def State.servedPort (s : State) : Option Port :=
  if s.working then
    (if s.qualifies .control then
      (if s.qualifies .supervisor then some (otherPort s.lastServed) else some .control)
    else if s.qualifies .supervisor then some .supervisor
    else none)
  else none

/-- The request the engine takes now, and the port it comes from (R171). -/
def State.nextRequest (s : State) : Option (Port × Request) :=
  match s.servedPort with
  | some p =>
    (match (s.ports.get p).mailbox with
     | r :: _ => some (p, r)
     | [] => none)
  | none => none

/-- The oldest request leaves port `p`'s mailbox, and the port becomes the one served last (R171). -/
def State.takeRequest (p : Port) (s : State) : State :=
  { s with
    ports := s.ports.set p { s.ports.get p with mailbox := (s.ports.get p).mailbox.tail }
    lastServed := p }

/-- The response joins the tail of port `p`'s response queue, as the last part of the command (R172). -/
def State.respond (p : Port) (tag : Byte) (reply : Reply) : State :=
  reply.state.setPort p
    { reply.state.ports.get p with
      responses := (reply.state.ports.get p).responses
        ++ [{ tag := tag, status := reply.status, payload := reply.payload }] }

/-- The three checks of R172, then the command itself. -/
def carryOut (c : Command) (act : Port → List Byte → State → Reply) (p : Port) (params : List Byte) (s : State) : Reply :=
  if c = .unknown then refuse .unknownCommand s
  else if permitted c p then
    (if lengthOk c params then act p params s else refuse .badParam s)
  else refuse .notPermitted s

/-- One turn of the engine that carries out a command of kind `c`. Where the request it takes is of another kind, or it
waits, this row is not what the engine does: the state stays (log entry 1). -/
def engineStep (c : Command) (act : Port → List Byte → State → Reply) (s : State) : Host.Outcome State Fault Refusal :=
  match s.nextRequest with
  | some (p, r) =>
    if commandOf r = c then .next (State.respond p r.tag (carryOut c act p r.params (s.takeRequest p)))
    else .next s
  | none => .next s

/-- UNKNOWN_COMMAND (R172, check 1). -/
def execUnknownCommand (s : State) : Host.Outcome State Fault Refusal :=
  engineStep .unknown (fun _ _ t => refuse .unknownCommand t) s

/-- NOP (R174). -/
def execNop (s : State) : Host.Outcome State Fault Refusal := engineStep .nop (fun _ _ t => accept t) s

/-! ## Commands that name a handle -/

/-- The checks of R6 on a handle, before the state check that each command makes for itself: STALE, then NOT_OWNER. -/
def withPermit (s : State) (h : Handle) (mayUse : Permit → Bool) (k : Permit → Reply) : Reply :=
  match (s.slot h.slot).state.record with
  | some r =>
    if s.handle h.slot = h then (if mayUse r then k r else refuse .notOwner s) else refuse .stale s
  | none => refuse .stale s

/-- The owner check of RELEASE, RENEW and RESTAGE (R6). -/
def ownerOnly (p : Port) (r : Permit) : Bool := decide (r.owner = p)

/-- The owner check of RETIRE and QUERY (R6). -/
def ownerOrSupervisor (p : Port) (r : Permit) : Bool := decide (r.owner = p) || decide (p = .supervisor)

/-- The owner check of REVOKE, which is always met (R6). -/
def anyOwner (_ : Permit) : Bool := true

end Sys2Proof.Machine
end

