-- ==== Sys2Proof/Machine/Claims.lean ====
section
/-! DEFINITION. CLAIM: the ten validity checks, the slot, and the four outcomes (R8, R24 to R33, R49, R97, R98). -/

namespace Sys2Proof.Machine

/-- Check 1: 1 to 8 entries, each output 0 to 15, none twice (R26). -/
def ClaimFields.listOk (f : ClaimFields) : Bool :=
  decide (1 ≤ f.entries.length) && decide (f.entries.length ≤ 8)
    && f.entries.all (fun e => decide (e.1 < 16)) && decide ((f.entries.map Prod.fst).Nodup)

/-- Check 2: the pattern kind, the parameters it uses, and the awaited event (R26). -/
def ClaimFields.valuesOk (f : ClaimFields) : Bool :=
  decide (f.kind ≤ 3)
    && (decide (f.kind = 0) || decide (f.on ≠ 0))
    && (decide (f.kind ≤ 1) || decide (f.off ≠ 0))
    && (decide (f.kind ≠ 3) || decide (f.count ≠ 0))
    && (match f.anchor with
        | some (_, event, _) => decide (event ≤ 1)
        | none => true)

/-- Check 3: invert flags only with CYCLE or BURST (R26). -/
def ClaimFields.invertOk (f : ClaimFields) : Bool := decide (2 ≤ f.kind) || f.entries.all (fun e => !e.2)

/-- Check 4: lease 0 only from the Supervisor Port (R26, R64). -/
def ClaimFields.leaseOk (p : Port) (f : ClaimFields) : Bool := decide (f.lease ≠ 0) || decide (p = .supervisor)

/-- Check 5: a renew guard from 1 to the lease (R26). -/
def ClaimFields.guardOk (f : ClaimFields) : Bool :=
  match f.renewGuard with
  | some g => decide (1 ≤ g) && decide (g ≤ f.lease)
  | none => true

/-- The outputs that a claim lists, once check 1 has put them in range. -/
def ClaimFields.outputs (f : ClaimFields) : List OutputEntry :=
  f.entries.map fun e => { output := Fin.ofNat 16 e.1, invert := e.2 }

/-- Check 6 fails: two listed outputs are members of one group (R49). -/
def State.selfConflict (s : State) (outs : List OutputNo) : Bool :=
  allGroups.any fun g => decide (2 ≤ outs.countP (inSet (s.group g).members))

/-- The pattern of a claim that has passed check 2 (R75). -/
def ClaimFields.pattern (f : ClaimFields) : Pattern :=
  match f.kind with
  | 0 => .steady
  | 1 => .pulse f.on
  | 2 => .cycle f.on f.off
  | _ => .burst f.on f.off f.count

/-- The anchor field of a claim that has passed check 2. -/
def ClaimFields.anchorField (f : ClaimFields) : Option Anchor :=
  match f.anchor with
  | some (h, event, delay) =>
    (match eventOfCode event with
     | some ev => some { handle := h, event := ev, delay := delay }
     | none => none)
  | none => none

/-- The record that a claim makes (R2, R24). -/
def ClaimFields.permit (p : Port) (depth : Nat) (f : ClaimFields) : Permit :=
  { owner := p
    outputs := f.outputs
    pattern := f.pattern
    closeOnCompletion := f.closeOnCompletion
    lease := f.lease
    renewGuard := f.renewGuard
    waitLimit := f.waitLimit
    anchor := f.anchorField
    chainDepth := depth
    label := f.label }

/-- Checks 1 to 9 of R25: the refusal of the first that fails. -/
def State.claimRefusal (s : State) (p : Port) (f : ClaimFields) : Option Status :=
  if !f.listOk then some .badParam
  else if !f.valuesOk then some .badParam
  else if !f.invertOk then some .badParam
  else if !f.leaseOk p then some .badParam
  else if !f.guardOk then some .badParam
  else if s.selfConflict (f.outputs.map OutputEntry.output) then some .selfConflict
  else if p = .control ∧ (f.outputs.any fun e => inSet s.reserved e.output) = true then some .reserved
  else if s.mode = .setup then some .notRunning
  else if s.quota.get p ≤ s.usedCount p then some .noSlot
  else none

/-- The lowest-numbered FREE slot (R8). -/
def State.lowestFree (s : State) : Option SlotNo := allSlots.find? fun i => (s.slot i).state.isFree

/-- Check 10 of R25 on an anchor handle, in the order of R97. -/
def State.anchorRefusal (s : State) (p : Port) (h : Handle) : Option Status :=
  match (s.slot h.slot).state with
  | .free => some .badAnchor
  | .closed _ _ => some .badAnchor
  | .waiting r _ =>
    if s.handle h.slot ≠ h ∨ r.owner ≠ p then some .badAnchor else if 4 ≤ r.chainDepth then some .chainDepth else none
  | .armed r _ =>
    if s.handle h.slot ≠ h ∨ r.owner ≠ p then some .badAnchor else if 4 ≤ r.chainDepth then some .chainDepth else none
  | .live r _ =>
    if s.handle h.slot ≠ h ∨ r.owner ≠ p then some .badAnchor else if 4 ≤ r.chainDepth then some .chainDepth else none

/-- The chain depth of the permit that a handle's slot holds, 0 where it holds none. -/
def State.depthAt (s : State) (h : Handle) : Nat :=
  match (s.slot h.slot).state.record with
  | some r => r.chainDepth
  | none => 0

/-- The permit in the slot is LIVE. -/
def SlotState.isLive : SlotState → Bool
  | .live _ _ => true
  | .free => false
  | .waiting _ _ => false
  | .armed _ _ => false
  | .closed _ _ => false

/-- The two bytes of a handle in a payload. -/
def handleBytes (h : Handle) : List Byte := wordOf (handleWord h).toNat

/-- A direct claim in slot `i`: granted, queued or refused BLOCKED by one claim test (R30, R31, R32). -/
def State.directClaim (i : SlotNo) (r : Permit) (s : State) : Reply :=
  match s.claimTest r.outputNos s.waitQueue with
  | none => { state := s.enterLive i r, status := .granted, payload := handleBytes (s.handle i) }
  | some reason =>
    if 0 < r.waitLimit then
      { state := s.enterWaiting i r
        status := .queued
        payload := handleBytes (s.handle i) ++ byteOf (blockReasonCode reason) ++ byteOf (s.waitQueue.length + 1) }
    else { state := s, status := .blocked, payload := byteOf (blockReasonCode reason) }

/-- A chained claim in slot `i`, accepted as ARMED (R33, R98). With a LIVE anchor and GRANT awaited the event has
occurred: it begins in DELAYING, and with a delay of 0 makes its claim test within the command (R102). -/
def State.armClaim (i : SlotNo) (r : Permit) (a : Anchor) (s : State) : Reply :=
  { state :=
      if a.event = .grant ∧ (s.slot a.handle.slot).state.isLive = true then
        (if a.delay = 0 then (s.setSlotState i (.armed r (.delaying a.delay))).endDelay i
         else s.setSlotState i (.armed r (.delaying a.delay)))
      else s.setSlotState i (.armed r .awaitingEvent)
    status := .armed
    payload := handleBytes (s.handle i) }

/-- CLAIM, after the checks of R172 (R24, R25). -/
def claimAct (p : Port) (params : List Byte) (s : State) : Reply :=
  let f := readClaim params
  match s.claimRefusal p f with
  | some st => refuse st s
  | none =>
    match s.lowestFree with
    | none => refuse .noSlot s
    | some i =>
      match f.anchorField with
      | none => s.directClaim i (f.permit p 1)
      | some a =>
        match s.anchorRefusal p a.handle with
        | some st => refuse st s
        | none => s.armClaim i (f.permit p (s.depthAt a.handle + 1)) a

/-- CLAIM (R24). -/
def execClaim (s : State) : Host.Outcome State Fault Refusal := engineStep .claim claimAct s

end Sys2Proof.Machine
end

