-- ==== Sys2Proof/Machine/Reports.lean ====
section
/-! DEFINITION. The commands that report: FIND (R125), READ_NOTICE (R145), DEVICE_STATUS (R164) and READ_CONFIG (R159). -/

namespace Sys2Proof.Machine

/-- The output that a number names. -/
def outputOf (n : Nat) : Option OutputNo := if h : n < 16 then some ⟨n, h⟩ else none

/-- The exclusion group that a number names. -/
def groupOf (n : Nat) : Option GroupNo := if h : n < 8 then some ⟨n, h⟩ else none

/-- The trip line that a number names. -/
def lineOf (n : Nat) : Option LineNo := if h : n < 4 then some ⟨n, h⟩ else none

/-- A report: the state as it is, status OK and a payload. -/
def report (payload : List Byte) (s : State) : Reply := { state := s, status := .ok, payload := payload }

/-- FIND, after the checks of R172 (R125). -/
def findAct (p : Port) (params : List Byte) (s : State) : Reply :=
  match outputOf (byteAt params 0) with
  | none => refuse .badParam s
  | some o => report (s.findPayload p o) s

/-- FIND (R125). -/
def execFind (s : State) : Host.Outcome State Fault Refusal := engineStep .find findAct s

/-- The entry that READ_NOTICE selects: the first of the promoted kind if there is one, otherwise the first of all; the
set is kept in the fixed order of kinds and subjects (R145). -/
def NoticeUnit.first (u : NoticeUnit) : Option NoticeEntry :=
  match u.promoted with
  | some k =>
    (match u.entries.find? (fun e => decide (e.notice.kind = k)) with
     | some e => some e
     | none => u.entries.head?)
  | none => u.entries.head?

/-- The READ_NOTICE payload: kind, repeat count, subject, entries left (R145, R182). -/
def noticePayload (e : NoticeEntry) (left : Nat) : List Byte :=
  byteOf (noticeKindCode e.notice.kind) ++ byteOf e.count ++ wordOf e.notice.subject ++ byteOf left

/-- READ_NOTICE, after the checks of R172 (R145). -/
def readNoticeAct (p : Port) (_ : List Byte) (s : State) : Reply :=
  let u := s.notices.get p
  match u.first with
  | none => refuse .empty s
  | some e =>
    { state := s.setNotices p { u with entries := u.entries.erase e }
      status := .ok
      payload := noticePayload e (u.entries.erase e).length }

/-- READ_NOTICE (R145). -/
def execReadNotice (s : State) : Host.Outcome State Fault Refusal := engineStep .readNotice readNoticeAct s

/-- DEVICE_STATUS (R164). -/
def execDeviceStatus (s : State) : Host.Outcome State Fault Refusal :=
  engineStep .deviceStatus (fun _ _ t => report t.statusPayload t) s

/-- A report on an indexed item, or BAD_PARAM where the index names nothing (R159). -/
def reportOn {α : Type} (index : Option α) (payload : α → List Byte) (s : State) : Reply :=
  match index with
  | none => refuse .badParam s
  | some x => report (payload x) s

/-- READ_CONFIG, after the checks of R172 (R159, R183). -/
def readConfigAct (_ : Port) (params : List Byte) (s : State) : Reply :=
  let index := byteAt params 1
  match byteAt params 0 with
  | 1 => report (wordOf s.tickDivider) s
  | 2 => reportOn (outputOf index) (fun o => outputPayload (s.channel o)) s
  | 3 => reportOn (groupOf index) (fun g => groupPayload (s.group g)) s
  | 4 => reportOn (lineOf index) (fun l => linePayload (s.line l)) s
  | 5 => report (wordOf s.reserved.toNat) s
  | 6 => reportOn (portOfCode index) (fun p => byteOf (s.quota.get p)) s
  | 7 => reportOn (portOfCode index) (fun p => byteOf (s.notices.get p).mask.toNat) s
  | 8 => reportOn (portOfCode index) (fun p => byteOf (promotedCode (s.notices.get p).promoted)) s
  | _ => refuse .badParam s

/-- READ_CONFIG (R159). -/
def execReadConfig (s : State) : Host.Outcome State Fault Refusal := engineStep .readConfig readConfigAct s

end Sys2Proof.Machine
end

