-- ==== Sys2Proof/Machine/Configure.lean ====
section
/-! DEFINITION. CONFIGURE, one row for each configuration item, and the row of an unknown item (R9, R47, R48, R114, R130,
R147, R148, R158, R160, R161). -/

namespace Sys2Proof.Machine

/-- Check 2 of R158 for a locked item: LOCKED outside SETUP. -/
def inSetup (k : State → Reply) (s : State) : Reply := if s.mode = .setup then k s else refuse .locked s

/-- CONFIGURE of TICK_DIVIDER (R161). -/
def configureTickDividerAct (_ : Port) (params : List Byte) (s : State) : Reply :=
  inSetup (s := s) fun t =>
    if wordAt params 1 < 10 then refuse .badParam t
    else accept { t with tickDivider := wordAt params 1, dividerCount := 0 }

/-- CONFIGURE_TICK_DIVIDER (R161). -/
def execConfigureTickDivider (s : State) : Host.Outcome State Fault Refusal :=
  engineStep .configureTickDivider configureTickDividerAct s

/-- A channel configured anew: an IDLE output's supervision restarts, a FAULTED output's stays SUSPENDED (R114). The
feedback sample is kept as ON or OFF (log entry 22), unless the tick that took it is still `ahead` of the channel's own work:
that tick then follows the command, and its sample is the line's level in the new polarity (R116, R117). -/
def Channel.configure (pol : Polarity) (settle : Nat) (ahead : Bool) (c : Channel) : Channel :=
  { c with
    polarity := pol
    settleTime := settle
    feedback := if ahead then levelOfInput pol (electrical c.polarity c.feedback) else c.feedback
    supervision := if c.state = .faulted then c.supervision else freshSupervision settle }

/-- CONFIGURE of OUTPUT(o); a settle end of the output that is still due belongs to a tick taken after the command (R114,
R117, log entry 2). -/
def configureOutputAct (_ : Port) (params : List Byte) (s : State) : Reply :=
  inSetup (s := s) fun t =>
    match outputOf (byteAt params 1), polarityOfCode (byteAt params 2) with
    | some o, some pol =>
      accept (t.setChannel o
        ((t.channel o).configure pol (byteAt params 3) (decide (TickEvent.settle o ∈ t.due))))
    | some _, none => refuse .badParam t
    | none, _ => refuse .badParam t

/-- CONFIGURE_OUTPUT (R114). -/
def execConfigureOutput (s : State) : Host.Outcome State Fault Refusal :=
  engineStep .configureOutput configureOutputAct s

/-- CONFIGURE of GROUP(g): the quiet timer is kept (R47, R48). -/
def configureGroupAct (_ : Port) (params : List Byte) (s : State) : Reply :=
  inSetup (s := s) fun t =>
    match groupOf (byteAt params 1) with
    | none => refuse .badParam t
    | some g =>
      if 4095 < wordAt params 4 then refuse .badParam t
      else accept (t.setGroup g
        { t.group g with members := BitVec.ofNat 16 (wordAt params 2), deadTime := wordAt params 4 })

/-- CONFIGURE_GROUP (R47). -/
def execConfigureGroup (s : State) : Host.Outcome State Fault Refusal :=
  engineStep .configureGroup configureGroupAct s

/-- A trip line configured anew, with the effect on its filter count and latch (R130). -/
def TripLine.configure (enable : Bool) (level : Electrical) (len : Nat) (map : OutputSet) (x : TripLine) : TripLine :=
  { enabled := enable
    activeLevel := level
    filterLength := len
    map := map
    filterCount :=
      if x.enabled = true ∧ enable = true ∧ x.activeLevel = level ∧ x.filterLength = len then x.filterCount else 0
    latched := x.enabled && enable && x.latched }

/-- CONFIGURE of TRIP(l): a latch that the disabling clears is followed by a scan (R130, R37). -/
def configureTripAct (_ : Port) (params : List Byte) (s : State) : Reply :=
  inSetup (s := s) fun t =>
    match lineOf (byteAt params 1), activeLevelOfCode (byteAt params 3) with
    | some l, some level =>
      if byteAt params 4 = 0 ∨ 15 < byteAt params 4 then refuse .badParam t
      else
        let enable := decide (byteAt params 2 ≠ 0)
        let u := t.setLine l
          ((t.line l).configure enable level (byteAt params 4) (BitVec.ofNat 16 (wordAt params 5)))
        accept (if (t.line l).latched = true ∧ (u.line l).latched = false then u.scan else u)
    | some _, none => refuse .badParam t
    | none, _ => refuse .badParam t

/-- CONFIGURE_TRIP (R130). -/
def execConfigureTrip (s : State) : Host.Outcome State Fault Refusal :=
  engineStep .configureTrip configureTripAct s

/-- CONFIGURE_RESERVED (R160). -/
def execConfigureReserved (s : State) : Host.Outcome State Fault Refusal :=
  engineStep .configureReserved
    (fun _ params t => inSetup (s := t) fun u => accept { u with reserved := BitVec.ofNat 16 (wordAt params 1) }) s

/-- CONFIGURE of QUOTA(port): refused below the used count and where the sum would exceed 32 (R9, R160). -/
def configureQuotaAct (_ : Port) (params : List Byte) (s : State) : Reply :=
  inSetup (s := s) fun t =>
    match portOfCode (byteAt params 1) with
    | none => refuse .badParam t
    | some p =>
      let q := byteAt params 2
      if 32 < q ∨ q < t.usedCount p ∨ 32 < q + t.quota.get (otherPort p) then refuse .badParam t
      else accept { t with quota := t.quota.set p q }

/-- CONFIGURE_QUOTA (R9). -/
def execConfigureQuota (s : State) : Host.Outcome State Fault Refusal :=
  engineStep .configureQuota configureQuotaAct s

/-- A notice unit with a new mask: the entries of kinds not in it are removed (R147). -/
def NoticeUnit.applyMask (mask : BitVec 5) (u : NoticeUnit) : NoticeUnit :=
  { u with mask := mask, entries := u.entries.filter fun e => maskHas mask e.notice.kind }

/-- CONFIGURE of NOTICE_MASK(port), in every mode (R147, R158). -/
def configureNoticeMaskAct (_ : Port) (params : List Byte) (s : State) : Reply :=
  match portOfCode (byteAt params 1) with
  | none => refuse .badParam s
  | some p =>
    if 31 < byteAt params 2 then refuse .badParam s
    else accept (s.setNotices p ((s.notices.get p).applyMask (BitVec.ofNat 5 (byteAt params 2))))

/-- CONFIGURE_NOTICE_MASK (R147). -/
def execConfigureNoticeMask (s : State) : Host.Outcome State Fault Refusal :=
  engineStep .configureNoticeMask configureNoticeMaskAct s

/-- CONFIGURE of NOTICE_PROMOTE(port), in every mode; kind 0 is none (R148, R158). -/
def configureNoticePromoteAct (_ : Port) (params : List Byte) (s : State) : Reply :=
  match portOfCode (byteAt params 1) with
  | none => refuse .badParam s
  | some p =>
    if 5 < byteAt params 2 then refuse .badParam s
    else accept (s.setNotices p { s.notices.get p with promoted := noticeKindOfCode (byteAt params 2) })

/-- CONFIGURE_NOTICE_PROMOTE (R148). -/
def execConfigureNoticePromote (s : State) : Host.Outcome State Fault Refusal :=
  engineStep .configureNoticePromote configureNoticePromoteAct s

/-- CONFIGURE_UNKNOWN_ITEM: check 1 of R158, in every mode. -/
def execConfigureUnknownItem (s : State) : Host.Outcome State Fault Refusal :=
  engineStep .configureUnknownItem (fun _ _ t => refuse .badParam t) s

end Sys2Proof.Machine
end

