-- ==== Sys2Proof/Machine/Link.lean ====
section
/-! DEFINITION. Transactions on the link ports: TRANSACTION_START, COMPLETE_BYTE_SHIFTED and TRANSACTION_END (R165 to
R169, R176, R177). -/

namespace Sys2Proof.Machine

/-- A transaction begins on port `p`: the header is formed and the oldest response selected (R167). -/
def State.beginTransaction (p : Port) (s : State) : State :=
  s.setPort p
    { s.ports.get p with
      chipSelect := true
      transaction := some
        { header := s.formHeader p
          selected := (s.ports.get p).responses.head?
          received := [] } }

/-- TRANSACTION_START: only a chip-select assertion that begins while the part works starts a transaction (R167, R176). -/
def execTransactionStart (p : Port) (s : State) : Host.Outcome State Fault Refusal :=
  if (s.ports.get p).chipSelect then .next s
  else if s.working then .next (s.beginTransaction p)
  else .next (s.setPort p { s.ports.get p with chipSelect := true })

/-- COMPLETE_BYTE_SHIFTED: a byte joins the receive shifter while the byte on data-out goes out; without a transaction
the clock and data-in are ignored (R166, R168). -/
def execCompleteByteShifted (p : Port) (data : Byte) (s : State) : Host.Outcome State Fault Refusal :=
  match (s.ports.get p).transaction with
  | some t =>
    .next (s.setPort p { s.ports.get p with transaction := some { t with received := t.received ++ [data] } })
  | none => .next s

/-- The mailbox and the last-request outcome after the bytes of a transaction are judged (R169). -/
def judged (j : Judgement) (x : LinkPort) : LinkPort :=
  match j with
  | .noRequest => { x with outcome := .none }
  | .badLength => { x with outcome := .badLength }
  | .badCheck => { x with outcome := .badCheck }
  | .request r =>
    if x.mailbox.length < 4 then { x with outcome := .accepted, mailbox := x.mailbox ++ [r] }
    else { x with outcome := .full }

/-- The end of transaction `t` on a port: a response shifted out whole leaves the queue, and the bytes received are judged
(R167, R169). -/
def LinkPort.endTransaction (t : Transaction) (x : LinkPort) : LinkPort :=
  let y : LinkPort :=
    { x with
      chipSelect := false
      transaction := none
      responses := if t.delivered then x.responses.tail else x.responses }
  judged (judgeBytes t.received) y

/-- TRANSACTION_END (R167, R169). A chip select that was ignored is deasserted without a judgement (R176). -/
def execTransactionEnd (p : Port) (s : State) : Host.Outcome State Fault Refusal :=
  match (s.ports.get p).transaction with
  | some t => .next (s.setPort p ((s.ports.get p).endTransaction t))
  | none => .next (s.setPort p { s.ports.get p with chipSelect := false })

end Sys2Proof.Machine
end

