-- ==== Sys2Proof/Machine/Modes.lean ====
section
/-! DEFINITION. The mode commands ENTER_RUN, HOLD, RESUME and RESTART (R23, R153 to R156, R163, R175), and the two clearing
commands CLEAR_TRIP (R137) and CLEAR_FAULT (R124). -/

namespace Sys2Proof.Machine

/-- The number of outputs in a set. -/
def setSize (s : OutputSet) : Nat := allOutputs.countP (inSet s)

/-- The first group with exactly one member (check 1 of R154). -/
def State.badGroup (s : State) : Option GroupNo := allGroups.find? fun g => decide (setSize (s.group g).members = 1)

/-- The first enabled trip line with an empty map (check 3 of R154). -/
def State.badLine (s : State) : Option LineNo :=
  allLines.find? fun l => (s.line l).enabled && decide ((s.line l).map = 0)

/-- The item code and index that INVALID_CONFIG reports, if a check fails (R154). -/
def State.invalidConfig (s : State) : Option (Nat × Nat) :=
  match s.badGroup with
  | some g => some (3, g.val)
  | none =>
    if 32 < s.quota.control + s.quota.supervisor then some (6, 0)
    else match s.badLine with
      | some l => some (4, l.val)
      | none => none

/-- ENTER_RUN, after the checks of R172 (R153, R154). -/
def enterRunAct (_ : Port) (_ : List Byte) (s : State) : Reply :=
  match s.mode with
  | .setup =>
    (match s.invalidConfig with
     | some (item, index) => { state := s, status := .invalidConfig, payload := byteOf item ++ byteOf index }
     | none => accept { s with mode := .run })
  | .run => refuse .wrongState s
  | .hold => refuse .wrongState s

/-- ENTER_RUN (R154). -/
def execEnterRun (s : State) : Host.Outcome State Fault Refusal := engineStep .enterRun enterRunAct s

/-- The HOLD command, after the checks of R172 (R153, R155). -/
def holdAct (_ : Port) (_ : List Byte) (s : State) : Reply :=
  match s.mode with
  | .run => accept { s with mode := .hold }
  | .setup => refuse .wrongState s
  | .hold => refuse .wrongState s

/-- HOLD (R155). -/
def execHold (s : State) : Host.Outcome State Fault Refusal := engineStep .hold holdAct s

/-- RESUME, after the checks of R172 (R153, R156). -/
def resumeAct (_ : Port) (_ : List Byte) (s : State) : Reply :=
  match s.mode with
  | .hold => accept (State.scan { s with mode := .run })
  | .setup => refuse .wrongState s
  | .run => refuse .wrongState s

/-- RESUME (R156). -/
def execResume (s : State) : Host.Outcome State Fault Refusal := engineStep .resume resumeAct s

/-- The tick's event concerns no slot. -/
def TickEvent.noSlot : TickEvent → Bool
  | .lease _ => false
  | .wait _ => false
  | .phase _ => false
  | .delay _ => false
  | .quiet _ => true
  | .settle _ => true
  | .trip _ _ => true

/-- The Control Port emptied by RESTART: mailbox and response queue, and the response selected for a transaction in
progress, whose remaining bytes go out as 0x00 (R175). -/
def LinkPort.flush (x : LinkPort) : LinkPort :=
  { x with
    mailbox := []
    responses := []
    transaction := x.transaction.map fun t => { t with selected := none } }

/-- The steps of RESTART (R163): every slot FREE with its generation raised, the outputs let go with their groups' quiet
time, the wait queue and the notice sets emptied, the Control Port emptied, mode SETUP and cause RESTART. -/
def State.restart (s : State) : State :=
  let t := s.letGo fun o => (s.channel o).state.isHeld
  { t with
    slots := Vector.ofFn fun i => { generation := (s.slot i).generation + 1, state := .free }
    epoch := s.epoch + 1
    waitQueue := []
    notices :=
      { control := { s.notices.control with entries := [] }
        supervisor := { s.notices.supervisor with entries := [] } }
    ports := { s.ports with control := s.ports.control.flush }
    mode := .setup
    resetCause := .restart
    due := s.due.filter TickEvent.noSlot }

/-- RESTART, after the checks of R172 (R163). -/
def restartAct (_ : Port) (_ : List Byte) (s : State) : Reply :=
  { state := s.restart, status := .ok, payload := byteOf (s.epoch + 1).toNat }

/-- RESTART (R163). -/
def execRestart (s : State) : Host.Outcome State Fault Refusal := engineStep .restart restartAct s

/-- CLEAR_TRIP, after the checks of R172 (R137). -/
def clearTripAct (_ : Port) (params : List Byte) (s : State) : Reply :=
  match lineOf (byteAt params 0) with
  | none => refuse .badParam s
  | some l =>
    let x := s.line l
    if x.enabled = false ∨ x.latched = false then refuse .wrongState s
    else if x.filterLength ≤ x.filterCount then refuse .stillActive s
    else accept (s.setLine l { x with latched := false }).scan

/-- CLEAR_TRIP (R137). -/
def execClearTrip (s : State) : Host.Outcome State Fault Refusal := engineStep .clearTrip clearTripAct s

/-- CLEAR_FAULT, after the checks of R172 (R124). -/
def clearFaultAct (_ : Port) (params : List Byte) (s : State) : Reply :=
  match outputOf (byteAt params 0) with
  | none => refuse .badParam s
  | some o =>
    let c := s.channel o
    if c.state ≠ .faulted then refuse .wrongState s
    else if c.feedback = .on then refuse .stillFaulty s
    else
      accept (s.setChannel o
        { c with state := .idle, expected := .off, supervision := freshSupervision c.settleTime }).scan

/-- CLEAR_FAULT (R124). -/
def execClearFault (s : State) : Host.Outcome State Fault Refusal := engineStep .clearFault clearFaultAct s

end Sys2Proof.Machine
end

