-- ==== Sys2Proof/Machine/Permits.lean ====
section
/-! DEFINITION. The commands on the permit table and on a running permit: RELEASE, RETIRE, QUERY, LIST, REVOKE, PURGE
(R15 to R20), RENEW (R65 to R67) and RESTAGE (R87, R88). -/

namespace Sys2Proof.Machine

/-- RELEASE, after the checks of R172 (R15). -/
def releaseAct (p : Port) (params : List Byte) (s : State) : Reply :=
  let h := handleAt params 0
  withPermit s h (ownerOnly p) fun _ =>
    match (s.slot h.slot).state with
    | .closed _ _ => refuse .wrongState s
    | .waiting _ _ => accept (s.endPermit h.slot none)
    | .armed _ _ => accept (s.endPermit h.slot none)
    | .live _ _ => accept (s.endPermit h.slot none)
    | .free => refuse .stale s

/-- RELEASE (R15). -/
def execRelease (s : State) : Host.Outcome State Fault Refusal := engineStep .release releaseAct s

/-- RETIRE, after the checks of R172 (R16). -/
def retireAct (p : Port) (params : List Byte) (s : State) : Reply :=
  let h := handleAt params 0
  withPermit s h (ownerOrSupervisor p) fun _ =>
    match (s.slot h.slot).state with
    | .closed _ _ => accept (s.enterFree h.slot)
    | .waiting _ _ => refuse .wrongState s
    | .armed _ _ => refuse .wrongState s
    | .live _ _ => refuse .wrongState s
    | .free => refuse .stale s

/-- RETIRE (R16). -/
def execRetire (s : State) : Host.Outcome State Fault Refusal := engineStep .retire retireAct s

/-- QUERY, after the checks of R172 (R17, R184, R185). -/
def queryAct (p : Port) (params : List Byte) (s : State) : Reply :=
  let h := handleAt params 0
  withPermit s h (ownerOrSupervisor p) fun r => { state := s, status := .ok, payload := s.queryRecord h.slot r }

/-- QUERY (R17). -/
def execQuery (s : State) : Host.Outcome State Fault Refusal := engineStep .query queryAct s

/-- The slots of `owner` from a start slot on, listed (R18). -/
def listSlots (owner : Port) (start : Nat) (s : State) : Reply :=
  { state := s, status := .ok, payload := s.listPayload owner start }

/-- LIST from port `p`, its start slot and the port code it names, if it names one (R18). No rule orders the two refusals
of a Control Port LIST that names the Supervisor Port with a start slot above 31 (log entry 5). -/
def listAct (p : Port) (params : List Byte) (s : State) : Reply :=
  let start := byteAt params 0
  match params.tail with
  | [] => if 31 < start then refuse .badParam s else listSlots p start s
  | code :: _ =>
    match portOfCode code.toNat with
    | none => refuse .badParam s
    | some named =>
      if p = .control ∧ named = .supervisor then
        (if 31 < start then
          (if Config.listRefusesPortFirst s.choices then refuse .notPermitted { s with choices := s.choices + 1 }
           else refuse .badParam { s with choices := s.choices + 1 })
         else refuse .notPermitted s)
      else if 31 < start then refuse .badParam s
      else listSlots named start s

/-- LIST (R18). -/
def execList (s : State) : Host.Outcome State Fault Refusal := engineStep .list listAct s

/-- REVOKE, after the checks of R172 (R19). -/
def revokeAct (_ : Port) (params : List Byte) (s : State) : Reply :=
  let h := handleAt params 0
  withPermit s h anyOwner fun _ =>
    match (s.slot h.slot).state with
    | .closed _ _ => refuse .wrongState s
    | .waiting _ _ => accept (s.endPermit h.slot (some .revoked))
    | .armed _ _ => accept (s.endPermit h.slot (some .revoked))
    | .live _ _ => accept (s.endPermit h.slot (some .revoked))
    | .free => refuse .stale s

/-- REVOKE (R19). -/
def execRevoke (s : State) : Host.Outcome State Fault Refusal := engineStep .revoke revokeAct s

/-- Slot `i` is CLOSED and owned by `owner`. -/
def State.closedOf (s : State) (owner : Port) (i : SlotNo) : Bool :=
  match (s.slot i).state with
  | .closed r _ => decide (r.owner = owner)
  | .free => false
  | .waiting _ _ => false
  | .armed _ _ => false
  | .live _ _ => false

/-- Every CLOSED slot of a port enters FREE, in ascending slot order (R20). -/
def State.purgeSlots (owner : Port) (s : State) : State :=
  (allSlots.filter (s.closedOf owner)).foldl (fun t i => t.enterFree i) s

/-- PURGE, after the checks of R172 (R20). -/
def purgeAct (_ : Port) (params : List Byte) (s : State) : Reply :=
  match portOfCode (byteAt params 0) with
  | none => refuse .badParam s
  | some owner =>
    { state := s.purgeSlots owner, status := .ok, payload := byteOf (allSlots.countP (s.closedOf owner)) }

/-- PURGE (R20). -/
def execPurge (s : State) : Host.Outcome State Fault Refusal := engineStep .purge purgeAct s

/-- The renew guard lets a RENEW through: there is none, or no more than it remains on the lease (R65, R67). -/
def guardOpen (guard : Option Nat) (remaining : Nat) : Bool :=
  match guard with
  | some g => decide (remaining ≤ g)
  | none => true

/-- RENEW of a LIVE permit (R65 checks 4 and 5, R66). -/
def renewLive (i : SlotNo) (r : Permit) (run : RunPart) (s : State) : Reply :=
  match run.leaseRemaining with
  | none => refuse .notLeased s
  | some remaining =>
    if guardOpen r.renewGuard remaining then
      { state := s.countSlot i (.live r { run with leaseRemaining := some r.lease })
        status := .ok
        payload := wordOf r.lease }
    else { state := s, status := .tooEarly, payload := wordOf remaining ++ optField r.renewGuard }

/-- RENEW, after the checks of R172 (R65, R66). -/
def renewAct (p : Port) (params : List Byte) (s : State) : Reply :=
  let h := handleAt params 0
  withPermit s h (ownerOnly p) fun _ =>
    match (s.slot h.slot).state with
    | .live r run => renewLive h.slot r run s
    | .closed _ _ => refuse .wrongState s
    | .waiting _ _ => refuse .wrongState s
    | .armed _ _ => refuse .wrongState s
    | .free => refuse .stale s

/-- RENEW (R66). -/
def execRenew (s : State) : Host.Outcome State Fault Refusal := engineStep .renew renewAct s

/-- The pattern runs in cycles: CYCLE or BURST (R87). -/
def Pattern.cycles : Pattern → Bool
  | .steady => false
  | .pulse _ => false
  | .cycle _ _ => true
  | .burst _ _ _ => true

/-- RESTAGE of a LIVE permit (R87 checks 3 and 4, R88). -/
def restageLive (i : SlotNo) (r : Permit) (run : RunPart) (on off : Nat) (s : State) : Reply :=
  if r.pattern.cycles = false ∨ run.phase = .done then refuse .wrongState s
  else if on = 0 ∨ off = 0 then refuse .badParam s
  else
    { state := s.countSlot i (.live r { run with staged := some (on, off) })
      status := if run.staged.isSome then .replaced else .ok
      payload := byteOf (phaseCode run.phase) ++ wordOf (run.phaseRemaining.getD 0)
        ++ byteOf (run.cyclesRemaining.getD 0) }

/-- RESTAGE, after the checks of R172 (R87, R88). -/
def restageAct (p : Port) (params : List Byte) (s : State) : Reply :=
  let h := handleAt params 0
  withPermit s h (ownerOnly p) fun _ =>
    match (s.slot h.slot).state with
    | .live r run => restageLive h.slot r run (wordAt params 2) (wordAt params 4) s
    | .closed _ _ => refuse .wrongState s
    | .waiting _ _ => refuse .wrongState s
    | .armed _ _ => refuse .wrongState s
    | .free => refuse .stale s

/-- RESTAGE (R88). -/
def execRestage (s : State) : Host.Outcome State Fault Refusal := engineStep .restage restageAct s

end Sys2Proof.Machine
end

