-- ==== Sys2Proof/Machine/Power.lean ====
section
/-! DEFINITION. The supply and the reset line: POWER_ON, POWER_LOSS, RSTN_RESET and RESET_RELEASE (R22, R162, R176). -/

namespace Sys2Proof.Machine

/-- POWER_ON: every block takes its power-on state, with epoch 0 (R162, R22). The part works at once if RSTn is
deasserted, and from RESET_RELEASE on if not. -/
def execPowerOn (s : State) : Host.Outcome State Fault Refusal :=
  .next (State.resetBlocks 0 .powerOn { s with powered := true })

/-- POWER_LOSS: every block stands in its reset state until power-on (R162, R176). -/
def execPowerLoss (s : State) : Host.Outcome State Fault Refusal :=
  .next (State.resetBlocks 0 .powerOn { s with powered := false })

/-- RSTN_RESET: a low RSTn of fewer than 4 REFCLK periods is no reset; a reset already taken is one event however long
RSTn is held, and raises the epoch once (R162, R22). Without supply the part has nothing to reset. -/
def execRstnReset (lowPeriods : Nat) (s : State) : Host.Outcome State Fault Refusal :=
  if lowPeriods < 4 then .next s
  else if s.rstnLow then .next s
  else if s.powered then .next (State.resetBlocks (s.epoch + 1) .pin { s with rstnLow := true })
  else .next { s with rstnLow := true }

/-- RESET_RELEASE: RSTn is deasserted, and with the supply at its operating level the part works from then on. A chip
select still asserted has no transaction and stays ignored until it is deasserted (R162, R176). -/
def execResetRelease (s : State) : Host.Outcome State Fault Refusal := .next { s with rstnLow := false }

end Sys2Proof.Machine
end

