-- ==== Sys2Proof/Machine/Ticks.lean ====
section
/-! DEFINITION. The time base and what a tick does (R161): TICK, REFCLK_PERIOD, and the events in which a count ends:
LEASE_EXPIRY, WAIT_TIMEOUT, ON_PHASE_END, CYCLE_BOUNDARY, DELAY_END, QUIET_END, SETTLE_END and FILTERED_ASSERTION.
TICK counts every timer that does not end at this tick, takes the samples, and leaves the events of the timers that do
end due; each is then taken whole by its own row, in whatever order the rows come (log entry 2). -/

namespace Sys2Proof.Machine

/-! ## One tick of one counter -/

/-- A count of ticks falls by one, but for the tick that ends it, which is an event of its own. -/
def countDown (n : Nat) : Nat := if n ≤ 1 then n else n - 1

/-- The countdown of the timers in a slot's part (R35, R61, R78, R103). -/
def SlotState.tick : SlotState → SlotState
  | .free => .free
  | .waiting r w => .waiting r (countDown w)
  | .armed r .awaitingEvent => .armed r .awaitingEvent
  | .armed r (.delaying d) => .armed r (.delaying (countDown d))
  | .live r run =>
    .live r
      { run with
        leaseRemaining := run.leaseRemaining.map countDown
        phaseRemaining := run.phaseRemaining.map countDown }
  | .closed r c => .closed r c

/-- The event due where a count ends at this tick. -/
def dueIf (n : Nat) (e : TickEvent) : List TickEvent := if n ≤ 1 then [e] else []

/-- The events due where an optional count ends at this tick. -/
def dueIfSome (n : Option Nat) (e : TickEvent) : List TickEvent :=
  match n with
  | some k => dueIf k e
  | none => []

/-- The events that a tick leaves due for slot `i`. -/
def SlotState.dueEvents (i : SlotNo) : SlotState → List TickEvent
  | .free => []
  | .waiting _ w => dueIf w (.wait i)
  | .armed _ .awaitingEvent => []
  | .armed _ (.delaying d) => dueIf d (.delay i)
  | .live _ run => dueIfSome run.leaseRemaining (.lease i) ++ dueIfSome run.phaseRemaining (.phase i)
  | .closed _ _ => []

/-- The countdown of a quiet timer (R53). -/
def Group.tick (x : Group) : Group := { x with quietRemaining := countDown x.quietRemaining }

/-- The event that a tick leaves due for group `g`: a running timer that ends (R54). -/
def Group.dueEvents (g : GroupNo) (x : Group) : List TickEvent := if x.quietRemaining = 1 then [.quiet g] else []

/-- The electrical level that bit `k` of a sample stands for. -/
def sampledLevel {w : Nat} (samples : BitVec w) (k : Nat) : Electrical := if samples.getLsbD k then .high else .low

/-- A tick at a channel: the feedback is sampled, a settle time that does not end falls by one, and a mismatch in WATCHING
starts the settle time (R116, R117, R119). DESIGN CHOICE (log entry 25): a settle time that a command starts before the tick
falls by one at it by R117, also where the channel was in WATCHING and the sample would have been a mismatch, for which the
last row of R126 says the full settle time. -/
def Channel.tick (sample : Electrical) (c : Channel) : Channel :=
  let fb := levelOfInput c.polarity sample
  { c with
    feedback := fb
    supervision :=
      match c.supervision with
      | .settling n => .settling (countDown n)
      | .watching => if fb = c.expected then .watching else freshSupervision c.settleTime
      | .unsupervised => .unsupervised
      | .suspended => .suspended }

/-- The event that a tick leaves due for output `o`: a settle time that ends (R118). -/
def Channel.dueEvents (o : OutputNo) (c : Channel) : List TickEvent :=
  match c.supervision with
  | .settling n => dueIf n (.settle o)
  | .unsupervised => []
  | .watching => []
  | .suspended => []

/-- The sample makes a filtered assertion: it is active and the filter count is the filter length less one (R131). -/
def TripLine.asserts (sample : Electrical) (x : TripLine) : Bool :=
  x.enabled && decide (sample = x.activeLevel) && decide (x.filterCount + 1 = x.filterLength)

/-- A sample acts on the filter count of an enabled line; a disabled line is not sampled (R131). -/
def TripLine.takeSample (sample : Electrical) (x : TripLine) : TripLine :=
  if x.enabled then
    (if sample = x.activeLevel then
      (if x.filterCount < x.filterLength then { x with filterCount := x.filterCount + 1 } else x)
    else { x with filterCount := 0 })
  else x

/-- A tick at a trip line, but for the sample that makes a filtered assertion, which is an event of its own. -/
def TripLine.tick (sample : Electrical) (x : TripLine) : TripLine :=
  if x.asserts sample then x else x.takeSample sample

/-- The event that a tick leaves due for line `l`. -/
def TripLine.dueEvents (sample : Electrical) (l : LineNo) (x : TripLine) : List TickEvent :=
  if x.asserts sample then [.trip l sample] else []

/-! ## The whole tick -/

/-- The events that a tick with these samples leaves due. -/
def State.tickEvents (trips : BitVec 4) (s : State) : List TickEvent :=
  allSlots.flatMap (fun i => (s.slot i).state.dueEvents i)
    ++ allGroups.flatMap (fun g => (s.group g).dueEvents g)
    ++ allOutputs.flatMap (fun o => (s.channel o).dueEvents o)
    ++ allLines.flatMap (fun l => (s.line l).dueEvents (sampledLevel trips l.val) l)

/-- One tick reaches every block that counts in ticks (R161). DESIGN CHOICE (log entry 27): every count that does not end at
this tick falls here, before the tick's events. So where a departure, a grant or an entry into WAITING is itself an event of a
tick, that tick has been taken first: the next one is the first of a stopped or counted quiet timer, of the lease, of the ON
phase and of the wait (R35, R53, R61, R77). -/
def State.tickAll (feedback : BitVec 16) (trips : BitVec 4) (s : State) : State :=
  { s with
    dividerCount := 0
    slots := Vector.ofFn fun i => { s.slot i with state := (s.slot i).state.tick }
    groups := Vector.ofFn fun g => (s.group g).tick
    channels := Vector.ofFn fun o => (s.channel o).tick (sampledLevel feedback o.val)
    tripLines := Vector.ofFn fun l => (s.line l).tick (sampledLevel trips l.val)
    due := s.tickEvents trips }

/-! ## The events of a tick -/

/-- The tick at the lease timer of slot `i`: at 0 the permit closes EXPIRED (R61, R62, R69). DESIGN CHOICE (log entry 23): a
lease of 1 that a RENEW sets again before this tick is brought to 0 by it and closes EXPIRED too. -/
def State.leaseTick (i : SlotNo) (s : State) : State :=
  match (s.slot i).state with
  | .live r run =>
    (match run.leaseRemaining with
     | some n =>
       if n ≤ 1 then s.exitLive i (some .expired)
       else s.countSlot i (.live r { run with leaseRemaining := some (n - 1) })
     | none => s)
  | .free => s
  | .waiting _ _ => s
  | .armed _ _ => s
  | .closed _ _ => s

/-- The tick at the wait timer of slot `i`: at 0 the permit closes WAIT_TIMEOUT (R35). -/
def State.waitTick (i : SlotNo) (s : State) : State :=
  match (s.slot i).state with
  | .waiting r w =>
    if w ≤ 1 then s.exitWaiting i (some .waitTimeout) else s.countSlot i (.waiting r (w - 1))
  | .free => s
  | .armed _ _ => s
  | .live _ _ => s
  | .closed _ _ => s

/-- The tick at the delay of slot `j`: at 0 the permit makes its claim test (R103, R104). -/
def State.delayTick (j : SlotNo) (s : State) : State :=
  match (s.slot j).state with
  | .armed r (.delaying d) => if d ≤ 1 then s.endDelay j else s.countSlot j (.armed r (.delaying (d - 1)))
  | .armed _ .awaitingEvent => s
  | .free => s
  | .waiting _ _ => s
  | .live _ _ => s
  | .closed _ _ => s

/-- Slot `i` enters a phase of its pattern, and its outputs take their levels (R78, R80, R83). -/
def State.enterPhase (i : SlotNo) (r : Permit) (run : RunPart) (ph : Phase) (s : State) : State :=
  (s.countSlot i (.live r { run with phase := ph, phaseRemaining := r.pattern.phaseTime ph })).handPhase i ph

/-- A PULSE or BURST permit reaches DONE: it closes COMPLETED, or stays LIVE in DONE with a COMPLETED notice (R84 to
R86). -/
def State.reachDone (i : SlotNo) (r : Permit) (run : RunPart) (s : State) : State :=
  if r.closeOnCompletion then s.exitLive i (some .completed)
  else (s.enterPhase i r { run with staged := none } .done).post r.owner (.completed (s.handle i))

/-- A pattern with a staged pair applied (R82). -/
def Pattern.withPair (on off : Nat) : Pattern → Pattern
  | .steady => .steady
  | .pulse n => .pulse n
  | .cycle _ _ => .cycle on off
  | .burst _ _ count => .burst on off count

/-- A new cycle begins: a staged pair is applied, and the permit enters ON (steps 2 and 3 of R82). -/
def State.newCycle (i : SlotNo) (r : Permit) (run : RunPart) (s : State) : State :=
  match run.staged with
  | some pair =>
    s.enterPhase i { r with pattern := r.pattern.withPair pair.1 pair.2 } { run with staged := none } .on
  | none => s.enterPhase i r run .on

/-- The cycle boundary of slot `i`: a BURST's cycles remaining falls by one and may bring it to DONE (R82). -/
def State.boundary (i : SlotNo) (r : Permit) (run : RunPart) (s : State) : State :=
  match run.cyclesRemaining with
  | some n =>
    if n ≤ 1 then s.reachDone i r { run with cyclesRemaining := some 0 }
    else s.newCycle i r { run with cyclesRemaining := some (n - 1) }
  | none => s.newCycle i r run

/-- The end of an ON phase: a PULSE reaches DONE, a CYCLE or BURST enters OFF (R79, R80). -/
def State.endOn (i : SlotNo) (r : Permit) (run : RunPart) (s : State) : State :=
  match r.pattern with
  | .steady => s
  | .pulse _ => s.reachDone i r run
  | .cycle _ _ => s.enterPhase i r run .off
  | .burst _ _ _ => s.enterPhase i r run .off

/-- The tick at the pattern generator of slot `i` (R78). -/
def State.phaseTick (i : SlotNo) (s : State) : State :=
  match (s.slot i).state with
  | .live r run =>
    (match run.phaseRemaining with
     | some n =>
       if n ≤ 1 then
         (match run.phase with
          | .on => s.endOn i r run
          | .off => s.boundary i r run
          | .done => s)
       else s.countSlot i (.live r { run with phaseRemaining := some (n - 1) })
     | none => s)
  | .free => s
  | .waiting _ _ => s
  | .armed _ _ => s
  | .closed _ _ => s

/-- The tick at the quiet timer of group `g`: at 0 it stops and a scan follows (R53, R54). -/
def State.quietTick (g : GroupNo) (s : State) : State :=
  if (s.group g).quietRemaining ≤ 1 then (s.setGroup g { s.group g with quietRemaining := 0 }).scan
  else s.setGroup g { s.group g with quietRemaining := (s.group g).quietRemaining - 1 }

/-- Output `o` is declared FAULTED: driven OFF and SUSPENDED, FAULT notices to both ports, and a holder closed FAULT
(R121, R122). -/
def State.declareFault (o : OutputNo) (s : State) : State :=
  let c := s.channel o
  let t := ((s.setChannel o c.fail).startQuiet fun x => decide (x = o) && c.state.isHeld).postBoth (.fault o)
  match c.state with
  | .held i _ => t.exitLive i (some (.fault o))
  | .idle => t
  | .faulted => t

/-- The tick at the settle timer of output `o`: at 0 the comparison (R117, R118). DESIGN CHOICE (log entry 24): a settle time
of 1 that a command starts before this tick ends at it, and the comparison is made. -/
def State.settleTick (o : OutputNo) (s : State) : State :=
  match (s.channel o).supervision with
  | .settling n =>
    if n ≤ 1 then
      (if (s.channel o).feedback = (s.channel o).expected then
        s.setChannel o { s.channel o with supervision := .watching }
      else s.declareFault o)
    else s.setChannel o { s.channel o with supervision := .settling (n - 1) }
  | .unsupervised => s
  | .watching => s
  | .suspended => s

/-- Slot `i` holds an output of the map. -/
def State.holdsMapped (s : State) (i : SlotNo) (map : OutputSet) : Bool :=
  allOutputs.any fun o => inSet map o && s.holds i o

/-- A filtered assertion of line `l`: the latch, the closures in ascending slot order, the TRIP notices (R132, R133). -/
def State.assertTrip (l : LineNo) (s : State) : State :=
  let latched := s.setLine l { s.line l with latched := true }
  let closed := allSlots.foldl (init := latched) fun t i =>
    if t.holdsMapped i (t.line l).map then t.exitLive i (some (.tripped l)) else t
  closed.postBoth (.trip l)

/-- A sample at the filter of line `l`, with the filtered assertion it may make (R131, R132). -/
def State.tripTick (l : LineNo) (sample : Electrical) (s : State) : State :=
  let t := s.setLine l ((s.line l).takeSample sample)
  if (s.line l).asserts sample then t.assertTrip l else t

/-- The work of one event of a tick. -/
def State.tickWork (e : TickEvent) (s : State) : State :=
  match e with
  | .lease i => s.leaseTick i
  | .wait i => s.waitTick i
  | .phase i => s.phaseTick i
  | .delay i => s.delayTick i
  | .quiet g => s.quietTick g
  | .settle o => s.settleTick o
  | .trip l sample => s.tripTick l sample

/-- A settle end still due is withdrawn where an event of the same tick has changed the output's level: the settle time
has started again, and its first tick is the next one (R117, R122, R126). The level has changed, twice, also where the
event let go of an output at ON level and the scan granted it again at ON level, to another slot. After a command that changed
the level the tick's settle end stays due, as the first tick of the new settle time (log entry 24). -/
def stillDue (before after : State) (e : TickEvent) : Bool :=
  match e with
  | .settle o =>
    decide ((before.channel o).expected = (after.channel o).expected ∧
      ((before.channel o).expected = .off ∨ (before.channel o).state = (after.channel o).state))
  | .lease _ => true
  | .wait _ => true
  | .phase _ => true
  | .delay _ => true
  | .quiet _ => true
  | .trip _ _ => true

/-- An event of the last tick is taken, whole, if it is due (R21, R161). -/
def State.takeEvent (e : TickEvent) (s : State) : State :=
  if e ∈ s.due then
    let t := State.tickWork e { s with due := s.due.erase e }
    { t with due := t.due.filter (stillDue s t) }
  else s

/-- The events of the last tick that are still due are taken, in an order that is a free choice (log entry 4). The first
argument bounds their number. -/
def finishTick : Nat → State → State
  | 0, s => s
  | n + 1, s =>
    match s.due with
    | [] => s
    | [e] => finishTick n (s.takeEvent e)
    | e :: _ :: _ =>
      finishTick n
        (State.takeEvent (s.due.getD (Config.tickOrder s.choices % s.due.length) e) { s with choices := s.choices + 1 })

/-- The part with no event of the last tick left due. -/
def State.tickFinished (s : State) : State := finishTick s.due.length s

/-- TICK: the period of REFCLK in which the divider count would reach TICK_DIVIDER. The count returns to 0, and the tick
reaches every counting block (R161). No tick occurs in reset (R162). -/
def execTick (feedback : BitVec 16) (trips : BitVec 4) (s : State) : Host.Outcome State Fault Refusal :=
  if s.working = true ∧ s.tickDivider ≤ s.dividerCount + 1 then .next (s.tickFinished.tickAll feedback trips) else .next s

/-- REFCLK_PERIOD: the divider count rises by one without reaching TICK_DIVIDER (R161). -/
def execRefclkPeriod (s : State) : Host.Outcome State Fault Refusal :=
  if s.working = true ∧ s.dividerCount + 1 < s.tickDivider then
    .next { s.tickFinished with dividerCount := s.dividerCount + 1 }
  else .next s

/-- LEASE_EXPIRY (R62). -/
def execLeaseExpiry (i : SlotNo) (s : State) : Host.Outcome State Fault Refusal := .next (s.takeEvent (.lease i))

/-- WAIT_TIMEOUT (R35). -/
def execWaitTimeout (i : SlotNo) (s : State) : Host.Outcome State Fault Refusal := .next (s.takeEvent (.wait i))

/-- The permit in the slot is LIVE in this phase. -/
def SlotState.inPhase (ph : Phase) : SlotState → Bool
  | .live _ run => decide (run.phase = ph)
  | .free => false
  | .waiting _ _ => false
  | .armed _ _ => false
  | .closed _ _ => false

/-- ON_PHASE_END (R78): the phase end of a permit in ON. -/
def execOnPhaseEnd (i : SlotNo) (s : State) : Host.Outcome State Fault Refusal :=
  if (s.slot i).state.inPhase .on then .next (s.takeEvent (.phase i)) else .next s

/-- CYCLE_BOUNDARY (R82): the phase end of a permit in OFF. -/
def execCycleBoundary (i : SlotNo) (s : State) : Host.Outcome State Fault Refusal :=
  if (s.slot i).state.inPhase .off then .next (s.takeEvent (.phase i)) else .next s

/-- DELAY_END (R104). -/
def execDelayEnd (i : SlotNo) (s : State) : Host.Outcome State Fault Refusal := .next (s.takeEvent (.delay i))

/-- QUIET_END (R54). -/
def execQuietEnd (g : GroupNo) (s : State) : Host.Outcome State Fault Refusal := .next (s.takeEvent (.quiet g))

/-- SETTLE_END (R118). -/
def execSettleEnd (o : OutputNo) (s : State) : Host.Outcome State Fault Refusal := .next (s.takeEvent (.settle o))

/-- FILTERED_ASSERTION (R132): whichever level the due sample of the line has. -/
def execFilteredAssertion (l : LineNo) (s : State) : Host.Outcome State Fault Refusal :=
  .next (State.takeEvent (.trip l .high) (s.takeEvent (.trip l .low)))

end Sys2Proof.Machine
end

