-- ==== Sys2Proof/Machine/Dispatch.lean ====
section
/-! DEFINITION. The meaning of every command: one arm for each constructor, in the order of the opcode table. -/

namespace Sys2Proof.Machine

/-- The command's effect on everything but the queue of waiting commands. -/
def exec (i : Instr) (s : State) : Host.Outcome State Fault Refusal :=
  match i with
  | .powerOn => Sys2Proof.Machine.execPowerOn s
  | .rstnReset lowPeriods => Sys2Proof.Machine.execRstnReset lowPeriods s
  | .resetRelease => Sys2Proof.Machine.execResetRelease s
  | .transactionStart p => Sys2Proof.Machine.execTransactionStart p s
  | .transactionEnd p => Sys2Proof.Machine.execTransactionEnd p s
  | .unknownCommand => Sys2Proof.Machine.execUnknownCommand s
  | .nop => Sys2Proof.Machine.execNop s
  | .claim => Sys2Proof.Machine.execClaim s
  | .release => Sys2Proof.Machine.execRelease s
  | .retire => Sys2Proof.Machine.execRetire s
  | .query => Sys2Proof.Machine.execQuery s
  | .list => Sys2Proof.Machine.execList s
  | .revoke => Sys2Proof.Machine.execRevoke s
  | .purge => Sys2Proof.Machine.execPurge s
  | .renew => Sys2Proof.Machine.execRenew s
  | .restage => Sys2Proof.Machine.execRestage s
  | .find => Sys2Proof.Machine.execFind s
  | .readNotice => Sys2Proof.Machine.execReadNotice s
  | .deviceStatus => Sys2Proof.Machine.execDeviceStatus s
  | .configureTickDivider => Sys2Proof.Machine.execConfigureTickDivider s
  | .configureOutput => Sys2Proof.Machine.execConfigureOutput s
  | .configureGroup => Sys2Proof.Machine.execConfigureGroup s
  | .configureTrip => Sys2Proof.Machine.execConfigureTrip s
  | .configureReserved => Sys2Proof.Machine.execConfigureReserved s
  | .configureQuota => Sys2Proof.Machine.execConfigureQuota s
  | .configureNoticeMask => Sys2Proof.Machine.execConfigureNoticeMask s
  | .configureNoticePromote => Sys2Proof.Machine.execConfigureNoticePromote s
  | .readConfig => Sys2Proof.Machine.execReadConfig s
  | .enterRun => Sys2Proof.Machine.execEnterRun s
  | .hold => Sys2Proof.Machine.execHold s
  | .resume => Sys2Proof.Machine.execResume s
  | .restart => Sys2Proof.Machine.execRestart s
  | .clearTrip => Sys2Proof.Machine.execClearTrip s
  | .clearFault => Sys2Proof.Machine.execClearFault s
  | .tick feedback trips => Sys2Proof.Machine.execTick feedback trips s
  | .leaseExpiry k => Sys2Proof.Machine.execLeaseExpiry k s
  | .waitTimeout k => Sys2Proof.Machine.execWaitTimeout k s
  | .onPhaseEnd k => Sys2Proof.Machine.execOnPhaseEnd k s
  | .cycleBoundary k => Sys2Proof.Machine.execCycleBoundary k s
  | .delayEnd k => Sys2Proof.Machine.execDelayEnd k s
  | .quietEnd g => Sys2Proof.Machine.execQuietEnd g s
  | .settleEnd o => Sys2Proof.Machine.execSettleEnd o s
  | .filteredAssertion l => Sys2Proof.Machine.execFilteredAssertion l s
  | .powerLoss => Sys2Proof.Machine.execPowerLoss s
  | .completeByteShifted p data => Sys2Proof.Machine.execCompleteByteShifted p data s
  | .refclkPeriod => Sys2Proof.Machine.execRefclkPeriod s
  | .configureUnknownItem => Sys2Proof.Machine.execConfigureUnknownItem s

end Sys2Proof.Machine
end

