-- ==== Sys2Proof/Safety.lean ====
section
/-! DEFINITION. The device's laws as predicates of the state, and the terms in which the statements speak of a command
that the engine answers and of what an event leaves as it was. -/

namespace Sys2Proof.Machine

/-! ## The states of a slot -/

/-- The slot is WAITING. -/
def SlotState.isWaiting : SlotState → Bool
  | .waiting _ _ => true
  | .free => false
  | .armed _ _ => false
  | .live _ _ => false
  | .closed _ _ => false

/-- The slot is in a state that no scan and no chain event acts on: neither WAITING nor ARMED. -/
def SlotState.settled : SlotState → Bool
  | .waiting _ _ => false
  | .armed _ _ => false
  | .free => true
  | .live _ _ => true
  | .closed _ _ => true

/-- The slot holds a LIVE permit whose output list has output `o` with this invert flag. -/
def SlotState.drives (o : OutputNo) (invert : Bool) : SlotState → Bool
  | .live r _ => r.outputs.contains { output := o, invert := invert }
  | .free => false
  | .waiting _ _ => false
  | .armed _ _ => false
  | .closed _ _ => false

/-- The handle that a permit notice names. -/
def Notice.permit : Notice → Option Handle
  | .trip _ => none
  | .fault _ => none
  | .closed h => some h
  | .granted h => some h
  | .completed h => some h

/-! ## The laws of the device -/

/-- The law on port queues (R170). -/
def State.portsLaw (s : State) : Prop :=
  ∀ p : Port, (s.ports.get p).mailbox.length ≤ 4 ∧ (s.ports.get p).responses.length ≤ 4

/-- The law on quotas (R9). -/
def State.quotaLaw (s : State) : Prop :=
  s.quota.control + s.quota.supervisor ≤ 32 ∧ ∀ p : Port, s.usedCount p ≤ s.quota.get p

/-- The law on the queue, but for its order: the wait queue holds each WAITING slot exactly once and no other slot
(R34). -/
def State.queueLaw (s : State) : Prop :=
  s.waitQueue.Nodup ∧ ∀ i : SlotNo, i ∈ s.waitQueue ↔ (s.slot i).state.isWaiting = true

/-- The law on holding: an output is held by slot `i`, with an invert flag, exactly where slot `i` is LIVE and lists the
output with that flag (R10, R30, R112); and no output list names an output twice (R2). -/
def State.holdingLaw (s : State) : Prop :=
  (∀ (o : OutputNo) (i : SlotNo) (b : Bool),
      (s.channel o).state = .held i b ↔ (s.slot i).state.drives o b = true)
    ∧ ∀ i : SlotNo, (s.outputsOf i).Nodup

/-- The level that R113 gives output `o`: OFF for an output that is not HELD, and the level of the holder's phase under
the invert flag in force for one that is. -/
def State.ruledLevel (s : State) (o : OutputNo) : Level :=
  match (s.channel o).state with
  | .idle => .off
  | .faulted => .off
  | .held i b =>
    match (s.slot i).state with
    | .live _ run => driveLevel run.phase b
    | .free => .off
    | .waiting _ _ => .off
    | .armed _ _ => .off
    | .closed _ _ => .off

/-- Every output is driven at the level that R113 gives it. -/
def State.driveLaw (s : State) : Prop := ∀ o : OutputNo, (s.channel o).expected = s.ruledLevel o

/-- The law on SETUP: there, every slot is FREE and no output is held; and in every mode an output that is not held is at
its OFF level (R152, R113). -/
def State.setupLaw (s : State) : Prop :=
  (∀ o : OutputNo, (s.channel o).state.isHeld = false → (s.channel o).expected = .off)
    ∧ (s.mode = .setup →
        (∀ i : SlotNo, (s.slot i).state = .free) ∧ ∀ o : OutputNo, (s.channel o).state.isHeld = false)

/-- The laws on mutual exclusion and on quiet time: no two members of one group are held together, no member of a group
is held while its quiet timer runs, and no permit lists two members of one group (R49, R50, R51). -/
def State.exclusionLaw (s : State) : Prop :=
  (∀ (g : GroupNo) (o o' : OutputNo), inSet (s.group g).members o = true → inSet (s.group g).members o' = true →
      (s.channel o).state.isHeld = true → (s.channel o').state.isHeld = true → o = o')
    ∧ (∀ (g : GroupNo) (o : OutputNo), inSet (s.group g).members o = true → (s.channel o).state.isHeld = true →
        (s.group g).quietRemaining = 0)
    ∧ ∀ i : SlotNo, s.selfConflict (s.outputsOf i) = false

/-- The trip half of the law on forced-off outputs: an output in the map of an enabled line whose latch is set is not held
(R113, R134). -/
def State.tripLaw (s : State) : Prop := ∀ o : OutputNo, s.underTrip o = true → (s.channel o).state.isHeld = false

/-- The lease remaining and the wait remaining of a slot stand in their ranges: a LIVE permit has a lease remaining from 1
to its lease, or none and a lease of 0; a WAITING permit has a wait remaining from 1 to its wait limit (R3, R59, R66). -/
def SlotState.timersWithin : SlotState → Prop
  | .live r run =>
    match run.leaseRemaining with
    | none => r.lease = 0
    | some n => 1 ≤ n ∧ n ≤ r.lease
  | .waiting r w => 1 ≤ w ∧ w ≤ r.waitLimit
  | .free => True
  | .armed _ _ => True
  | .closed _ _ => True

/-- The law on leases (R66), with the range of the wait remaining (R3). -/
def State.leaseLaw (s : State) : Prop := ∀ i : SlotNo, (s.slot i).state.timersWithin

/-- The two laws on notices: a set is in the order of R145 and holds one entry for each kind and subject, with a count
from 1 to 15 and a kind in the mask (R141, R142); and every permit entry names a slot of the port that is not FREE, by its
current handle (R143). -/
def State.noticeLaw (s : State) : Prop :=
  ∀ p : Port,
    (s.notices.get p).entries.Pairwise (fun a b => a.notice.place < b.notice.place)
      ∧ ((s.notices.get p).entries.map NoticeEntry.notice).Nodup
      ∧ (∀ e ∈ (s.notices.get p).entries,
          1 ≤ e.count ∧ e.count ≤ 15 ∧ maskHas (s.notices.get p).mask e.notice.kind = true)
      ∧ ∀ e ∈ (s.notices.get p).entries, ∀ h ∈ e.notice.permit,
          s.handle h.slot = h ∧ (s.slot h.slot).state.ownedBy p = true

/-- A permit with record `q` can be the anchor that a permit with record `r` awaits (R99). -/
def Permit.anchors (q r : Permit) : Prop := q.owner = r.owner ∧ r.chainDepth = q.chainDepth + 1

/-- Slot `j`, if its permit awaits an event, has the anchor that the law on chains gives it (R99). -/
def State.anchorStands (s : State) (j : SlotNo) : Prop :=
  match (s.slot j).state with
  | .armed r .awaitingEvent =>
    (match r.anchor with
     | none => False
     | some a =>
       s.handle a.handle.slot = a.handle
         ∧ (match (s.slot a.handle.slot).state with
            | .waiting q _ => q.anchors r
            | .armed q _ => q.anchors r
            | .live q _ => q.anchors r ∧ a.event = .ending
            | .free => False
            | .closed _ _ => False))
  | .armed _ (.delaying _) => True
  | .free => True
  | .waiting _ _ => True
  | .live _ _ => True
  | .closed _ _ => True

/-- The law on chains (R99). -/
def State.chainLaw (s : State) : Prop :=
  (∀ i : SlotNo, ∀ r ∈ (s.slot i).state.record, 1 ≤ r.chainDepth ∧ r.chainDepth ≤ 4)
    ∧ ∀ j : SlotNo, s.anchorStands j

/-- The supervision phase of a channel agrees with its state and settle time (R112, R117). -/
def Channel.supervised (c : Channel) : Prop :=
  c.settleTime ≤ 255
    ∧ match c.supervision with
      | .unsupervised => c.state ≠ .faulted ∧ c.settleTime = 0
      | .settling n => c.state ≠ .faulted ∧ 1 ≤ n ∧ n ≤ c.settleTime
      | .watching => c.state ≠ .faulted ∧ 0 < c.settleTime
      | .suspended => c.state = .faulted

/-- The filter count and latch of a trip line stand in their ranges; a disabled line has a count of 0 and a clear latch
(R129). -/
def TripLine.filtered (x : TripLine) : Prop :=
  1 ≤ x.filterLength ∧ x.filterLength ≤ 15 ∧ x.filterCount ≤ x.filterLength
    ∧ (x.enabled = false → x.filterCount = 0 ∧ x.latched = false)

/-- The ranges of the blocks' own state: time base, groups, channels and trip lines (R46, R112, R129, R161). -/
def State.rangesLaw (s : State) : Prop :=
  10 ≤ s.tickDivider ∧ s.tickDivider ≤ 65535 ∧ s.dividerCount < s.tickDivider
    ∧ (∀ g : GroupNo, (s.group g).deadTime ≤ 4095 ∧ (s.group g).quietRemaining ≤ 4095)
    ∧ (∀ o : OutputNo, (s.channel o).supervised)
    ∧ ∀ l : LineNo, (s.line l).filtered

/-! ## Commands that the engine answers -/

/-- The row of the opcode table that carries out a command. -/
def Command.row : Command → Instr
  | .unknown => .unknownCommand
  | .nop => .nop
  | .claim => .claim
  | .release => .release
  | .retire => .retire
  | .renew => .renew
  | .restage => .restage
  | .query => .query
  | .list => .list
  | .find => .find
  | .readNotice => .readNotice
  | .deviceStatus => .deviceStatus
  | .revoke => .revoke
  | .purge => .purge
  | .configureTickDivider => .configureTickDivider
  | .configureOutput => .configureOutput
  | .configureGroup => .configureGroup
  | .configureTrip => .configureTrip
  | .configureReserved => .configureReserved
  | .configureQuota => .configureQuota
  | .configureNoticeMask => .configureNoticeMask
  | .configureNoticePromote => .configureNoticePromote
  | .configureUnknownItem => .configureUnknownItem
  | .readConfig => .readConfig
  | .enterRun => .enterRun
  | .hold => .hold
  | .resume => .resume
  | .restart => .restart
  | .clearTrip => .clearTrip
  | .clearFault => .clearFault

/-- The engine takes request `r` of port `p` now (R171), and it is a command of kind `c` that passes the three checks made
on every request (R172). -/
def State.carries (s : State) (p : Port) (r : Request) (c : Command) : Prop :=
  s.nextRequest = some (p, r) ∧ commandOf r = c ∧ c ≠ .unknown ∧ permitted c p = true ∧ lengthOk c r.params = true

/-- What the ports show of a command answered: port `p`'s oldest request is gone, the response stands at the tail of its
response queue, the other port is as it was, and `p` is the port served last (R171, R172). -/
def State.answered (s t : State) (p : Port) (r : Request) (status : Status) (payload : List Byte) : Prop :=
  t.ports.get p =
      { s.ports.get p with
        mailbox := (s.ports.get p).mailbox.tail
        responses := (s.ports.get p).responses ++ [{ tag := r.tag, status := status, payload := payload }] }
    ∧ t.ports.get (otherPort p) = s.ports.get (otherPort p)
    ∧ t.lastServed = p

/-- A command row refuses or reports: it is answered, and nothing but the ports has changed. -/
def State.onlyAnswers (s : State) (c : Command) (p : Port) (r : Request) (status : Status) (payload : List Byte) : Prop :=
  ∃ t : State, exec c.row s = .next t ∧ s.answered t p r status payload
    ∧ t = { s with ports := t.ports, lastServed := t.lastServed }

/-! ## Levels -/

/-- The channel in another state with a level handed to it: a level equal to the expected one is no change; a change sets
SETTLING, from SETTLING or WATCHING, with the settle remaining at the settle time, and starts nothing in UNSUPERVISED or
SUSPENDED (R113, R115, R117). -/
def Channel.driven (c : Channel) (st : ChannelState) (lvl : Level) : Channel :=
  { state := st
    polarity := c.polarity
    settleTime := c.settleTime
    expected := lvl
    feedback := c.feedback
    supervision :=
      if c.expected = lvl then c.supervision
      else
        match c.supervision with
        | .unsupervised => .unsupervised
        | .settling _ => if c.settleTime = 0 then .unsupervised else .settling c.settleTime
        | .watching => if c.settleTime = 0 then .unsupervised else .settling c.settleTime
        | .suspended => .suspended }

/-- The level of an output in the ON phase, OFF for an inverted entry (R76). -/
def onLevel (invert : Bool) : Level := if invert then .off else .on

/-- A channel that has been declared FAULTED (R121). -/
def Channel.faulted (c : Channel) : Channel :=
  { state := .faulted
    polarity := c.polarity
    settleTime := c.settleTime
    expected := .off
    feedback := c.feedback
    supervision := .suspended }

/-! ## What events leave as it was -/

/-- Every slot but `i` keeps its generation and its owner, and one that is neither WAITING nor ARMED is as it was. -/
def State.othersKept (s t : State) (i : SlotNo) : Prop :=
  ∀ j : SlotNo, j ≠ i →
    (t.slot j).generation = (s.slot j).generation
      ∧ (∀ q : Port, (t.slot j).state.ownedBy q = (s.slot j).state.ownedBy q)
      ∧ ((s.slot j).state.settled = true → t.slot j = s.slot j)

/-- Output `o` is as channel `c` says, or, if `c` is IDLE, a permit that was WAITING or ARMED has been granted it: then the
channel is HELD by that permit's slot under the flag of its entry, and the ON-phase level has been handed to it (R115). -/
def State.keptOrGranted (s t : State) (o : OutputNo) (c : Channel) : Prop :=
  t.channel o = c
    ∨ c.state = .idle ∧ ∃ (j : SlotNo) (r : Permit) (e : OutputEntry),
        (s.slot j).state.settled = false ∧ (s.slot j).state.record = some r ∧ (t.slot j).state = .live r (newRun r)
          ∧ e ∈ r.outputs ∧ e.output = o ∧ t.channel o = c.driven (.held j e.invert) (onLevel e.invert)

/-- The channels after the outputs in `left` have left HELD, with the grants that followed: an output that has left is IDLE
with the OFF level handed to it, any other is as it was, and a grant may have taken one that is IDLE then. -/
def State.channelsKept (s t : State) (left : OutputNo → Bool) : Prop :=
  ∀ o : OutputNo, s.keptOrGranted t o (if left o then (s.channel o).driven .idle .off else s.channel o)

/-- The groups after the outputs in `left` have left HELD (R52). -/
def State.groupsQuieted (s t : State) (left : OutputNo → Bool) : Prop :=
  ∀ g : GroupNo,
    t.group g =
      if (∃ o : OutputNo, left o = true ∧ inSet (s.group g).members o = true)
          ∧ (s.group g).quietRemaining < (s.group g).deadTime
      then { s.group g with quietRemaining := (s.group g).deadTime }
      else s.group g

/-- Every field outside the permit table, the wait queue, the channels, the groups, the notice sets and the ports is as it
was: mode, epoch, reset cause, time base, trip lines, RESERVED, quotas, notice masks and promotions, supply and reset line,
and the waiting commands. -/
def State.settingsKept (s t : State) : Prop :=
  t = { s with
      slots := t.slots
      waitQueue := t.waitQueue
      channels := t.channels
      groups := t.groups
      notices := t.notices
      ports := t.ports
      lastServed := t.lastServed
      due := t.due
      choices := t.choices }
    ∧ ∀ p : Port, (t.notices.get p).mask = (s.notices.get p).mask
        ∧ (t.notices.get p).promoted = (s.notices.get p).promoted

/-- The link ports are as they were: an event that is no command leaves them alone. -/
def State.portsKept (s t : State) : Prop := t.ports = s.ports ∧ t.lastServed = s.lastServed

/-- The port's set holds this notice, if the port's mask collects its kind (R142). -/
def State.noticed (t : State) (p : Port) (n : Notice) : Prop :=
  maskHas (t.notices.get p).mask n.kind = true → ∃ e ∈ (t.notices.get p).entries, e.notice = n

/-! ## What posts do to the notice sets -/

/-- Each port's set is in the order of R145, which is the model's own way to store it (log entry 16); the laws on notices
have it. -/
def State.noticesOrdered (s : State) : Prop :=
  ∀ p : Port, (s.notices.get p).entries.Pairwise (fun a b => a.notice.place < b.notice.place)

/-- Port `p`'s entry for notice `n`, if it has one, is as it was, repeat count and all, and none is new. -/
def State.entryKept (s t : State) (p : Port) (n : Notice) : Prop :=
  ∀ e : NoticeEntry, e.notice = n → (e ∈ (t.notices.get p).entries ↔ e ∈ (s.notices.get p).entries)

/-- Notice `n` has been posted to port `p` once: a masked kind leaves no trace; without a standing entry there is one with a
repeat count of 1; and a standing entry's count has risen by one, stopping at 15 (R142). -/
def State.postedOnce (s t : State) (p : Port) (n : Notice) : Prop :=
  (maskHas (s.notices.get p).mask n.kind = false → s.entryKept t p n)
    ∧ (maskHas (s.notices.get p).mask n.kind = true →
        ((∀ e ∈ (s.notices.get p).entries, e.notice ≠ n) →
            ∀ e : NoticeEntry, e.notice = n → (e ∈ (t.notices.get p).entries ↔ e.count = 1))
          ∧ ∀ c : Nat, { notice := n, count := c } ∈ (s.notices.get p).entries → c ≤ 15 →
              ∀ e : NoticeEntry, e.notice = n →
                (e ∈ (t.notices.get p).entries ↔ e.count = if c = 15 then 15 else c + 1))

/-- From `s` to `t` each notice in `posted` has been posted once to its port, no entry is left of those in `dropped`, and
every other entry of either port is as it was, repeat count and all; the order in which the sets are stored is the model's own
(log entry 16). -/
def State.noticesAfter (s t : State) (posted dropped : Port → Notice → Prop) : Prop :=
  s.noticesOrdered → t.noticesOrdered ∧ ∀ (p : Port) (n : Notice),
    (posted p n → s.postedOnce t p n)
      ∧ (dropped p n → ∀ e ∈ (t.notices.get p).entries, e.notice ≠ n)
      ∧ (¬ posted p n → ¬ dropped p n → s.entryKept t p n)

/-- What the changes of the slots from `s` to `t` post: GRANTED to the owner of each permit that has entered LIVE, and
CLOSED to the owner of each that has entered CLOSED (R12, R38, R104). -/
def State.slotsPost (s t : State) (p : Port) (n : Notice) : Prop :=
  ∃ (j : SlotNo) (r : Permit), p = r.owner
    ∧ ((∃ run : RunPart, (s.slot j).state.isLive = false ∧ (t.slot j).state = .live r run ∧ n = .granted (s.handle j))
      ∨ ∃ c : Closure, (∀ (q : Permit) (c' : Closure), (s.slot j).state ≠ .closed q c')
          ∧ (t.slot j).state = .closed r c ∧ n = .closed (s.handle j))

/-- What the changes of the slots from `s` to `t` drop: the permit notices of each slot that has entered FREE, from its
owner's set (R14). -/
def State.slotsDrop (s t : State) (p : Port) (n : Notice) : Prop :=
  ∃ j : SlotNo, (s.slot j).state.ownedBy p = true ∧ (t.slot j).state = .free ∧ n.slot = some j

/-- The notice sets follow the slots: each permit that has entered LIVE or CLOSED has its one post, the entries of each slot
that has entered FREE are gone, each notice of `both` has been posted to both ports, and every other entry is as it was,
repeat count and all (R12, R14, R38, R141, R142). -/
def State.noticesFollow (s t : State) (both : Notice → Prop) : Prop :=
  s.noticesAfter t (fun p n => both n ∨ s.slotsPost t p n) (s.slotsDrop t)

/-! ## What a command and an event of a tick leave due -/

/-- The part of a slot's record, numbered in the order in which a permit can come to it (R3, R96). -/
def SlotState.partNumber : SlotState → Nat
  | .armed _ .awaitingEvent => 0
  | .armed _ (.delaying _) => 1
  | .waiting _ _ => 2
  | .live _ _ => 3
  | .closed _ _ => 4
  | .free => 5

/-- The part that an event of a tick acts on has not been dropped from `s` to `t`; an event of no slot has no such part (R21). -/
def State.partStands (s t : State) : TickEvent → Prop
  | .lease j => (t.slot j).state.partNumber = (s.slot j).state.partNumber
  | .wait j => (t.slot j).state.partNumber = (s.slot j).state.partNumber
  | .phase j => (t.slot j).state.partNumber = (s.slot j).state.partNumber
  | .delay j => (t.slot j).state.partNumber = (s.slot j).state.partNumber
  | .quiet _ => True
  | .settle _ => True
  | .trip _ _ => True

/-- What is due after a command: of the events of the last tick that were due before it, those of a slot whose part has not been
dropped, and every quiet end, settle end and filtered assertion; a settle end stays due although the command has changed the
level, as the first tick of the new settle time (R21, R117). That events are due between a TICK row and their own rows is the
model's own way (log entries 2 and 24). -/
def State.keepsDue (s t : State) : Prop := ∀ x : TickEvent, x ∈ t.due ↔ x ∈ s.due ∧ s.partStands t x

/-- What is due after event `e` of a tick has been taken: of the other events due, those of a slot whose part has not been
dropped, every quiet end and filtered assertion, and each settle end of an output whose level the event has not changed; a
level has changed, twice, also where an output at ON level was let go and granted at ON level again (R21, R117, R122,
R126). -/
def State.leavesDue (s t : State) (e : TickEvent) : Prop :=
  ∀ x : TickEvent, x ∈ t.due ↔ x ∈ s.due.erase e ∧ s.partStands t x
    ∧ ∀ o : OutputNo, x = .settle o → (t.channel o).expected = (s.channel o).expected
        ∧ ((s.channel o).expected = .on → (t.channel o).state = (s.channel o).state)

/-- No slot has changed but by grants and chain events, no output has left HELD, and the groups are as they were: what a
scan that follows no departure can do (R36, R38). -/
def State.onlyGranted (s t : State) : Prop :=
  (∀ j : SlotNo,
      (t.slot j).generation = (s.slot j).generation
        ∧ (∀ q : Port, (t.slot j).state.ownedBy q = (s.slot j).state.ownedBy q)
        ∧ ((s.slot j).state.settled = true → t.slot j = s.slot j))
    ∧ s.channelsKept t (fun _ => false)

/-! ## Chain events -/

/-- Slot `j` holds, with record `r` and anchor field `a`, a dependent of slot `i`'s permit that awaits this event (R96). -/
def State.dependent (s : State) (i j : SlotNo) (ev : AwaitedEvent) (r : Permit) (a : Anchor) : Prop :=
  (s.slot j).state = .armed r .awaitingEvent ∧ r.anchor = some a ∧ a.handle = s.handle i ∧ a.event = ev

/-- The states in which a chained permit can stand after the claim test of its delay end: LIVE by a grant, WAITING with its
whole wait limit, or, without one, CLOSED BLOCKED (R104). -/
def Permit.tested (r : Permit) (st : SlotState) : Prop :=
  st = .live r (newRun r) ∨ 0 < r.waitLimit ∧ st = .waiting r r.waitLimit
    ∨ r.waitLimit = 0 ∧ ∃ reason : BlockReason, st = .closed r (.blocked reason)

/-- From `v` to `t` there have been only grants and chain events: settings and groups are as they were, no output has left HELD, no
slot has changed but WAITING and ARMED ones, and a queue of WAITING permits has grown at its tail alone, by permits that are WAITING
there (R34, R100 to R105). -/
def State.grown (v t : State) : Prop :=
  v.onlyGranted t ∧ t.groups = v.groups ∧ v.settingsKept t
    ∧ ((∀ j ∈ v.waitQueue, (v.slot j).state.isWaiting = true) →
        (∀ j ∈ v.waitQueue, t.slot j = v.slot j)
          ∧ ∃ joined : List SlotNo, t.waitQueue = v.waitQueue ++ joined ∧ ∀ i ∈ joined, (t.slot i).state.isWaiting = true)

/-- What the claim test of a delay end, made in `w` against its whole queue, has brought about in `t` for the permit of slot `j`
with record `r`: clear, it is LIVE with its outputs HELD and the ON-phase levels handed to them; blocked with a wait limit, it is
WAITING with its whole wait limit; blocked without one, it is CLOSED BLOCKED with the reason (R104, R115). -/
def State.testOutcome (w t : State) (j : SlotNo) (r : Permit) : Prop :=
  (w.claimTest r.outputNos w.waitQueue = none →
      (t.slot j).state = .live r (newRun r)
        ∧ ∀ o ∈ r.outputNos, ∃ e ∈ r.outputs, e.output = o
            ∧ t.channel o = (w.channel o).driven (.held j e.invert) (onLevel e.invert))
    ∧ ∀ reason : BlockReason, w.claimTest r.outputNos w.waitQueue = some reason →
        (0 < r.waitLimit → (t.slot j).state = .waiting r r.waitLimit)
          ∧ (r.waitLimit = 0 → (t.slot j).state = .closed r (.blocked reason))

/-- Between `v` and `t` the permit of slot `j`, with record `r`, has made the claim test of its delay end (R102, R104). -/
def State.chainTested (v t : State) (j : SlotNo) (r : Permit) : Prop :=
  ∃ w : State, v.grown w ∧ w.grown t ∧ w.testOutcome t j r

/-- The dependents of slot `i`'s permit that awaited its END: each has entered DELAYING with its delay, and one of delay 0
has made its claim test (R101, R102). -/
def State.endsDelivered (s t : State) (i : SlotNo) : Prop :=
  ∀ (j : SlotNo) (r : Permit) (a : Anchor), s.dependent i j .ending r a →
    (0 < a.delay → (t.slot j).state = .armed r (.delaying a.delay)) ∧ (a.delay = 0 → r.tested (t.slot j).state)

/-- The permit of slot `k` gives its GRANT event between `v` and `t`: it is among those granted before, in the slots `granted`,
or it has been granted at a delay end since `v` (R100, R104). -/
def State.givesGrant (v t : State) (granted : List SlotNo) (k : SlotNo) : Prop :=
  k ∈ granted ∨ (v.slot k).state.isLive = false ∧ (t.slot k).state.isLive = true

/-- The permit of slot `k` has left ARMED for CLOSED between `v` and `t` (R13, R104, R105). -/
def State.leftArmed (v t : State) (k : SlotNo) : Prop :=
  (∃ (q : Permit) (part : ArmedPart), (v.slot k).state = .armed q part)
    ∧ ∃ (q : Permit) (c : Closure), (t.slot k).state = .closed q c

/-- From `v` to `t` the GRANT events of the permits in the slots `granted` have been given, with all that follows from them, and
the delay-0 dependents that received an END, those in the slots `tested`, have made their claim tests. Of the permits in
AWAITING_EVENT: one that awaits the GRANT of a permit that gives it, granted before or at a delay end here, has entered
DELAYING with its delay, or, with a delay of 0, has made its claim test; one whose anchor has left ARMED for CLOSED is CLOSED
ANCHOR_LOST with its own anchor's handle; and every other one, a permit that awaits an END among them, is as it was. WAITING,
LIVE, CLOSED and FREE slots and the permits in DELAYING that are not in `tested` are as they were; no output has left HELD, no
entry has left the queue, and those that have joined it stand at its tail; each permit granted or closed has its one post, and no other notice entry has changed (R12, R13, R99,
R100, R101, R102, R103, R104, R105). -/
def State.chainsRun (v t : State) (granted : List SlotNo) (tested : SlotNo → Prop) : Prop :=
  (∀ (i j : SlotNo) (r : Permit) (a : Anchor), v.dependent i j .grant r a → v.givesGrant t granted i →
      (0 < a.delay → (t.slot j).state = .armed r (.delaying a.delay)) ∧ (a.delay = 0 → v.chainTested t j r))
    ∧ (∀ (i j : SlotNo) (r : Permit) (a : Anchor), (v.slot j).state = .armed r .awaitingEvent → r.anchor = some a →
        a.handle = v.handle i → v.leftArmed t i →
        t.slot j = { generation := (v.slot j).generation, state := .closed r (.anchorLost a.handle) })
    ∧ (∀ (j : SlotNo) (r : Permit), (v.slot j).state = .armed r .awaitingEvent →
        (∀ (i : SlotNo) (a : Anchor), v.dependent i j .grant r a → ¬ v.givesGrant t granted i) →
        (∀ (i : SlotNo) (a : Anchor), r.anchor = some a → a.handle = v.handle i → ¬ v.leftArmed t i) →
        t.slot j = v.slot j)
    ∧ (∀ (j : SlotNo) (r : Permit) (d : Nat), (v.slot j).state = .armed r (.delaying d) →
        (tested j → v.chainTested t j r) ∧ (¬ tested j → t.slot j = v.slot j))
    ∧ (∀ j : SlotNo, (∀ (r : Permit) (part : ArmedPart), (v.slot j).state ≠ .armed r part) → t.slot j = v.slot j)
    ∧ v.grown t
    ∧ (∀ (p : Port) (n : Notice), v.noticed p n → t.noticed p n)
    ∧ (∀ j ∈ v.waitQueue, (v.slot j).state.isWaiting = true → j ∈ t.waitQueue)
    ∧ v.noticesFollow t fun _ => False

/-- Slot `j`'s permit awaits an event of slot `k`'s permit, GRANT or END: it is in AWAITING_EVENT, and its anchor is the whole
handle of slot `k` (R96). -/
def State.awaitsPermit (s : State) (j k : SlotNo) : Prop :=
  ∃ (r : Permit) (a : Anchor), (s.slot j).state = .armed r .awaitingEvent ∧ r.anchor = some a ∧ a.handle = s.handle k

/-- Every permit in AWAITING_EVENT whose chain of anchors leads to slot `i`'s permit is CLOSED, slot `i`'s own apart, with cause
ANCHOR_LOST and the handle of its own anchor as subject: the dependents of slot `i`'s permit with that permit's handle, the
dependents of those with theirs, and so on down the chain (R13, R105). -/
def State.dependentsLost (s t : State) (i : SlotNo) : Prop :=
  ∀ (j : SlotNo) (r : Permit) (a : Anchor), j ≠ i → Relation.TransGen s.awaitsPermit j i →
    (s.slot j).state = .armed r .awaitingEvent → r.anchor = some a →
    t.slot j = { generation := (s.slot j).generation, state := .closed r (.anchorLost a.handle) }

/-- The permit of slot `i` has left WAITING or ARMED: its dependents are lost down the chain; every other slot whose chain of
anchors does not lead to slot `i` is as it was, a permit in AWAITING_EVENT or in any other state; outputs, groups and the rest
of the queue are as they were; each permit closed has its one CLOSED post, and every other notice entry is as it was (R12, R13,
R14, R105). -/
def State.anchorLost (s t : State) (i : SlotNo) : Prop :=
  s.dependentsLost t i ∧ (s.noticesFollow t fun _ => False)
    ∧ (∀ j : SlotNo, j ≠ i → ¬ Relation.TransGen s.awaitsPermit j i → t.slot j = s.slot j)
    ∧ t.channels = s.channels ∧ t.groups = s.groups
    ∧ t.waitQueue = s.waitQueue.filter fun j => decide ((s.slot i).state.isWaiting = true → j ≠ i)

/-! ## Scans and departures -/

/-- From `u` to `v` slot `i` is granted, and nothing else happens: it is LIVE with its record and a new run part, it is not
in the queue, its outputs are HELD at their ON-phase levels, and its owner has the GRANTED notice, with every other notice
entry as it was (R10, R38, R115, R142). -/
def State.grantedTo (u v : State) (i : SlotNo) (r : Permit) : Prop :=
  (∀ j : SlotNo, v.slot j =
      if j = i then { generation := (u.slot i).generation, state := .live r (newRun r) } else u.slot j)
    ∧ v.waitQueue = u.waitQueue.filter (fun j => decide (j ≠ i))
    ∧ (∀ o : OutputNo,
        (∃ e ∈ r.outputs, e.output = o
            ∧ v.channel o = (u.channel o).driven (.held i e.invert) (onLevel e.invert))
          ∨ (∀ e ∈ r.outputs, e.output ≠ o) ∧ v.channel o = u.channel o)
    ∧ v.groups = u.groups ∧ u.settingsKept v ∧ v.noticed r.owner (.granted (u.handle i))
    ∧ v.notices.get (otherPort r.owner) = u.notices.get (otherPort r.owner)
    ∧ u.noticesAfter v (fun p n => p = r.owner ∧ n = .granted (u.handle i)) fun _ _ => False

/-- The walk of a scan over the queue entries still to be visited, from the oldest on, with the entries visited and left
waiting: an entry that is clear against those is granted at once, and one that is not joins them; so an older entry that is
blocked holds back a younger one that contends with it, and a younger one that contends with none is granted (R36). An
entry that is not WAITING is passed over; the law on the queue has none. -/
def State.walked : List SlotNo → List SlotNo → State → State → List SlotNo → Prop
  | [], _, u, v, granted => v = u ∧ granted = []
  | i :: rest, left, u, v, granted =>
    (∀ (r : Permit) (w : Nat), (u.slot i).state = .waiting r w →
        (u.claimTest r.outputNos left = none →
            ∃ (x : State) (more : List SlotNo), u.grantedTo x i r ∧ State.walked rest left x v more
              ∧ granted = i :: more)
          ∧ (u.claimTest r.outputNos left ≠ none → State.walked rest (left ++ [i]) u v granted))
      ∧ ((u.slot i).state.isWaiting = false → State.walked rest left u v granted)

/-- A scan of `u`'s whole queue has been made, and after it the GRANT events of the permits it granted, in the order of the
grants, with the claim tests of the slots `tested`; and the notice sets have followed over the whole of it (R12, R36, R38,
R102, R142). Ports and what is due of a tick do not matter to it. -/
def State.scannedWith (u t : State) (tested : SlotNo → Prop) : Prop :=
  ∃ (u' v : State) (granted : List SlotNo),
    u' = { u with ports := u'.ports, lastServed := u'.lastServed, due := u'.due }
      ∧ State.walked u.waitQueue [] u' v granted ∧ v.chainsRun t granted tested ∧ u.noticesFollow t fun _ => False

/-- A scan of `u`'s whole queue has been made (R36 to R38). -/
def State.scanned (u t : State) : Prop := u.scannedWith t fun _ => False

/-- The part when the permit of slot `i` has left LIVE and the scan of the departure has not been made: the outputs it held
are IDLE at OFF level, but for one declared FAULTED; their groups have started their quiet time; the dependents that await
its END have entered DELAYING; every other slot is as it was; the notice sets have followed, with the FAULT notices where an
output was declared FAULTED (R11, R12, R14, R52, R101, R115, R121, R122). -/
def State.leftLive (s u : State) (i : SlotNo) (fault : Option OutputNo) : Prop :=
  (∀ j : SlotNo, j ≠ i →
      (∀ (r : Permit) (a : Anchor), s.dependent i j .ending r a →
          u.slot j = { generation := (s.slot j).generation, state := .armed r (.delaying a.delay) })
        ∧ ((∀ (r : Permit) (a : Anchor), ¬ s.dependent i j .ending r a) → u.slot j = s.slot j))
    ∧ (∀ o : OutputNo, u.channel o =
        if fault = some o then (s.channel o).faulted
        else if s.holds i o then (s.channel o).driven .idle .off
        else s.channel o)
    ∧ s.groupsQuieted u (s.holds i) ∧ u.waitQueue = s.waitQueue ∧ s.settingsKept u
    ∧ s.noticesFollow u fun n => ∃ o, fault = some o ∧ n = .fault o

/-- The whole departure of slot `i`'s permit from LIVE: what `leftLive` says of the release, then the scan of the departure,
which sees every released output free and every quiet timer started, then the GRANT events and the claim tests of the END
dependents of delay 0; and the notice sets over the whole of it (R11, R12, R14, R38, R102, R121). -/
def State.exited (s t : State) (i : SlotNo) (fault : Option OutputNo) : Prop :=
  ∃ u : State, s.leftLive u i fault ∧ u.slot i = t.slot i
    ∧ u.scannedWith t (fun j => ∃ (r : Permit) (a : Anchor), s.dependent i j .ending r a ∧ a.delay = 0)
    ∧ s.noticesFollow t fun n => ∃ o, fault = some o ∧ n = .fault o

/-- The permit of slot `i` has left LIVE: the other slots, the outputs it held, their groups, the settings and the END
dependents after the whole departure, its scan included (R11). -/
def State.departed (s t : State) (i : SlotNo) : Prop :=
  s.othersKept t i ∧ s.channelsKept t (s.holds i) ∧ (∀ o : OutputNo, t.holds i o = false)
    ∧ s.groupsQuieted t (s.holds i) ∧ s.settingsKept t ∧ s.exited t i none

/-- The permit of slot `i` has left WAITING for CLOSED or FREE: the slot has left the queue, its dependents are lost, and a
scan has followed; and the notice sets over the whole of it (R12, R13, R14, R35). -/
def State.leftQueue (s t : State) (i : SlotNo) : Prop :=
  (∃ u : State, s.anchorLost u i ∧ u.slot i = t.slot i ∧ s.settingsKept u ∧ u.scanned t)
    ∧ s.noticesFollow t fun _ => False

/-- The closures of a filtered assertion of line `l`, over the slots still to be visited: each LIVE permit that holds a
mapped output closes TRIPPED through the whole exit from LIVE, its scan included, before the next slot is visited (R132,
R133). -/
def State.tripClosed (l : LineNo) : List SlotNo → State → State → Prop
  | [], u, t => t = u
  | i :: rest, u, t =>
    (∀ (q : Permit) (run : RunPart), (u.slot i).state = .live q run →
        (∃ o : OutputNo, inSet (u.line l).map o = true ∧ u.holds i o = true) →
          ∃ v : State, v.slot i = { generation := (u.slot i).generation, state := .closed q (.tripped l) }
            ∧ u.departed v i ∧ u.endsDelivered v i ∧ v.noticed q.owner (.closed (u.handle i)) ∧ u.portsKept v
            ∧ State.tripClosed l rest v t)
      ∧ ((u.slot i).state.isLive = false ∨ (∀ o : OutputNo, inSet (u.line l).map o = true → u.holds i o = false) →
          State.tripClosed l rest u t)

/-- One event that a tick left due has been taken, whatever number the free choices had reached (log entry 4). -/
def State.tookOne (s t : State) : Prop :=
  ∃ e ∈ s.due, ∃ n : Nat, t = State.takeEvent e { s with choices := n }

/-- One of checks 1 to 5 of R25 fails for a claim from port `p`, in the words of R26. -/
def ClaimFields.malformed (p : Port) (f : ClaimFields) : Prop :=
  f.entries.length = 0 ∨ 8 < f.entries.length ∨ (∃ e ∈ f.entries, 15 < e.1) ∨ ¬ (f.entries.map Prod.fst).Nodup
    ∨ 3 < f.kind ∨ (f.kind ≠ 0 ∧ f.on = 0) ∨ (2 ≤ f.kind ∧ f.off = 0) ∨ (f.kind = 3 ∧ f.count = 0)
    ∨ (∃ a ∈ f.anchor, 1 < a.2.1)
    ∨ (f.kind ≤ 1 ∧ ∃ e ∈ f.entries, e.2 = true)
    ∨ (f.lease = 0 ∧ p = .control)
    ∨ ∃ g ∈ f.renewGuard, g = 0 ∨ f.lease < g

/-- Check 6 of R25 fails: two of these outputs are members of one exclusion group (R49). -/
def State.conflicting (s : State) (outs : List OutputNo) : Prop :=
  ∃ g : GroupNo, ∃ a ∈ outs, ∃ b ∈ outs,
    a ≠ b ∧ inSet (s.group g).members a = true ∧ inSet (s.group g).members b = true

/-- Slot `i` is the lowest-numbered FREE slot (R8). -/
def State.isLowestFree (s : State) (i : SlotNo) : Prop :=
  (s.slot i).state = .free ∧ ∀ j : SlotNo, j.val < i.val → (s.slot j).state ≠ .free

/-- The state that every block takes at power-on and at an RSTn reset, epoch and reset cause apart, with no event of a tick due
(the model's own field, log entry 2) (R22, R45, R57, R128,
R140, R150, R162, R176 and the store table of spec/10 section 10.4). -/
def State.defaults (t : State) : Prop :=
  t.mode = .setup ∧ t.tickDivider = 1000 ∧ t.dividerCount = 0
    ∧ (∀ i : SlotNo, (t.slot i).generation = 0 ∧ (t.slot i).state = .free)
    ∧ (∀ p : Port, t.usedCount p = 0)
    ∧ t.waitQueue = []
    ∧ (∀ g : GroupNo, t.group g = { members := 0, deadTime := 0, quietRemaining := 0 })
    ∧ (∀ o : OutputNo, (t.channel o).state = .idle ∧ (t.channel o).polarity = .activeHigh
        ∧ (t.channel o).settleTime = 0 ∧ (t.channel o).expected = .off ∧ (t.channel o).feedback = .off
        ∧ (t.channel o).supervision = .unsupervised ∧ t.outputLine o = .low)
    ∧ (∀ l : LineNo, t.line l =
        { enabled := false, activeLevel := .high, filterLength := 1, map := 0, filterCount := 0, latched := false })
    ∧ t.reserved = 0 ∧ t.quota.control = 24 ∧ t.quota.supervisor = 8
    ∧ (∀ p : Port, (t.notices.get p).entries = [] ∧ (∀ k : NoticeKind, maskHas (t.notices.get p).mask k = true)
        ∧ (t.notices.get p).promoted = none ∧ t.attention p = false ∧ t.attentionLine p = .high)
    ∧ (∀ p : Port, (t.ports.get p).mailbox = [] ∧ (t.ports.get p).responses = [] ∧ (t.ports.get p).outcome = .none
        ∧ (t.ports.get p).transaction = none ∧ t.dataOut p = none)
    ∧ t.lastServed = .control ∧ t.due = []

end Sys2Proof.Machine
end

