-- ==== Sys2Proof/Certificates/Slice0/Obligations.lean ====
section
/-! DEFINITION. The statements for the provers, each a `Prop` of its own: formats, resets, ports and engine, the commands in
the order of the chapters, the events of a tick, and the device's laws as invariants that every step keeps. -/

open Sys2Proof Sys2Proof.Machine

/-! ## Steps and formats -/

/-- One step takes the command at the front of the waiting commands and runs it on the part with the rest waiting. The
queue of waiting commands is the model's own (log entry 7). -/
def Obligations.StepRunsFrontCommand : Prop :=
  ∀ (c : Instr) (rest : List Instr) (s : State),
    step { s with pending := c :: rest } = exec c { s with pending := rest }

/-- The bytes of a request's frame, with any bytes after its check byte, are judged to be exactly that request, whatever its
code (but 0x00), tag and up to 32 parameters. A request frame is code, tag, N, parameters, check byte; a response frame is
tag, status code, M, payload, check byte, with the status codes of R179; and the check byte is the register of R178, shifted
eight times for each byte (R168, R169, R178, R179, section 12.2). -/
def Obligations.RequestFrameIsJudgedWhole : Prop :=
  (∀ (r : Request) (after : List Byte), r.code ≠ 0 → r.params.length ≤ 32 →
      judgeBytes (requestFrame r ++ after) = .request r)
    ∧ (∀ r : Request, ∃ head : List Byte,
        head = r.code :: r.tag :: BitVec.ofNat 8 r.params.length :: r.params ∧ requestFrame r = head ++ [crc8 head])
    ∧ (∀ (r : Response) (code : Byte), (r.status, code) ∈
          [(Status.ok, 0x00), (.granted, 0x01), (.queued, 0x02), (.armed, 0x03), (.replaced, 0x04), (.empty, 0x05),
            (.stale, 0x81), (.notOwner, 0x82), (.wrongState, 0x83), (.noSlot, 0x84), (.badParam, 0x85),
            (.selfConflict, 0x86), (.blocked, 0x87), (.reserved, 0x88), (.notRunning, 0x89), (.locked, 0x8A),
            (.tooEarly, 0x8B), (.notLeased, 0x8C), (.badAnchor, 0x8D), (.chainDepth, 0x8E), (.stillActive, 0x8F),
            (.stillFaulty, 0x90), (.notPermitted, 0x91), (.unknownCommand, 0x92), (.invalidConfig, 0x93)] →
        ∃ head : List Byte, head = r.tag :: code :: BitVec.ofNat 8 r.payload.length :: r.payload
          ∧ responseFrame r = head ++ [crc8 head])
    ∧ crc8 [] = 0
    ∧ (∀ (bs : List Byte) (b : Byte), crc8 (bs ++ [b]) =
        Nat.iterate (fun x : Byte => if x.getLsbD 7 then (x <<< 1) ^^^ 0x07 else x <<< 1) 8 (crc8 bs ^^^ b))
    ∧ ∀ bs : List Byte, crc8 (bs ++ [crc8 bs]) = 0

/-- The CLAIM parameters written by the layout of section 12.4 are read back field by field, with every field at every
value that its width admits, and their length is the one that check 3 of R172 expects. A 16-bit field goes most significant
byte first; a handle has the epoch in bits 15 to 12, the generation in bits 11 to 5 and the slot in bits 4 to 0; and every
other coded value has the code of R179 (R166, R179, R180, R181). -/
def Obligations.ClaimParametersRoundTrip : Prop :=
  (∀ f : ClaimFields,
    f.kind < 8 → f.entries.length < 256 → (∀ e ∈ f.entries, e.1 < 128) → f.on < 65536 → f.off < 65536 → f.count < 256 →
    f.lease < 65536 → f.waitLimit < 65536 → (∀ g ∈ f.renewGuard, g < 65536) →
    (∀ a ∈ f.anchor, a.2.1 < 256 ∧ a.2.2 < 65536) → (∀ l ∈ f.label, l < 65536) →
      readClaim (claimParams f) = f ∧ claimLength (claimParams f) = (claimParams f).length)
    ∧ (∀ (n : Nat) (bs : List Byte), n < 65536 →
        wordAt (wordOf n ++ bs) 0 = n ∧ (wordOf n).length = 2 ∧ byteAt (wordOf n) 0 = n / 256)
    ∧ (∀ h : Handle, (handleWord h).toNat = h.epoch.toNat * 4096 + h.generation.toNat * 32 + h.slot.val
        ∧ handleOfWord (handleWord h) = h)
    ∧ (∀ w : Word16, handleWord (handleOfWord w) = w)
    ∧ [Mode.setup, .run, .hold].map modeCode = [0, 1, 2]
    ∧ [ResetCause.powerOn, .pin, .restart].map resetCauseCode = [0, 1, 2]
    ∧ [Port.control, .supervisor].map portCode = [0, 1]
    ∧ [Phase.on, .off, .done].map phaseCode = [0, 1, 2]
    ∧ [AwaitedEvent.grant, .ending].map eventCode = [0, 1]
    ∧ [Polarity.activeHigh, .activeLow].map polarityCode = [0, 1]
    ∧ [Electrical.high, .low].map activeLevelCode = [0, 1]
    ∧ [NoticeKind.trip, .fault, .closed, .granted, .completed].map noticeKindCode = [1, 2, 3, 4, 5]
    ∧ [BlockReason.held, .group, .quiet, .trip, .fault, .hold, .queueAhead].map blockReasonCode
        = [1, 2, 3, 4, 5, 6, 7]
    ∧ (∀ (l : LineNo) (o : OutputNo) (h : Handle) (reason : BlockReason),
        [Closure.expired, .tripped l, .fault o, .revoked, .anchorLost h, .waitTimeout, .blocked reason, .completed].map
          causeCode = [1, 2, 3, 4, 5, 6, 7, 8])
    ∧ (∀ (r : Permit) (w : Nat) (part : ArmedPart) (run : RunPart) (c : Closure),
        [SlotState.free, .waiting r w, .armed r part, .live r run, .closed r c].map slotStateCode = [0, 1, 2, 3, 4])
    ∧ (∀ a b c : Nat, [Pattern.steady, .pulse a, .cycle a b, .burst a b c].map patternCode = [0, 1, 2, 3])
    ∧ (∀ (i : SlotNo) (b : Bool), [ChannelState.idle, .held i b, .faulted].map channelStateCode = [0, 1, 2])
    ∧ ∀ n : Nat, [Supervision.unsupervised, .settling n, .watching, .suspended].map supervisionCode = [0, 1, 2, 3]

/-- The two header bytes carry mode, attention, outcome, epoch, free places and response follows in the bits of R177, with
its encodings, and 0 in bits 1 and 0 of the first byte. -/
def Obligations.StatusHeaderCarriesItsFields : Prop :=
  ∀ h : StatusHeader, h.freePlaces ≤ 4 →
    ∃ b0 b1 : Byte, headerBytes h = [b0, b1]
      ∧ b0.toNat =
          (match h.mode with | .setup => 0 | .run => 1 | .hold => 2) * 64 + (if h.attention then 1 else 0) * 32
            + (match h.outcome with | .none => 0 | .accepted => 1 | .full => 2 | .badCheck => 3 | .badLength => 4) * 4
      ∧ b1.toNat = h.epoch.toNat * 16 + h.freePlaces * 2 + (if h.responseFollows then 1 else 0)

/-! ## Supply and reset -/

/-- POWER_ON and POWER_LOSS bring every block to its power-on state, with epoch 0 and cause POWER_ON, and the part works
after POWER_ON if RSTn is deasserted; without supply it does not work (R22, R57, R128, R140, R150, R162, R176). That
POWER_ON acts so on a part that already has supply is the model's choice (log entry 10). -/
def Obligations.SupplyEventsResetEveryBlock : Prop :=
  ∀ s : State,
    (∃ t : State, exec .powerOn s = .next t ∧ t.defaults ∧ t.epoch = 0 ∧ t.resetCause = .powerOn ∧ t.powered = true
        ∧ t.working = !s.rstnLow ∧ t.rstnLow = s.rstnLow ∧ t.pending = s.pending)
      ∧ ∃ t : State, exec .powerLoss s = .next t ∧ t.defaults ∧ t.epoch = 0 ∧ t.resetCause = .powerOn
          ∧ t.powered = false ∧ t.working = false
          ∧ t.rstnLow = s.rstnLow ∧ t.pending = s.pending

/-- RSTN_RESET: a low RSTn of fewer than 4 REFCLK periods changes nothing; one of 4 or more resets every block, raises the
epoch by one (15 to 0), and sets cause PIN; while RSTn stays asserted there is no second reset. RESET_RELEASE changes nothing
but the line, and the part then works if it has supply (R7, R22, R162). -/
def Obligations.PinResetRaisesEpochOnce : Prop :=
  ∀ (n : Nat) (s : State),
    (n < 4 → exec (.rstnReset n) s = .next s)
      ∧ (4 ≤ n → s.rstnLow = true → exec (.rstnReset n) s = .next s)
      ∧ (4 ≤ n → s.rstnLow = false → s.powered = true →
          ∃ t : State, exec (.rstnReset n) s = .next t ∧ t.defaults ∧ t.epoch.toNat = (s.epoch.toNat + 1) % 16
            ∧ t.resetCause = .pin ∧ t.working = false ∧ t.powered = true ∧ t.pending = s.pending)
      ∧ ∃ t : State, exec .resetRelease s = .next t ∧ t = { s with rstnLow := false } ∧ t.working = s.powered

/-- While RSTn is asserted or the supply is absent the time base makes no tick and counts no period, the engine takes no
request, and no port begins a transaction (R161, R162, R176). That a row commanded then leaves the part as it is, and that
the level of chip select is recorded, are the model's choices (log entries 1 and 9). -/
def Obligations.ResetHoldsThePartStill : Prop :=
  ∀ s : State, s.working = false →
    (∀ (feedback : BitVec 16) (trips : BitVec 4), exec (.tick feedback trips) s = .next s)
      ∧ exec .refclkPeriod s = .next s
      ∧ (∀ c : Command, exec c.row s = .next s)
      ∧ ∀ p : Port, ∃ t : State, exec (.transactionStart p) s = .next t ∧ t = { s with ports := t.ports }
          ∧ t.ports.get p = { s.ports.get p with chipSelect := true }
          ∧ t.ports.get (otherPort p) = s.ports.get (otherPort p)

/-! ## Link ports and command engine -/

/-- TRANSACTION_START forms the header from the state as it stands and selects the oldest response; COMPLETE_BYTE_SHIFTED
takes one byte in and puts the next one out: header, selected response frame, then 0x00 (R166, R167). Nothing else moves. -/
def Obligations.TransactionShiftsHeaderAndResponse : Prop :=
  (∀ (s : State) (p : Port), s.working = true → (s.ports.get p).chipSelect = false →
    ∃ t : State, exec (.transactionStart p) s = .next t ∧ t = { s with ports := t.ports }
      ∧ t.ports.get (otherPort p) = s.ports.get (otherPort p)
      ∧ t.ports.get p =
          { s.ports.get p with
            chipSelect := true
            transaction := some
              { header :=
                  { mode := s.mode
                    attention := s.attention p
                    outcome := (s.ports.get p).outcome
                    epoch := s.epoch
                    freePlaces := 4 - (s.ports.get p).mailbox.length
                    responseFollows := decide ((s.ports.get p).responses ≠ []) }
                selected := (s.ports.get p).responses.head?
                received := [] } }
      ∧ t.dataOut p = (headerBytes (s.formHeader p)).head?)
    ∧ (∀ (s : State) (p : Port) (data : Byte) (x : Transaction), (s.ports.get p).transaction = some x →
        ∃ t : State, exec (.completeByteShifted p data) s = .next t ∧ t = { s with ports := t.ports }
          ∧ t.ports.get (otherPort p) = s.ports.get (otherPort p)
          ∧ t.ports.get p =
              { s.ports.get p with transaction := some { x with received := x.received ++ [data] } }
          ∧ t.dataOut p =
              some ((headerBytes x.header ++ (x.selected.toList.flatMap responseFrame)).getD (x.received.length + 1) 0))
    ∧ ∀ (s : State) (p : Port) (data : Byte), (s.ports.get p).transaction = none →
        exec (.completeByteShifted p data) s = .next s

/-- TRANSACTION_END judges the bytes received by the five cases of R169 in their order, with their effect on the mailbox, and
removes the selected response exactly where every byte of it was shifted out; the end of an ignored chip select is not
judged (R167, R169, R176). -/
def Obligations.TransactionEndJudgesTheFrame : Prop :=
  (∀ (s : State) (p : Port), (s.ports.get p).transaction = none →
    ∃ t : State, exec (.transactionEnd p) s = .next t ∧ t = { s with ports := t.ports }
      ∧ t.ports.get (otherPort p) = s.ports.get (otherPort p)
      ∧ t.ports.get p = { s.ports.get p with chipSelect := false })
  ∧ ∀ (s : State) (p : Port) (x : Transaction) (n : Nat), (s.ports.get p).transaction = some x →
    n = byteAt x.received 2 →
    ∃ (t : State) (outcome : RequestOutcome) (joined : List Request), exec (.transactionEnd p) s = .next t
      ∧ t = { s with ports := t.ports }
      ∧ t.ports.get (otherPort p) = s.ports.get (otherPort p)
      ∧ t.ports.get p =
          { chipSelect := false
            transaction := none
            mailbox := (s.ports.get p).mailbox ++ joined
            responses :=
              if x.selected.isSome ∧ (headerBytes x.header ++ x.selected.toList.flatMap responseFrame).length
                  ≤ x.received.length
              then (s.ports.get p).responses.tail else (s.ports.get p).responses
            outcome := outcome }
      ∧ (if x.received = [] ∨ x.received.head? = some 0 then outcome = .none ∧ joined = []
         else if x.received.length < 3 ∨ 32 < n ∨ x.received.length < n + 4 then outcome = .badLength ∧ joined = []
         else if x.received.getD (n + 3) 0 ≠ crc8 (x.received.take (n + 3)) then outcome = .badCheck ∧ joined = []
         else if 4 ≤ (s.ports.get p).mailbox.length then outcome = .full ∧ joined = []
         else outcome = .accepted
           ∧ joined = [{ code := x.received.getD 0 0
                         tag := x.received.getD 1 0
                         params := (x.received.drop 3).take n }])

/-- Of two ports that qualify the engine serves the one it did not serve last, and one that qualifies alone is served; the
request taken is the oldest of that port's mailbox (R171). While no port qualifies the engine takes no request (R171); that a
row of the engine commanded then leaves the part as it is, is the model's choice (log entry 1). -/
def Obligations.EngineAlternatesBetweenPorts : Prop :=
  ∀ (s : State) (q : Port → Prop), s.working = true →
    (∀ p : Port, q p ↔ (s.ports.get p).mailbox ≠ [] ∧ (s.ports.get p).responses.length < 4) →
    (∀ p : Port, s.servedPort = some p ↔ q p ∧ (q (otherPort p) → s.lastServed = otherPort p))
      ∧ (∀ (p : Port) (r : Request),
          s.nextRequest = some (p, r) ↔ s.servedPort = some p ∧ (s.ports.get p).mailbox.head? = some r)
      ∧ ((∀ p : Port, ¬ q p) → ∀ c : Command, exec c.row s = .next s)

/-- Every command the engine carries out takes the oldest request out of its port's mailbox and puts one response, with
the request's tag, at the tail of that port's response queue; the port is the one served last (R170, R171, R172). -/
def Obligations.EngineAnswersEachRequestOnce : Prop :=
  ∀ (s : State) (p : Port) (r : Request), s.nextRequest = some (p, r) →
    ∃ (t : State) (x : Response), exec (commandOf r).row s = .next t ∧ x.tag = r.tag ∧ t.lastServed = p
      ∧ (s.ports.get p).mailbox = r :: (t.ports.get p).mailbox
      ∧ (t.ports.get p).responses = (s.ports.get p).responses ++ [x]
      ∧ (t.ports.get p).outcome = (s.ports.get p).outcome
      ∧ (t.ports.get p).transaction = (s.ports.get p).transaction

/-- The three checks on every request, in their order: UNKNOWN_COMMAND for a code that is none of the part's,
NOT_PERMITTED for a command that the Control Port may not send, BAD_PARAM for a wrong parameter length; no refusal changes
anything else. Every command has its code, every CONFIGURE its item code, and each its parameter length N (R172, R173, R180,
R181); which CONFIGURE row answers a request without an item code is the model's choice (log entry 8). -/
def Obligations.EngineRefusesBeforeTheCommand : Prop :=
  (∀ (s : State) (p : Port) (r : Request), s.nextRequest = some (p, r) →
      (commandOf r = .unknown → s.onlyAnswers .unknown p r .unknownCommand [])
        ∧ (∀ c : Command, commandOf r = c → c ≠ .unknown → permitted c p = false →
            s.onlyAnswers c p r .notPermitted [])
        ∧ ∀ c : Command, commandOf r = c → c ≠ .unknown → permitted c p = true → lengthOk c r.params = false →
            s.onlyAnswers c p r .badParam [])
    ∧ (∀ r : Request, commandOf r = .unknown ↔
        r.code.toNat ∉ [0x01, 0x10, 0x11, 0x12, 0x13, 0x14, 0x15, 0x16, 0x17, 0x18, 0x19,
          0x20, 0x21, 0x22, 0x23, 0x24, 0x25, 0x26, 0x27, 0x28, 0x29])
    ∧ (∀ c : Command, c ≠ .unknown → permitted c .supervisor = true
        ∧ (permitted c .control = true ↔
            c ∈ [Command.nop, .claim, .release, .retire, .renew, .restage, .query, .list, .find, .readNotice,
              .deviceStatus, .readConfig]))
    ∧ (∀ (r : Request) (c : Command), (c, r.code.toNat) ∈
          [(Command.nop, 0x01), (.claim, 0x10), (.release, 0x11), (.retire, 0x12), (.renew, 0x13), (.restage, 0x14),
            (.query, 0x15), (.list, 0x16), (.find, 0x17), (.readNotice, 0x18), (.deviceStatus, 0x19), (.revoke, 0x20),
            (.purge, 0x21), (.readConfig, 0x23), (.enterRun, 0x24), (.hold, 0x25), (.resume, 0x26), (.restart, 0x27),
            (.clearTrip, 0x28), (.clearFault, 0x29)] → commandOf r = c)
    ∧ (∀ r : Request, r.code = 0x22 →
        (∀ c : Command, r.params ≠ [] → (c, byteAt r.params 0) ∈
            [(Command.configureTickDivider, 1), (.configureOutput, 2), (.configureGroup, 3), (.configureTrip, 4),
              (.configureReserved, 5), (.configureQuota, 6), (.configureNoticeMask, 7), (.configureNoticePromote, 8)] →
            commandOf r = c)
          ∧ (r.params = [] ∨ byteAt r.params 0 = 0 ∨ 8 < byteAt r.params 0 → commandOf r = .configureUnknownItem))
    ∧ (∀ (c : Command) (n : Nat) (ps : List Byte), (c, n) ∈
          [(Command.nop, 0), (.release, 2), (.retire, 2), (.renew, 2), (.restage, 6), (.query, 2), (.find, 1),
            (.readNotice, 0), (.deviceStatus, 0), (.revoke, 2), (.purge, 1), (.configureTickDivider, 3),
            (.configureOutput, 4), (.configureGroup, 6), (.configureTrip, 7), (.configureReserved, 3),
            (.configureQuota, 3), (.configureNoticeMask, 3), (.configureNoticePromote, 3), (.enterRun, 0), (.hold, 0),
            (.resume, 0), (.restart, 0), (.clearTrip, 1), (.clearFault, 1)] →
        (lengthOk c ps = true ↔ ps.length = n))
    ∧ (∀ (flags : Byte) (n : Byte) (ps : List Byte), lengthOk .claim (flags :: n :: ps) = true ↔
        ps.length + 2 ≤ 32
          ∧ ps.length + 2 = 11 + n.toNat + (if flags.getLsbD 6 then 2 else 0) + (if flags.getLsbD 5 then 5 else 0)
              + (if flags.getLsbD 4 then 2 else 0))
    ∧ (∀ ps : List Byte, ps.length < 2 → lengthOk .claim ps = false)
    ∧ (∀ ps : List Byte, lengthOk .list ps = true ↔ ps.length = 1 ∨ ps.length = 2)
    ∧ (∀ ps : List Byte, lengthOk .configureUnknownItem ps = true ↔ ps ≠ [])
    ∧ lengthOk .readConfig [] = false
    ∧ ∀ (item : Byte) (ps : List Byte), lengthOk .readConfig (item :: ps) = true ↔
        (item.toNat = 1 ∨ item.toNat = 5 → ps.length = 0)
          ∧ (item.toNat ∈ [2, 3, 4, 6, 7, 8] → ps.length = 1)

/-- NOP may be sent by either port and carries no parameters; it is answered OK without a payload, behind the responses
made before it, and changes nothing; a transaction whose first byte is 0x00 carries no request (R174). -/
def Obligations.NopOnlyAnswers : Prop :=
  (∀ p : Port, permitted .nop p = true) ∧ (∀ ps : List Byte, lengthOk .nop ps = true ↔ ps = [])
    ∧ (∀ (s : State) (p : Port) (r : Request), s.carries p r .nop → s.onlyAnswers .nop p r .ok [])
    ∧ ∀ after : List Byte, judgeBytes (0 :: after) = .noRequest

/-! ## Claims -/

/-- The validity checks of a CLAIM in the order of R25, the first that fails giving the refusal, with no change (R25 to
R27, R49, R9, R97). -/
def Obligations.ClaimRefusedByFirstFailingCheck : Prop :=
  ∀ (s : State) (p : Port) (r : Request) (f : ClaimFields) (outs : List OutputNo),
    s.carries p r .claim → f = readClaim r.params → outs = f.outputs.map OutputEntry.output →
    (f.malformed p → s.onlyAnswers .claim p r .badParam [])
      ∧ (¬ f.malformed p → s.conflicting outs → s.onlyAnswers .claim p r .selfConflict [])
      ∧ (¬ f.malformed p → ¬ s.conflicting outs →
          (p = .control → (∃ o ∈ outs, inSet s.reserved o = true) → s.onlyAnswers .claim p r .reserved [])
            ∧ ((p = .control → ∀ o ∈ outs, inSet s.reserved o = false) →
                (s.mode = .setup → s.onlyAnswers .claim p r .notRunning [])
                  ∧ (s.mode ≠ .setup → s.quota.get p ≤ s.usedCount p → s.onlyAnswers .claim p r .noSlot [])
                  ∧ (s.mode ≠ .setup → s.usedCount p < s.quota.get p → (∃ i : SlotNo, (s.slot i).state = .free) →
                      ∀ (h : Handle) (event delay : Nat), f.anchor = some (h, event, delay) →
                        ((s.handle h.slot ≠ h ∨ (s.slot h.slot).state.ownedBy p = false
                            ∨ (∃ (q : Permit) (c : Closure), (s.slot h.slot).state = .closed q c)) →
                          s.onlyAnswers .claim p r .badAnchor [])
                          ∧ ∀ q : Permit, s.handle h.slot = h → (s.slot h.slot).state.record = some q → q.owner = p →
                              (∀ c : Closure, (s.slot h.slot).state ≠ .closed q c) → 4 ≤ q.chainDepth →
                                s.onlyAnswers .claim p r .chainDepth [])))

/-- The claim test: its seven tests in the order of R28, the first that fails for any output giving the reason (R28, R29,
R50). -/
def Obligations.ClaimTestReportsFirstFailure : Prop :=
  ∀ (s : State) (outs : List OutputNo) (ahead : List SlotNo),
    s.claimTest outs ahead =
      if ∃ o ∈ outs, ∃ (i : SlotNo) (b : Bool), (s.channel o).state = .held i b then some .held
      else if ∃ o ∈ outs, ∃ (g : GroupNo) (o' : OutputNo) (i : SlotNo) (b : Bool), o' ≠ o
          ∧ inSet (s.group g).members o = true ∧ inSet (s.group g).members o' = true
          ∧ (s.channel o').state = .held i b then some .group
      else if ∃ o ∈ outs, ∃ g : GroupNo, inSet (s.group g).members o = true ∧ (s.group g).quietRemaining ≠ 0
        then some .quiet
      else if ∃ o ∈ outs, ∃ l : LineNo, (s.line l).enabled = true ∧ (s.line l).latched = true
          ∧ inSet (s.line l).map o = true then some .trip
      else if ∃ o ∈ outs, (s.channel o).state = .faulted then some .fault
      else if s.mode = .hold then some .hold
      else if ∃ j ∈ ahead, (∃ o ∈ outs, o ∈ s.outputsOf j)
          ∨ ∃ g : GroupNo, (∃ o ∈ outs, inSet (s.group g).members o = true)
              ∧ ∃ o ∈ s.outputsOf j, inSet (s.group g).members o = true then some .queueAhead
      else none

/-- A direct claim that is clear is GRANTED: the lowest FREE slot enters LIVE with the claim's record and a fresh run part,
its outputs are HELD under the flags of their entries with the ON-phase levels handed to them, polarity, settle time and
feedback kept and supervision started again by a change of level, and nothing else changes; what the last tick has left due
stays due (log entries 2 and 24) (R5, R8, R10, R21, R30, R60, R76, R77, R113, R115, R117). -/
def Obligations.ClearClaimIsGranted : Prop :=
  ∀ (s : State) (p : Port) (r : Request) (f : ClaimFields) (i : SlotNo),
    s.carries p r .claim → f = readClaim r.params → s.queueLaw → s.claimRefusal p f = none → f.anchor = none →
    s.isLowestFree i → s.claimTest (f.outputs.map OutputEntry.output) s.waitQueue = none →
    ∃ t : State, exec .claim s = .next t
      ∧ s.answered t p r .granted (wordOf (handleWord (s.handle i)).toNat)
      ∧ t.slot i =
          { generation := (s.slot i).generation
            state := .live
              { owner := p
                outputs := f.outputs
                pattern := f.pattern
                closeOnCompletion := f.closeOnCompletion
                lease := f.lease
                renewGuard := f.renewGuard
                waitLimit := f.waitLimit
                anchor := none
                chainDepth := 1
                label := f.label }
              { leaseRemaining := if f.lease = 0 then none else some f.lease
                phase := .on
                phaseRemaining := if f.kind = 0 then none else some f.on
                cyclesRemaining := if f.kind = 3 then some f.count else none
                staged := none } }
      ∧ (∀ j : SlotNo, j ≠ i → t.slot j = s.slot j)
      ∧ (∀ e ∈ f.outputs,
          t.channel e.output = (s.channel e.output).driven (.held i e.invert) (if e.invert then .off else .on))
      ∧ (∀ o : OutputNo, (∀ e ∈ f.outputs, e.output ≠ o) → t.channel o = s.channel o)
      ∧ s.keepsDue t
      ∧ t = { s with slots := t.slots, channels := t.channels, ports := t.ports, lastServed := t.lastServed,
                     due := t.due }

/-- A direct claim that is not clear joins the tail of the wait queue with its wait limit, answered QUEUED with handle,
reason and position, and what the last tick has left due stays due; with a wait limit of 0 it is refused BLOCKED and leaves no
trace (log entry 2) (R21, R31, R32). -/
def Obligations.BlockedClaimWaitsOrLeavesNoTrace : Prop :=
  ∀ (s : State) (p : Port) (r : Request) (f : ClaimFields) (i : SlotNo) (reason : BlockReason),
    s.carries p r .claim → f = readClaim r.params → s.claimRefusal p f = none → f.anchor = none →
    s.isLowestFree i → s.claimTest (f.outputs.map OutputEntry.output) s.waitQueue = some reason →
    (f.waitLimit = 0 → s.onlyAnswers .claim p r .blocked (byteOf (blockReasonCode reason)))
      ∧ (0 < f.waitLimit →
          ∃ t : State, exec .claim s = .next t
            ∧ s.answered t p r .queued
                (wordOf (handleWord (s.handle i)).toNat ++ byteOf (blockReasonCode reason)
                  ++ byteOf t.waitQueue.length)
            ∧ (t.slot i).generation = (s.slot i).generation
            ∧ (t.slot i).state = .waiting (f.permit p 1) f.waitLimit
            ∧ (∀ j : SlotNo, j ≠ i → t.slot j = s.slot j)
            ∧ t.waitQueue = s.waitQueue ++ [i]
            ∧ s.keepsDue t
            ∧ t = { s with slots := t.slots, waitQueue := t.waitQueue, ports := t.ports, lastServed := t.lastServed,
                           due := t.due })

/-- A chained claim that passes its checks is answered ARMED, with a chain depth one more than its anchor's: it awaits its
event, or, with a LIVE anchor and GRANT awaited, counts its delay, or, with a delay of 0, makes its claim test within the
command: clear, it is granted with a GRANTED notice; blocked, it joins the queue or closes BLOCKED with a CLOSED notice.
Nothing else changes, the notice entries that stood before among it and what the last tick has left due; no permit awaits an
event of the new one where the law on chains holds (log entry 2) (R12, R13, R21, R33, R38, R97, R98, R99, R102, R104, R105,
R142). -/
def Obligations.ChainedClaimIsArmed : Prop :=
  ∀ (s : State) (p : Port) (r : Request) (f : ClaimFields) (i : SlotNo) (a : Anchor) (q new : Permit),
    s.carries p r .claim → f = readClaim r.params → s.queueLaw → s.claimRefusal p f = none →
    f.anchorField = some a → s.isLowestFree i → s.anchorRefusal p a.handle = none →
    (s.slot a.handle.slot).state.record = some q → new = f.permit p (q.chainDepth + 1) →
    ∃ t : State, exec .claim s = .next t ∧ s.answered t p r .armed (wordOf (handleWord (s.handle i)).toNat)
      ∧ (t.slot i).generation = (s.slot i).generation ∧ s.othersKept t i ∧ s.settingsKept t ∧ t.groups = s.groups
      ∧ s.keepsDue t
      ∧ (a.event = .ending ∨ (s.slot a.handle.slot).state.isLive = false →
          (t.slot i).state = .armed new .awaitingEvent ∧ t.channels = s.channels
            ∧ t.waitQueue = s.waitQueue ∧ t.notices = s.notices ∧ ∀ j : SlotNo, j ≠ i → t.slot j = s.slot j)
      ∧ (a.event = .grant → (s.slot a.handle.slot).state.isLive = true →
          (0 < a.delay → (t.slot i).state = .armed new (.delaying a.delay) ∧ t.channels = s.channels
              ∧ t.waitQueue = s.waitQueue ∧ t.notices = s.notices ∧ ∀ j : SlotNo, j ≠ i → t.slot j = s.slot j)
            ∧ (a.delay = 0 →
                (s.claimTest (f.outputs.map OutputEntry.output) s.waitQueue = none →
                    ∃ v : State, s.grantedTo v i new ∧ v.chainsRun t [i] (fun _ => False)
                      ∧ (s.chainLaw → t.slots = v.slots ∧ t.channels = v.channels ∧ t.waitQueue = v.waitQueue
                          ∧ t.notices = v.notices))
                  ∧ ∀ reason : BlockReason,
                      s.claimTest (f.outputs.map OutputEntry.output) s.waitQueue = some reason →
                        t.channels = s.channels
                          ∧ (0 < f.waitLimit →
                              (t.slot i).state = .waiting new f.waitLimit ∧ t.waitQueue = s.waitQueue ++ [i]
                                ∧ t.notices = s.notices ∧ ∀ j : SlotNo, j ≠ i → t.slot j = s.slot j)
                          ∧ (f.waitLimit = 0 →
                              (t.slot i).state = .closed new (.blocked reason) ∧ t.waitQueue = s.waitQueue
                                ∧ t.noticed p (.closed (s.handle i)) ∧ s.anchorLost t i
                                ∧ (s.chainLaw → ∀ j : SlotNo, j ≠ i → t.slot j = s.slot j))))

/-! ## Commands that name a handle -/

/-- A command that names a handle is refused STALE where the handle is not the current name of a permit, then NOT_OWNER by the
owner check of its command, then WRONG_STATE for a permit it does not act on; nothing else changes (R6, R15, R16, R19,
R65, R87). -/
def Obligations.HandleCommandsRefuseInOrder : Prop :=
  ∀ (s : State) (p : Port) (r : Request) (c : Command) (h : Handle), s.carries p r c → h = handleAt r.params 0 →
    c ∈ [Command.release, .renew, .restage, .retire, .query, .revoke] →
    ((s.handle h.slot ≠ h ∨ (s.slot h.slot).state = .free) → s.onlyAnswers c p r .stale [])
      ∧ ∀ q : Permit, s.handle h.slot = h → (s.slot h.slot).state.record = some q →
          ((c ∈ [Command.release, .renew, .restage] → q.owner ≠ p → s.onlyAnswers c p r .notOwner [])
            ∧ (c ∈ [Command.retire, .query] → q.owner ≠ p → p = .control → s.onlyAnswers c p r .notOwner [])
            ∧ (∀ cause : Closure, (s.slot h.slot).state = .closed q cause → q.owner = p ∨ c = .revoke →
                c ∈ [Command.release, .renew, .restage, .revoke] → s.onlyAnswers c p r .wrongState [])
            ∧ ((∀ cause : Closure, (s.slot h.slot).state ≠ .closed q cause) → q.owner = p ∨ p = .supervisor →
                c = .retire → s.onlyAnswers c p r .wrongState [])
            ∧ ((∀ run : RunPart, (s.slot h.slot).state ≠ .live q run) → q.owner = p →
                c ∈ [Command.renew, .restage] → s.onlyAnswers c p r .wrongState []))

/-- RELEASE by the owner frees a WAITING, ARMED or LIVE permit: its slot is FREE with the next generation and no permit
notice names it. From LIVE its outputs leave HELD, END is given and a scan follows; from WAITING its dependents are lost, down
the chain, and a scan follows; from ARMED its dependents are lost, down the chain, and there is no scan. Of the notice entries
that stood before, exactly those of the freed slot are gone, and each other one is kept with its repeat count, but for the one
post of each permit that the command closes or grants. Of what the last tick has left due, exactly the events of the parts that
the command drops are due no longer (log entries 2 and 24) (R7, R11, R12, R13, R14, R15, R21, R37, R38, R105, R117, R142). -/
def Obligations.ReleaseFreesThePermit : Prop :=
  ∀ (s : State) (p : Port) (r : Request) (h : Handle) (q : Permit), s.carries p r .release →
    h = handleAt r.params 0 → s.handle h.slot = h → (s.slot h.slot).state.record = some q → q.owner = p →
    (∀ cause : Closure, (s.slot h.slot).state ≠ .closed q cause) →
    ∃ t : State, exec .release s = .next t ∧ s.answered t p r .ok []
      ∧ t.slot h.slot = { generation := (s.slot h.slot).generation + 1, state := .free }
      ∧ (∀ e ∈ (t.notices.get p).entries, e.notice.slot ≠ some h.slot)
      ∧ (s.noticesFollow t fun _ => False)
      ∧ s.othersKept t h.slot ∧ s.settingsKept t ∧ s.keepsDue t
      ∧ (∀ run : RunPart, (s.slot h.slot).state = .live q run →
          s.departed t h.slot ∧ s.endsDelivered t h.slot)
      ∧ (∀ w : Nat, (s.slot h.slot).state = .waiting q w →
          h.slot ∉ t.waitQueue ∧ s.dependentsLost t h.slot ∧ s.channelsKept t (fun _ => false)
            ∧ t.groups = s.groups ∧ s.leftQueue t h.slot)
      ∧ ∀ part : ArmedPart, (s.slot h.slot).state = .armed q part →
          t.waitQueue = s.waitQueue ∧ s.anchorLost t h.slot

/-- REVOKE closes a WAITING, ARMED or LIVE permit of either port with cause REVOKED, its record kept, and notices the owner;
the work of the state left, its scan and the loss of its dependents down the chain included, is the same as for RELEASE. Each
notice entry that stood before is kept with its repeat count, but for the one post of each permit that the command closes or
grants; and of what the last tick has left due, exactly the events of the parts that the command drops are due no longer (log
entries 2 and 24) (R11, R12, R13, R19, R21, R37, R38, R105, R117, R142). -/
def Obligations.RevokeClosesThePermit : Prop :=
  ∀ (s : State) (p : Port) (r : Request) (h : Handle) (q : Permit), s.carries p r .revoke →
    h = handleAt r.params 0 → s.handle h.slot = h → (s.slot h.slot).state.record = some q →
    (∀ cause : Closure, (s.slot h.slot).state ≠ .closed q cause) →
    ∃ t : State, exec .revoke s = .next t ∧ s.answered t p r .ok []
      ∧ t.slot h.slot = { generation := (s.slot h.slot).generation, state := .closed q .revoked }
      ∧ t.noticed q.owner (.closed h)
      ∧ (s.noticesFollow t fun _ => False)
      ∧ s.othersKept t h.slot ∧ s.settingsKept t ∧ s.keepsDue t
      ∧ (∀ run : RunPart, (s.slot h.slot).state = .live q run →
          s.departed t h.slot ∧ s.endsDelivered t h.slot)
      ∧ (∀ w : Nat, (s.slot h.slot).state = .waiting q w →
          h.slot ∉ t.waitQueue ∧ s.dependentsLost t h.slot ∧ s.channelsKept t (fun _ => false)
            ∧ t.groups = s.groups ∧ s.leftQueue t h.slot)
      ∧ ∀ part : ArmedPart, (s.slot h.slot).state = .armed q part →
          t.waitQueue = s.waitQueue ∧ s.anchorLost t h.slot

/-- RETIRE frees a CLOSED slot for its owner or the Supervisor Port: the next generation, the permit's notices gone from its
owner's set, and nothing else; what the last tick has left due stays due. PURGE does so for exactly the CLOSED slots of the port
it names and reports how many; a port code above 1 is refused BAD_PARAM (log entry 2) (R7, R14, R16, R20, R21). -/
def Obligations.RetireAndPurgeFreeClosedSlots : Prop :=
  (∀ (s : State) (p : Port) (r : Request) (h : Handle) (q : Permit) (cause : Closure), s.carries p r .retire →
      h = handleAt r.params 0 → s.handle h.slot = h → (s.slot h.slot).state = .closed q cause →
      q.owner = p ∨ p = .supervisor →
      ∃ t : State, exec .retire s = .next t ∧ s.answered t p r .ok []
        ∧ t.slot h.slot = { generation := (s.slot h.slot).generation + 1, state := .free }
        ∧ (∀ j : SlotNo, j ≠ h.slot → t.slot j = s.slot j)
        ∧ t.notices.get q.owner =
            { s.notices.get q.owner with
              entries := (s.notices.get q.owner).entries.filter fun e => decide (e.notice.slot ≠ some h.slot) }
        ∧ t.notices.get (otherPort q.owner) = s.notices.get (otherPort q.owner)
        ∧ s.keepsDue t
        ∧ t = { s with slots := t.slots, notices := t.notices, ports := t.ports, lastServed := t.lastServed,
                       due := t.due })
    ∧ (∀ (s : State) (p : Port) (r : Request), s.carries p r .purge →
      (1 < byteAt r.params 0 → s.onlyAnswers .purge p r .badParam [])
        ∧ ∀ owner : Port, byteAt r.params 0 = portCode owner →
            ∃ t : State, exec .purge s = .next t
              ∧ s.answered t p r .ok (byteOf (allSlots.countP (s.closedOf owner)))
              ∧ (∀ i : SlotNo, t.slot i =
                  if s.closedOf owner i then { generation := (s.slot i).generation + 1, state := .free } else s.slot i)
              ∧ (∀ e : NoticeEntry, e ∈ (t.notices.get owner).entries ↔
                  e ∈ (s.notices.get owner).entries ∧ ∀ i ∈ e.notice.slot, s.closedOf owner i = false)
              ∧ t.notices.get owner = { s.notices.get owner with entries := (t.notices.get owner).entries }
              ∧ t.notices.get (otherPort owner) = s.notices.get (otherPort owner)
              ∧ s.keepsDue t
              ∧ t = { s with slots := t.slots, notices := t.notices, ports := t.ports, lastServed := t.lastServed,
                             due := t.due })

/-- QUERY reports the record and changes nothing: handle, state, flags, output entries, the pattern in force with 0 for what
its kind does not use, lease, wait limit, chain depth, the optional fields that are present, and the one part of the slot's
state; its length is the one that R185 computes (R17, R184, R185). -/
def Obligations.QueryReportsTheRecord : Prop :=
  ∀ (s : State) (p : Port) (r : Request) (h : Handle) (q : Permit) (flags : Byte) (on off count : Nat)
      (entries part : List Byte), s.carries p r .query →
    h = handleAt r.params 0 → s.handle h.slot = h → (s.slot h.slot).state.record = some q →
    q.owner = p ∨ p = .supervisor →
    flags.getLsbD 7 = decide (q.owner = .supervisor) → flags.getLsbD 6 = q.closeOnCompletion →
    flags.getLsbD 5 = q.renewGuard.isSome → flags.getLsbD 4 = q.anchor.isSome → flags.getLsbD 3 = q.label.isSome →
    flags.toNat % 8 = (match q.pattern with | .steady => 0 | .pulse _ => 1 | .cycle _ _ => 2 | .burst _ _ _ => 3) →
    (on, off, count) =
      (match q.pattern with
        | .steady => (0, 0, 0)
        | .pulse a => (a, 0, 0)
        | .cycle a b => (a, b, 0)
        | .burst a b c => (a, b, c)) →
    entries.length = q.outputs.length →
    (∀ (k : Nat) (e : OutputEntry) (b : Byte), q.outputs[k]? = some e → entries[k]? = some b →
      b.getLsbD 7 = e.invert ∧ b.toNat % 128 = e.output.val) →
    (∀ w : Nat, (s.slot h.slot).state = .waiting q w → part = wordOf w ++ byteOf (s.waitQueue.idxOf h.slot + 1)) →
    ((s.slot h.slot).state = .armed q .awaitingEvent → part = [0, 0, 0]) →
    (∀ d : Nat, (s.slot h.slot).state = .armed q (.delaying d) → part = [1] ++ wordOf d) →
    (∀ run : RunPart, (s.slot h.slot).state = .live q run →
      ∃ presence : Byte, presence.getLsbD 7 = run.leaseRemaining.isSome ∧ presence.getLsbD 6 = run.phaseRemaining.isSome
        ∧ presence.getLsbD 5 = run.cyclesRemaining.isSome ∧ presence.getLsbD 4 = run.staged.isSome
        ∧ presence.toNat % 16 = 0
        ∧ part = [presence, match run.phase with | .on => 0 | .off => 1 | .done => 2]
            ++ (run.leaseRemaining.toList.flatMap wordOf) ++ (run.phaseRemaining.toList.flatMap wordOf)
            ++ (run.cyclesRemaining.toList.flatMap byteOf)
            ++ (run.staged.toList.flatMap fun pair => wordOf pair.1 ++ wordOf pair.2)) →
    (∀ cause : Closure, (s.slot h.slot).state = .closed q cause →
      part = (match cause with
        | .expired => [1, 0, 0]
        | .tripped l => [2] ++ wordOf l.val
        | .fault o => [3] ++ wordOf o.val
        | .revoked => [4, 0, 0]
        | .anchorLost a => [5] ++ wordOf (handleWord a).toNat
        | .waitTimeout => [6, 0, 0]
        | .blocked reason => [7] ++ wordOf (blockReasonCode reason)
        | .completed => [8, 0, 0])) →
    ∃ payload : List Byte, s.onlyAnswers .query p r .ok payload
      ∧ payload =
          wordOf (handleWord h).toNat
            ++ byteOf (match (s.slot h.slot).state with
                | .free => 0 | .waiting _ _ => 1 | .armed _ _ => 2 | .live _ _ => 3 | .closed _ _ => 4)
            ++ [flags] ++ byteOf q.outputs.length ++ entries ++ wordOf on ++ wordOf off ++ byteOf count
            ++ wordOf q.lease ++ wordOf q.waitLimit ++ byteOf q.chainDepth ++ (q.renewGuard.toList.flatMap wordOf)
            ++ (q.anchor.toList.flatMap fun a =>
                wordOf (handleWord a.handle).toNat ++ byteOf (match a.event with | .grant => 0 | .ending => 1)
                  ++ wordOf a.delay)
            ++ (q.label.toList.flatMap wordOf) ++ part
      ∧ payload.length =
          5 + q.outputs.length + 10 + (if q.renewGuard.isSome then 2 else 0) + (if q.anchor.isSome then 5 else 0)
            + (if q.label.isSome then 2 else 0)
            + (match (s.slot h.slot).state with
               | .free => 0
               | .waiting _ _ => 3
               | .armed _ _ => 3
               | .closed _ _ => 3
               | .live _ run =>
                 2 + (if run.leaseRemaining.isSome then 2 else 0) + (if run.phaseRemaining.isSome then 2 else 0)
                   + (if run.cyclesRemaining.isSome then 1 else 0) + (if run.staged.isSome then 4 else 0))

/-- LIST reports, in ascending order, up to 16 slots of a port that are not FREE from the start slot on, with the slot to
go on from or 0xFF; and its refusals where only one of them applies (R18, R183). -/
def Obligations.ListReportsSlotsInPages : Prop :=
  ∀ (s : State) (p : Port) (r : Request) (start : Nat), s.carries p r .list → start = byteAt r.params 0 →
    (∀ who : Port, start ≤ 31 →
      (r.params.length = 1 ∧ who = p)
        ∨ (r.params.length = 2 ∧ byteAt r.params 1 = portCode who ∧ (p = .supervisor ∨ who = .control)) →
      ∃ (all : List SlotNo) (next : Nat),
        all.Pairwise (fun i j => i.val < j.val)
          ∧ (∀ i : SlotNo, i ∈ all ↔ start ≤ i.val ∧ (s.slot i).state.ownedBy who = true)
          ∧ (all.length ≤ 16 → next = 0xFF)
          ∧ (16 < all.length → ∃ i : SlotNo, (all.take 16).getLast? = some i ∧ next = i.val + 1)
          ∧ s.onlyAnswers .list p r .ok
              (byteOf (all.take 16).length ++ byteOf next
                ++ (all.take 16).flatMap fun i =>
                    wordOf (handleWord (s.handle i)).toNat ++ byteOf (slotStateCode (s.slot i).state)))
      ∧ (r.params.length = 2 → 1 < byteAt r.params 1 → s.onlyAnswers .list p r .badParam [])
      ∧ (31 < start → r.params.length = 1 ∨ p = .supervisor ∨ byteAt r.params 1 = portCode .control →
          s.onlyAnswers .list p r .badParam [])
      ∧ (start ≤ 31 → r.params.length = 2 → byteAt r.params 1 = portCode .supervisor → p = .control →
          s.onlyAnswers .list p r .notPermitted [])

/-! ## Reports and notices -/

/-- FIND may be sent by either port. It reports the channel and changes nothing: its state, the holder's port, the
holder's handle to the holder's owner alone, levels, supervision and whether a set latch maps the output; an output
above 15 is refused BAD_PARAM (R125, R182, R183). That bits 1 and 0 of the flags byte are 0 is the model's reading: R183 does
not name them (log entry 26). -/
def Obligations.FindReportsTheChannel : Prop :=
  (∀ p : Port, permitted .find p = true) ∧ ∀ (s : State) (p : Port) (r : Request), s.carries p r .find →
    (15 < byteAt r.params 0 → s.onlyAnswers .find p r .badParam [])
      ∧ ∀ (o : OutputNo) (f : Byte) (settle : Nat), byteAt r.params 0 = o.val →
          f.getLsbD 4 = decide ((s.channel o).expected = .on) → f.getLsbD 3 = decide ((s.channel o).feedback = .on) →
          f.getLsbD 2 = s.underTrip o → f.getLsbD 1 = false → f.getLsbD 0 = false →
          settle = (match (s.channel o).supervision with
            | .settling n => n | .unsupervised => 0 | .watching => 0 | .suspended => 0) →
          (∀ (i : SlotNo) (b : Bool) (q : Permit), (s.channel o).state = .held i b →
              (s.slot i).state.record = some q → f.getLsbD 7 = true → f.getLsbD 6 = decide (q.owner = p) →
              f.getLsbD 5 = b →
              s.onlyAnswers .find p r .ok
                ([1, f] ++ byteOf (portCode q.owner)
                  ++ wordOf (if q.owner = p then (handleWord (s.handle i)).toNat else 0)
                  ++ byteOf (supervisionCode (s.channel o).supervision) ++ byteOf settle))
            ∧ ((s.channel o).state.isHeld = false → f.getLsbD 7 = false → f.getLsbD 6 = false →
                f.getLsbD 5 = false →
                s.onlyAnswers .find p r .ok
                  (byteOf (channelStateCode (s.channel o).state) ++ [f, 0, 0, 0]
                    ++ byteOf (supervisionCode (s.channel o).supervision) ++ byteOf settle))

/-- DEVICE_STATUS may be sent by either port and takes no parameters. It reports mode, epoch, reset cause, free slots,
queue length, the latched lines, the faulted outputs and the used counts, and changes nothing (R164, R182, R183). -/
def Obligations.DeviceStatusReportsThePart : Prop :=
  (∀ p : Port, permitted .deviceStatus p = true) ∧ (∀ ps : List Byte, lengthOk .deviceStatus ps = true ↔ ps = [])
    ∧ ∀ (s : State) (p : Port) (r : Request) (latched : Byte) (faulted : Word16), s.carries p r .deviceStatus →
    (∀ k : Fin 8, latched.getLsbD k.val = (if h : k.val < 4 then (s.line ⟨k.val, h⟩).latched else false)) →
    (∀ o : OutputNo, faulted.getLsbD o.val = decide ((s.channel o).state = .faulted)) →
    s.onlyAnswers .deviceStatus p r .ok
      (byteOf (modeCode s.mode) ++ byteOf s.epoch.toNat ++ byteOf (resetCauseCode s.resetCause)
        ++ byteOf (32 - (s.usedCount .control + s.usedCount .supervisor)) ++ byteOf s.waitQueue.length
        ++ [latched] ++ wordOf faulted.toNat
        ++ byteOf (s.usedCount .control) ++ byteOf (s.usedCount .supervisor))

/-- READ_CONFIG may be sent by either port. It reports the item's values in force, with the quiet remaining for GROUP
and the filter count and latch for TRIP, and changes nothing; an unknown item or index is refused BAD_PARAM (R47, R114,
R130, R159, R182, R183). -/
def Obligations.ReadConfigReportsTheItem : Prop :=
  (∀ p : Port, permitted .readConfig p = true)
    ∧ ∀ (s : State) (p : Port) (r : Request) (item k : Nat), s.carries p r .readConfig → item = byteAt r.params 0 →
    k = byteAt r.params 1 →
    (item = 1 → s.onlyAnswers .readConfig p r .ok (wordOf s.tickDivider))
      ∧ (∀ o : OutputNo, item = 2 → k = o.val →
          s.onlyAnswers .readConfig p r .ok
            (byteOf (polarityCode (s.channel o).polarity) ++ byteOf (s.channel o).settleTime))
      ∧ (∀ g : GroupNo, item = 3 → k = g.val →
          s.onlyAnswers .readConfig p r .ok
            (wordOf (s.group g).members.toNat ++ wordOf (s.group g).deadTime ++ wordOf (s.group g).quietRemaining))
      ∧ (∀ l : LineNo, item = 4 → k = l.val →
          s.onlyAnswers .readConfig p r .ok
            ([if (s.line l).enabled then 1 else 0] ++ byteOf (activeLevelCode (s.line l).activeLevel)
              ++ byteOf (s.line l).filterLength ++ wordOf (s.line l).map.toNat ++ byteOf (s.line l).filterCount
              ++ [if (s.line l).latched then 1 else 0]))
      ∧ (item = 5 → s.onlyAnswers .readConfig p r .ok (wordOf s.reserved.toNat))
      ∧ (∀ q : Port, item = 6 → k = portCode q → s.onlyAnswers .readConfig p r .ok (byteOf (s.quota.get q)))
      ∧ (∀ q : Port, item = 7 → k = portCode q →
          s.onlyAnswers .readConfig p r .ok (byteOf (s.notices.get q).mask.toNat))
      ∧ (∀ q : Port, item = 8 → k = portCode q →
          s.onlyAnswers .readConfig p r .ok
            (byteOf (match (s.notices.get q).promoted with | some kind => noticeKindCode kind | none => 0)))
      ∧ ((item = 2 ∧ 15 < k) ∨ (item = 3 ∧ 7 < k) ∨ (item = 4 ∧ 3 < k) ∨ (6 ≤ item ∧ item ≤ 8 ∧ 1 < k)
            ∨ item = 0 ∨ 8 < item →
          s.onlyAnswers .readConfig p r .badParam [])

/-- READ_NOTICE returns and removes the first entry of its port's set, the promoted kind first, then by kind, TRIP, FAULT,
CLOSED, GRANTED, COMPLETED, and within a kind by subject number: the line, the output, or the slot; with the number left. An
empty set is answered EMPTY; the other port's set is untouched. An attention line stands low exactly while its port's set
holds an entry (R141, R145, R149, R182). -/
def Obligations.ReadNoticeTakesTheFirstEntry : Prop :=
  (∀ m m' : Notice, (noticeKindCode m.kind < noticeKindCode m'.kind → m.place < m'.place)
      ∧ (∀ l l' : LineNo, m = .trip l → m' = .trip l' → l.val < l'.val → m.place < m'.place)
      ∧ (∀ o o' : OutputNo, m = .fault o → m' = .fault o' → o.val < o'.val → m.place < m'.place)
      ∧ (∀ h h' : Handle, h.slot.val < h'.slot.val →
          (m = .closed h ∧ m' = .closed h') ∨ (m = .granted h ∧ m' = .granted h')
            ∨ (m = .completed h ∧ m' = .completed h') → m.place < m'.place))
    ∧ (∀ (s : State) (p : Port), s.attentionLine p = (if (s.notices.get p).entries = [] then .high else .low))
    ∧ ∀ (s : State) (p : Port) (r : Request), s.carries p r .readNotice → s.noticeLaw →
        ((s.notices.get p).entries = [] → s.onlyAnswers .readNotice p r .empty [])
          ∧ ((s.notices.get p).entries ≠ [] →
              ∃ (t : State) (e : NoticeEntry), exec .readNotice s = .next t ∧ e ∈ (s.notices.get p).entries
                ∧ ((∃ k : NoticeKind, (s.notices.get p).promoted = some k ∧ e.notice.kind = k
                      ∧ ∀ e' ∈ (s.notices.get p).entries, e'.notice.kind = k → e.notice.place ≤ e'.notice.place)
                    ∨ ((∀ e' ∈ (s.notices.get p).entries, (s.notices.get p).promoted ≠ some e'.notice.kind)
                      ∧ ∀ e' ∈ (s.notices.get p).entries, e.notice.place ≤ e'.notice.place))
                ∧ t.notices.get p = { s.notices.get p with entries := (t.notices.get p).entries }
                ∧ (∀ e' : NoticeEntry, e' ∈ (t.notices.get p).entries ↔
                    e' ∈ (s.notices.get p).entries ∧ e' ≠ e)
                ∧ t.notices.get (otherPort p) = s.notices.get (otherPort p)
                ∧ s.answered t p r .ok
                    (byteOf (noticeKindCode e.notice.kind) ++ byteOf e.count ++ wordOf e.notice.subject
                      ++ byteOf (t.notices.get p).entries.length)
                ∧ t = { s with notices := t.notices, ports := t.ports, lastServed := t.lastServed })

/-! ## RENEW and RESTAGE -/

/-- RENEW of a LIVE permit by its owner: NOT_LEASED without a lease; TOO_EARLY with lease remaining and guard while more
than the guard remains; otherwise the lease remaining becomes the lease, and nothing else changes (R65, R66, R67). -/
def Obligations.RenewSetsTheFullLease : Prop :=
  ∀ (s : State) (p : Port) (r : Request) (h : Handle) (q : Permit) (run : RunPart), s.carries p r .renew →
    h = handleAt r.params 0 → s.handle h.slot = h → (s.slot h.slot).state = .live q run → q.owner = p →
    (run.leaseRemaining = none → s.onlyAnswers .renew p r .notLeased [])
      ∧ (∀ n g : Nat, run.leaseRemaining = some n → q.renewGuard = some g → g < n →
          s.onlyAnswers .renew p r .tooEarly (wordOf n ++ wordOf g))
      ∧ ∀ n : Nat, run.leaseRemaining = some n → (∀ g ∈ q.renewGuard, n ≤ g) →
          ∃ t : State, exec .renew s = .next t ∧ s.answered t p r .ok (wordOf q.lease)
            ∧ t.slot h.slot =
                { generation := (s.slot h.slot).generation
                  state := .live q { run with leaseRemaining := some q.lease } }
            ∧ (∀ j : SlotNo, j ≠ h.slot → t.slot j = s.slot j)
            ∧ t = { s with slots := t.slots, ports := t.ports, lastServed := t.lastServed }

/-- RESTAGE of a LIVE CYCLE or BURST permit that is not in DONE stages the pair, in place of one staged before, answers OK
or REPLACED with the phase as it stands, and changes nothing else; a STEADY or PULSE permit or one in DONE gives WRONG_STATE,
and a duration of 0 BAD_PARAM (R87, R88). -/
def Obligations.RestageStagesThePair : Prop :=
  ∀ (s : State) (p : Port) (r : Request) (h : Handle) (q : Permit) (run : RunPart) (on off : Nat),
    s.carries p r .restage → h = handleAt r.params 0 → on = wordAt r.params 2 → off = wordAt r.params 4 →
    s.handle h.slot = h → (s.slot h.slot).state = .live q run → q.owner = p →
    (q.pattern = .steady ∨ (∃ n : Nat, q.pattern = .pulse n) ∨ run.phase = .done →
        s.onlyAnswers .restage p r .wrongState [])
      ∧ ((∃ a b : Nat, q.pattern = .cycle a b ∨ ∃ k : Nat, q.pattern = .burst a b k) → run.phase ≠ .done →
          (on = 0 ∨ off = 0 → s.onlyAnswers .restage p r .badParam [])
            ∧ (on ≠ 0 → off ≠ 0 →
                ∃ t : State, exec .restage s = .next t
                  ∧ s.answered t p r (if run.staged = none then .ok else .replaced)
                      (byteOf (match run.phase with | .on => 0 | .off => 1 | .done => 2)
                        ++ wordOf (run.phaseRemaining.getD 0) ++ byteOf (run.cyclesRemaining.getD 0))
                  ∧ t.slot h.slot =
                      { generation := (s.slot h.slot).generation
                        state := .live q { run with staged := some (on, off) } }
                  ∧ (∀ j : SlotNo, j ≠ h.slot → t.slot j = s.slot j)
                  ∧ t = { s with slots := t.slots, ports := t.ports, lastServed := t.lastServed }))

/-! ## Configuration -/

/-- A CONFIGURE of an unknown item is refused BAD_PARAM in every mode, and one of a locked item outside SETUP is refused
LOCKED whatever its index and values; neither changes anything (R158). -/
def Obligations.ConfigureRefusesUnknownAndLocked : Prop :=
  ∀ (s : State) (p : Port) (r : Request),
    (s.carries p r .configureUnknownItem → s.onlyAnswers .configureUnknownItem p r .badParam [])
      ∧ ∀ c ∈ [Command.configureTickDivider, .configureOutput, .configureGroup, .configureTrip, .configureReserved,
            .configureQuota], s.carries p r c → s.mode ≠ .setup → s.onlyAnswers c p r .locked []

/-- CONFIGURE of GROUP in SETUP replaces member set and dead time together and keeps the quiet timer. CONFIGURE of OUTPUT in
SETUP replaces polarity and settle time together; supervision starts again on an IDLE output and stays SUSPENDED on a
FAULTED one, and the line stands at the new OFF level. A value out of range is refused BAD_PARAM (R47, R48, R114, R117). That
the feedback sample is kept as ON or OFF is the model's reading (log entry 22); where the output's settle end is still due,
the tick is taken after the command, and its sample is the line's level in the new polarity (log entry 2). -/
def Obligations.ConfigureGroupAndOutput : Prop :=
  (∀ (s : State) (p : Port) (r : Request), s.carries p r .configureGroup → s.mode = .setup →
      (7 < byteAt r.params 1 ∨ 4095 < wordAt r.params 4 → s.onlyAnswers .configureGroup p r .badParam [])
        ∧ ∀ g : GroupNo, byteAt r.params 1 = g.val → wordAt r.params 4 ≤ 4095 →
            ∃ t : State, exec .configureGroup s = .next t ∧ s.answered t p r .ok []
              ∧ t.group g =
                  { members := BitVec.ofNat 16 (wordAt r.params 2)
                    deadTime := wordAt r.params 4
                    quietRemaining := (s.group g).quietRemaining }
              ∧ (∀ g' : GroupNo, g' ≠ g → t.group g' = s.group g')
              ∧ t = { s with groups := t.groups, ports := t.ports, lastServed := t.lastServed })
    ∧ (∀ (s : State) (p : Port) (r : Request), s.carries p r .configureOutput → s.mode = .setup → s.setupLaw →
      (15 < byteAt r.params 1 ∨ 1 < byteAt r.params 2 → s.onlyAnswers .configureOutput p r .badParam [])
        ∧ ∀ (o : OutputNo) (pol : Polarity), byteAt r.params 1 = o.val → byteAt r.params 2 = polarityCode pol →
            ∃ t : State, exec .configureOutput s = .next t ∧ s.answered t p r .ok []
              ∧ (t.channel o).polarity = pol ∧ (t.channel o).settleTime = byteAt r.params 3
              ∧ (t.channel o).state = (s.channel o).state ∧ (t.channel o).expected = .off
              ∧ (TickEvent.settle o ∉ s.due → (t.channel o).feedback = (s.channel o).feedback)
              ∧ (TickEvent.settle o ∈ s.due →
                  ((t.channel o).feedback = (s.channel o).feedback ↔ pol = (s.channel o).polarity))
              ∧ t.outputLine o = (match pol with | .activeHigh => .low | .activeLow => .high)
              ∧ ((s.channel o).state = .idle →
                  (t.channel o).supervision =
                    if byteAt r.params 3 = 0 then .unsupervised else .settling (byteAt r.params 3))
              ∧ ((s.channel o).state = .faulted → (t.channel o).supervision = (s.channel o).supervision)
              ∧ (∀ o' : OutputNo, o' ≠ o → t.channel o' = s.channel o')
              ∧ t = { s with channels := t.channels, ports := t.ports, lastServed := t.lastServed })

/-- CONFIGURE of TRIP in SETUP replaces the four values together, with the effect on filter count and latch that the table of
R130 gives; a line above 3, an unknown active level or a filter length of 0 or above 15 is refused BAD_PARAM (R130). -/
def Obligations.ConfigureTripActsOnCountAndLatch : Prop :=
  ∀ (s : State) (p : Port) (r : Request), s.carries p r .configureTrip → s.mode = .setup → s.setupLaw →
    (3 < byteAt r.params 1 ∨ 1 < byteAt r.params 3 ∨ byteAt r.params 4 = 0 ∨ 15 < byteAt r.params 4 →
        s.onlyAnswers .configureTrip p r .badParam [])
      ∧ ∀ (l : LineNo) (level : Electrical), byteAt r.params 1 = l.val → byteAt r.params 3 = activeLevelCode level →
          1 ≤ byteAt r.params 4 → byteAt r.params 4 ≤ 15 →
          ∃ t : State, exec .configureTrip s = .next t ∧ s.answered t p r .ok []
            ∧ (t.line l).enabled = decide (byteAt r.params 2 ≠ 0) ∧ (t.line l).activeLevel = level
            ∧ (t.line l).filterLength = byteAt r.params 4
            ∧ (t.line l).map = BitVec.ofNat 16 (wordAt r.params 5)
            ∧ ((s.line l).enabled = false ∨ byteAt r.params 2 = 0 →
                (t.line l).filterCount = 0 ∧ (t.line l).latched = false)
            ∧ ((s.line l).enabled = true → byteAt r.params 2 ≠ 0 →
                (t.line l).latched = (s.line l).latched
                  ∧ (t.line l).filterCount =
                      if (s.line l).activeLevel = level ∧ (s.line l).filterLength = byteAt r.params 4
                      then (s.line l).filterCount else 0)
            ∧ (∀ l' : LineNo, l' ≠ l → t.line l' = s.line l')
            ∧ t = { s with tripLines := t.tripLines, ports := t.ports, lastServed := t.lastServed }

/-- CONFIGURE of TICK_DIVIDER, RESERVED and QUOTA in SETUP: each replaces its item and nothing else, TICK_DIVIDER with the
divider count at 0; a divider below 10 is refused, and so is a quota above 32, below the used count, or with a sum above 32
(R9, R160, R161). -/
def Obligations.ConfigureWritesTheStore : Prop :=
  ∀ (s : State) (p : Port) (r : Request), s.mode = .setup →
    (s.carries p r .configureTickDivider →
        (wordAt r.params 1 < 10 → s.onlyAnswers .configureTickDivider p r .badParam [])
          ∧ (10 ≤ wordAt r.params 1 →
              ∃ t : State, exec .configureTickDivider s = .next t ∧ s.answered t p r .ok []
                ∧ t = { s with
                        tickDivider := wordAt r.params 1
                        dividerCount := 0
                        ports := t.ports
                        lastServed := t.lastServed }))
      ∧ (s.carries p r .configureReserved →
          ∃ t : State, exec .configureReserved s = .next t ∧ s.answered t p r .ok []
            ∧ t = { s with
                    reserved := BitVec.ofNat 16 (wordAt r.params 1)
                    ports := t.ports
                    lastServed := t.lastServed })
      ∧ (s.carries p r .configureQuota →
          (1 < byteAt r.params 1 → s.onlyAnswers .configureQuota p r .badParam [])
            ∧ ∀ q : Port, byteAt r.params 1 = portCode q →
                (32 < byteAt r.params 2 ∨ byteAt r.params 2 < s.usedCount q
                    ∨ 32 < byteAt r.params 2 + s.quota.get (otherPort q) →
                  s.onlyAnswers .configureQuota p r .badParam [])
                  ∧ (byteAt r.params 2 ≤ 32 → s.usedCount q ≤ byteAt r.params 2 →
                      byteAt r.params 2 + s.quota.get (otherPort q) ≤ 32 →
                      ∃ t : State, exec .configureQuota s = .next t ∧ s.answered t p r .ok []
                        ∧ t.quota.get q = byteAt r.params 2
                        ∧ t.quota.get (otherPort q) = s.quota.get (otherPort q)
                        ∧ t = { s with quota := t.quota, ports := t.ports, lastServed := t.lastServed }))

/-- CONFIGURE of NOTICE_MASK, in every mode, replaces the mask and removes exactly the entries of kinds not in it;
CONFIGURE of NOTICE_PROMOTE replaces the promoted kind and touches no entry; the other port is untouched, and a value out of
range is refused BAD_PARAM (R147, R148). -/
def Obligations.ConfigureNoticesInEveryMode : Prop :=
  ∀ (s : State) (p : Port) (r : Request),
    (s.carries p r .configureNoticeMask →
        (1 < byteAt r.params 1 ∨ 31 < byteAt r.params 2 → s.onlyAnswers .configureNoticeMask p r .badParam [])
          ∧ ∀ q : Port, byteAt r.params 1 = portCode q → byteAt r.params 2 ≤ 31 →
              ∃ t : State, exec .configureNoticeMask s = .next t ∧ s.answered t p r .ok []
                ∧ (∀ k : NoticeKind, maskHas (t.notices.get q).mask k =
                    (byteAt r.params 2).testBit (noticeKindCode k - 1))
                ∧ (t.notices.get q).promoted = (s.notices.get q).promoted
                ∧ (t.notices.get q).entries =
                    (s.notices.get q).entries.filter fun e => maskHas (t.notices.get q).mask e.notice.kind
                ∧ t.notices.get (otherPort q) = s.notices.get (otherPort q)
                ∧ t = { s with notices := t.notices, ports := t.ports, lastServed := t.lastServed })
      ∧ (s.carries p r .configureNoticePromote →
          (1 < byteAt r.params 1 ∨ 5 < byteAt r.params 2 → s.onlyAnswers .configureNoticePromote p r .badParam [])
            ∧ ∀ q : Port, byteAt r.params 1 = portCode q → byteAt r.params 2 ≤ 5 →
                ∃ t : State, exec .configureNoticePromote s = .next t ∧ s.answered t p r .ok []
                  ∧ (byteAt r.params 2 = 0 → (t.notices.get q).promoted = none)
                  ∧ (∀ k : NoticeKind, byteAt r.params 2 = noticeKindCode k →
                      (t.notices.get q).promoted = some k)
                  ∧ (t.notices.get q).entries = (s.notices.get q).entries
                  ∧ (t.notices.get q).mask = (s.notices.get q).mask
                  ∧ t.notices.get (otherPort q) = s.notices.get (otherPort q)
                  ∧ t = { s with notices := t.notices, ports := t.ports, lastServed := t.lastServed })

/-! ## Modes, RESTART and the clearing commands -/

/-- ENTER_RUN in SETUP reports the first group of exactly one member, then a quota sum above 32, then the first enabled line
with an empty map, and otherwise takes the part to RUN and changes nothing else; outside SETUP it is refused WRONG_STATE
(R153, R154). -/
def Obligations.EnterRunChecksTheStore : Prop :=
  ∀ (s : State) (p : Port) (r : Request) (alone : GroupNo → Prop) (mapless : LineNo → Prop),
    s.carries p r .enterRun →
    (∀ g : GroupNo, alone g ↔ ∃ o : OutputNo, ∀ o' : OutputNo, inSet (s.group g).members o' = true ↔ o' = o) →
    (∀ l : LineNo, mapless l ↔ (s.line l).enabled = true ∧ ∀ o : OutputNo, inSet (s.line l).map o = false) →
    (s.mode ≠ .setup → s.onlyAnswers .enterRun p r .wrongState [])
      ∧ (s.mode = .setup →
          (∀ g : GroupNo, alone g → (∀ g' : GroupNo, g'.val < g.val → ¬ alone g') →
              s.onlyAnswers .enterRun p r .invalidConfig (byteOf 3 ++ byteOf g.val))
            ∧ ((∀ g : GroupNo, ¬ alone g) →
                (32 < s.quota.control + s.quota.supervisor →
                    s.onlyAnswers .enterRun p r .invalidConfig (byteOf 6 ++ byteOf 0))
                  ∧ (s.quota.control + s.quota.supervisor ≤ 32 →
                      (∀ l : LineNo, mapless l → (∀ l' : LineNo, l'.val < l.val → ¬ mapless l') →
                          s.onlyAnswers .enterRun p r .invalidConfig (byteOf 4 ++ byteOf l.val))
                        ∧ ((∀ l : LineNo, ¬ mapless l) →
                            ∃ t : State, exec .enterRun s = .next t ∧ s.answered t p r .ok []
                              ∧ t = { s with mode := .run, ports := t.ports, lastServed := t.lastServed }))))

/-- HOLD acts in RUN alone and changes nothing but the mode; RESUME acts in HOLD alone, sets the mode to RUN and makes one scan
of the whole queue, which leaves due what the last tick has left due, but for the waits of the permits it grants (log entry 2)
(R21, R36, R39, R153, R155, R156). -/
def Obligations.HoldAndResumeMoveTheMode : Prop :=
  ∀ (s : State) (p : Port) (r : Request),
    (s.carries p r .hold →
        (s.mode ≠ .run → s.onlyAnswers .hold p r .wrongState [])
          ∧ (s.mode = .run →
              ∃ t : State, exec .hold s = .next t ∧ s.answered t p r .ok []
                ∧ t = { s with mode := .hold, ports := t.ports, lastServed := t.lastServed }))
      ∧ (s.carries p r .resume →
          (s.mode ≠ .hold → s.onlyAnswers .resume p r .wrongState [])
            ∧ (s.mode = .hold →
                ∃ t : State, exec .resume s = .next t ∧ s.answered t p r .ok [] ∧ t.mode = .run
                  ∧ State.settingsKept { s with mode := .run } t ∧ t.groups = s.groups ∧ s.onlyGranted t
                  ∧ s.keepsDue t ∧ State.scanned { s with mode := .run } t))

/-- RESTART: every slot FREE with its generation raised, held outputs let go at OFF level with their groups' quiet time, queue
and notice sets emptied, epoch raised, the Control Port emptied, mode SETUP; store, time base, latches, faults and the
Supervisor Port kept; the answer carries the new epoch. Of what the last tick has left due, exactly the events of slots are due
no longer: quiet times, settle times and trip lines go on (log entries 2 and 24) (R21, R23, R45, R58, R128, R140, R151, R163,
R175). -/
def Obligations.RestartFreesEverySlot : Prop :=
  ∀ (s : State) (p : Port) (r : Request), s.carries p r .restart →
    p = .supervisor
      ∧ ∃ t : State, exec .restart s = .next t
          ∧ t.epoch.toNat = (s.epoch.toNat + 1) % 16 ∧ t.mode = .setup ∧ t.resetCause = .restart
          ∧ (∀ i : SlotNo, t.slot i = { generation := (s.slot i).generation + 1, state := .free })
          ∧ (∀ q : Port, t.usedCount q = 0) ∧ t.waitQueue = []
          ∧ (∀ o : OutputNo, t.channel o =
              if (s.channel o).state.isHeld then (s.channel o).driven .idle .off else s.channel o)
          ∧ s.groupsQuieted t (fun o => (s.channel o).state.isHeld)
          ∧ (∀ q : Port, t.notices.get q = { s.notices.get q with entries := [] } ∧ t.attention q = false)
          ∧ t.ports.control =
              { s.ports.control with
                mailbox := []
                responses := []
                transaction := s.ports.control.transaction.map fun x => { x with selected := none } }
          ∧ t.ports.supervisor =
              { s.ports.supervisor with
                mailbox := s.ports.supervisor.mailbox.tail
                responses := s.ports.supervisor.responses
                  ++ [{ tag := r.tag, status := .ok, payload := byteOf t.epoch.toNat }] }
          ∧ (∀ x : TickEvent, x ∈ t.due ↔ x ∈ s.due ∧ ∀ i : SlotNo, x ≠ .lease i ∧ x ≠ .wait i ∧ x ≠ .phase i ∧ x ≠ .delay i)
          ∧ t = { s with
                  epoch := t.epoch, mode := t.mode, resetCause := t.resetCause, slots := t.slots
                  waitQueue := t.waitQueue, channels := t.channels, groups := t.groups, notices := t.notices
                  ports := t.ports, lastServed := .supervisor, due := t.due }

/-- CLEAR_TRIP: BAD_PARAM above line 3, WRONG_STATE for a line that is disabled or not latched, STILL_ACTIVE while the filter
count stands at the filter length; otherwise the latch is cleared, the filter count kept, and the queue scanned. CLEAR_FAULT:
BAD_PARAM above output 15, WRONG_STATE for an output that is not FAULTED, STILL_FAULTY while its feedback sample is ON;
otherwise the output is IDLE at OFF level, supervised afresh, and a scan follows. Either leaves due what the last tick has left
due, but for the waits of the permits its scan grants (log entries 2 and 24) (R21, R36, R37, R117, R124, R137). -/
def Obligations.ClearTripAndClearFault : Prop :=
  (∀ (s : State) (p : Port) (r : Request), s.carries p r .clearTrip →
      (3 < byteAt r.params 0 → s.onlyAnswers .clearTrip p r .badParam [])
        ∧ ∀ l : LineNo, byteAt r.params 0 = l.val →
            (((s.line l).enabled = false ∨ (s.line l).latched = false) →
                s.onlyAnswers .clearTrip p r .wrongState [])
              ∧ ((s.line l).enabled = true → (s.line l).latched = true →
                  ((s.line l).filterLength ≤ (s.line l).filterCount → s.onlyAnswers .clearTrip p r .stillActive [])
                    ∧ ((s.line l).filterCount < (s.line l).filterLength →
                        ∃ t : State, exec .clearTrip s = .next t ∧ s.answered t p r .ok []
                          ∧ t.line l = { s.line l with latched := false }
                          ∧ (∀ l' : LineNo, l' ≠ l → t.line l' = s.line l')
                          ∧ State.settingsKept { s with tripLines := t.tripLines } t ∧ t.groups = s.groups
                          ∧ s.onlyGranted t ∧ s.keepsDue t ∧ State.scanned { s with tripLines := t.tripLines } t)))
    ∧ (∀ (s : State) (p : Port) (r : Request), s.carries p r .clearFault →
      (15 < byteAt r.params 0 → s.onlyAnswers .clearFault p r .badParam [])
        ∧ ∀ o : OutputNo, byteAt r.params 0 = o.val →
            ((s.channel o).state ≠ .faulted → s.onlyAnswers .clearFault p r .wrongState [])
              ∧ ((s.channel o).state = .faulted →
                  ((s.channel o).feedback = .on → s.onlyAnswers .clearFault p r .stillFaulty [])
                    ∧ ((s.channel o).feedback = .off →
                        ∃ (t u : State), exec .clearFault s = .next t ∧ s.answered t p r .ok []
                          ∧ u = { s with channels := u.channels }
                          ∧ u.channel o =
                              { s.channel o with
                                state := .idle
                                expected := .off
                                supervision := if (s.channel o).settleTime = 0 then .unsupervised
                                  else .settling (s.channel o).settleTime }
                          ∧ (∀ o' : OutputNo, o' ≠ o → u.channel o' = s.channel o')
                          ∧ u.settingsKept t ∧ t.groups = s.groups ∧ u.onlyGranted t ∧ s.keepsDue t
                          ∧ u.scanned t)))

/-! ## Ticks and their events -/

/-- TICK, with no event of an earlier tick outstanding: the divider count returns to 0, every timer that does not end falls by
one, feedback and trip inputs are sampled, and the events of exactly the counts that end at this tick are due; that an ending
count is left due, for its own row, is the model's choice (log entry 2). REFCLK_PERIOD raises the divider count by one while it
stays below TICK_DIVIDER and changes nothing else. With events of an earlier tick outstanding, both take these first, each
whole, in an order left free, and then do the same; that is the model's choice too (log entry 4); and so is that a settle time
which a command starts before the tick is counted by it, whatever the sample would have shown in WATCHING (log entry 25), and
that the counts which do not end fall before the tick's events, so that a quiet time, lease, ON phase or wait which such an
event starts has its first tick at the next one (log entry 27). The row of an event that is not due leaves the part as it is
(log entry 1) (R35, R53, R61, R78, R103, R116, R117, R119, R131, R161). -/
def Obligations.TimeBaseCountsPeriodsAndTicks : Prop :=
  (∀ (s : State) (feedback : BitVec 16) (trips : BitVec 4) (fall : Nat → Nat), s.working = true →
      s.tickDivider ≤ s.dividerCount + 1 → s.due = [] → (∀ n : Nat, fall n = if n ≤ 1 then n else n - 1) →
      ∃ t : State, exec (.tick feedback trips) s = .next t
        ∧ t = { s with dividerCount := 0, slots := t.slots, groups := t.groups, channels := t.channels,
                       tripLines := t.tripLines, due := t.due }
        ∧ (∀ i : SlotNo, (t.slot i).generation = (s.slot i).generation
            ∧ (t.slot i).state =
                match (s.slot i).state with
                | .free => .free
                | .waiting q w => .waiting q (fall w)
                | .armed q .awaitingEvent => .armed q .awaitingEvent
                | .armed q (.delaying d) => .armed q (.delaying (fall d))
                | .live q run =>
                  .live q
                    { run with
                      leaseRemaining := run.leaseRemaining.map fall
                      phaseRemaining := run.phaseRemaining.map fall }
                | .closed q c => .closed q c)
        ∧ (∀ g : GroupNo, t.group g = { s.group g with quietRemaining := fall (s.group g).quietRemaining })
        ∧ (∀ (o : OutputNo) (sample : Level),
            (sample = .on ↔ feedback.getLsbD o.val = decide ((s.channel o).polarity = .activeHigh)) →
            t.channel o =
              { s.channel o with
                feedback := sample
                supervision :=
                  match (s.channel o).supervision with
                  | .unsupervised => .unsupervised
                  | .settling n => .settling (fall n)
                  | .watching =>
                    if sample = (s.channel o).expected then .watching
                    else if (s.channel o).settleTime = 0 then .unsupervised
                    else .settling (s.channel o).settleTime
                  | .suspended => .suspended })
        ∧ (∀ (l : LineNo) (active : Bool),
            (active = true ↔ trips.getLsbD l.val = decide ((s.line l).activeLevel = .high)) →
            t.line l =
              if (s.line l).enabled = false then s.line l
              else if active = false then { s.line l with filterCount := 0 }
              else if (s.line l).filterCount + 1 < (s.line l).filterLength
                then { s.line l with filterCount := (s.line l).filterCount + 1 }
              else s.line l)
        ∧ ∀ e : TickEvent, e ∈ t.due ↔
            match e with
            | .wait i => ∃ q w, (s.slot i).state = .waiting q w ∧ w ≤ 1
            | .delay i => ∃ q d, (s.slot i).state = .armed q (.delaying d) ∧ d ≤ 1
            | .lease i => ∃ q run n, (s.slot i).state = .live q run ∧ run.leaseRemaining = some n ∧ n ≤ 1
            | .phase i => ∃ q run n, (s.slot i).state = .live q run ∧ run.phaseRemaining = some n ∧ n ≤ 1
            | .quiet g => (s.group g).quietRemaining = 1
            | .settle o => ∃ n, (s.channel o).supervision = .settling n ∧ n ≤ 1
            | .trip l sample => (s.line l).enabled = true ∧ sample = (s.line l).activeLevel
                ∧ (s.line l).filterCount + 1 = (s.line l).filterLength
                ∧ sample = if trips.getLsbD l.val then .high else .low)
    ∧ (∀ s : State, s.working = true → s.dividerCount + 1 < s.tickDivider → s.due = [] →
      exec .refclkPeriod s = .next { s with dividerCount := s.dividerCount + 1 })
    ∧ (∀ s : State,
        (∀ i : SlotNo, TickEvent.lease i ∉ s.due → exec (.leaseExpiry i) s = .next s)
          ∧ (∀ i : SlotNo, TickEvent.wait i ∉ s.due → exec (.waitTimeout i) s = .next s)
          ∧ (∀ i : SlotNo, TickEvent.phase i ∉ s.due →
              exec (.onPhaseEnd i) s = .next s ∧ exec (.cycleBoundary i) s = .next s)
          ∧ (∀ i : SlotNo, TickEvent.delay i ∉ s.due → exec (.delayEnd i) s = .next s)
          ∧ (∀ g : GroupNo, TickEvent.quiet g ∉ s.due → exec (.quietEnd g) s = .next s)
          ∧ (∀ o : OutputNo, TickEvent.settle o ∉ s.due → exec (.settleEnd o) s = .next s)
          ∧ ∀ l : LineNo, (∀ x : Electrical, TickEvent.trip l x ∉ s.due) → exec (.filteredAssertion l) s = .next s)
    ∧ ∀ (s : State) (feedback : BitVec 16) (trips : BitVec 4), s.working = true →
      ∃ u : State, Relation.ReflTransGen State.tookOne s u ∧ u.due = [] ∧ u.working = true
        ∧ u.tickDivider = s.tickDivider ∧ u.dividerCount = s.dividerCount
        ∧ (s.tickDivider ≤ s.dividerCount + 1 → exec (.tick feedback trips) s = exec (.tick feedback trips) u)
        ∧ (s.dividerCount + 1 < s.tickDivider → exec .refclkPeriod s = exec .refclkPeriod u)

/-- LEASE_EXPIRY: the permit closes EXPIRED with its record kept, its outputs leave HELD, END is given, its owner is noticed, a
scan follows, and the rest of the part is as the exit from LIVE leaves it. Where a RENEW has set the lease remaining above 1
since the tick, the tick makes it one less, and nothing expires. WAIT_TIMEOUT: the slot leaves the queue, its dependents are
lost, down the chain and each with its own anchor's handle, it closes WAIT_TIMEOUT with its owner noticed, and a scan follows,
which grants each entry left that is clear. The event is due no longer, and of the other events of the tick exactly those of
parts that it ended and the settle ends of outputs whose level it changed (R11, R12, R13, R35, R36, R37, R62, R66, R69, R105).
That a lease of 1 renewed before the tick that ends it expires too is the model's choice (log entry 23). -/
def Obligations.LeaseAndWaitRunOut : Prop :=
  (∀ (s : State) (i : SlotNo) (q : Permit) (run : RunPart) (n : Nat), TickEvent.lease i ∈ s.due →
      (s.slot i).state = .live q run → run.leaseRemaining = some n → n ≤ 1 →
      ∃ t : State, exec (.leaseExpiry i) s = .next t
        ∧ t.slot i = { generation := (s.slot i).generation, state := .closed q .expired }
        ∧ s.departed t i ∧ s.endsDelivered t i ∧ t.noticed q.owner (.closed (s.handle i)) ∧ s.portsKept t
        ∧ s.leavesDue t (.lease i))
    ∧ (∀ (s : State) (i : SlotNo) (q : Permit) (run : RunPart) (n : Nat), TickEvent.lease i ∈ s.due →
      (s.slot i).state = .live q run → run.leaseRemaining = some n → 2 ≤ n →
      ∃ t : State, exec (.leaseExpiry i) s = .next t
        ∧ t.slot i =
            { generation := (s.slot i).generation, state := .live q { run with leaseRemaining := some (n - 1) } }
        ∧ (∀ j : SlotNo, j ≠ i → t.slot j = s.slot j) ∧ t = { s with slots := t.slots, due := t.due }
        ∧ s.leavesDue t (.lease i))
    ∧ (∀ (s : State) (i : SlotNo) (q : Permit) (w : Nat), TickEvent.wait i ∈ s.due →
      (s.slot i).state = .waiting q w → w ≤ 1 →
      ∃ t : State, exec (.waitTimeout i) s = .next t
        ∧ t.slot i = { generation := (s.slot i).generation, state := .closed q .waitTimeout }
        ∧ i ∉ t.waitQueue ∧ s.dependentsLost t i ∧ s.othersKept t i ∧ s.channelsKept t (fun _ => false)
        ∧ t.groups = s.groups ∧ t.noticed q.owner (.closed (s.handle i)) ∧ s.settingsKept t ∧ s.portsKept t
        ∧ s.leftQueue t i ∧ s.leavesDue t (.wait i))

/-- ON_PHASE_END: a CYCLE or BURST enters OFF with its off duration and hands every output its OFF-phase level; a PULSE
reaches DONE, closing COMPLETED or staying LIVE with its outputs at OFF level and one post of a COMPLETED notice, every other
notice entry kept; a change of level starts an output's settle time again. The event is due no longer; the settle end of an
output whose level has changed is withdrawn, and what else is due stays but for events of parts that have ended (R76, R79,
R80, R83 to R86, R113, R117, R142). -/
def Obligations.OnPhaseEndMovesThePattern : Prop :=
  ∀ (s : State) (i : SlotNo) (q : Permit) (run : RunPart) (n : Nat), TickEvent.phase i ∈ s.due →
    (s.slot i).state = .live q run → run.phase = .on → run.phaseRemaining = some n → n ≤ 1 →
    ∃ t : State, exec (.onPhaseEnd i) s = .next t ∧ s.portsKept t ∧ s.leavesDue t (.phase i)
      ∧ (∀ off : Nat, (∃ on : Nat, q.pattern = .cycle on off ∨ ∃ k : Nat, q.pattern = .burst on off k) →
          (t.slot i).generation = (s.slot i).generation
            ∧ (t.slot i).state = .live q { run with phase := .off, phaseRemaining := some off }
            ∧ (∀ j : SlotNo, j ≠ i → t.slot j = s.slot j)
            ∧ (∀ (o : OutputNo) (b : Bool), (s.channel o).state = .held i b →
                t.channel o = (s.channel o).driven (.held i b) (if b then .on else .off))
            ∧ (∀ o : OutputNo, s.holds i o = false → t.channel o = s.channel o)
            ∧ t = { s with slots := t.slots, channels := t.channels, due := t.due })
      ∧ (∀ on : Nat, q.pattern = .pulse on →
          (q.closeOnCompletion = false →
              (t.slot i).generation = (s.slot i).generation
                ∧ (t.slot i).state =
                    .live q { run with phase := .done, phaseRemaining := none, staged := none }
                ∧ (∀ j : SlotNo, j ≠ i → t.slot j = s.slot j)
                ∧ (∀ (o : OutputNo) (b : Bool), (s.channel o).state = .held i b →
                    t.channel o = (s.channel o).driven (.held i b) .off)
                ∧ (∀ o : OutputNo, s.holds i o = false → t.channel o = s.channel o)
                ∧ t.noticed q.owner (.completed (s.handle i)) ∧ s.settingsKept t ∧ t.groups = s.groups
                ∧ s.noticesAfter t (fun p m => p = q.owner ∧ m = .completed (s.handle i)) (fun _ _ => False)
                ∧ t.waitQueue = s.waitQueue)
            ∧ (q.closeOnCompletion = true →
                t.slot i = { generation := (s.slot i).generation, state := .closed q .completed }
                  ∧ s.departed t i ∧ s.endsDelivered t i ∧ t.noticed q.owner (.closed (s.handle i))))

/-- CYCLE_BOUNDARY: a new ON phase begins under the staged pair, if one is staged, which is then dropped; a BURST counts the
cycle, and at its last goes to DONE with the pair dropped unapplied, closing COMPLETED or staying LIVE with one post of a
COMPLETED notice, every other notice entry kept; a change of level starts an output's settle time again. The event is due no
longer; the settle end of an output whose level has changed is withdrawn, and what else is due stays but for events of parts
that have ended (R76, R81 to R86, R89, R113, R117, R142). -/
def Obligations.CycleBoundaryStartsTheNextCycle : Prop :=
  ∀ (s : State) (i : SlotNo) (q : Permit) (run : RunPart) (n on off : Nat) (cycles : Option Nat),
    TickEvent.phase i ∈ s.due → (s.slot i).state = .live q run → run.phase = .off → run.phaseRemaining = some n →
    n ≤ 1 → (on, off) = run.staged.getD (q.pattern.on, q.pattern.off) →
    ((∃ a b : Nat, q.pattern = .cycle a b) ∧ run.cyclesRemaining = none ∧ cycles = none)
      ∨ ((∃ a b k : Nat, q.pattern = .burst a b k) ∧ ∃ c : Nat, run.cyclesRemaining = some c ∧ cycles = some (c - 1)) →
    ∃ t : State, exec (.cycleBoundary i) s = .next t ∧ s.portsKept t ∧ s.leavesDue t (.phase i)
      ∧ (cycles ≠ some 0 →
          (t.slot i).generation = (s.slot i).generation
            ∧ (∃ pat : Pattern, (t.slot i).state =
                .live { q with pattern := pat }
                  { run with phase := .on, phaseRemaining := some on, cyclesRemaining := cycles, staged := none }
                ∧ ((∃ a b : Nat, q.pattern = .cycle a b) → pat = .cycle on off)
                ∧ ∀ a b k : Nat, q.pattern = .burst a b k → pat = .burst on off k)
            ∧ (∀ j : SlotNo, j ≠ i → t.slot j = s.slot j)
            ∧ (∀ (o : OutputNo) (b : Bool), (s.channel o).state = .held i b →
                t.channel o = (s.channel o).driven (.held i b) (if b then .off else .on))
            ∧ (∀ o : OutputNo, s.holds i o = false → t.channel o = s.channel o)
            ∧ t = { s with slots := t.slots, channels := t.channels, due := t.due })
      ∧ (cycles = some 0 →
          (q.closeOnCompletion = false →
              (t.slot i).generation = (s.slot i).generation
                ∧ (t.slot i).state =
                    .live q
                      { run with
                        phase := .done
                        phaseRemaining := none
                        cyclesRemaining := some 0
                        staged := none }
                ∧ (∀ j : SlotNo, j ≠ i → t.slot j = s.slot j)
                ∧ (∀ (o : OutputNo) (b : Bool), (s.channel o).state = .held i b →
                    t.channel o = (s.channel o).driven (.held i b) .off)
                ∧ (∀ o : OutputNo, s.holds i o = false → t.channel o = s.channel o)
                ∧ t.noticed q.owner (.completed (s.handle i)) ∧ s.settingsKept t ∧ t.groups = s.groups
                ∧ s.noticesAfter t (fun p m => p = q.owner ∧ m = .completed (s.handle i)) (fun _ _ => False)
                ∧ t.waitQueue = s.waitQueue)
            ∧ (q.closeOnCompletion = true →
                t.slot i = { generation := (s.slot i).generation, state := .closed q .completed }
                  ∧ s.departed t i ∧ s.endsDelivered t i ∧ t.noticed q.owner (.closed (s.handle i))))

/-- DELAY_END: a chained permit makes its claim test against the whole queue; clear, it goes LIVE with its outputs HELD at
their ON-phase levels and its owner noticed, and its GRANT dependents receive their event at once; blocked with a wait limit,
it joins the queue's tail; blocked without one, its dependents are lost, down the chain and each with its own anchor's handle,
and it closes BLOCKED with the reason. Each permit granted or closed has its one post, and every other notice entry is kept; the
event is due no longer, nor is the settle end of an output whose level has changed (R12, R13, R100, R103, R104, R105, R115,
R117, R142). -/
def Obligations.DelayEndMakesTheClaimTest : Prop :=
  ∀ (s : State) (j : SlotNo) (q : Permit) (d : Nat), TickEvent.delay j ∈ s.due →
    (s.slot j).state = .armed q (.delaying d) → d ≤ 1 →
    ∃ t : State, exec (.delayEnd j) s = .next t ∧ (t.slot j).generation = (s.slot j).generation
      ∧ s.othersKept t j ∧ s.settingsKept t ∧ s.portsKept t ∧ t.groups = s.groups
      ∧ s.channelsKept t (fun _ => false) ∧ s.leavesDue t (.delay j) ∧ (s.noticesFollow t fun _ => False)
      ∧ (s.claimTest q.outputNos s.waitQueue = none →
          (t.slot j).state = .live q (newRun q) ∧ t.noticed q.owner (.granted (s.handle j))
            ∧ ∃ v : State, s.grantedTo v j q ∧ v.chainsRun t [j] (fun _ => False))
      ∧ ∀ reason : BlockReason, s.claimTest q.outputNos s.waitQueue = some reason →
          t.channels = s.channels
            ∧ (0 < q.waitLimit → (t.slot j).state = .waiting q q.waitLimit ∧ t.waitQueue = s.waitQueue ++ [j]
                ∧ t.notices = s.notices ∧ ∀ k : SlotNo, k ≠ j → t.slot k = s.slot k)
            ∧ (q.waitLimit = 0 → (t.slot j).state = .closed q (.blocked reason) ∧ t.waitQueue = s.waitQueue
                ∧ t.noticed q.owner (.closed (s.handle j)) ∧ s.anchorLost t j)

/-- QUIET_END: the group's timer stops and a scan of the whole queue follows; no other timer moves; the event is due no longer,
nor is the settle end of an output whose level the scan has changed. Where a departure taken since the tick has set the quiet
remaining above 1 again, the tick is the first of the new quiet time: the timer falls by one and there is no scan; that it is
so where the departure is an event of the same tick is the model's choice (log entry 27) (R36, R52, R53, R54, R117). -/
def Obligations.QuietEndScansTheQueue : Prop :=
  (∀ (s : State) (g : GroupNo), TickEvent.quiet g ∈ s.due → 2 ≤ (s.group g).quietRemaining →
    ∃ t : State, exec (.quietEnd g) s = .next t
      ∧ t.group g = { s.group g with quietRemaining := (s.group g).quietRemaining - 1 }
      ∧ (∀ g' : GroupNo, g' ≠ g → t.group g' = s.group g')
      ∧ t = { s with groups := t.groups, due := t.due } ∧ s.leavesDue t (.quiet g))
  ∧ ∀ (s : State) (g : GroupNo), TickEvent.quiet g ∈ s.due → (s.group g).quietRemaining = 1 →
    ∃ t : State, exec (.quietEnd g) s = .next t
      ∧ t.group g = { s.group g with quietRemaining := 0 }
      ∧ (∀ g' : GroupNo, g' ≠ g → t.group g' = s.group g')
      ∧ s.settingsKept t ∧ s.portsKept t ∧ s.onlyGranted t
      ∧ State.scanned { s with groups := t.groups } t ∧ s.leavesDue t (.quiet g)

/-- SETTLE_END: a match goes to WATCHING; a mismatch declares the output FAULTED, SUSPENDED and driven OFF, with one post of
a FAULT notice to each port, and closes a LIVE holder with cause FAULT through the exit from LIVE, its scan included; an output
that was not held starts no quiet time, and no notice but FAULT moves. Where a command has started a settle time above 1 since
the tick, the settle remaining falls by one and no comparison is made. The event is due no longer; of the other events of the
tick exactly those of parts that have ended and the settle ends of outputs whose level has changed are withdrawn (R11, R117,
R118, R121, R122, R126, R141, R142). That a settle time of 1 which a command starts before a settle end that is due ends at
it, with the comparison, is the model's choice (log entry 24). -/
def Obligations.SettleEndComparesTheFeedback : Prop :=
  (∀ (s : State) (o : OutputNo) (n : Nat), TickEvent.settle o ∈ s.due → (s.channel o).supervision = .settling n →
    2 ≤ n →
    ∃ t : State, exec (.settleEnd o) s = .next t
      ∧ t.channel o = { s.channel o with supervision := .settling (n - 1) }
      ∧ (∀ o' : OutputNo, o' ≠ o → t.channel o' = s.channel o')
      ∧ t = { s with channels := t.channels, due := t.due } ∧ s.leavesDue t (.settle o))
  ∧ ∀ (s : State) (o : OutputNo) (n : Nat), TickEvent.settle o ∈ s.due → (s.channel o).supervision = .settling n →
    n ≤ 1 →
    ∃ t : State, exec (.settleEnd o) s = .next t ∧ s.portsKept t ∧ s.leavesDue t (.settle o)
      ∧ ((s.channel o).feedback = (s.channel o).expected →
          t.channel o = { s.channel o with supervision := .watching }
            ∧ (∀ o' : OutputNo, o' ≠ o → t.channel o' = s.channel o')
            ∧ t = { s with channels := t.channels, due := t.due })
      ∧ ((s.channel o).feedback ≠ (s.channel o).expected →
          t.channel o = { s.channel o with state := .faulted, expected := .off, supervision := .suspended }
            ∧ t.noticed .control (.fault o) ∧ t.noticed .supervisor (.fault o) ∧ s.settingsKept t
            ∧ (s.noticesOrdered → ∀ p : Port, s.postedOnce t p (.fault o))
            ∧ ((s.channel o).state.isHeld = false →
                s.noticesAfter t (fun _ n => n = .fault o) (fun _ _ => False)
                  ∧ (∀ o' : OutputNo, o' ≠ o → t.channel o' = s.channel o') ∧ t.slots = s.slots
                  ∧ t.groups = s.groups ∧ t.waitQueue = s.waitQueue)
            ∧ ∀ (i : SlotNo) (b : Bool) (q : Permit) (run : RunPart), (s.channel o).state = .held i b →
                (s.slot i).state = .live q run →
                t.slot i = { generation := (s.slot i).generation, state := .closed q (.fault o) }
                  ∧ t.noticed q.owner (.closed (s.handle i)) ∧ s.othersKept t i ∧ s.endsDelivered t i
                  ∧ s.groupsQuieted t (s.holds i) ∧ s.exited t i (some o)
                  ∧ ∀ o' : OutputNo, o' ≠ o →
                      s.keptOrGranted t o' (if s.holds i o' then (s.channel o').driven .idle .off else s.channel o'))

/-- FILTERED_ASSERTION: the filter count reaches its length and the latch is SET; every LIVE permit that holds a mapped output
closes TRIPPED with the line, in ascending slot order, each through the whole exit from LIVE: every output it holds is
released, mapped or not, the quiet time of their groups starts, END is given and the scan of the departure is made before the
next permit is closed; every other LIVE permit is as it was. Each port has one post of the TRIP notice, after the CLOSED posts
of the closures and the GRANTED posts of their scans, and every other notice entry is kept with its repeat count; the event is
due no longer, nor are those of parts that have ended and the settle ends of outputs whose level has changed. A sample still
due on a line that a CONFIGURE of TRIP has changed since the TICK row acts on the line as the CONFIGURE left it: a disabled
line is not sampled, an inactive sample takes the filter count to 0, an active one below the filter length less one raises it
by one, and one at the filter length holds it; the latch is not touched, and nothing else changes; that the sample stands due
between the two rows is the model's own way (log entry 2) (R11, R12, R52, R101, R117, R130, R131, R132, R133, R141, R142). -/
def Obligations.FilteredAssertionTripsTheHolders : Prop :=
  (∀ (s : State) (l : LineNo) (sample : Electrical), TickEvent.trip l sample ∈ s.due →
    (∀ x : Electrical, TickEvent.trip l x ∈ s.due → x = sample) → s.due.Nodup →
    ((s.line l).enabled = false ∨ sample ≠ (s.line l).activeLevel
      ∨ (s.line l).filterCount + 1 ≠ (s.line l).filterLength) →
    ∃ t : State, exec (.filteredAssertion l) s = .next t
      ∧ t.line l =
          (if (s.line l).enabled = false then s.line l
           else if sample ≠ (s.line l).activeLevel then { s.line l with filterCount := 0 }
           else if (s.line l).filterCount + 1 < (s.line l).filterLength
             then { s.line l with filterCount := (s.line l).filterCount + 1 }
           else s.line l)
      ∧ (∀ l' : LineNo, l' ≠ l → t.line l' = s.line l')
      ∧ t = { s with tripLines := t.tripLines, due := t.due } ∧ s.leavesDue t (.trip l sample))
  ∧ ∀ (s : State) (l : LineNo) (sample : Electrical), TickEvent.trip l sample ∈ s.due →
    (∀ x : Electrical, TickEvent.trip l x ∈ s.due → x = sample) → s.due.Nodup →
    (s.line l).enabled = true → sample = (s.line l).activeLevel →
    (s.line l).filterCount + 1 = (s.line l).filterLength →
    ∃ t : State, exec (.filteredAssertion l) s = .next t ∧ s.portsKept t ∧ s.leavesDue t (.trip l sample)
      ∧ t.line l = { s.line l with filterCount := (s.line l).filterLength, latched := true }
      ∧ (∀ l' : LineNo, l' ≠ l → t.line l' = s.line l')
      ∧ State.settingsKept { s with tripLines := t.tripLines } t
      ∧ t.noticed .control (.trip l) ∧ t.noticed .supervisor (.trip l)
      ∧ (s.noticesOrdered → ∀ p : Port, s.postedOnce t p (.trip l)
          ∧ ∀ n : Notice, n.slot = none ∨ n.kind = .completed → n ≠ .trip l → s.entryKept t p n)
      ∧ (∀ i : SlotNo, (t.slot i).generation = (s.slot i).generation)
      ∧ (∀ (i : SlotNo) (q : Permit) (run : RunPart), (s.slot i).state = .live q run →
          ((∃ o : OutputNo, inSet (s.line l).map o = true ∧ s.holds i o = true) →
              (t.slot i).state = .closed q (.tripped l) ∧ t.noticed q.owner (.closed (s.handle i)))
            ∧ ((∀ o : OutputNo, inSet (s.line l).map o = true → s.holds i o = false) → t.slot i = s.slot i))
      ∧ (∀ (i : SlotNo), (s.slot i).state = .free ∨ (∃ q c, (s.slot i).state = .closed q c) → t.slot i = s.slot i)
      ∧ (∃ u v : State, u = { s with tripLines := t.tripLines, due := u.due } ∧ State.tripClosed l allSlots u v
          ∧ t = { v with notices := t.notices, due := t.due }
          ∧ v.noticesAfter t (fun _ n => n = .trip l) (fun _ _ => False))
      ∧ (s.holdingLaw → ∀ o : OutputNo, inSet (s.line l).map o = true → (t.channel o).state.isHeld = false)

/-- A scan visits every entry of the queue, from the oldest to the newest, and grants each whose claim is clear against the
entries visited before it and left waiting, with its outputs HELD and its GRANTED notice posted before the next entry is
tested; an entry that is not granted keeps its place; the GRANT events of the permits granted follow, in the order of the
grants. In HOLD no scan grants anything (R36, R38, R39, R100). -/
def Obligations.ScanGrantsInOrderAndNotInHold : Prop :=
  (∀ s : State, s.mode = .hold → s.scan = s)
    ∧ ∀ s : State, s.scanned s.scan ∧ s.onlyGranted s.scan
        ∧ ∃ (v : State) (granted : List SlotNo), State.walked s.waitQueue [] s v granted
            ∧ s.scan = v.grantEvents granted ∧ v.chainsRun s.scan granted (fun _ => False)

/-! ## The laws of the device -/

/-- The laws hold after reset. -/
def Obligations.ResetStateIsLawful : Prop :=
  State.reset.portsLaw ∧ State.reset.quotaLaw ∧ State.reset.queueLaw ∧ State.reset.holdingLaw ∧ State.reset.driveLaw
    ∧ State.reset.setupLaw ∧ State.reset.exclusionLaw ∧ State.reset.tripLaw ∧ State.reset.leaseLaw
    ∧ State.reset.noticeLaw ∧ State.reset.chainLaw ∧ State.reset.rangesLaw

/-- The law on port queues is kept by every step: no mailbox holds more than 4 requests and no response queue more than 4
responses (R170). -/
def Obligations.PortsLawKept : Prop :=
  ∀ s t : State, s.portsLaw → step s = .next t → t.portsLaw

/-- The law on quotas is kept by every step: no port's used count exceeds its quota, and the quotas sum to at most 32
(R9). -/
def Obligations.QuotaLawKept : Prop :=
  ∀ s t : State, s.quotaLaw → step s = .next t → t.quotaLaw

/-- The law on the queue is kept by every step: the wait queue holds each WAITING slot exactly once and no other, and the
entries that stay keep their order ahead of those that join (R34). -/
def Obligations.QueueLawKept : Prop :=
  ∀ s t : State, s.queueLaw → step s = .next t →
    t.queueLaw
      ∧ ∃ kept joined : List SlotNo, t.waitQueue = kept ++ joined ∧ kept.Sublist s.waitQueue
          ∧ ∀ i ∈ joined, i ∉ s.waitQueue

/-- The law on holding is kept by every step: an output is held by exactly the LIVE permit that lists it, and every output
is driven at the level that R113 gives (R10, R30, R76, R113). -/
def Obligations.HoldingLawKept : Prop :=
  ∀ s t : State, s.holdingLaw → s.driveLaw → step s = .next t → t.holdingLaw ∧ t.driveLaw

/-- The law on SETUP is kept by every step: in SETUP no slot is WAITING, ARMED or LIVE and every output is at its OFF level
(R152). -/
def Obligations.SetupLawKept : Prop :=
  ∀ s t : State, s.setupLaw → step s = .next t → t.setupLaw

/-- The laws on mutual exclusion and quiet time are kept by every step: no two members of a group are held together, and no
member of a group is held while the group is quiet (R49, R50, R51). -/
def Obligations.ExclusionLawKept : Prop :=
  ∀ s t : State, s.setupLaw → s.exclusionLaw → step s = .next t → t.exclusionLaw

/-- The trip half of the law on forced-off outputs is kept by every step: no output in the map of an enabled line whose
latch is set is held (R113, R134). -/
def Obligations.TripLawKept : Prop :=
  ∀ s t : State, s.setupLaw → s.holdingLaw → s.tripLaw → step s = .next t → t.tripLaw

/-- The law on leases is kept by every step: the lease remaining of a LIVE permit lies between 1 and its lease, and there is
none exactly where the permit is unleased; and a wait remaining never exceeds its wait limit (R3, R59, R66). -/
def Obligations.LeaseLawKept : Prop :=
  ∀ s t : State, s.leaseLaw → step s = .next t → t.leaseLaw

/-- The laws on notices are kept by every step: one entry for each kind and subject, counts from 1 to 15, no masked kind, and
every permit entry names a slot that is not FREE by its current generation (R142, R143); and a set is stored in the order of
R145, which is the model's choice (log entry 16). -/
def Obligations.NoticeLawKept : Prop :=
  ∀ s t : State, s.noticeLaw → step s = .next t → t.noticeLaw

/-- The law on chains is kept by every step: every permit awaiting an event has a standing anchor of the same port one
depth above it, and no chain depth exceeds 4 (R99). -/
def Obligations.ChainLawKept : Prop :=
  ∀ s t : State, s.chainLaw → step s = .next t → t.chainLaw

/-- The ranges of the time base, the groups, the channels and the trip lines are kept by every step (R46, R112, R117, R129,
R161). -/
def Obligations.RangesKept : Prop :=
  ∀ s t : State, s.rangesLaw → step s = .next t → t.rangesLaw
end

