-- ==== Sys2Proof/Laws/State.lean ====
section
/-! SUPPORT. One lemma for each field of `State` and each named update of it, so that no later proof unfolds a record update;
and what each accessor reads after each update. -/

namespace Sys2Proof.Machine

/-! ## Reading after writing -/

@[simp] theorem PerPort.get_set_same {α : Type} (x : PerPort α) (p : Port) (a : α) : (x.set p a).get p = a := by
  cases p <;> rfl

theorem PerPort.get_set {α : Type} (x : PerPort α) (p q : Port) (a : α) :
    (x.set p a).get q = if q = p then a else x.get q := by
  cases p <;> cases q <;> rfl

@[simp] theorem PerPort.get_set_other {α : Type} (x : PerPort α) (p : Port) (a : α) :
    (x.set p a).get (otherPort p) = x.get (otherPort p) := by
  cases p <;> rfl

theorem get_eq_getElem {α : Type} {n : Nat} (v : Vector α n) (i : Fin n) : v.get i = v[i.val] := rfl

theorem get_set_fin {α : Type} {n : Nat} (v : Vector α n) (i j : Fin n) (a : α) :
    (v.set i.val a i.isLt).get j = if j = i then a else v.get j := by
  rw [get_eq_getElem, get_eq_getElem, Vector.getElem_set]
  by_cases h : j = i
  · simp [h]
  · have : i.val ≠ j.val := fun e => h (Fin.ext e.symm)
    simp [h, this]

@[simp] theorem get_ofFn_fin {α : Type} {n : Nat} (f : Fin n → α) (j : Fin n) : (Vector.ofFn f).get j = f j := by
  rw [get_eq_getElem, Vector.getElem_ofFn]

theorem ext_get {α : Type} {n : Nat} {v w : Vector α n} (h : ∀ i : Fin n, v.get i = w.get i) : v = w :=
  Vector.ext fun i hi => h ⟨i, hi⟩

@[simp] theorem ofFn_get_fin {α : Type} {n : Nat} (v : Vector α n) : (Vector.ofFn fun i => v.get i) = v :=
  ext_get fun i => get_ofFn_fin _ i

@[simp] theorem mem_allSlots (i : SlotNo) : i ∈ allSlots := List.mem_finRange i
@[simp] theorem mem_allOutputs (o : OutputNo) : o ∈ allOutputs := List.mem_finRange o
@[simp] theorem mem_allGroups (g : GroupNo) : g ∈ allGroups := List.mem_finRange g
@[simp] theorem mem_allLines (l : LineNo) : l ∈ allLines := List.mem_finRange l

/-! ## setSlot -/

@[simp] theorem State.setSlot_powered (s : State) (k : SlotNo) (x : Slot) : (s.setSlot k x).powered = s.powered := rfl
@[simp] theorem State.setSlot_rstnLow (s : State) (k : SlotNo) (x : Slot) : (s.setSlot k x).rstnLow = s.rstnLow := rfl
@[simp] theorem State.setSlot_mode (s : State) (k : SlotNo) (x : Slot) : (s.setSlot k x).mode = s.mode := rfl
@[simp] theorem State.setSlot_resetCause (s : State) (k : SlotNo) (x : Slot) : (s.setSlot k x).resetCause = s.resetCause := rfl
@[simp] theorem State.setSlot_epoch (s : State) (k : SlotNo) (x : Slot) : (s.setSlot k x).epoch = s.epoch := rfl
@[simp] theorem State.setSlot_tickDivider (s : State) (k : SlotNo) (x : Slot) : (s.setSlot k x).tickDivider = s.tickDivider := rfl
@[simp] theorem State.setSlot_dividerCount (s : State) (k : SlotNo) (x : Slot) : (s.setSlot k x).dividerCount = s.dividerCount := rfl
@[simp] theorem State.setSlot_slots (s : State) (k : SlotNo) (x : Slot) :
    (s.setSlot k x).slots = s.slots.set k.val x k.isLt := rfl
@[simp] theorem State.setSlot_waitQueue (s : State) (k : SlotNo) (x : Slot) : (s.setSlot k x).waitQueue = s.waitQueue := rfl
@[simp] theorem State.setSlot_groups (s : State) (k : SlotNo) (x : Slot) : (s.setSlot k x).groups = s.groups := rfl
@[simp] theorem State.setSlot_channels (s : State) (k : SlotNo) (x : Slot) : (s.setSlot k x).channels = s.channels := rfl
@[simp] theorem State.setSlot_tripLines (s : State) (k : SlotNo) (x : Slot) : (s.setSlot k x).tripLines = s.tripLines := rfl
@[simp] theorem State.setSlot_reserved (s : State) (k : SlotNo) (x : Slot) : (s.setSlot k x).reserved = s.reserved := rfl
@[simp] theorem State.setSlot_quota (s : State) (k : SlotNo) (x : Slot) : (s.setSlot k x).quota = s.quota := rfl
@[simp] theorem State.setSlot_notices (s : State) (k : SlotNo) (x : Slot) : (s.setSlot k x).notices = s.notices := rfl
@[simp] theorem State.setSlot_ports (s : State) (k : SlotNo) (x : Slot) : (s.setSlot k x).ports = s.ports := rfl
@[simp] theorem State.setSlot_lastServed (s : State) (k : SlotNo) (x : Slot) : (s.setSlot k x).lastServed = s.lastServed := rfl
@[simp] theorem State.setSlot_due (s : State) (k : SlotNo) (x : Slot) :
    (s.setSlot k x).due = s.due.filter fun e => !e.ofSlot k := rfl
@[simp] theorem State.setSlot_choices (s : State) (k : SlotNo) (x : Slot) : (s.setSlot k x).choices = s.choices := rfl
@[simp] theorem State.setSlot_pending (s : State) (k : SlotNo) (x : Slot) : (s.setSlot k x).pending = s.pending := rfl
@[simp] theorem State.setSlot_channel (s : State) (k : SlotNo) (x : Slot) (o : OutputNo) :
    (s.setSlot k x).channel o = s.channel o := congrArg (fun x => x.get o) (State.setSlot_channels s k x)
@[simp] theorem State.setSlot_group (s : State) (k : SlotNo) (x : Slot) (g : GroupNo) :
    (s.setSlot k x).group g = s.group g := congrArg (fun x => x.get g) (State.setSlot_groups s k x)
@[simp] theorem State.setSlot_line (s : State) (k : SlotNo) (x : Slot) (l : LineNo) :
    (s.setSlot k x).line l = s.line l := congrArg (fun x => x.get l) (State.setSlot_tripLines s k x)

/-! ## setSlotState -/

@[simp] theorem State.setSlotState_powered (s : State) (k : SlotNo) (st : SlotState) : (s.setSlotState k st).powered = s.powered := rfl
@[simp] theorem State.setSlotState_rstnLow (s : State) (k : SlotNo) (st : SlotState) : (s.setSlotState k st).rstnLow = s.rstnLow := rfl
@[simp] theorem State.setSlotState_mode (s : State) (k : SlotNo) (st : SlotState) : (s.setSlotState k st).mode = s.mode := rfl
@[simp] theorem State.setSlotState_resetCause (s : State) (k : SlotNo) (st : SlotState) : (s.setSlotState k st).resetCause = s.resetCause := rfl
@[simp] theorem State.setSlotState_epoch (s : State) (k : SlotNo) (st : SlotState) : (s.setSlotState k st).epoch = s.epoch := rfl
@[simp] theorem State.setSlotState_tickDivider (s : State) (k : SlotNo) (st : SlotState) : (s.setSlotState k st).tickDivider = s.tickDivider := rfl
@[simp] theorem State.setSlotState_dividerCount (s : State) (k : SlotNo) (st : SlotState) : (s.setSlotState k st).dividerCount = s.dividerCount := rfl
@[simp] theorem State.setSlotState_slots (s : State) (k : SlotNo) (st : SlotState) :
    (s.setSlotState k st).slots = s.slots.set k.val { s.slot k with state := st } k.isLt := rfl
@[simp] theorem State.setSlotState_waitQueue (s : State) (k : SlotNo) (st : SlotState) : (s.setSlotState k st).waitQueue = s.waitQueue := rfl
@[simp] theorem State.setSlotState_groups (s : State) (k : SlotNo) (st : SlotState) : (s.setSlotState k st).groups = s.groups := rfl
@[simp] theorem State.setSlotState_channels (s : State) (k : SlotNo) (st : SlotState) : (s.setSlotState k st).channels = s.channels := rfl
@[simp] theorem State.setSlotState_tripLines (s : State) (k : SlotNo) (st : SlotState) : (s.setSlotState k st).tripLines = s.tripLines := rfl
@[simp] theorem State.setSlotState_reserved (s : State) (k : SlotNo) (st : SlotState) : (s.setSlotState k st).reserved = s.reserved := rfl
@[simp] theorem State.setSlotState_quota (s : State) (k : SlotNo) (st : SlotState) : (s.setSlotState k st).quota = s.quota := rfl
@[simp] theorem State.setSlotState_notices (s : State) (k : SlotNo) (st : SlotState) : (s.setSlotState k st).notices = s.notices := rfl
@[simp] theorem State.setSlotState_ports (s : State) (k : SlotNo) (st : SlotState) : (s.setSlotState k st).ports = s.ports := rfl
@[simp] theorem State.setSlotState_lastServed (s : State) (k : SlotNo) (st : SlotState) : (s.setSlotState k st).lastServed = s.lastServed := rfl
@[simp] theorem State.setSlotState_due (s : State) (k : SlotNo) (st : SlotState) :
    (s.setSlotState k st).due = s.due.filter fun e => !e.ofSlot k := rfl
@[simp] theorem State.setSlotState_choices (s : State) (k : SlotNo) (st : SlotState) : (s.setSlotState k st).choices = s.choices := rfl
@[simp] theorem State.setSlotState_pending (s : State) (k : SlotNo) (st : SlotState) : (s.setSlotState k st).pending = s.pending := rfl
@[simp] theorem State.setSlotState_channel (s : State) (k : SlotNo) (st : SlotState) (o : OutputNo) :
    (s.setSlotState k st).channel o = s.channel o := congrArg (fun x => x.get o) (State.setSlotState_channels s k st)
@[simp] theorem State.setSlotState_group (s : State) (k : SlotNo) (st : SlotState) (g : GroupNo) :
    (s.setSlotState k st).group g = s.group g := congrArg (fun x => x.get g) (State.setSlotState_groups s k st)
@[simp] theorem State.setSlotState_line (s : State) (k : SlotNo) (st : SlotState) (l : LineNo) :
    (s.setSlotState k st).line l = s.line l := congrArg (fun x => x.get l) (State.setSlotState_tripLines s k st)

/-! ## countSlot -/

@[simp] theorem State.countSlot_powered (s : State) (k : SlotNo) (st : SlotState) : (s.countSlot k st).powered = s.powered := rfl
@[simp] theorem State.countSlot_rstnLow (s : State) (k : SlotNo) (st : SlotState) : (s.countSlot k st).rstnLow = s.rstnLow := rfl
@[simp] theorem State.countSlot_mode (s : State) (k : SlotNo) (st : SlotState) : (s.countSlot k st).mode = s.mode := rfl
@[simp] theorem State.countSlot_resetCause (s : State) (k : SlotNo) (st : SlotState) : (s.countSlot k st).resetCause = s.resetCause := rfl
@[simp] theorem State.countSlot_epoch (s : State) (k : SlotNo) (st : SlotState) : (s.countSlot k st).epoch = s.epoch := rfl
@[simp] theorem State.countSlot_tickDivider (s : State) (k : SlotNo) (st : SlotState) : (s.countSlot k st).tickDivider = s.tickDivider := rfl
@[simp] theorem State.countSlot_dividerCount (s : State) (k : SlotNo) (st : SlotState) : (s.countSlot k st).dividerCount = s.dividerCount := rfl
@[simp] theorem State.countSlot_slots (s : State) (k : SlotNo) (st : SlotState) :
    (s.countSlot k st).slots = s.slots.set k.val { s.slot k with state := st } k.isLt := rfl
@[simp] theorem State.countSlot_waitQueue (s : State) (k : SlotNo) (st : SlotState) : (s.countSlot k st).waitQueue = s.waitQueue := rfl
@[simp] theorem State.countSlot_groups (s : State) (k : SlotNo) (st : SlotState) : (s.countSlot k st).groups = s.groups := rfl
@[simp] theorem State.countSlot_channels (s : State) (k : SlotNo) (st : SlotState) : (s.countSlot k st).channels = s.channels := rfl
@[simp] theorem State.countSlot_tripLines (s : State) (k : SlotNo) (st : SlotState) : (s.countSlot k st).tripLines = s.tripLines := rfl
@[simp] theorem State.countSlot_reserved (s : State) (k : SlotNo) (st : SlotState) : (s.countSlot k st).reserved = s.reserved := rfl
@[simp] theorem State.countSlot_quota (s : State) (k : SlotNo) (st : SlotState) : (s.countSlot k st).quota = s.quota := rfl
@[simp] theorem State.countSlot_notices (s : State) (k : SlotNo) (st : SlotState) : (s.countSlot k st).notices = s.notices := rfl
@[simp] theorem State.countSlot_ports (s : State) (k : SlotNo) (st : SlotState) : (s.countSlot k st).ports = s.ports := rfl
@[simp] theorem State.countSlot_lastServed (s : State) (k : SlotNo) (st : SlotState) : (s.countSlot k st).lastServed = s.lastServed := rfl
@[simp] theorem State.countSlot_due (s : State) (k : SlotNo) (st : SlotState) : (s.countSlot k st).due = s.due := rfl
@[simp] theorem State.countSlot_choices (s : State) (k : SlotNo) (st : SlotState) : (s.countSlot k st).choices = s.choices := rfl
@[simp] theorem State.countSlot_pending (s : State) (k : SlotNo) (st : SlotState) : (s.countSlot k st).pending = s.pending := rfl
@[simp] theorem State.countSlot_channel (s : State) (k : SlotNo) (st : SlotState) (o : OutputNo) :
    (s.countSlot k st).channel o = s.channel o := congrArg (fun x => x.get o) (State.countSlot_channels s k st)
@[simp] theorem State.countSlot_group (s : State) (k : SlotNo) (st : SlotState) (g : GroupNo) :
    (s.countSlot k st).group g = s.group g := congrArg (fun x => x.get g) (State.countSlot_groups s k st)
@[simp] theorem State.countSlot_line (s : State) (k : SlotNo) (st : SlotState) (l : LineNo) :
    (s.countSlot k st).line l = s.line l := congrArg (fun x => x.get l) (State.countSlot_tripLines s k st)

/-! ## setChannel -/

@[simp] theorem State.setChannel_powered (s : State) (k : OutputNo) (c : Channel) : (s.setChannel k c).powered = s.powered := rfl
@[simp] theorem State.setChannel_rstnLow (s : State) (k : OutputNo) (c : Channel) : (s.setChannel k c).rstnLow = s.rstnLow := rfl
@[simp] theorem State.setChannel_mode (s : State) (k : OutputNo) (c : Channel) : (s.setChannel k c).mode = s.mode := rfl
@[simp] theorem State.setChannel_resetCause (s : State) (k : OutputNo) (c : Channel) : (s.setChannel k c).resetCause = s.resetCause := rfl
@[simp] theorem State.setChannel_epoch (s : State) (k : OutputNo) (c : Channel) : (s.setChannel k c).epoch = s.epoch := rfl
@[simp] theorem State.setChannel_tickDivider (s : State) (k : OutputNo) (c : Channel) : (s.setChannel k c).tickDivider = s.tickDivider := rfl
@[simp] theorem State.setChannel_dividerCount (s : State) (k : OutputNo) (c : Channel) : (s.setChannel k c).dividerCount = s.dividerCount := rfl
@[simp] theorem State.setChannel_slots (s : State) (k : OutputNo) (c : Channel) : (s.setChannel k c).slots = s.slots := rfl
@[simp] theorem State.setChannel_waitQueue (s : State) (k : OutputNo) (c : Channel) : (s.setChannel k c).waitQueue = s.waitQueue := rfl
@[simp] theorem State.setChannel_groups (s : State) (k : OutputNo) (c : Channel) : (s.setChannel k c).groups = s.groups := rfl
@[simp] theorem State.setChannel_channels (s : State) (k : OutputNo) (c : Channel) :
    (s.setChannel k c).channels = s.channels.set k.val c k.isLt := rfl
@[simp] theorem State.setChannel_tripLines (s : State) (k : OutputNo) (c : Channel) : (s.setChannel k c).tripLines = s.tripLines := rfl
@[simp] theorem State.setChannel_reserved (s : State) (k : OutputNo) (c : Channel) : (s.setChannel k c).reserved = s.reserved := rfl
@[simp] theorem State.setChannel_quota (s : State) (k : OutputNo) (c : Channel) : (s.setChannel k c).quota = s.quota := rfl
@[simp] theorem State.setChannel_notices (s : State) (k : OutputNo) (c : Channel) : (s.setChannel k c).notices = s.notices := rfl
@[simp] theorem State.setChannel_ports (s : State) (k : OutputNo) (c : Channel) : (s.setChannel k c).ports = s.ports := rfl
@[simp] theorem State.setChannel_lastServed (s : State) (k : OutputNo) (c : Channel) : (s.setChannel k c).lastServed = s.lastServed := rfl
@[simp] theorem State.setChannel_due (s : State) (k : OutputNo) (c : Channel) : (s.setChannel k c).due = s.due := rfl
@[simp] theorem State.setChannel_choices (s : State) (k : OutputNo) (c : Channel) : (s.setChannel k c).choices = s.choices := rfl
@[simp] theorem State.setChannel_pending (s : State) (k : OutputNo) (c : Channel) : (s.setChannel k c).pending = s.pending := rfl
@[simp] theorem State.setChannel_slot (s : State) (k : OutputNo) (c : Channel) (i : SlotNo) :
    (s.setChannel k c).slot i = s.slot i := congrArg (fun x => x.get i) (State.setChannel_slots s k c)
@[simp] theorem State.setChannel_group (s : State) (k : OutputNo) (c : Channel) (g : GroupNo) :
    (s.setChannel k c).group g = s.group g := congrArg (fun x => x.get g) (State.setChannel_groups s k c)
@[simp] theorem State.setChannel_line (s : State) (k : OutputNo) (c : Channel) (l : LineNo) :
    (s.setChannel k c).line l = s.line l := congrArg (fun x => x.get l) (State.setChannel_tripLines s k c)

/-! ## setGroup -/

@[simp] theorem State.setGroup_powered (s : State) (k : GroupNo) (x : Group) : (s.setGroup k x).powered = s.powered := rfl
@[simp] theorem State.setGroup_rstnLow (s : State) (k : GroupNo) (x : Group) : (s.setGroup k x).rstnLow = s.rstnLow := rfl
@[simp] theorem State.setGroup_mode (s : State) (k : GroupNo) (x : Group) : (s.setGroup k x).mode = s.mode := rfl
@[simp] theorem State.setGroup_resetCause (s : State) (k : GroupNo) (x : Group) : (s.setGroup k x).resetCause = s.resetCause := rfl
@[simp] theorem State.setGroup_epoch (s : State) (k : GroupNo) (x : Group) : (s.setGroup k x).epoch = s.epoch := rfl
@[simp] theorem State.setGroup_tickDivider (s : State) (k : GroupNo) (x : Group) : (s.setGroup k x).tickDivider = s.tickDivider := rfl
@[simp] theorem State.setGroup_dividerCount (s : State) (k : GroupNo) (x : Group) : (s.setGroup k x).dividerCount = s.dividerCount := rfl
@[simp] theorem State.setGroup_slots (s : State) (k : GroupNo) (x : Group) : (s.setGroup k x).slots = s.slots := rfl
@[simp] theorem State.setGroup_waitQueue (s : State) (k : GroupNo) (x : Group) : (s.setGroup k x).waitQueue = s.waitQueue := rfl
@[simp] theorem State.setGroup_groups (s : State) (k : GroupNo) (x : Group) :
    (s.setGroup k x).groups = s.groups.set k.val x k.isLt := rfl
@[simp] theorem State.setGroup_channels (s : State) (k : GroupNo) (x : Group) : (s.setGroup k x).channels = s.channels := rfl
@[simp] theorem State.setGroup_tripLines (s : State) (k : GroupNo) (x : Group) : (s.setGroup k x).tripLines = s.tripLines := rfl
@[simp] theorem State.setGroup_reserved (s : State) (k : GroupNo) (x : Group) : (s.setGroup k x).reserved = s.reserved := rfl
@[simp] theorem State.setGroup_quota (s : State) (k : GroupNo) (x : Group) : (s.setGroup k x).quota = s.quota := rfl
@[simp] theorem State.setGroup_notices (s : State) (k : GroupNo) (x : Group) : (s.setGroup k x).notices = s.notices := rfl
@[simp] theorem State.setGroup_ports (s : State) (k : GroupNo) (x : Group) : (s.setGroup k x).ports = s.ports := rfl
@[simp] theorem State.setGroup_lastServed (s : State) (k : GroupNo) (x : Group) : (s.setGroup k x).lastServed = s.lastServed := rfl
@[simp] theorem State.setGroup_due (s : State) (k : GroupNo) (x : Group) : (s.setGroup k x).due = s.due := rfl
@[simp] theorem State.setGroup_choices (s : State) (k : GroupNo) (x : Group) : (s.setGroup k x).choices = s.choices := rfl
@[simp] theorem State.setGroup_pending (s : State) (k : GroupNo) (x : Group) : (s.setGroup k x).pending = s.pending := rfl
@[simp] theorem State.setGroup_slot (s : State) (k : GroupNo) (x : Group) (i : SlotNo) :
    (s.setGroup k x).slot i = s.slot i := congrArg (fun x => x.get i) (State.setGroup_slots s k x)
@[simp] theorem State.setGroup_channel (s : State) (k : GroupNo) (x : Group) (o : OutputNo) :
    (s.setGroup k x).channel o = s.channel o := congrArg (fun x => x.get o) (State.setGroup_channels s k x)
@[simp] theorem State.setGroup_line (s : State) (k : GroupNo) (x : Group) (l : LineNo) :
    (s.setGroup k x).line l = s.line l := congrArg (fun x => x.get l) (State.setGroup_tripLines s k x)

/-! ## setLine -/

@[simp] theorem State.setLine_powered (s : State) (k : LineNo) (x : TripLine) : (s.setLine k x).powered = s.powered := rfl
@[simp] theorem State.setLine_rstnLow (s : State) (k : LineNo) (x : TripLine) : (s.setLine k x).rstnLow = s.rstnLow := rfl
@[simp] theorem State.setLine_mode (s : State) (k : LineNo) (x : TripLine) : (s.setLine k x).mode = s.mode := rfl
@[simp] theorem State.setLine_resetCause (s : State) (k : LineNo) (x : TripLine) : (s.setLine k x).resetCause = s.resetCause := rfl
@[simp] theorem State.setLine_epoch (s : State) (k : LineNo) (x : TripLine) : (s.setLine k x).epoch = s.epoch := rfl
@[simp] theorem State.setLine_tickDivider (s : State) (k : LineNo) (x : TripLine) : (s.setLine k x).tickDivider = s.tickDivider := rfl
@[simp] theorem State.setLine_dividerCount (s : State) (k : LineNo) (x : TripLine) : (s.setLine k x).dividerCount = s.dividerCount := rfl
@[simp] theorem State.setLine_slots (s : State) (k : LineNo) (x : TripLine) : (s.setLine k x).slots = s.slots := rfl
@[simp] theorem State.setLine_waitQueue (s : State) (k : LineNo) (x : TripLine) : (s.setLine k x).waitQueue = s.waitQueue := rfl
@[simp] theorem State.setLine_groups (s : State) (k : LineNo) (x : TripLine) : (s.setLine k x).groups = s.groups := rfl
@[simp] theorem State.setLine_channels (s : State) (k : LineNo) (x : TripLine) : (s.setLine k x).channels = s.channels := rfl
@[simp] theorem State.setLine_tripLines (s : State) (k : LineNo) (x : TripLine) :
    (s.setLine k x).tripLines = s.tripLines.set k.val x k.isLt := rfl
@[simp] theorem State.setLine_reserved (s : State) (k : LineNo) (x : TripLine) : (s.setLine k x).reserved = s.reserved := rfl
@[simp] theorem State.setLine_quota (s : State) (k : LineNo) (x : TripLine) : (s.setLine k x).quota = s.quota := rfl
@[simp] theorem State.setLine_notices (s : State) (k : LineNo) (x : TripLine) : (s.setLine k x).notices = s.notices := rfl
@[simp] theorem State.setLine_ports (s : State) (k : LineNo) (x : TripLine) : (s.setLine k x).ports = s.ports := rfl
@[simp] theorem State.setLine_lastServed (s : State) (k : LineNo) (x : TripLine) : (s.setLine k x).lastServed = s.lastServed := rfl
@[simp] theorem State.setLine_due (s : State) (k : LineNo) (x : TripLine) : (s.setLine k x).due = s.due := rfl
@[simp] theorem State.setLine_choices (s : State) (k : LineNo) (x : TripLine) : (s.setLine k x).choices = s.choices := rfl
@[simp] theorem State.setLine_pending (s : State) (k : LineNo) (x : TripLine) : (s.setLine k x).pending = s.pending := rfl
@[simp] theorem State.setLine_slot (s : State) (k : LineNo) (x : TripLine) (i : SlotNo) :
    (s.setLine k x).slot i = s.slot i := congrArg (fun x => x.get i) (State.setLine_slots s k x)
@[simp] theorem State.setLine_channel (s : State) (k : LineNo) (x : TripLine) (o : OutputNo) :
    (s.setLine k x).channel o = s.channel o := congrArg (fun x => x.get o) (State.setLine_channels s k x)
@[simp] theorem State.setLine_group (s : State) (k : LineNo) (x : TripLine) (g : GroupNo) :
    (s.setLine k x).group g = s.group g := congrArg (fun x => x.get g) (State.setLine_groups s k x)

/-! ## setPort -/

@[simp] theorem State.setPort_powered (s : State) (p : Port) (x : LinkPort) : (s.setPort p x).powered = s.powered := rfl
@[simp] theorem State.setPort_rstnLow (s : State) (p : Port) (x : LinkPort) : (s.setPort p x).rstnLow = s.rstnLow := rfl
@[simp] theorem State.setPort_mode (s : State) (p : Port) (x : LinkPort) : (s.setPort p x).mode = s.mode := rfl
@[simp] theorem State.setPort_resetCause (s : State) (p : Port) (x : LinkPort) : (s.setPort p x).resetCause = s.resetCause := rfl
@[simp] theorem State.setPort_epoch (s : State) (p : Port) (x : LinkPort) : (s.setPort p x).epoch = s.epoch := rfl
@[simp] theorem State.setPort_tickDivider (s : State) (p : Port) (x : LinkPort) : (s.setPort p x).tickDivider = s.tickDivider := rfl
@[simp] theorem State.setPort_dividerCount (s : State) (p : Port) (x : LinkPort) : (s.setPort p x).dividerCount = s.dividerCount := rfl
@[simp] theorem State.setPort_slots (s : State) (p : Port) (x : LinkPort) : (s.setPort p x).slots = s.slots := rfl
@[simp] theorem State.setPort_waitQueue (s : State) (p : Port) (x : LinkPort) : (s.setPort p x).waitQueue = s.waitQueue := rfl
@[simp] theorem State.setPort_groups (s : State) (p : Port) (x : LinkPort) : (s.setPort p x).groups = s.groups := rfl
@[simp] theorem State.setPort_channels (s : State) (p : Port) (x : LinkPort) : (s.setPort p x).channels = s.channels := rfl
@[simp] theorem State.setPort_tripLines (s : State) (p : Port) (x : LinkPort) : (s.setPort p x).tripLines = s.tripLines := rfl
@[simp] theorem State.setPort_reserved (s : State) (p : Port) (x : LinkPort) : (s.setPort p x).reserved = s.reserved := rfl
@[simp] theorem State.setPort_quota (s : State) (p : Port) (x : LinkPort) : (s.setPort p x).quota = s.quota := rfl
@[simp] theorem State.setPort_notices (s : State) (p : Port) (x : LinkPort) : (s.setPort p x).notices = s.notices := rfl
@[simp] theorem State.setPort_ports (s : State) (p : Port) (x : LinkPort) :
    (s.setPort p x).ports = s.ports.set p x := rfl
@[simp] theorem State.setPort_lastServed (s : State) (p : Port) (x : LinkPort) : (s.setPort p x).lastServed = s.lastServed := rfl
@[simp] theorem State.setPort_due (s : State) (p : Port) (x : LinkPort) : (s.setPort p x).due = s.due := rfl
@[simp] theorem State.setPort_choices (s : State) (p : Port) (x : LinkPort) : (s.setPort p x).choices = s.choices := rfl
@[simp] theorem State.setPort_pending (s : State) (p : Port) (x : LinkPort) : (s.setPort p x).pending = s.pending := rfl
@[simp] theorem State.setPort_slot (s : State) (p : Port) (x : LinkPort) (i : SlotNo) :
    (s.setPort p x).slot i = s.slot i := congrArg (fun x => x.get i) (State.setPort_slots s p x)
@[simp] theorem State.setPort_channel (s : State) (p : Port) (x : LinkPort) (o : OutputNo) :
    (s.setPort p x).channel o = s.channel o := congrArg (fun x => x.get o) (State.setPort_channels s p x)
@[simp] theorem State.setPort_group (s : State) (p : Port) (x : LinkPort) (g : GroupNo) :
    (s.setPort p x).group g = s.group g := congrArg (fun x => x.get g) (State.setPort_groups s p x)
@[simp] theorem State.setPort_line (s : State) (p : Port) (x : LinkPort) (l : LineNo) :
    (s.setPort p x).line l = s.line l := congrArg (fun x => x.get l) (State.setPort_tripLines s p x)

/-! ## setNotices -/

@[simp] theorem State.setNotices_powered (s : State) (p : Port) (u : NoticeUnit) : (s.setNotices p u).powered = s.powered := rfl
@[simp] theorem State.setNotices_rstnLow (s : State) (p : Port) (u : NoticeUnit) : (s.setNotices p u).rstnLow = s.rstnLow := rfl
@[simp] theorem State.setNotices_mode (s : State) (p : Port) (u : NoticeUnit) : (s.setNotices p u).mode = s.mode := rfl
@[simp] theorem State.setNotices_resetCause (s : State) (p : Port) (u : NoticeUnit) : (s.setNotices p u).resetCause = s.resetCause := rfl
@[simp] theorem State.setNotices_epoch (s : State) (p : Port) (u : NoticeUnit) : (s.setNotices p u).epoch = s.epoch := rfl
@[simp] theorem State.setNotices_tickDivider (s : State) (p : Port) (u : NoticeUnit) : (s.setNotices p u).tickDivider = s.tickDivider := rfl
@[simp] theorem State.setNotices_dividerCount (s : State) (p : Port) (u : NoticeUnit) : (s.setNotices p u).dividerCount = s.dividerCount := rfl
@[simp] theorem State.setNotices_slots (s : State) (p : Port) (u : NoticeUnit) : (s.setNotices p u).slots = s.slots := rfl
@[simp] theorem State.setNotices_waitQueue (s : State) (p : Port) (u : NoticeUnit) : (s.setNotices p u).waitQueue = s.waitQueue := rfl
@[simp] theorem State.setNotices_groups (s : State) (p : Port) (u : NoticeUnit) : (s.setNotices p u).groups = s.groups := rfl
@[simp] theorem State.setNotices_channels (s : State) (p : Port) (u : NoticeUnit) : (s.setNotices p u).channels = s.channels := rfl
@[simp] theorem State.setNotices_tripLines (s : State) (p : Port) (u : NoticeUnit) : (s.setNotices p u).tripLines = s.tripLines := rfl
@[simp] theorem State.setNotices_reserved (s : State) (p : Port) (u : NoticeUnit) : (s.setNotices p u).reserved = s.reserved := rfl
@[simp] theorem State.setNotices_quota (s : State) (p : Port) (u : NoticeUnit) : (s.setNotices p u).quota = s.quota := rfl
@[simp] theorem State.setNotices_notices (s : State) (p : Port) (u : NoticeUnit) :
    (s.setNotices p u).notices = s.notices.set p u := rfl
@[simp] theorem State.setNotices_ports (s : State) (p : Port) (u : NoticeUnit) : (s.setNotices p u).ports = s.ports := rfl
@[simp] theorem State.setNotices_lastServed (s : State) (p : Port) (u : NoticeUnit) : (s.setNotices p u).lastServed = s.lastServed := rfl
@[simp] theorem State.setNotices_due (s : State) (p : Port) (u : NoticeUnit) : (s.setNotices p u).due = s.due := rfl
@[simp] theorem State.setNotices_choices (s : State) (p : Port) (u : NoticeUnit) : (s.setNotices p u).choices = s.choices := rfl
@[simp] theorem State.setNotices_pending (s : State) (p : Port) (u : NoticeUnit) : (s.setNotices p u).pending = s.pending := rfl
@[simp] theorem State.setNotices_slot (s : State) (p : Port) (u : NoticeUnit) (i : SlotNo) :
    (s.setNotices p u).slot i = s.slot i := congrArg (fun x => x.get i) (State.setNotices_slots s p u)
@[simp] theorem State.setNotices_channel (s : State) (p : Port) (u : NoticeUnit) (o : OutputNo) :
    (s.setNotices p u).channel o = s.channel o := congrArg (fun x => x.get o) (State.setNotices_channels s p u)
@[simp] theorem State.setNotices_group (s : State) (p : Port) (u : NoticeUnit) (g : GroupNo) :
    (s.setNotices p u).group g = s.group g := congrArg (fun x => x.get g) (State.setNotices_groups s p u)
@[simp] theorem State.setNotices_line (s : State) (p : Port) (u : NoticeUnit) (l : LineNo) :
    (s.setNotices p u).line l = s.line l := congrArg (fun x => x.get l) (State.setNotices_tripLines s p u)

/-! ## post -/

@[simp] theorem State.post_powered (s : State) (p : Port) (n : Notice) : (s.post p n).powered = s.powered := rfl
@[simp] theorem State.post_rstnLow (s : State) (p : Port) (n : Notice) : (s.post p n).rstnLow = s.rstnLow := rfl
@[simp] theorem State.post_mode (s : State) (p : Port) (n : Notice) : (s.post p n).mode = s.mode := rfl
@[simp] theorem State.post_resetCause (s : State) (p : Port) (n : Notice) : (s.post p n).resetCause = s.resetCause := rfl
@[simp] theorem State.post_epoch (s : State) (p : Port) (n : Notice) : (s.post p n).epoch = s.epoch := rfl
@[simp] theorem State.post_tickDivider (s : State) (p : Port) (n : Notice) : (s.post p n).tickDivider = s.tickDivider := rfl
@[simp] theorem State.post_dividerCount (s : State) (p : Port) (n : Notice) : (s.post p n).dividerCount = s.dividerCount := rfl
@[simp] theorem State.post_slots (s : State) (p : Port) (n : Notice) : (s.post p n).slots = s.slots := rfl
@[simp] theorem State.post_waitQueue (s : State) (p : Port) (n : Notice) : (s.post p n).waitQueue = s.waitQueue := rfl
@[simp] theorem State.post_groups (s : State) (p : Port) (n : Notice) : (s.post p n).groups = s.groups := rfl
@[simp] theorem State.post_channels (s : State) (p : Port) (n : Notice) : (s.post p n).channels = s.channels := rfl
@[simp] theorem State.post_tripLines (s : State) (p : Port) (n : Notice) : (s.post p n).tripLines = s.tripLines := rfl
@[simp] theorem State.post_reserved (s : State) (p : Port) (n : Notice) : (s.post p n).reserved = s.reserved := rfl
@[simp] theorem State.post_quota (s : State) (p : Port) (n : Notice) : (s.post p n).quota = s.quota := rfl
@[simp] theorem State.post_notices (s : State) (p : Port) (n : Notice) :
    (s.post p n).notices = s.notices.set p ((s.notices.get p).post n) := rfl
@[simp] theorem State.post_ports (s : State) (p : Port) (n : Notice) : (s.post p n).ports = s.ports := rfl
@[simp] theorem State.post_lastServed (s : State) (p : Port) (n : Notice) : (s.post p n).lastServed = s.lastServed := rfl
@[simp] theorem State.post_due (s : State) (p : Port) (n : Notice) : (s.post p n).due = s.due := rfl
@[simp] theorem State.post_choices (s : State) (p : Port) (n : Notice) : (s.post p n).choices = s.choices := rfl
@[simp] theorem State.post_pending (s : State) (p : Port) (n : Notice) : (s.post p n).pending = s.pending := rfl
@[simp] theorem State.post_slot (s : State) (p : Port) (n : Notice) (i : SlotNo) :
    (s.post p n).slot i = s.slot i := congrArg (fun x => x.get i) (State.post_slots s p n)
@[simp] theorem State.post_channel (s : State) (p : Port) (n : Notice) (o : OutputNo) :
    (s.post p n).channel o = s.channel o := congrArg (fun x => x.get o) (State.post_channels s p n)
@[simp] theorem State.post_group (s : State) (p : Port) (n : Notice) (g : GroupNo) :
    (s.post p n).group g = s.group g := congrArg (fun x => x.get g) (State.post_groups s p n)
@[simp] theorem State.post_line (s : State) (p : Port) (n : Notice) (l : LineNo) :
    (s.post p n).line l = s.line l := congrArg (fun x => x.get l) (State.post_tripLines s p n)

/-! ## postBoth -/

@[simp] theorem State.postBoth_powered (s : State) (n : Notice) : (s.postBoth n).powered = s.powered := rfl
@[simp] theorem State.postBoth_rstnLow (s : State) (n : Notice) : (s.postBoth n).rstnLow = s.rstnLow := rfl
@[simp] theorem State.postBoth_mode (s : State) (n : Notice) : (s.postBoth n).mode = s.mode := rfl
@[simp] theorem State.postBoth_resetCause (s : State) (n : Notice) : (s.postBoth n).resetCause = s.resetCause := rfl
@[simp] theorem State.postBoth_epoch (s : State) (n : Notice) : (s.postBoth n).epoch = s.epoch := rfl
@[simp] theorem State.postBoth_tickDivider (s : State) (n : Notice) : (s.postBoth n).tickDivider = s.tickDivider := rfl
@[simp] theorem State.postBoth_dividerCount (s : State) (n : Notice) : (s.postBoth n).dividerCount = s.dividerCount := rfl
@[simp] theorem State.postBoth_slots (s : State) (n : Notice) : (s.postBoth n).slots = s.slots := rfl
@[simp] theorem State.postBoth_waitQueue (s : State) (n : Notice) : (s.postBoth n).waitQueue = s.waitQueue := rfl
@[simp] theorem State.postBoth_groups (s : State) (n : Notice) : (s.postBoth n).groups = s.groups := rfl
@[simp] theorem State.postBoth_channels (s : State) (n : Notice) : (s.postBoth n).channels = s.channels := rfl
@[simp] theorem State.postBoth_tripLines (s : State) (n : Notice) : (s.postBoth n).tripLines = s.tripLines := rfl
@[simp] theorem State.postBoth_reserved (s : State) (n : Notice) : (s.postBoth n).reserved = s.reserved := rfl
@[simp] theorem State.postBoth_quota (s : State) (n : Notice) : (s.postBoth n).quota = s.quota := rfl
@[simp] theorem State.postBoth_notices (s : State) (n : Notice) :
    (s.postBoth n).notices = { control := s.notices.control.post n, supervisor := s.notices.supervisor.post n } := rfl
@[simp] theorem State.postBoth_ports (s : State) (n : Notice) : (s.postBoth n).ports = s.ports := rfl
@[simp] theorem State.postBoth_lastServed (s : State) (n : Notice) : (s.postBoth n).lastServed = s.lastServed := rfl
@[simp] theorem State.postBoth_due (s : State) (n : Notice) : (s.postBoth n).due = s.due := rfl
@[simp] theorem State.postBoth_choices (s : State) (n : Notice) : (s.postBoth n).choices = s.choices := rfl
@[simp] theorem State.postBoth_pending (s : State) (n : Notice) : (s.postBoth n).pending = s.pending := rfl
@[simp] theorem State.postBoth_slot (s : State) (n : Notice) (i : SlotNo) :
    (s.postBoth n).slot i = s.slot i := congrArg (fun x => x.get i) (State.postBoth_slots s n)
@[simp] theorem State.postBoth_channel (s : State) (n : Notice) (o : OutputNo) :
    (s.postBoth n).channel o = s.channel o := congrArg (fun x => x.get o) (State.postBoth_channels s n)
@[simp] theorem State.postBoth_group (s : State) (n : Notice) (g : GroupNo) :
    (s.postBoth n).group g = s.group g := congrArg (fun x => x.get g) (State.postBoth_groups s n)
@[simp] theorem State.postBoth_line (s : State) (n : Notice) (l : LineNo) :
    (s.postBoth n).line l = s.line l := congrArg (fun x => x.get l) (State.postBoth_tripLines s n)

/-! ## handPhase -/

@[simp] theorem State.handPhase_powered (s : State) (k : SlotNo) (ph : Phase) : (s.handPhase k ph).powered = s.powered := by
  simp only [State.handPhase]
@[simp] theorem State.handPhase_rstnLow (s : State) (k : SlotNo) (ph : Phase) : (s.handPhase k ph).rstnLow = s.rstnLow := by
  simp only [State.handPhase]
@[simp] theorem State.handPhase_mode (s : State) (k : SlotNo) (ph : Phase) : (s.handPhase k ph).mode = s.mode := by
  simp only [State.handPhase]
@[simp] theorem State.handPhase_resetCause (s : State) (k : SlotNo) (ph : Phase) : (s.handPhase k ph).resetCause = s.resetCause := by
  simp only [State.handPhase]
@[simp] theorem State.handPhase_epoch (s : State) (k : SlotNo) (ph : Phase) : (s.handPhase k ph).epoch = s.epoch := by
  simp only [State.handPhase]
@[simp] theorem State.handPhase_tickDivider (s : State) (k : SlotNo) (ph : Phase) : (s.handPhase k ph).tickDivider = s.tickDivider := by
  simp only [State.handPhase]
@[simp] theorem State.handPhase_dividerCount (s : State) (k : SlotNo) (ph : Phase) : (s.handPhase k ph).dividerCount = s.dividerCount := by
  simp only [State.handPhase]
@[simp] theorem State.handPhase_slots (s : State) (k : SlotNo) (ph : Phase) : (s.handPhase k ph).slots = s.slots := by
  simp only [State.handPhase]
@[simp] theorem State.handPhase_waitQueue (s : State) (k : SlotNo) (ph : Phase) : (s.handPhase k ph).waitQueue = s.waitQueue := by
  simp only [State.handPhase]
@[simp] theorem State.handPhase_groups (s : State) (k : SlotNo) (ph : Phase) : (s.handPhase k ph).groups = s.groups := by
  simp only [State.handPhase]
@[simp] theorem State.handPhase_channels (s : State) (k : SlotNo) (ph : Phase) :
    (s.handPhase k ph).channels = Vector.ofFn fun o => (s.channel o).handPhase k ph := by
  simp only [State.handPhase]
@[simp] theorem State.handPhase_tripLines (s : State) (k : SlotNo) (ph : Phase) : (s.handPhase k ph).tripLines = s.tripLines := by
  simp only [State.handPhase]
@[simp] theorem State.handPhase_reserved (s : State) (k : SlotNo) (ph : Phase) : (s.handPhase k ph).reserved = s.reserved := by
  simp only [State.handPhase]
@[simp] theorem State.handPhase_quota (s : State) (k : SlotNo) (ph : Phase) : (s.handPhase k ph).quota = s.quota := by
  simp only [State.handPhase]
@[simp] theorem State.handPhase_notices (s : State) (k : SlotNo) (ph : Phase) : (s.handPhase k ph).notices = s.notices := by
  simp only [State.handPhase]
@[simp] theorem State.handPhase_ports (s : State) (k : SlotNo) (ph : Phase) : (s.handPhase k ph).ports = s.ports := by
  simp only [State.handPhase]
@[simp] theorem State.handPhase_lastServed (s : State) (k : SlotNo) (ph : Phase) : (s.handPhase k ph).lastServed = s.lastServed := by
  simp only [State.handPhase]
@[simp] theorem State.handPhase_due (s : State) (k : SlotNo) (ph : Phase) : (s.handPhase k ph).due = s.due := by
  simp only [State.handPhase]
@[simp] theorem State.handPhase_choices (s : State) (k : SlotNo) (ph : Phase) : (s.handPhase k ph).choices = s.choices := by
  simp only [State.handPhase]
@[simp] theorem State.handPhase_pending (s : State) (k : SlotNo) (ph : Phase) : (s.handPhase k ph).pending = s.pending := by
  simp only [State.handPhase]
@[simp] theorem State.handPhase_slot (s : State) (k : SlotNo) (ph : Phase) (i : SlotNo) :
    (s.handPhase k ph).slot i = s.slot i := congrArg (fun x => x.get i) (State.handPhase_slots s k ph)
@[simp] theorem State.handPhase_group (s : State) (k : SlotNo) (ph : Phase) (g : GroupNo) :
    (s.handPhase k ph).group g = s.group g := congrArg (fun x => x.get g) (State.handPhase_groups s k ph)
@[simp] theorem State.handPhase_line (s : State) (k : SlotNo) (ph : Phase) (l : LineNo) :
    (s.handPhase k ph).line l = s.line l := congrArg (fun x => x.get l) (State.handPhase_tripLines s k ph)

/-! ## startQuiet -/

@[simp] theorem State.startQuiet_powered (s : State) (left : OutputNo → Bool) : (s.startQuiet left).powered = s.powered := by
  simp only [State.startQuiet]
@[simp] theorem State.startQuiet_rstnLow (s : State) (left : OutputNo → Bool) : (s.startQuiet left).rstnLow = s.rstnLow := by
  simp only [State.startQuiet]
@[simp] theorem State.startQuiet_mode (s : State) (left : OutputNo → Bool) : (s.startQuiet left).mode = s.mode := by
  simp only [State.startQuiet]
@[simp] theorem State.startQuiet_resetCause (s : State) (left : OutputNo → Bool) : (s.startQuiet left).resetCause = s.resetCause := by
  simp only [State.startQuiet]
@[simp] theorem State.startQuiet_epoch (s : State) (left : OutputNo → Bool) : (s.startQuiet left).epoch = s.epoch := by
  simp only [State.startQuiet]
@[simp] theorem State.startQuiet_tickDivider (s : State) (left : OutputNo → Bool) : (s.startQuiet left).tickDivider = s.tickDivider := by
  simp only [State.startQuiet]
@[simp] theorem State.startQuiet_dividerCount (s : State) (left : OutputNo → Bool) : (s.startQuiet left).dividerCount = s.dividerCount := by
  simp only [State.startQuiet]
@[simp] theorem State.startQuiet_slots (s : State) (left : OutputNo → Bool) : (s.startQuiet left).slots = s.slots := by
  simp only [State.startQuiet]
@[simp] theorem State.startQuiet_waitQueue (s : State) (left : OutputNo → Bool) : (s.startQuiet left).waitQueue = s.waitQueue := by
  simp only [State.startQuiet]
@[simp] theorem State.startQuiet_channels (s : State) (left : OutputNo → Bool) : (s.startQuiet left).channels = s.channels := by
  simp only [State.startQuiet]
@[simp] theorem State.startQuiet_tripLines (s : State) (left : OutputNo → Bool) : (s.startQuiet left).tripLines = s.tripLines := by
  simp only [State.startQuiet]
@[simp] theorem State.startQuiet_reserved (s : State) (left : OutputNo → Bool) : (s.startQuiet left).reserved = s.reserved := by
  simp only [State.startQuiet]
@[simp] theorem State.startQuiet_quota (s : State) (left : OutputNo → Bool) : (s.startQuiet left).quota = s.quota := by
  simp only [State.startQuiet]
@[simp] theorem State.startQuiet_notices (s : State) (left : OutputNo → Bool) : (s.startQuiet left).notices = s.notices := by
  simp only [State.startQuiet]
@[simp] theorem State.startQuiet_ports (s : State) (left : OutputNo → Bool) : (s.startQuiet left).ports = s.ports := by
  simp only [State.startQuiet]
@[simp] theorem State.startQuiet_lastServed (s : State) (left : OutputNo → Bool) : (s.startQuiet left).lastServed = s.lastServed := by
  simp only [State.startQuiet]
@[simp] theorem State.startQuiet_due (s : State) (left : OutputNo → Bool) : (s.startQuiet left).due = s.due := by
  simp only [State.startQuiet]
@[simp] theorem State.startQuiet_choices (s : State) (left : OutputNo → Bool) : (s.startQuiet left).choices = s.choices := by
  simp only [State.startQuiet]
@[simp] theorem State.startQuiet_pending (s : State) (left : OutputNo → Bool) : (s.startQuiet left).pending = s.pending := by
  simp only [State.startQuiet]
@[simp] theorem State.startQuiet_slot (s : State) (left : OutputNo → Bool) (i : SlotNo) :
    (s.startQuiet left).slot i = s.slot i := congrArg (fun x => x.get i) (State.startQuiet_slots s left)
@[simp] theorem State.startQuiet_channel (s : State) (left : OutputNo → Bool) (o : OutputNo) :
    (s.startQuiet left).channel o = s.channel o := congrArg (fun x => x.get o) (State.startQuiet_channels s left)
@[simp] theorem State.startQuiet_line (s : State) (left : OutputNo → Bool) (l : LineNo) :
    (s.startQuiet left).line l = s.line l := congrArg (fun x => x.get l) (State.startQuiet_tripLines s left)

/-! ## letGo -/

@[simp] theorem State.letGo_powered (s : State) (left : OutputNo → Bool) : (s.letGo left).powered = s.powered := by
  simp only [State.letGo, State.startQuiet]
@[simp] theorem State.letGo_rstnLow (s : State) (left : OutputNo → Bool) : (s.letGo left).rstnLow = s.rstnLow := by
  simp only [State.letGo, State.startQuiet]
@[simp] theorem State.letGo_mode (s : State) (left : OutputNo → Bool) : (s.letGo left).mode = s.mode := by
  simp only [State.letGo, State.startQuiet]
@[simp] theorem State.letGo_resetCause (s : State) (left : OutputNo → Bool) : (s.letGo left).resetCause = s.resetCause := by
  simp only [State.letGo, State.startQuiet]
@[simp] theorem State.letGo_epoch (s : State) (left : OutputNo → Bool) : (s.letGo left).epoch = s.epoch := by
  simp only [State.letGo, State.startQuiet]
@[simp] theorem State.letGo_tickDivider (s : State) (left : OutputNo → Bool) : (s.letGo left).tickDivider = s.tickDivider := by
  simp only [State.letGo, State.startQuiet]
@[simp] theorem State.letGo_dividerCount (s : State) (left : OutputNo → Bool) : (s.letGo left).dividerCount = s.dividerCount := by
  simp only [State.letGo, State.startQuiet]
@[simp] theorem State.letGo_slots (s : State) (left : OutputNo → Bool) : (s.letGo left).slots = s.slots := by
  simp only [State.letGo, State.startQuiet]
@[simp] theorem State.letGo_waitQueue (s : State) (left : OutputNo → Bool) : (s.letGo left).waitQueue = s.waitQueue := by
  simp only [State.letGo, State.startQuiet]
@[simp] theorem State.letGo_channels (s : State) (left : OutputNo → Bool) :
    (s.letGo left).channels = Vector.ofFn fun o => if left o then (s.channel o).letGo else s.channel o := by
  simp only [State.letGo, State.startQuiet]
@[simp] theorem State.letGo_tripLines (s : State) (left : OutputNo → Bool) : (s.letGo left).tripLines = s.tripLines := by
  simp only [State.letGo, State.startQuiet]
@[simp] theorem State.letGo_reserved (s : State) (left : OutputNo → Bool) : (s.letGo left).reserved = s.reserved := by
  simp only [State.letGo, State.startQuiet]
@[simp] theorem State.letGo_quota (s : State) (left : OutputNo → Bool) : (s.letGo left).quota = s.quota := by
  simp only [State.letGo, State.startQuiet]
@[simp] theorem State.letGo_notices (s : State) (left : OutputNo → Bool) : (s.letGo left).notices = s.notices := by
  simp only [State.letGo, State.startQuiet]
@[simp] theorem State.letGo_ports (s : State) (left : OutputNo → Bool) : (s.letGo left).ports = s.ports := by
  simp only [State.letGo, State.startQuiet]
@[simp] theorem State.letGo_lastServed (s : State) (left : OutputNo → Bool) : (s.letGo left).lastServed = s.lastServed := by
  simp only [State.letGo, State.startQuiet]
@[simp] theorem State.letGo_due (s : State) (left : OutputNo → Bool) : (s.letGo left).due = s.due := by
  simp only [State.letGo, State.startQuiet]
@[simp] theorem State.letGo_choices (s : State) (left : OutputNo → Bool) : (s.letGo left).choices = s.choices := by
  simp only [State.letGo, State.startQuiet]
@[simp] theorem State.letGo_pending (s : State) (left : OutputNo → Bool) : (s.letGo left).pending = s.pending := by
  simp only [State.letGo, State.startQuiet]
@[simp] theorem State.letGo_slot (s : State) (left : OutputNo → Bool) (i : SlotNo) :
    (s.letGo left).slot i = s.slot i := congrArg (fun x => x.get i) (State.letGo_slots s left)
@[simp] theorem State.letGo_line (s : State) (left : OutputNo → Bool) (l : LineNo) :
    (s.letGo left).line l = s.line l := congrArg (fun x => x.get l) (State.letGo_tripLines s left)

/-! ## takeOutputs -/

@[simp] theorem State.takeOutputs_powered (s : State) (k : SlotNo) (entries : List OutputEntry) : (s.takeOutputs k entries).powered = s.powered := by
  simp only [State.takeOutputs]
@[simp] theorem State.takeOutputs_rstnLow (s : State) (k : SlotNo) (entries : List OutputEntry) : (s.takeOutputs k entries).rstnLow = s.rstnLow := by
  simp only [State.takeOutputs]
@[simp] theorem State.takeOutputs_mode (s : State) (k : SlotNo) (entries : List OutputEntry) : (s.takeOutputs k entries).mode = s.mode := by
  simp only [State.takeOutputs]
@[simp] theorem State.takeOutputs_resetCause (s : State) (k : SlotNo) (entries : List OutputEntry) : (s.takeOutputs k entries).resetCause = s.resetCause := by
  simp only [State.takeOutputs]
@[simp] theorem State.takeOutputs_epoch (s : State) (k : SlotNo) (entries : List OutputEntry) : (s.takeOutputs k entries).epoch = s.epoch := by
  simp only [State.takeOutputs]
@[simp] theorem State.takeOutputs_tickDivider (s : State) (k : SlotNo) (entries : List OutputEntry) : (s.takeOutputs k entries).tickDivider = s.tickDivider := by
  simp only [State.takeOutputs]
@[simp] theorem State.takeOutputs_dividerCount (s : State) (k : SlotNo) (entries : List OutputEntry) : (s.takeOutputs k entries).dividerCount = s.dividerCount := by
  simp only [State.takeOutputs]
@[simp] theorem State.takeOutputs_slots (s : State) (k : SlotNo) (entries : List OutputEntry) : (s.takeOutputs k entries).slots = s.slots := by
  simp only [State.takeOutputs]
@[simp] theorem State.takeOutputs_waitQueue (s : State) (k : SlotNo) (entries : List OutputEntry) : (s.takeOutputs k entries).waitQueue = s.waitQueue := by
  simp only [State.takeOutputs]
@[simp] theorem State.takeOutputs_groups (s : State) (k : SlotNo) (entries : List OutputEntry) : (s.takeOutputs k entries).groups = s.groups := by
  simp only [State.takeOutputs]
@[simp] theorem State.takeOutputs_tripLines (s : State) (k : SlotNo) (entries : List OutputEntry) : (s.takeOutputs k entries).tripLines = s.tripLines := by
  simp only [State.takeOutputs]
@[simp] theorem State.takeOutputs_reserved (s : State) (k : SlotNo) (entries : List OutputEntry) : (s.takeOutputs k entries).reserved = s.reserved := by
  simp only [State.takeOutputs]
@[simp] theorem State.takeOutputs_quota (s : State) (k : SlotNo) (entries : List OutputEntry) : (s.takeOutputs k entries).quota = s.quota := by
  simp only [State.takeOutputs]
@[simp] theorem State.takeOutputs_notices (s : State) (k : SlotNo) (entries : List OutputEntry) : (s.takeOutputs k entries).notices = s.notices := by
  simp only [State.takeOutputs]
@[simp] theorem State.takeOutputs_ports (s : State) (k : SlotNo) (entries : List OutputEntry) : (s.takeOutputs k entries).ports = s.ports := by
  simp only [State.takeOutputs]
@[simp] theorem State.takeOutputs_lastServed (s : State) (k : SlotNo) (entries : List OutputEntry) : (s.takeOutputs k entries).lastServed = s.lastServed := by
  simp only [State.takeOutputs]
@[simp] theorem State.takeOutputs_due (s : State) (k : SlotNo) (entries : List OutputEntry) : (s.takeOutputs k entries).due = s.due := by
  simp only [State.takeOutputs]
@[simp] theorem State.takeOutputs_choices (s : State) (k : SlotNo) (entries : List OutputEntry) : (s.takeOutputs k entries).choices = s.choices := by
  simp only [State.takeOutputs]
@[simp] theorem State.takeOutputs_pending (s : State) (k : SlotNo) (entries : List OutputEntry) : (s.takeOutputs k entries).pending = s.pending := by
  simp only [State.takeOutputs]
@[simp] theorem State.takeOutputs_slot (s : State) (k : SlotNo) (entries : List OutputEntry) (i : SlotNo) :
    (s.takeOutputs k entries).slot i = s.slot i := congrArg (fun x => x.get i) (State.takeOutputs_slots s k entries)
@[simp] theorem State.takeOutputs_group (s : State) (k : SlotNo) (entries : List OutputEntry) (g : GroupNo) :
    (s.takeOutputs k entries).group g = s.group g := congrArg (fun x => x.get g) (State.takeOutputs_groups s k entries)
@[simp] theorem State.takeOutputs_line (s : State) (k : SlotNo) (entries : List OutputEntry) (l : LineNo) :
    (s.takeOutputs k entries).line l = s.line l := congrArg (fun x => x.get l) (State.takeOutputs_tripLines s k entries)

/-! ## leaveQueue -/

@[simp] theorem State.leaveQueue_powered (s : State) (k : SlotNo) : (s.leaveQueue k).powered = s.powered := rfl
@[simp] theorem State.leaveQueue_rstnLow (s : State) (k : SlotNo) : (s.leaveQueue k).rstnLow = s.rstnLow := rfl
@[simp] theorem State.leaveQueue_mode (s : State) (k : SlotNo) : (s.leaveQueue k).mode = s.mode := rfl
@[simp] theorem State.leaveQueue_resetCause (s : State) (k : SlotNo) : (s.leaveQueue k).resetCause = s.resetCause := rfl
@[simp] theorem State.leaveQueue_epoch (s : State) (k : SlotNo) : (s.leaveQueue k).epoch = s.epoch := rfl
@[simp] theorem State.leaveQueue_tickDivider (s : State) (k : SlotNo) : (s.leaveQueue k).tickDivider = s.tickDivider := rfl
@[simp] theorem State.leaveQueue_dividerCount (s : State) (k : SlotNo) : (s.leaveQueue k).dividerCount = s.dividerCount := rfl
@[simp] theorem State.leaveQueue_slots (s : State) (k : SlotNo) : (s.leaveQueue k).slots = s.slots := rfl
@[simp] theorem State.leaveQueue_waitQueue (s : State) (k : SlotNo) :
    (s.leaveQueue k).waitQueue = s.waitQueue.filter fun j => decide (j ≠ k) := rfl
@[simp] theorem State.leaveQueue_groups (s : State) (k : SlotNo) : (s.leaveQueue k).groups = s.groups := rfl
@[simp] theorem State.leaveQueue_channels (s : State) (k : SlotNo) : (s.leaveQueue k).channels = s.channels := rfl
@[simp] theorem State.leaveQueue_tripLines (s : State) (k : SlotNo) : (s.leaveQueue k).tripLines = s.tripLines := rfl
@[simp] theorem State.leaveQueue_reserved (s : State) (k : SlotNo) : (s.leaveQueue k).reserved = s.reserved := rfl
@[simp] theorem State.leaveQueue_quota (s : State) (k : SlotNo) : (s.leaveQueue k).quota = s.quota := rfl
@[simp] theorem State.leaveQueue_notices (s : State) (k : SlotNo) : (s.leaveQueue k).notices = s.notices := rfl
@[simp] theorem State.leaveQueue_ports (s : State) (k : SlotNo) : (s.leaveQueue k).ports = s.ports := rfl
@[simp] theorem State.leaveQueue_lastServed (s : State) (k : SlotNo) : (s.leaveQueue k).lastServed = s.lastServed := rfl
@[simp] theorem State.leaveQueue_due (s : State) (k : SlotNo) : (s.leaveQueue k).due = s.due := rfl
@[simp] theorem State.leaveQueue_choices (s : State) (k : SlotNo) : (s.leaveQueue k).choices = s.choices := rfl
@[simp] theorem State.leaveQueue_pending (s : State) (k : SlotNo) : (s.leaveQueue k).pending = s.pending := rfl
@[simp] theorem State.leaveQueue_slot (s : State) (k : SlotNo) (i : SlotNo) :
    (s.leaveQueue k).slot i = s.slot i := congrArg (fun x => x.get i) (State.leaveQueue_slots s k)
@[simp] theorem State.leaveQueue_channel (s : State) (k : SlotNo) (o : OutputNo) :
    (s.leaveQueue k).channel o = s.channel o := congrArg (fun x => x.get o) (State.leaveQueue_channels s k)
@[simp] theorem State.leaveQueue_group (s : State) (k : SlotNo) (g : GroupNo) :
    (s.leaveQueue k).group g = s.group g := congrArg (fun x => x.get g) (State.leaveQueue_groups s k)
@[simp] theorem State.leaveQueue_line (s : State) (k : SlotNo) (l : LineNo) :
    (s.leaveQueue k).line l = s.line l := congrArg (fun x => x.get l) (State.leaveQueue_tripLines s k)

/-! ## enterLive -/

@[simp] theorem State.enterLive_powered (s : State) (k : SlotNo) (r : Permit) : (s.enterLive k r).powered = s.powered := by
  simp only [State.enterLive, State.takeOutputs, State.leaveQueue, State.setSlotState, State.setSlot]
@[simp] theorem State.enterLive_rstnLow (s : State) (k : SlotNo) (r : Permit) : (s.enterLive k r).rstnLow = s.rstnLow := by
  simp only [State.enterLive, State.takeOutputs, State.leaveQueue, State.setSlotState, State.setSlot]
@[simp] theorem State.enterLive_mode (s : State) (k : SlotNo) (r : Permit) : (s.enterLive k r).mode = s.mode := by
  simp only [State.enterLive, State.takeOutputs, State.leaveQueue, State.setSlotState, State.setSlot]
@[simp] theorem State.enterLive_resetCause (s : State) (k : SlotNo) (r : Permit) : (s.enterLive k r).resetCause = s.resetCause := by
  simp only [State.enterLive, State.takeOutputs, State.leaveQueue, State.setSlotState, State.setSlot]
@[simp] theorem State.enterLive_epoch (s : State) (k : SlotNo) (r : Permit) : (s.enterLive k r).epoch = s.epoch := by
  simp only [State.enterLive, State.takeOutputs, State.leaveQueue, State.setSlotState, State.setSlot]
@[simp] theorem State.enterLive_tickDivider (s : State) (k : SlotNo) (r : Permit) : (s.enterLive k r).tickDivider = s.tickDivider := by
  simp only [State.enterLive, State.takeOutputs, State.leaveQueue, State.setSlotState, State.setSlot]
@[simp] theorem State.enterLive_dividerCount (s : State) (k : SlotNo) (r : Permit) : (s.enterLive k r).dividerCount = s.dividerCount := by
  simp only [State.enterLive, State.takeOutputs, State.leaveQueue, State.setSlotState, State.setSlot]
@[simp] theorem State.enterLive_slots (s : State) (k : SlotNo) (r : Permit) :
    (s.enterLive k r).slots = s.slots.set k.val { s.slot k with state := .live r (newRun r) } k.isLt := by
  simp only [State.enterLive, State.takeOutputs, State.leaveQueue, State.setSlotState, State.setSlot]
@[simp] theorem State.enterLive_waitQueue (s : State) (k : SlotNo) (r : Permit) :
    (s.enterLive k r).waitQueue = s.waitQueue.filter fun j => decide (j ≠ k) := by
  simp only [State.enterLive, State.takeOutputs, State.leaveQueue, State.setSlotState, State.setSlot]
@[simp] theorem State.enterLive_groups (s : State) (k : SlotNo) (r : Permit) : (s.enterLive k r).groups = s.groups := by
  simp only [State.enterLive, State.takeOutputs, State.leaveQueue, State.setSlotState, State.setSlot]
@[simp] theorem State.enterLive_tripLines (s : State) (k : SlotNo) (r : Permit) : (s.enterLive k r).tripLines = s.tripLines := by
  simp only [State.enterLive, State.takeOutputs, State.leaveQueue, State.setSlotState, State.setSlot]
@[simp] theorem State.enterLive_reserved (s : State) (k : SlotNo) (r : Permit) : (s.enterLive k r).reserved = s.reserved := by
  simp only [State.enterLive, State.takeOutputs, State.leaveQueue, State.setSlotState, State.setSlot]
@[simp] theorem State.enterLive_quota (s : State) (k : SlotNo) (r : Permit) : (s.enterLive k r).quota = s.quota := by
  simp only [State.enterLive, State.takeOutputs, State.leaveQueue, State.setSlotState, State.setSlot]
@[simp] theorem State.enterLive_notices (s : State) (k : SlotNo) (r : Permit) : (s.enterLive k r).notices = s.notices := by
  simp only [State.enterLive, State.takeOutputs, State.leaveQueue, State.setSlotState, State.setSlot]
@[simp] theorem State.enterLive_ports (s : State) (k : SlotNo) (r : Permit) : (s.enterLive k r).ports = s.ports := by
  simp only [State.enterLive, State.takeOutputs, State.leaveQueue, State.setSlotState, State.setSlot]
@[simp] theorem State.enterLive_lastServed (s : State) (k : SlotNo) (r : Permit) : (s.enterLive k r).lastServed = s.lastServed := by
  simp only [State.enterLive, State.takeOutputs, State.leaveQueue, State.setSlotState, State.setSlot]
@[simp] theorem State.enterLive_due (s : State) (k : SlotNo) (r : Permit) :
    (s.enterLive k r).due = s.due.filter fun e => !e.ofSlot k := by
  simp only [State.enterLive, State.takeOutputs, State.leaveQueue, State.setSlotState, State.setSlot]
@[simp] theorem State.enterLive_choices (s : State) (k : SlotNo) (r : Permit) : (s.enterLive k r).choices = s.choices := by
  simp only [State.enterLive, State.takeOutputs, State.leaveQueue, State.setSlotState, State.setSlot]
@[simp] theorem State.enterLive_pending (s : State) (k : SlotNo) (r : Permit) : (s.enterLive k r).pending = s.pending := by
  simp only [State.enterLive, State.takeOutputs, State.leaveQueue, State.setSlotState, State.setSlot]
@[simp] theorem State.enterLive_group (s : State) (k : SlotNo) (r : Permit) (g : GroupNo) :
    (s.enterLive k r).group g = s.group g := congrArg (fun x => x.get g) (State.enterLive_groups s k r)
@[simp] theorem State.enterLive_line (s : State) (k : SlotNo) (r : Permit) (l : LineNo) :
    (s.enterLive k r).line l = s.line l := congrArg (fun x => x.get l) (State.enterLive_tripLines s k r)

/-! ## enterWaiting -/

@[simp] theorem State.enterWaiting_powered (s : State) (k : SlotNo) (r : Permit) : (s.enterWaiting k r).powered = s.powered := rfl
@[simp] theorem State.enterWaiting_rstnLow (s : State) (k : SlotNo) (r : Permit) : (s.enterWaiting k r).rstnLow = s.rstnLow := rfl
@[simp] theorem State.enterWaiting_mode (s : State) (k : SlotNo) (r : Permit) : (s.enterWaiting k r).mode = s.mode := rfl
@[simp] theorem State.enterWaiting_resetCause (s : State) (k : SlotNo) (r : Permit) : (s.enterWaiting k r).resetCause = s.resetCause := rfl
@[simp] theorem State.enterWaiting_epoch (s : State) (k : SlotNo) (r : Permit) : (s.enterWaiting k r).epoch = s.epoch := rfl
@[simp] theorem State.enterWaiting_tickDivider (s : State) (k : SlotNo) (r : Permit) : (s.enterWaiting k r).tickDivider = s.tickDivider := rfl
@[simp] theorem State.enterWaiting_dividerCount (s : State) (k : SlotNo) (r : Permit) : (s.enterWaiting k r).dividerCount = s.dividerCount := rfl
@[simp] theorem State.enterWaiting_slots (s : State) (k : SlotNo) (r : Permit) :
    (s.enterWaiting k r).slots = s.slots.set k.val { s.slot k with state := .waiting r r.waitLimit } k.isLt := rfl
@[simp] theorem State.enterWaiting_waitQueue (s : State) (k : SlotNo) (r : Permit) :
    (s.enterWaiting k r).waitQueue = s.waitQueue ++ [k] := rfl
@[simp] theorem State.enterWaiting_groups (s : State) (k : SlotNo) (r : Permit) : (s.enterWaiting k r).groups = s.groups := rfl
@[simp] theorem State.enterWaiting_channels (s : State) (k : SlotNo) (r : Permit) : (s.enterWaiting k r).channels = s.channels := rfl
@[simp] theorem State.enterWaiting_tripLines (s : State) (k : SlotNo) (r : Permit) : (s.enterWaiting k r).tripLines = s.tripLines := rfl
@[simp] theorem State.enterWaiting_reserved (s : State) (k : SlotNo) (r : Permit) : (s.enterWaiting k r).reserved = s.reserved := rfl
@[simp] theorem State.enterWaiting_quota (s : State) (k : SlotNo) (r : Permit) : (s.enterWaiting k r).quota = s.quota := rfl
@[simp] theorem State.enterWaiting_notices (s : State) (k : SlotNo) (r : Permit) : (s.enterWaiting k r).notices = s.notices := rfl
@[simp] theorem State.enterWaiting_ports (s : State) (k : SlotNo) (r : Permit) : (s.enterWaiting k r).ports = s.ports := rfl
@[simp] theorem State.enterWaiting_lastServed (s : State) (k : SlotNo) (r : Permit) : (s.enterWaiting k r).lastServed = s.lastServed := rfl
@[simp] theorem State.enterWaiting_due (s : State) (k : SlotNo) (r : Permit) :
    (s.enterWaiting k r).due = s.due.filter fun e => !e.ofSlot k := rfl
@[simp] theorem State.enterWaiting_choices (s : State) (k : SlotNo) (r : Permit) : (s.enterWaiting k r).choices = s.choices := rfl
@[simp] theorem State.enterWaiting_pending (s : State) (k : SlotNo) (r : Permit) : (s.enterWaiting k r).pending = s.pending := rfl
@[simp] theorem State.enterWaiting_channel (s : State) (k : SlotNo) (r : Permit) (o : OutputNo) :
    (s.enterWaiting k r).channel o = s.channel o := congrArg (fun x => x.get o) (State.enterWaiting_channels s k r)
@[simp] theorem State.enterWaiting_group (s : State) (k : SlotNo) (r : Permit) (g : GroupNo) :
    (s.enterWaiting k r).group g = s.group g := congrArg (fun x => x.get g) (State.enterWaiting_groups s k r)
@[simp] theorem State.enterWaiting_line (s : State) (k : SlotNo) (r : Permit) (l : LineNo) :
    (s.enterWaiting k r).line l = s.line l := congrArg (fun x => x.get l) (State.enterWaiting_tripLines s k r)

/-! ## takeRequest -/

@[simp] theorem State.takeRequest_powered (s : State) (p : Port) : (s.takeRequest p).powered = s.powered := rfl
@[simp] theorem State.takeRequest_rstnLow (s : State) (p : Port) : (s.takeRequest p).rstnLow = s.rstnLow := rfl
@[simp] theorem State.takeRequest_mode (s : State) (p : Port) : (s.takeRequest p).mode = s.mode := rfl
@[simp] theorem State.takeRequest_resetCause (s : State) (p : Port) : (s.takeRequest p).resetCause = s.resetCause := rfl
@[simp] theorem State.takeRequest_epoch (s : State) (p : Port) : (s.takeRequest p).epoch = s.epoch := rfl
@[simp] theorem State.takeRequest_tickDivider (s : State) (p : Port) : (s.takeRequest p).tickDivider = s.tickDivider := rfl
@[simp] theorem State.takeRequest_dividerCount (s : State) (p : Port) : (s.takeRequest p).dividerCount = s.dividerCount := rfl
@[simp] theorem State.takeRequest_slots (s : State) (p : Port) : (s.takeRequest p).slots = s.slots := rfl
@[simp] theorem State.takeRequest_waitQueue (s : State) (p : Port) : (s.takeRequest p).waitQueue = s.waitQueue := rfl
@[simp] theorem State.takeRequest_groups (s : State) (p : Port) : (s.takeRequest p).groups = s.groups := rfl
@[simp] theorem State.takeRequest_channels (s : State) (p : Port) : (s.takeRequest p).channels = s.channels := rfl
@[simp] theorem State.takeRequest_tripLines (s : State) (p : Port) : (s.takeRequest p).tripLines = s.tripLines := rfl
@[simp] theorem State.takeRequest_reserved (s : State) (p : Port) : (s.takeRequest p).reserved = s.reserved := rfl
@[simp] theorem State.takeRequest_quota (s : State) (p : Port) : (s.takeRequest p).quota = s.quota := rfl
@[simp] theorem State.takeRequest_notices (s : State) (p : Port) : (s.takeRequest p).notices = s.notices := rfl
@[simp] theorem State.takeRequest_ports (s : State) (p : Port) :
    (s.takeRequest p).ports = s.ports.set p { s.ports.get p with mailbox := (s.ports.get p).mailbox.tail } := rfl
@[simp] theorem State.takeRequest_lastServed (s : State) (p : Port) :
    (s.takeRequest p).lastServed = p := rfl
@[simp] theorem State.takeRequest_due (s : State) (p : Port) : (s.takeRequest p).due = s.due := rfl
@[simp] theorem State.takeRequest_choices (s : State) (p : Port) : (s.takeRequest p).choices = s.choices := rfl
@[simp] theorem State.takeRequest_pending (s : State) (p : Port) : (s.takeRequest p).pending = s.pending := rfl
@[simp] theorem State.takeRequest_slot (s : State) (p : Port) (i : SlotNo) :
    (s.takeRequest p).slot i = s.slot i := congrArg (fun x => x.get i) (State.takeRequest_slots s p)
@[simp] theorem State.takeRequest_channel (s : State) (p : Port) (o : OutputNo) :
    (s.takeRequest p).channel o = s.channel o := congrArg (fun x => x.get o) (State.takeRequest_channels s p)
@[simp] theorem State.takeRequest_group (s : State) (p : Port) (g : GroupNo) :
    (s.takeRequest p).group g = s.group g := congrArg (fun x => x.get g) (State.takeRequest_groups s p)
@[simp] theorem State.takeRequest_line (s : State) (p : Port) (l : LineNo) :
    (s.takeRequest p).line l = s.line l := congrArg (fun x => x.get l) (State.takeRequest_tripLines s p)

/-! ## What the accessors read after an update of their own field -/

theorem State.setSlot_slot (s : State) (k : SlotNo) (x : Slot) (j : SlotNo) :
    (s.setSlot k x).slot j = if j = k then x else s.slot j := get_set_fin s.slots k j x

@[simp] theorem State.setSlot_slot_same (s : State) (k : SlotNo) (x : Slot) : (s.setSlot k x).slot k = x := by
  simp [State.setSlot_slot]

theorem State.setSlotState_slot (s : State) (k : SlotNo) (st : SlotState) (j : SlotNo) :
    (s.setSlotState k st).slot j = if j = k then { s.slot k with state := st } else s.slot j :=
  State.setSlot_slot s k _ j

@[simp] theorem State.setSlotState_slot_same (s : State) (k : SlotNo) (st : SlotState) :
    (s.setSlotState k st).slot k = { s.slot k with state := st } := by
  simp [State.setSlotState_slot]

theorem State.countSlot_slot (s : State) (k : SlotNo) (st : SlotState) (j : SlotNo) :
    (s.countSlot k st).slot j = if j = k then { s.slot k with state := st } else s.slot j :=
  get_set_fin s.slots k j _

@[simp] theorem State.countSlot_slot_same (s : State) (k : SlotNo) (st : SlotState) :
    (s.countSlot k st).slot k = { s.slot k with state := st } := by
  simp [State.countSlot_slot]

theorem State.setChannel_channel (s : State) (k : OutputNo) (c : Channel) (o : OutputNo) :
    (s.setChannel k c).channel o = if o = k then c else s.channel o := get_set_fin s.channels k o c

@[simp] theorem State.setChannel_channel_same (s : State) (k : OutputNo) (c : Channel) :
    (s.setChannel k c).channel k = c := by
  simp [State.setChannel_channel]

theorem State.setGroup_group (s : State) (k : GroupNo) (x : Group) (g : GroupNo) :
    (s.setGroup k x).group g = if g = k then x else s.group g := get_set_fin s.groups k g x

@[simp] theorem State.setGroup_group_same (s : State) (k : GroupNo) (x : Group) : (s.setGroup k x).group k = x := by
  simp [State.setGroup_group]

theorem State.setLine_line (s : State) (k : LineNo) (x : TripLine) (l : LineNo) :
    (s.setLine k x).line l = if l = k then x else s.line l := get_set_fin s.tripLines k l x

@[simp] theorem State.setLine_line_same (s : State) (k : LineNo) (x : TripLine) : (s.setLine k x).line k = x := by
  simp [State.setLine_line]

@[simp] theorem State.handPhase_channel (s : State) (k : SlotNo) (ph : Phase) (o : OutputNo) :
    (s.handPhase k ph).channel o = (s.channel o).handPhase k ph := by
  rw [State.channel, State.handPhase]
  exact get_ofFn_fin _ o

@[simp] theorem State.letGo_channel (s : State) (left : OutputNo → Bool) (o : OutputNo) :
    (s.letGo left).channel o = if left o then (s.channel o).letGo else s.channel o := by
  rw [State.channel, State.letGo_channels]
  exact get_ofFn_fin _ o

/-- The groups after some outputs have left HELD (R52). -/
theorem State.startQuiet_group (s : State) (left : OutputNo → Bool) (g : GroupNo) :
    (s.startQuiet left).group g =
      if allOutputs.any (fun o => left o && inSet (s.group g).members o) then (s.group g).startQuiet
      else s.group g := by
  rw [State.group, State.startQuiet]
  exact get_ofFn_fin _ g

theorem State.letGo_group (s : State) (left : OutputNo → Bool) (g : GroupNo) :
    (s.letGo left).group g =
      if allOutputs.any (fun o => left o && inSet (s.group g).members o) then (s.group g).startQuiet
      else s.group g := by
  rw [State.group, State.letGo, State.startQuiet]
  exact get_ofFn_fin _ g

/-- A channel after the outputs of a list have been taken: the first entry for it decides (R115). -/
theorem State.takeOutputs_channel (s : State) (k : SlotNo) (entries : List OutputEntry) (o : OutputNo) :
    (s.takeOutputs k entries).channel o =
      match entries.find? (fun e => decide (e.output = o)) with
      | some e => (s.channel o).take k e.invert
      | none => s.channel o := by
  rw [State.channel, State.takeOutputs]
  exact get_ofFn_fin _ o

theorem State.enterLive_slot (s : State) (k : SlotNo) (r : Permit) (j : SlotNo) :
    (s.enterLive k r).slot j = if j = k then { s.slot k with state := .live r (newRun r) } else s.slot j :=
  State.setSlotState_slot s k _ j

theorem State.enterLive_channel (s : State) (k : SlotNo) (r : Permit) (o : OutputNo) :
    (s.enterLive k r).channel o =
      match r.outputs.find? (fun e => decide (e.output = o)) with
      | some e => (s.channel o).take k e.invert
      | none => s.channel o :=
  State.takeOutputs_channel ((s.setSlotState k _).leaveQueue k) k r.outputs o

theorem State.enterWaiting_slot (s : State) (k : SlotNo) (r : Permit) (j : SlotNo) :
    (s.enterWaiting k r).slot j = if j = k then { s.slot k with state := .waiting r r.waitLimit } else s.slot j :=
  State.setSlotState_slot s k _ j

end Sys2Proof.Machine
end

