-- ==== Sys2Proof/Laws/Notices.lean ====
section
/-! SUPPORT. What a post does to a notice set, and how the changes of the notice sets over the parts of an event add up (R12,
R14, R38, R142). -/

namespace Sys2Proof.Machine

/-! ## One set -/

/-- Different notices have different places. -/
theorem place_injective {m n : Notice} (h : m.place = n.place) : m = n := by
  have key : ∀ (k : Nat) (a b : Handle), k * 65536 + a.slot.val * 2048 + a.generation.toNat * 16 + a.epoch.toNat
      = k * 65536 + b.slot.val * 2048 + b.generation.toNat * 16 + b.epoch.toNat → a = b := by
    rintro k ⟨e, g, i⟩ ⟨e', g', i'⟩ hab
    have h1 := e.isLt; have h2 := e'.isLt; have h3 := g.isLt; have h4 := g'.isLt
    simp only at hab
    have hi : i = i' := Fin.ext (by omega)
    have hg : g = g' := BitVec.eq_of_toNat_eq (by omega)
    have he : e = e' := BitVec.eq_of_toNat_eq (by omega)
    rw [hi, hg, he]
  have bound : ∀ a : Handle, a.slot.val * 2048 + a.generation.toNat * 16 + a.epoch.toNat < 65536 := by
    rintro ⟨e, g, i⟩
    have h1 := e.isLt; have h3 := g.isLt; have h5 := i.isLt
    simp only
    omega
  cases m with
  | trip l =>
    have := l.isLt
    cases n with
    | trip l' => exact congrArg _ (Fin.ext h)
    | fault o | closed a | granted a | completed a => dsimp only [Notice.place] at h; omega
  | fault o =>
    have := o.isLt
    cases n with
    | fault o' => exact congrArg _ (Fin.ext (by simpa [Notice.place] using h))
    | trip l => have := l.isLt; dsimp only [Notice.place] at h; omega
    | closed a | granted a | completed a => dsimp only [Notice.place] at h; omega
  | closed a =>
    have := bound a
    cases n with
    | closed b => rw [key 2 a b h]
    | trip l => have := l.isLt; dsimp only [Notice.place] at h; omega
    | fault o => have := o.isLt; dsimp only [Notice.place] at h; omega
    | granted b | completed b => have := bound b; dsimp only [Notice.place] at h; omega
  | granted a =>
    have := bound a
    cases n with
    | granted b => rw [key 3 a b h]
    | trip l => have := l.isLt; dsimp only [Notice.place] at h; omega
    | fault o => have := o.isLt; dsimp only [Notice.place] at h; omega
    | closed b | completed b => have := bound b; dsimp only [Notice.place] at h; omega
  | completed a =>
    have := bound a
    cases n with
    | completed b => rw [key 4 a b h]
    | trip l => have := l.isLt; dsimp only [Notice.place] at h; omega
    | fault o => have := o.isLt; dsimp only [Notice.place] at h; omega
    | closed b | granted b => have := bound b; dsimp only [Notice.place] at h; omega

/-- A list of entries in the order of R145. -/
def Ordered (es : List NoticeEntry) : Prop := es.Pairwise (fun a b => a.notice.place < b.notice.place)

/-- A post leaves the entries for every other notice alone (R142). -/
theorem mem_insertNotice_other {n : Notice} {e : NoticeEntry} (he : e.notice ≠ n) (es : List NoticeEntry) :
    e ∈ insertNotice n es ↔ e ∈ es := by
  have hne : ∀ x : NoticeEntry, x.notice = n → e ≠ x := by rintro x hx rfl; exact he hx
  induction es with
  | nil => simp [insertNotice, hne]
  | cons x es ih =>
    simp only [insertNotice]
    split
    · rename_i hx
      rw [List.mem_cons, List.mem_cons]
      exact or_congr (iff_of_false (hne _ hx) (hne x hx)) Iff.rfl
    · split
      · simp [hne]
      · simp [ih]

/-- A post to a set without an entry for the notice adds one with a repeat count of 1 (R142). -/
theorem mem_insertNotice_new {n : Notice} {es : List NoticeEntry} (h : ∀ e ∈ es, e.notice ≠ n) {e : NoticeEntry}
    (he : e.notice = n) : e ∈ insertNotice n es ↔ e.count = 1 := by
  have hes : e ∉ es := fun hm => h e hm he
  obtain ⟨m, k⟩ := e
  obtain rfl : m = n := he
  induction es with
  | nil => simp [insertNotice]
  | cons x es ih =>
    have hx : x.notice ≠ m := h x (by simp)
    have hxe : ({ notice := m, count := k } : NoticeEntry) ≠ x := by rintro rfl; exact hx rfl
    have hes' : ({ notice := m, count := k } : NoticeEntry) ∉ es := fun hm => hes (by simp [hm])
    simp only [insertNotice, if_neg hx]
    split
    · simp [hxe, hes']
    · have := ih hes' fun e hm => h e (List.mem_cons_of_mem _ hm)
      simp [hxe, this]

/-- A post to an ordered set with an entry for the notice raises its repeat count, stopping at 15 (R142). -/
theorem mem_insertNotice_count {n : Notice} {es : List NoticeEntry} (ho : Ordered es) {c : Nat}
    (h : { notice := n, count := c } ∈ es) (hc : c ≤ 15) {e : NoticeEntry} (he : e.notice = n) :
    e ∈ insertNotice n es ↔ e.count = if c = 15 then 15 else c + 1 := by
  obtain ⟨m, k⟩ := e
  obtain rfl : m = n := he
  induction es with
  | nil => cases h
  | cons x es ih =>
    obtain ⟨h1, h2⟩ := List.pairwise_cons.1 ho
    simp only [insertNotice]
    rcases List.mem_cons.1 h with rfl | hm
    · have hn : ({ notice := m, count := k } : NoticeEntry) ∉ es := fun hm => absurd (h1 _ hm) (by simp)
      simp only [if_true, List.mem_cons, hn, or_false, NoticeEntry.mk.injEq, true_and]
      split <;> split <;> omega
    · have hlt := h1 _ hm
      simp only at hlt
      have hx : x.notice ≠ m := by rintro rfl; exact absurd hlt (Nat.lt_irrefl _)
      have hxe : ({ notice := m, count := k } : NoticeEntry) ≠ x := by rintro rfl; exact hx rfl
      rw [if_neg hx, if_neg (by omega), List.mem_cons, ih h2 hm]
      simp [hxe]

/-- A post keeps a set in order. -/
theorem ordered_insertNotice (n : Notice) {es : List NoticeEntry} (ho : Ordered es) : Ordered (insertNotice n es) := by
  induction es with
  | nil => simp [insertNotice, Ordered]
  | cons x es ih =>
    obtain ⟨h1, h2⟩ := List.pairwise_cons.1 ho
    simp only [insertNotice]
    split
    · exact List.pairwise_cons.2 ⟨h1, h2⟩
    · rename_i hx
      split
      · rename_i hlt
        refine List.pairwise_cons.2 ⟨fun e he => ?_, ho⟩
        rcases List.mem_cons.1 he with rfl | he
        · exact hlt
        · exact hlt.trans (h1 e he)
      · rename_i hle
        refine List.pairwise_cons.2 ⟨fun e he => ?_, ih h2⟩
        by_cases hen : e.notice = n
        · rw [hen]
          exact lt_of_le_of_ne (Nat.le_of_not_lt hle) fun h => hx (place_injective h)
        · exact h1 e ((mem_insertNotice_other hen es).1 he)

/-! ## Both sets -/

/-- What becomes of the sets where no notice moves. -/
theorem noticesAfter_of_eq {s t : State} (h : t.notices = s.notices) :
    s.noticesAfter t (fun _ _ => False) (fun _ _ => False) := by
  refine fun ho => ⟨fun p => by rw [h]; exact ho p, fun p n => ⟨False.elim, False.elim, fun _ _ e _ => by rw [h]⟩⟩

/-- Only the sets matter, and what each list of notices names. -/
theorem noticesAfter_congr {s t s' t' : State} {A D A' D' : Port → Notice → Prop} (h : s.noticesAfter t A D)
    (hs : s'.notices = s.notices) (ht : t'.notices = t.notices) (hA : ∀ p n, A' p n ↔ A p n) (hD : ∀ p n, D' p n ↔ D p n) :
    s'.noticesAfter t' A' D' := by
  have eA : A' = A := funext fun p => funext fun n => propext (hA p n)
  have eD : D' = D := funext fun p => funext fun n => propext (hD p n)
  subst eA eD
  simp only [State.noticesAfter, State.noticesOrdered, State.postedOnce, State.entryKept, hs, ht] at h ⊢
  exact h

/-- One post (R142). -/
theorem post_noticesAfter (s : State) (p : Port) (n : Notice) :
    s.noticesAfter (s.post p n) (fun q m => q = p ∧ m = n) (fun _ _ => False) := by
  have here : (s.post p n).notices.get p = (s.notices.get p).post n := by simp [State.post_notices]
  have there : ∀ q, q ≠ p → (s.post p n).notices.get q = s.notices.get q := by
    intro q hq
    simp [State.post_notices, PerPort.get_set, hq]
  intro ho
  refine ⟨fun q => ?_, fun q m => ⟨?_, False.elim, fun hA _ e he => ?_⟩⟩
  · by_cases hq : q = p
    · subst hq
      rw [here]
      simp only [NoticeUnit.post]
      split
      · exact ordered_insertNotice n (ho q)
      · exact ho q
    · rw [there q hq]
      exact ho q
  · rintro ⟨rfl, rfl⟩
    simp only [State.postedOnce, State.entryKept, here, NoticeUnit.post]
    refine ⟨fun hm e _ => by simp [hm], fun hm => ?_⟩
    simp only [hm, if_true]
    exact ⟨fun hn e he => mem_insertNotice_new hn he, fun c hc h15 e he => mem_insertNotice_count (ho q) hc h15 he⟩
  · by_cases hq : q = p
    · subst hq
      rw [here]
      simp only [NoticeUnit.post]
      split
      · exact mem_insertNotice_other (by rintro rfl; exact hA ⟨rfl, he.symm⟩) _
      · exact Iff.rfl
    · rw [there q hq]

/-- The masks of both ports are as they were. -/
def State.masksKept (s t : State) : Prop := ∀ p : Port, (t.notices.get p).mask = (s.notices.get p).mask

/-- The changes of two parts of an event, where none of them meets another at one notice. -/
theorem noticesAfter_trans {s u t : State} {A D A' D' : Port → Notice → Prop} (h : s.noticesAfter u A D)
    (h' : u.noticesAfter t A' D') (hm : s.masksKept u) (hA : ∀ p n, A p n → ¬ A' p n ∧ ¬ D' p n)
    (hD : ∀ p n, D p n → ¬ A' p n) :
    s.noticesAfter t (fun p n => A p n ∨ A' p n) (fun p n => D p n ∨ D' p n) := by
  intro ho
  obtain ⟨hu, h1⟩ := h ho
  obtain ⟨ht, h2⟩ := h' hu
  refine ⟨ht, fun p n => ⟨?_, ?_, fun nA nD => ?_⟩⟩
  · rintro (a | a)
    · have kept := (h2 p n).2.2 (hA p n a).1 (hA p n a).2
      obtain ⟨p1, p2⟩ := (h1 p n).1 a
      refine ⟨fun hk e he => (kept e he).trans (p1 hk e he), fun hk => ⟨fun hn e he => (kept e he).trans ((p2 hk).1 hn e he),
        fun c hc h15 e he => (kept e he).trans ((p2 hk).2 c hc h15 e he)⟩⟩
    · have nA : ¬ A p n := fun x => (hA p n x).1 a
      have nD : ¬ D p n := fun x => hD p n x a
      have kept := (h1 p n).2.2 nA nD
      obtain ⟨p1, p2⟩ := (h2 p n).1 a
      rw [hm p] at p1 p2
      refine ⟨fun hk e he => (p1 hk e he).trans (kept e he), fun hk => ⟨fun hn => (p2 hk).1 fun e he hen =>
        hn e ((kept e hen).1 he) hen, fun c hc => (p2 hk).2 c ((kept _ rfl).2 hc)⟩⟩
  · rintro (d | d)
    · by_cases d' : D' p n
      · exact (h2 p n).2.1 d'
      · intro e he hen
        exact (h1 p n).2.1 d e (((h2 p n).2.2 (hD p n d) d' e hen).1 he) hen
    · exact (h2 p n).2.1 d
  · exact fun e he => ((h2 p n).2.2 (fun x => nA (.inr x)) (fun x => nD (.inr x)) e he).trans
      ((h1 p n).2.2 (fun x => nA (.inl x)) (fun x => nD (.inl x)) e he)

/-! ## The sets and the slots -/

/-- What the change of one slot posts. -/
theorem slotsPost_one {s t : State} {i : SlotNo} (h : ∀ j, j ≠ i → t.slot j = s.slot j) (p : Port) (n : Notice) :
    s.slotsPost t p n ↔ ∃ r : Permit, p = r.owner
      ∧ ((∃ run, (s.slot i).state.isLive = false ∧ (t.slot i).state = .live r run ∧ n = .granted (s.handle i))
        ∨ ∃ c, (∀ q c', (s.slot i).state ≠ .closed q c') ∧ (t.slot i).state = .closed r c ∧ n = .closed (s.handle i)) := by
  refine ⟨?_, fun ⟨r, hr⟩ => ⟨i, r, hr⟩⟩
  rintro ⟨j, r, hp, hx⟩
  by_cases hj : j = i
  · exact hj ▸ ⟨r, hp, hx⟩
  · rw [h j hj] at hx
    rcases hx with ⟨run, a, b, -⟩ | ⟨c, a, b, -⟩
    · rw [b] at a; cases a
    · exact absurd b (a r c)

/-- What the change of one slot drops. -/
theorem slotsDrop_one {s t : State} {i : SlotNo} (h : ∀ j, j ≠ i → t.slot j = s.slot j) (p : Port) (n : Notice) :
    s.slotsDrop t p n ↔ (s.slot i).state.ownedBy p = true ∧ (t.slot i).state = .free ∧ n.slot = some i := by
  refine ⟨?_, fun hx => ⟨i, hx⟩⟩
  rintro ⟨j, a, b, c⟩
  by_cases hj : j = i
  · exact hj ▸ ⟨a, b, c⟩
  · rw [h j hj] at b
    rw [b] at a; cases a

/-- One permit is closed, with its post (R12). -/
theorem close_noticesFollow {s : State} {i : SlotNo} {r : Permit} (c : Closure)
    (hn : ∀ q c', (s.slot i).state ≠ .closed q c') :
    s.noticesFollow ((s.setSlotState i (.closed r c)).post r.owner (.closed (s.handle i))) fun _ => False := by
  have hs : ((s.setSlotState i (.closed r c)).post r.owner (.closed (s.handle i))).slot i =
      { generation := (s.slot i).generation, state := .closed r c } := by simp [State.setSlotState]
  have ho : ∀ j, j ≠ i → ((s.setSlotState i (.closed r c)).post r.owner (.closed (s.handle i))).slot j = s.slot j := by
    intro j hj; simp [State.setSlotState, State.setSlot_slot, hj]
  refine noticesAfter_congr (post_noticesAfter (s.setSlotState i (.closed r c)) r.owner (.closed (s.handle i))) rfl rfl
    (fun p n => ?_) fun p n => ?_
  · rw [false_or, slotsPost_one ho, hs]
    constructor
    · rintro ⟨q, hp, ⟨run, -, b, -⟩ | ⟨k, -, b, hn'⟩⟩
      · cases b
      · cases b; exact ⟨hp, hn'⟩
    · exact fun ⟨hp, hn'⟩ => ⟨r, hp, .inr ⟨c, hn, rfl, hn'⟩⟩
  · rw [slotsDrop_one ho, hs, iff_false]
    rintro ⟨-, b, -⟩; cases b

/-- The permit notices of a slot leave one set (R14). -/
theorem dropSlot_noticesAfter (s : State) (p : Port) (i : SlotNo) :
    s.noticesAfter (s.setNotices p ((s.notices.get p).dropSlot i)) (fun _ _ => False)
      (fun q n => q = p ∧ n.slot = some i) := by
  have here : (s.setNotices p ((s.notices.get p).dropSlot i)).notices.get p = (s.notices.get p).dropSlot i := by simp
  have there : ∀ q, q ≠ p → (s.setNotices p ((s.notices.get p).dropSlot i)).notices.get q = s.notices.get q := by
    intro q hq; simp [PerPort.get_set, hq]
  intro ho
  refine ⟨fun q => ?_, fun q n => ⟨False.elim, ?_, fun _ hD e he => ?_⟩⟩
  · by_cases hq : q = p
    · subst hq
      rw [here]
      exact (ho q).filter _
    · rw [there q hq]
      exact ho q
  · rintro ⟨rfl, hn⟩ e he rfl
    rw [here] at he
    simp only [NoticeUnit.dropSlot, List.mem_filter, decide_eq_true_eq] at he
    exact he.2 hn
  · by_cases hq : q = p
    · subst hq
      rw [here]
      simp only [NoticeUnit.dropSlot, List.mem_filter, decide_eq_true_eq, he]
      exact ⟨And.left, fun hm => ⟨hm, fun hn => hD ⟨rfl, hn⟩⟩⟩
    · rw [there q hq]

/-- One permit's slot is freed, and its notices are dropped (R14). -/
theorem free_noticesFollow {s : State} {i : SlotNo} {r : Permit} (h : (s.slot i).state.record = some r) (g : BitVec 7) :
    s.noticesFollow ((s.setSlot i { generation := g, state := .free }).setNotices r.owner
      ((s.notices.get r.owner).dropSlot i)) fun _ => False := by
  have hs : ((s.setSlot i { generation := g, state := .free }).setNotices r.owner
      ((s.notices.get r.owner).dropSlot i)).slot i = { generation := g, state := .free } := by simp
  have ho : ∀ j, j ≠ i → ((s.setSlot i { generation := g, state := .free }).setNotices r.owner
      ((s.notices.get r.owner).dropSlot i)).slot j = s.slot j := by
    intro j hj; simp [State.setSlot_slot, hj]
  refine noticesAfter_congr (dropSlot_noticesAfter (s.setSlot i { generation := g, state := .free }) r.owner i) rfl rfl
    (fun p n => ?_) fun p n => ?_
  · rw [false_or, slotsPost_one ho, hs, iff_false]
    rintro ⟨q, -, ⟨run, -, b, -⟩ | ⟨k, -, b, -⟩⟩ <;> cases b
  · rw [slotsDrop_one ho, hs]
    simp [SlotState.ownedBy, h, eq_comm]

/-- Posts to both ports (R141). -/
theorem postBoth_noticesAfter (s : State) (n : Notice) :
    s.noticesAfter (s.postBoth n) (fun _ m => m = n) (fun _ _ => False) := by
  have h := noticesAfter_trans (post_noticesAfter s .control n) (post_noticesAfter (s.post .control n) .supervisor n)
    (fun p => by
      simp only [State.post_notices, PerPort.get_set]
      split
      · rename_i hp
        subst hp
        simp only [NoticeUnit.post]
        split <;> rfl
      · rfl) (fun p m ⟨hp, _⟩ => ⟨fun h => (by rw [hp] at h; cases h.1), id⟩) fun _ _ h => h.elim
  refine noticesAfter_congr h rfl rfl (fun p m => ?_) fun p m => by simp
  cases p <;> simp

/-- The sets follow the slots where nothing posts and no slot has entered LIVE, CLOSED or FREE. -/
theorem noticesFollow_of_eq {s t : State} (hn : t.notices = s.notices)
    (hs : ∀ j, (t.slot j).state.settled = true → t.slot j = s.slot j) : s.noticesFollow t fun _ => False := by
  refine noticesAfter_congr (noticesAfter_of_eq hn) rfl rfl (fun p n => ?_) (fun p n => ?_)
  · simp only [State.slotsPost, false_or, iff_false, not_exists, not_and, not_or]
    refine fun j r _ => ⟨fun run h0 h1 _ => ?_, fun c h0 h1 _ => ?_⟩
    · rw [← hs j (by rw [h1]; rfl), h1] at h0; cases h0
    · rw [← hs j (by rw [h1]; rfl)] at h0
      exact h0 r c h1
  · simp only [State.slotsDrop, iff_false, not_exists, not_and]
    intro j h0 h1 _
    rw [← hs j (by rw [h1]; rfl), h1] at h0
    cases h0

/-- Only the sets and the slots matter. -/
theorem noticesFollow_congr {s t t' : State} {both : Notice → Prop} (h : s.noticesFollow t both)
    (hn : t'.notices = t.notices) (hs : ∀ j, t'.slot j = t.slot j) : s.noticesFollow t' both :=
  noticesAfter_congr h rfl hn (fun p n => by simp only [State.slotsPost, hs]) fun p n => by
    simp only [State.slotsDrop, hs]

/-- Where no output is declared FAULTED, nothing goes to both ports. -/
theorem noticesFollow_no_fault {s t : State} (h : s.noticesFollow t fun _ => False) :
    s.noticesFollow t fun n => ∃ o : OutputNo, none = some o ∧ n = .fault o :=
  noticesAfter_congr h rfl rfl (fun _ _ => by simp) fun _ _ => Iff.rfl

/-- From `s` to `u` slot `j` keeps its name and does not enter LIVE, CLOSED or FREE, nor change owner if it is FREE in `t`. -/
def State.slotOpen (s u t : State) (j : SlotNo) : Prop :=
  s.handle j = u.handle j ∧ (s.slot j).state.isLive = (u.slot j).state.isLive
    ∧ ((∀ q c, (s.slot j).state ≠ .closed q c) ↔ ∀ q c, (u.slot j).state ≠ .closed q c)
    ∧ ((u.slot j).state = .free → (s.slot j).state = .free)
    ∧ ((t.slot j).state = .free → ∀ p : Port, (s.slot j).state.ownedBy p = (u.slot j).state.ownedBy p)

/-- The sets follow the slots over two parts of an event, where each slot is left alone by the second, or by the first, as far
as notices go. -/
theorem noticesFollow_trans_of_slots {s u t : State} {both : Notice → Prop} (h : s.noticesFollow u both)
    (h' : u.noticesFollow t fun _ => False) (hm : s.masksKept u) (hb : ∀ n, both n → n.slot = none)
    (hj : ∀ j, t.slot j = u.slot j ∨ s.slotOpen u t j) : s.noticesFollow t both := by
  -- where a part posts or drops, the other does neither
  have second : ∀ p n, u.slotsPost t p n → ∃ j, s.slotOpen u t j ∧ n.slot = some j := by
    rintro p n ⟨j, r, hp, hx⟩
    refine ⟨j, (hj j).resolve_left fun e => ?_, ?_⟩
    · rw [e] at hx
      rcases hx with ⟨run, a, b, -⟩ | ⟨c, a, b, -⟩
      · rw [b] at a; cases a
      · exact a r c b
    · rcases hx with ⟨run, -, -, rfl⟩ | ⟨c, -, -, rfl⟩ <;> rfl
  have first : ∀ p n j, s.slotsPost u p n → n.slot = some j → ¬ s.slotOpen u t j := by
    rintro p n j ⟨k, r, hp, hx⟩ hn ⟨-, h2, h3, -⟩
    have hk : k = j := by rcases hx with ⟨run, -, -, rfl⟩ | ⟨c, -, -, rfl⟩ <;> exact Option.some.inj hn
    subst hk
    rcases hx with ⟨run, a, b, -⟩ | ⟨c, a, b, -⟩
    · rw [a, b] at h2
      cases h2
    · exact h3.1 a r c b
  have firstDrop : ∀ p n j, s.slotsDrop u p n → n.slot = some j → ¬ s.slotOpen u t j := by
    rintro p n j ⟨k, a, b, hk⟩ hn ⟨-, -, -, h4, -⟩
    rw [hn] at hk; cases hk
    rw [h4 b] at a; cases a
  have secondDrop : ∀ p n, u.slotsDrop t p n → ∃ j, s.slotOpen u t j ∧ n.slot = some j := by
    rintro p n ⟨j, a, b, hn⟩
    refine ⟨j, (hj j).resolve_left fun e => ?_, hn⟩
    rw [← e, b] at a; cases a
  refine noticesAfter_congr (noticesAfter_trans h h' hm (fun p n hA => ⟨?_, fun hD => ?_⟩) fun p n hD => ?_) rfl rfl
    (fun p n => ?_) fun p n => ?_
  · rintro (hf | hA')
    · exact hf
    · obtain ⟨j, hjo, hn⟩ := second p n hA'
      rcases hA with hA | hA
      · rw [hb n hA] at hn; cases hn
      · exact first p n j hA hn hjo
  · obtain ⟨j, hjo, hn⟩ := secondDrop p n hD
    rcases hA with hA | hA
    · rw [hb n hA] at hn; cases hn
    · exact first p n j hA hn hjo
  · rintro (hf | hA')
    · exact hf
    · obtain ⟨j, hjo, hn⟩ := second p n hA'
      exact firstDrop p n j hD hn hjo
  · constructor
    · rintro (hb' | ⟨j, r, hp, hx⟩)
      · exact .inl (.inl hb')
      · rcases hj j with e | ⟨h1, h2, h3, -⟩
        · rw [e] at hx
          exact .inl (.inr ⟨j, r, hp, hx⟩)
        · rw [h1, h2, h3] at hx
          exact .inr (.inr ⟨j, r, hp, hx⟩)
    · rintro ((hb' | hA) | (hf | hA'))
      · exact .inl hb'
      · have hA0 := hA
        obtain ⟨j, r, hp, hx⟩ := hA
        have hn : n.slot = some j := by rcases hx with ⟨run, -, -, rfl⟩ | ⟨c, -, -, rfl⟩ <;> rfl
        rw [← (hj j).resolve_right (first p n j hA0 hn)] at hx
        exact .inr ⟨j, r, hp, hx⟩
      · exact hf.elim
      · have hA0 := hA'
        obtain ⟨j, r, hp, hx⟩ := hA'
        have hn : n.slot = some j := by rcases hx with ⟨run, -, -, rfl⟩ | ⟨c, -, -, rfl⟩ <;> rfl
        obtain ⟨k, ⟨h1, h2, h3, -⟩, hk⟩ := second p n hA0
        rw [hn] at hk; cases hk
        rw [← h1, ← h2, ← h3] at hx
        exact .inr ⟨j, r, hp, hx⟩
  · constructor
    · rintro ⟨j, a, b, hn⟩
      rcases hj j with e | ⟨-, -, -, -, h5⟩
      · exact .inl ⟨j, a, e ▸ b, hn⟩
      · exact .inr ⟨j, h5 b p ▸ a, b, hn⟩
    · rintro (hD | hD)
      · have hD0 := hD
        obtain ⟨j, a, b, hn⟩ := hD
        exact ⟨j, a, by rw [(hj j).resolve_right (firstDrop p n j hD0 hn), b], hn⟩
      · obtain ⟨k, ⟨-, -, -, -, h5⟩, hk⟩ := secondDrop p n hD
        obtain ⟨j, a, b, hn⟩ := hD
        rw [hn] at hk; cases hk
        exact ⟨_, (h5 b p).symm ▸ a, b, hn⟩

/-- The sets follow the slots over two parts of an event: the second changes no slot that has entered LIVE, CLOSED or FREE
by the end of the first, and the first keeps the names of the slots that it leaves WAITING or ARMED. -/
theorem noticesFollow_trans {s u t : State} {both : Notice → Prop} (h : s.noticesFollow u both)
    (h' : u.noticesFollow t fun _ => False) (hm : s.masksKept u) (hb : ∀ n, both n → n.slot = none)
    (h1 : ∀ j, (u.slot j).state.settled = true → t.slot j = u.slot j)
    (h2 : ∀ j, (u.slot j).state.settled = false →
      s.handle j = u.handle j ∧ (s.slot j).state.settled = false
        ∧ ∀ p : Port, (s.slot j).state.ownedBy p = (u.slot j).state.ownedBy p) : s.noticesFollow t both := by
  have plain : ∀ x : SlotState, x.settled = false → x.isLive = false ∧ (∀ q c, x ≠ .closed q c) ∧ x ≠ .free := by
    intro x hx
    cases x with
    | waiting r w => exact ⟨rfl, nofun, nofun⟩
    | armed r part => exact ⟨rfl, nofun, nofun⟩
    | free => cases hx
    | live r run => cases hx
    | closed r c => cases hx
  refine noticesFollow_trans_of_slots h h' hm hb fun j => ?_
  cases hu : (u.slot j).state.settled with
  | true => exact .inl (h1 j hu)
  | false =>
    obtain ⟨e, hs, ho⟩ := h2 j hu
    obtain ⟨u1, u2, u3⟩ := plain _ hu
    obtain ⟨s1, s2, -⟩ := plain _ hs
    exact .inr ⟨e, by rw [u1, s1], iff_of_true s2 u2, fun hf => absurd hf u3, fun _ => ho⟩

end Sys2Proof.Machine
end

