-- ==== Sys2Proof/Laws/AnchorLoss.lean ====
section
/-! SUPPORT. Anchor loss, said whole: exactly the permits whose chains of anchors lead to the permit that departs are closed, each
with its own anchor's handle as subject (R13, R105). -/

namespace Sys2Proof.Machine

theorem awaitedAnchor_some {st : SlotState} {a : Anchor} (h : st.awaitedAnchor = some a) :
    ∃ r, st = .armed r .awaitingEvent ∧ r.anchor = some a := by
  cases st with
  | armed r part => cases part with
    | awaitingEvent => exact ⟨r, rfl, h⟩
    | delaying d => cases h
  | free => cases h
  | waiting r w => cases h
  | live r run => cases h
  | closed r c => cases h

/-- A dependent is an ARMED permit in AWAITING_EVENT whose anchor handle is the whole handle (R96). -/
theorem dependsOn_iff (s : State) (j : SlotNo) (h : Handle) :
    s.dependsOn j h = true ↔ ∃ r a, (s.slot j).state = .armed r .awaitingEvent ∧ r.anchor = some a ∧ a.handle = h := by
  simp only [State.dependsOn]
  constructor
  · intro hd
    split at hd
    · rename_i a ha
      obtain ⟨r, h1, h2⟩ := awaitedAnchor_some ha
      exact ⟨r, a, h1, h2, by simpa using hd⟩
    · cases hd
  · rintro ⟨r, a, h1, h2, h3⟩
    simp [h1, SlotState.awaitedAnchor, h2, h3]

/-- The dependents that await this event (R100, R101). -/
theorem awaits_iff (s : State) (j : SlotNo) (h : Handle) (ev : AwaitedEvent) :
    s.awaits j h ev = true ↔
      ∃ r a, (s.slot j).state = .armed r .awaitingEvent ∧ r.anchor = some a ∧ a.handle = h ∧ a.event = ev := by
  simp only [State.awaits]
  constructor
  · intro hd
    split at hd
    · rename_i a ha
      obtain ⟨r, h1, h2⟩ := awaitedAnchor_some ha
      exact ⟨r, a, h1, h2, by simpa using hd⟩
    · cases hd
  · rintro ⟨r, a, h1, h2, h3, h4⟩
    simp [h1, SlotState.awaitedAnchor, h2, h3, h4]

/-- The whole effect of entering CLOSED (R12). -/
theorem enterClosed_eq {s : State} {i : SlotNo} {r : Permit} (c : Closure) (h : (s.slot i).state.record = some r) :
    s.enterClosed i c = (s.setSlotState i (.closed r c)).post r.owner (.closed (s.handle i)) := by
  simp [State.enterClosed, h]

/-- The whole effect of entering FREE (R7, R14). -/
theorem enterFree_eq {s : State} {i : SlotNo} {r : Permit} (h : (s.slot i).state.record = some r) :
    s.enterFree i =
      (s.setSlot i { generation := (s.slot i).generation + 1, state := .free }).setNotices r.owner
        ((s.notices.get r.owner).dropSlot i) := by
  simp [State.enterFree, h]

/-- The whole effect of receiving an event (R100, R101). -/
theorem startDelay_eq {s : State} {j : SlotNo} {r : Permit} {a : Anchor} (h : (s.slot j).state = .armed r .awaitingEvent)
    (ha : r.anchor = some a) : s.startDelay j = s.setSlotState j (.armed r (.delaying a.delay)) := by
  simp [State.startDelay, h, ha]

/-- Dependence on a slot's permit, and the relation that the statements speak of (R96). -/
theorem dependsOn_handle (s : State) (j k : SlotNo) : s.dependsOn j (s.handle k) = true ↔ s.awaitsPermit j k :=
  dependsOn_iff s j (s.handle k)

/-! ## What a cascade makes of a slot -/

/-- A fold keeps what each of its steps keeps. -/
theorem foldl_keeps {α β : Type} {P : α → Prop} {f : α → β → α} (hf : ∀ a b, P a → P (f a b)) (l : List β) (a : α)
    (h : P a) : P (l.foldl f a) := by
  induction l generalizing a with
  | nil => exact h
  | cons b l ih => exact ih _ (hf a b h)

/-- The slot `y` that a cascade of anchor loss makes of slot `x`: the same, or a dependent closed with its anchor's handle
(R13). -/
def Slot.lostOr (x y : Slot) : Prop :=
  y = x ∨ ∃ r a, x.state = .armed r .awaitingEvent ∧ r.anchor = some a
    ∧ y = { generation := x.generation, state := .closed r (.anchorLost a.handle) }

theorem Slot.lostOr_trans {x y z : Slot} (h : x.lostOr y) (h' : y.lostOr z) : x.lostOr z := by
  rcases h with rfl | ⟨r, a, h1, h2, rfl⟩
  · exact h'
  · rcases h' with rfl | ⟨r', a', h3, -, -⟩
    · exact .inr ⟨r, a, h1, h2, rfl⟩
    · cases h3

/-- What the closing of one dependent does to a slot (R13). -/
theorem enterClosed_lostOr {u : State} {k : SlotNo} {h : Handle} (hd : u.dependsOn k h = true) (j : SlotNo) :
    (u.slot j).lostOr ((u.enterClosed k (.anchorLost h)).slot j) := by
  obtain ⟨r, a, h1, h2, h3⟩ := (dependsOn_iff u k h).1 hd
  rw [enterClosed_eq _ (by rw [h1]; rfl)]
  simp only [State.post_slot, State.setSlotState, State.setSlot_slot]
  split
  · rename_i e
    subst e
    exact .inr ⟨r, a, h1, h2, by rw [h3]⟩
  · exact .inl rfl

/-- A fold over a list keeps what each of its steps keeps, and brings about for each element what the element's own step brings
about and every step keeps. -/
theorem foldl_each {α β : Type} {P : α → Prop} {Q : β → α → Prop} {f : α → β → α}
    (hf : ∀ a b, P a → P (f a b) ∧ Q b (f a b) ∧ ∀ c, Q c a → Q c (f a b)) (l : List β) (a : α) (h : P a) :
    P (l.foldl f a) ∧ ∀ b ∈ l, Q b (l.foldl f a) := by
  induction l generalizing a with
  | nil => exact ⟨h, by simp⟩
  | cons x l ih =>
    obtain ⟨h1, h2, -⟩ := hf a x h
    refine ⟨(ih _ h1).1, fun b hb => ?_⟩
    rcases List.mem_cons.1 hb with rfl | hb
    · exact (foldl_keeps (P := fun c => P c ∧ Q b c) (fun c y hc => ⟨(hf c y hc.1).1, (hf c y hc.1).2.2 b hc.2⟩) l _
        ⟨h1, h2⟩).2
    · exact (ih _ h1).2 b hb

/-- A slot that still awaits an event has not changed. -/
theorem Slot.lostOr.eq {x y : Slot} (h : x.lostOr y) {r : Permit} (hy : y.state = .armed r .awaitingEvent) : y = x := by
  rcases h with e | ⟨q, a, -, -, rfl⟩
  · exact e
  · cases hy

/-- A slot that has changed does not change again. -/
theorem Slot.lostOr.stays {x y z : Slot} (h : x.lostOr y) (hz : y.lostOr z) (hy : y ≠ x) : z = y := by
  rcases hz with e | ⟨q, a, h1, -, -⟩
  · exact e
  · exact absurd (h.eq h1) hy

/-- A slot that is not LIVE does not come to be LIVE by anchor loss. -/
theorem Slot.lostOr.isLive {x y : Slot} (h : x.lostOr y) (hx : x.state.isLive = false) : y.state.isLive = false := by
  rcases h with rfl | ⟨r, a, -, -, rfl⟩
  · exact hx
  · rfl

/-- From `b` to `s` the epoch is kept, and every slot is as it was or has lost its anchor. -/
def State.lostSince (b s : State) : Prop := s.epoch = b.epoch ∧ ∀ m, (b.slot m).lostOr (s.slot m)

theorem State.lostSince_refl (b : State) : b.lostSince b := ⟨rfl, fun _ => .inl rfl⟩

theorem State.lostSince_trans {b s t : State} (h : b.lostSince s) (h' : s.lostSince t) : b.lostSince t :=
  ⟨h'.1.trans h.1, fun m => Slot.lostOr_trans (h.2 m) (h'.2 m)⟩

theorem State.lostSince.handle {b s : State} (h : b.lostSince s) (m : SlotNo) : s.handle m = b.handle m := by
  have hg : (s.slot m).generation = (b.slot m).generation := by
    rcases h.2 m with e | ⟨r, a, -, -, e⟩ <;> rw [e]
  simp only [State.handle, h.1, hg]

/-- The closing of one dependent of slot `k`'s permit (R13). -/
theorem enterClosed_lostSince {b u : State} {k m : SlotNo} (hb : b.lostSince u)
    (hd : u.dependsOn m (b.handle k) = true) :
    u.lostSince (u.enterClosed m (.anchorLost (b.handle k))) ∧ b.awaitsPermit m k
      ∧ (u.enterClosed m (.anchorLost (b.handle k))).slot m ≠ b.slot m
      ∧ ∀ j, j ≠ m → (u.enterClosed m (.anchorLost (b.handle k))).slot j = u.slot j := by
  obtain ⟨r, a, h1, h2, h3⟩ := (dependsOn_iff u m _).1 hd
  have hm := (hb.2 m).eq h1
  refine ⟨⟨?_, enterClosed_lostOr hd⟩, ⟨r, a, by rw [← hm, h1], h2, h3⟩, fun e => ?_, fun j hj => ?_⟩
  · rw [enterClosed_eq _ (by rw [h1]; rfl)]; rfl
  · rw [← hm, enterClosed_eq _ (by rw [h1]; rfl)] at e
    have := congrArg Slot.state e
    simp [State.setSlotState, h1] at this
  · rw [enterClosed_eq _ (by rw [h1]; rfl)]
    simp [State.setSlotState, State.setSlot_slot, hj]

/-! ## What it closes, and nothing else -/

/-- Anchor loss changes only permits whose chains of anchors lead to the permit it starts from, and never slot `i`. -/
theorem closeDependents_frame (b : State) (i : SlotNo) (n : Nat) (k : SlotNo) (t : State) (hb : b.lostSince t) :
    t.lostSince (closeDependents i n (b.handle k) t)
      ∧ ∀ j, (closeDependents i n (b.handle k) t).slot j ≠ t.slot j → j ≠ i ∧ Relation.TransGen b.awaitsPermit j k := by
  induction n generalizing k t with
  | zero => exact ⟨t.lostSince_refl, fun j hj => absurd rfl hj⟩
  | succ n ih =>
    refine foldl_keeps (P := fun u : State => t.lostSince u ∧
      ∀ j, u.slot j ≠ t.slot j → j ≠ i ∧ Relation.TransGen b.awaitsPermit j k) (fun u m hu => ?_) _ _
      ⟨t.lostSince_refl, fun j hj => absurd rfl hj⟩
    split
    · rename_i hd
      have hbu := State.lostSince_trans hb hu.1
      have hmk : b.awaitsPermit m k := (enterClosed_lostSince hbu hd.2).2.1
      obtain ⟨hw1, hw2⟩ := ih m u hbu
      rw [hbu.handle m]
      have hw : t.lostSince (closeDependents i n (b.handle m) u) ∧ ∀ j,
          (closeDependents i n (b.handle m) u).slot j ≠ t.slot j → j ≠ i ∧ Relation.TransGen b.awaitsPermit j k := by
        refine ⟨State.lostSince_trans hu.1 hw1, fun j hj => ?_⟩
        by_cases e : (closeDependents i n (b.handle m) u).slot j = u.slot j
        · exact hu.2 j (e ▸ hj)
        · exact ⟨(hw2 j e).1, (hw2 j e).2.tail hmk⟩
      simp only []
      generalize closeDependents i n (b.handle m) u = w at hw
      split
      · rename_i hd'
        obtain ⟨c1, -, -, c4⟩ := enterClosed_lostSince (State.lostSince_trans hb hw.1) hd'
        refine ⟨State.lostSince_trans hw.1 c1, fun j hj => ?_⟩
        by_cases e : j = m
        · exact e ▸ ⟨hd.1, .single hmk⟩
        · exact hw.2 j (c4 j e ▸ hj)
      · exact hw
    · exact hu

/-- Slot `k` is `d` anchors away from slot `i`. -/
def State.anchorsAway (b : State) (i : SlotNo) : Nat → SlotNo → Prop
  | 0, k => k = i
  | d + 1, k => k ≠ i ∧ ∃ m, b.awaitsPermit k m ∧ b.anchorsAway i d m

/-- A permit awaits one permit. -/
theorem awaitsPermit_unique {b : State} {j k m : SlotNo} (h : b.awaitsPermit j k) (h' : b.awaitsPermit j m) : k = m := by
  obtain ⟨r, a, h1, h2, h3⟩ := h
  obtain ⟨q, c, g1, g2, g3⟩ := h'
  rw [h1] at g1; cases g1
  rw [h2] at g2; cases g2
  exact congrArg Handle.slot (h3.symm.trans g3)

theorem anchorsAway_unique {b : State} {i : SlotNo} {d e : Nat} {k : SlotNo} (h : b.anchorsAway i d k)
    (h' : b.anchorsAway i e k) : d = e := by
  induction d generalizing e k with
  | zero => cases e with
    | zero => rfl
    | succ e => exact absurd h h'.1
  | succ d ih => cases e with
    | zero => exact absurd h' h.1
    | succ e =>
      obtain ⟨-, m, h1, h2⟩ := h
      obtain ⟨-, m', g1, g2⟩ := h'
      rw [awaitsPermit_unique g1 h1] at g2
      rw [ih h2 g2]

/-- No slot is as many as 32 anchors away: each anchor on the way is a slot of its own. -/
theorem anchorsAway_lt {b : State} {i : SlotNo} {d : Nat} {k : SlotNo} (h : b.anchorsAway i d k) : d < 32 := by
  have all : ∀ (d : Nat) (k : SlotNo), b.anchorsAway i d k → ∀ e : Fin (d + 1), ∃ m, b.anchorsAway i e m := by
    intro d
    induction d with
    | zero => exact fun k h e => ⟨k, by rw [Fin.fin_one_eq_zero e]; exact h⟩
    | succ d ih =>
      intro k h e
      by_cases he : e.val = d + 1
      · exact ⟨k, by rw [he]; exact h⟩
      · obtain ⟨-, m, -, h2⟩ := h
        exact ih m h2 ⟨e.val, by omega⟩
  choose f hf using all d k h
  have hinj : Function.Injective f := fun x y hxy => Fin.ext (anchorsAway_unique (hf x) (hxy ▸ hf y))
  have := Fintype.card_le_of_injective f hinj
  simpa [SlotNo] using this

/-- Where a permit has lost its anchor, so have its own dependents, slot `i` apart. -/
def State.lostBelow (b t : State) (i : SlotNo) : Prop :=
  ∀ j k, j ≠ i → b.awaitsPermit j k → t.slot k ≠ b.slot k → t.slot j ≠ b.slot j

/-- Anchor loss reaches every dependent of the permit it starts from, and every dependent of a permit that it reaches. -/
theorem closeDependents_reaches (b : State) (i : SlotNo) (n d : Nat) (k : SlotNo) (t : State) (hb : b.lostSince t)
    (hd : b.anchorsAway i d k) (hn : 32 ≤ n + d) (hl : b.lostBelow t i) :
    b.lostBelow (closeDependents i n (b.handle k) t) i
      ∧ ∀ j, j ≠ i → b.awaitsPermit j k → (closeDependents i n (b.handle k) t).slot j ≠ b.slot j := by
  induction n generalizing d k t with
  | zero => exact absurd (anchorsAway_lt hd) (by omega)
  | succ n ih =>
    have key := foldl_each (P := fun u : State => b.lostSince u ∧ b.lostBelow u i)
      (Q := fun j u => j ≠ i → b.awaitsPermit j k → u.slot j ≠ b.slot j)
      (f := fun u m => if m ≠ i ∧ u.dependsOn m (b.handle k) = true then
        let w := closeDependents i n (u.handle m) u
        if w.dependsOn m (b.handle k) then w.enterClosed m (.anchorLost (b.handle k)) else w
      else u) (fun u m hu => ?_) allSlots t ⟨hb, hl⟩
    · exact ⟨key.1.2, fun j => key.2 j (mem_allSlots j)⟩
    · by_cases hm : m ≠ i ∧ u.dependsOn m (b.handle k) = true
      · simp only [if_pos hm]
        have hmk : b.awaitsPermit m k := (enterClosed_lostSince hu.1 hm.2).2.1
        obtain ⟨hw1, -⟩ := closeDependents_frame b i n m u hu.1
        obtain ⟨hw2, hw3⟩ := ih (d + 1) m u hu.1 ⟨hm.1, k, hmk, hd⟩ (by omega) hu.2
        rw [hu.1.handle m]
        generalize closeDependents i n (b.handle m) u = w at hw1 hw2 hw3
        have hbw := State.lostSince_trans hu.1 hw1
        have later : ∀ {x : State}, w.lostSince x → ∀ c, u.slot c ≠ b.slot c → x.slot c ≠ b.slot c := by
          intro x hx c hc
          rw [(hu.1.2 c).stays ((State.lostSince_trans hw1 hx).2 c) hc]
          exact hc
        split
        · rename_i hd'
          obtain ⟨c1, -, c3, c4⟩ := enterClosed_lostSince hbw hd'
          have hkeep : ∀ j, w.slot j ≠ b.slot j →
              (w.enterClosed m (.anchorLost (b.handle k))).slot j ≠ b.slot j := by
            intro j hj
            rw [(hbw.2 j).stays (c1.2 j) hj]
            exact hj
          refine ⟨⟨State.lostSince_trans hbw c1, fun j c hj hjc hc => ?_⟩, fun _ _ => c3, fun c hc h1 h2 =>
            later c1 c (hc h1 h2)⟩
          by_cases e : c = m
          · exact hkeep j (hw3 j hj (e ▸ hjc))
          · rw [c4 c e] at hc
            exact hkeep j (hw2 j c hj hjc hc)
        · rename_i hd'
          refine ⟨⟨hbw, hw2⟩, fun _ _ e => hd' ?_, fun c hc h1 h2 => later w.lostSince_refl c (hc h1 h2)⟩
          obtain ⟨r, a, h1, h2, h3⟩ := hmk
          exact (dependsOn_iff _ _ _).2 ⟨r, a, by rw [e, h1], h2, h3⟩
      · simp only [if_neg hm]
        refine ⟨hu, fun h1 h2 e => hm ⟨h1, ?_⟩, fun _ hc => hc⟩
        obtain ⟨r, a, h3, h4, h5⟩ := h2
        exact (dependsOn_iff _ _ _).2 ⟨r, a, by rw [e, h3], h4, h5⟩

/-! ## The loss of slot `i`'s permit -/

/-- Anchor loss leaves every slot as it was or closes it with its own anchor's handle. -/
theorem loseAnchor_lostSince (i : SlotNo) (s : State) : s.lostSince (s.loseAnchor i) :=
  (closeDependents_frame s i 32 i s s.lostSince_refl).1

/-- Anchor loss leaves the slot of the permit that departs. -/
theorem loseAnchor_self (i : SlotNo) (s : State) : (s.loseAnchor i).slot i = s.slot i := by
  by_contra h
  exact ((closeDependents_frame s i 32 i s s.lostSince_refl).2 i h).1 rfl

/-- Anchor loss leaves every permit whose chain of anchors does not lead to the permit that departs. -/
theorem loseAnchor_frame {s : State} {i j : SlotNo} (h : ¬ Relation.TransGen s.awaitsPermit j i) :
    (s.loseAnchor i).slot j = s.slot j := by
  by_contra hj
  exact h ((closeDependents_frame s i 32 i s s.lostSince_refl).2 j hj).2

/-- Anchor loss closes every permit whose chain of anchors leads to the permit that departs, with its own anchor's handle as
subject (R13, R105). -/
theorem loseAnchor_closes {s : State} {i j : SlotNo} {r : Permit} {a : Anchor} (hji : j ≠ i)
    (h : Relation.TransGen s.awaitsPermit j i) (hj : (s.slot j).state = .armed r .awaitingEvent) (ha : r.anchor = some a) :
    (s.loseAnchor i).slot j = { generation := (s.slot j).generation, state := .closed r (.anchorLost a.handle) } := by
  obtain ⟨below, direct⟩ := closeDependents_reaches s i 32 0 i s s.lostSince_refl rfl (by omega)
    fun _ k _ _ hk => absurd rfl hk
  have changed : ∀ m, Relation.TransGen s.awaitsPermit m i → m ≠ i → (s.loseAnchor i).slot m ≠ s.slot m := by
    intro m hm
    induction hm using Relation.TransGen.head_induction_on with
    | single hm => exact fun hi => direct _ hi hm
    | @head m c hm _ ih =>
      intro hi
      by_cases hc : c = i
      · exact direct _ hi (hc ▸ hm)
      · exact below _ c hi hm (ih hc)
  rcases (loseAnchor_lostSince i s).2 j with e | ⟨q, b, h1, h2, h3⟩
  · exact absurd e (changed j h hji)
  · rw [hj] at h1; cases h1
    rw [ha] at h2; cases h2
    exact h3

/-- A chain of anchors begins with a permit that awaits an event. -/
theorem awaitsPermit_awaiting {s : State} {i j : SlotNo} (h : Relation.TransGen s.awaitsPermit j i) :
    ∃ r a, (s.slot j).state = .armed r .awaitingEvent ∧ r.anchor = some a := by
  obtain ⟨k, ⟨r, a, h1, h2, -⟩, -⟩ := Relation.TransGen.head'_iff.1 h
  exact ⟨r, a, h1, h2⟩

/-- A slot that awaits no event is left alone by anchor loss. -/
theorem loseAnchor_slot_of_not_awaiting {s : State} {i j : SlotNo}
    (h : ∀ r, (s.slot j).state ≠ .armed r .awaitingEvent) : (s.loseAnchor i).slot j = s.slot j :=
  loseAnchor_frame fun hj => by
    obtain ⟨r, -, h1, -⟩ := awaitsPermit_awaiting hj
    exact h r h1

end Sys2Proof.Machine
end

