-- ==== Sys2Proof/Laws/Cascade.lean ====
section
/-! SUPPORT. Single slots and outputs, the claim test, and what every cascade of anchor losses, chain events and scans keeps: the
one list of the changes that it is made of, and the properties that each of these keeps (R7, R10 to R13, R28, R36, R100 to R105). -/

namespace Sys2Proof.Machine

/-! ## Single slots -/

/-- What each output of a grant becomes (R115). -/
theorem takeOutputs_channel (s : State) (i : SlotNo) (entries : List OutputEntry) (o : OutputNo) :
    (s.takeOutputs i entries).channel o =
      match entries.find? (fun e => decide (e.output = o)) with
      | some e => (s.channel o).take i e.invert
      | none => s.channel o :=
  get_ofFn_fin _ o

@[simp] theorem hand_state (lvl : Level) (c : Channel) : (c.hand lvl).state = c.state := by
  simp only [Channel.hand]; split <;> rfl

@[simp] theorem hand_expected (lvl : Level) (c : Channel) : (c.hand lvl).expected = lvl := by
  simp only [Channel.hand]; split
  · assumption
  · rfl

@[simp] theorem take_state (i : SlotNo) (b : Bool) (c : Channel) : (c.take i b).state = .held i b := by
  simp [Channel.take]

@[simp] theorem take_expected (i : SlotNo) (b : Bool) (c : Channel) : (c.take i b).expected = driveLevel .on b := by
  simp [Channel.take]

@[simp] theorem channel_letGo_state (c : Channel) : c.letGo.state = .idle := by simp [Channel.letGo]

@[simp] theorem channel_letGo_expected (c : Channel) : c.letGo.expected = .off := by simp [Channel.letGo]

/-- A level handed to a channel in another state is what `Channel.driven` spells out (R113, R117). -/
theorem hand_eq_driven (c : Channel) (st : ChannelState) (lvl : Level) :
    Channel.hand lvl { c with state := st } = c.driven st lvl := by
  obtain ⟨st', pol, settle, expected, fb, sup⟩ := c
  simp only [Channel.hand, Channel.driven, freshSupervision]
  split <;> cases sup <;> simp_all

theorem take_eq_driven (c : Channel) (i : SlotNo) (b : Bool) : c.take i b = c.driven (.held i b) (onLevel b) := by
  rw [Channel.take, hand_eq_driven]
  cases b <;> rfl

theorem channel_letGo_eq_driven (c : Channel) : c.letGo = c.driven .idle .off := hand_eq_driven c .idle .off

@[simp] theorem driven_state (c : Channel) (st : ChannelState) (lvl : Level) : (c.driven st lvl).state = st := rfl

@[simp] theorem driven_expected (c : Channel) (st : ChannelState) (lvl : Level) : (c.driven st lvl).expected = lvl := rfl

/-- A phase handed to an output that the slot holds (R83). -/
theorem handPhase_eq_driven {c : Channel} {i : SlotNo} {b : Bool} (h : c.state = .held i b) (ph : Phase) :
    c.handPhase i ph = c.driven (.held i b) (driveLevel ph b) := by
  rw [← hand_eq_driven, Channel.handPhase, h]
  simp only [if_true, ← h]

/-- The part of slot `i` after a grant, and every other slot (R10). -/
theorem enterLive_slot (s : State) (i j : SlotNo) (r : Permit) :
    (s.enterLive i r).slot j =
      if j = i then { generation := (s.slot i).generation, state := .live r (newRun r) } else s.slot j := by
  simp [State.enterLive, State.setSlotState, State.setSlot_slot]

@[simp] theorem enterLive_channel (s : State) (i : SlotNo) (r : Permit) (o : OutputNo) :
    (s.enterLive i r).channel o = (s.takeOutputs i r.outputs).channel o := by
  simp [State.enterLive, takeOutputs_channel]

/-- A claim test that is clear: each listed output is IDLE, no group of one is held or quiet, no set latch maps one, the
part is not in HOLD, and no contending entry is ahead (R28). -/
theorem claimTest_none {s : State} {outs : List OutputNo} {ahead : List SlotNo} :
    s.claimTest outs ahead = none ↔
      (∀ o ∈ outs, (s.channel o).state = .idle ∧ s.groupHeld o = false ∧ s.groupQuiet o = false
          ∧ s.underTrip o = false)
        ∧ s.mode ≠ .hold ∧ ∀ j ∈ ahead, s.contend outs (s.outputsOf j) = false := by
  have hst : ∀ o, (s.channel o).state = .idle ↔
      (s.channel o).state.isHeld = false ∧ (s.channel o).state ≠ .faulted := by
    intro o; cases (s.channel o).state <;> simp [ChannelState.isHeld]
  simp only [State.claimTest]
  constructor
  · intro h
    split at h; · cases h
    split at h; · cases h
    split at h; · cases h
    split at h; · cases h
    split at h; · cases h
    split at h; · cases h
    split at h; · cases h
    rename_i h1 h2 h3 h4 h5 h6 h7
    simp only [List.any_eq_true, not_exists, not_and, Bool.not_eq_true, decide_eq_true_eq] at h1 h2 h3 h4 h5 h7
    exact ⟨fun o ho => ⟨(hst o).2 ⟨h1 o ho, h5 o ho⟩, h2 o ho, h3 o ho, h4 o ho⟩, h6, h7⟩
  · rintro ⟨ho, hm, ha⟩
    have e1 : (outs.any fun o => (s.channel o).state.isHeld) = false := by
      simp only [List.any_eq_false, Bool.not_eq_true]; exact fun o h => ((hst o).1 (ho o h).1).1
    have e2 : outs.any s.groupHeld = false := by
      simp only [List.any_eq_false, Bool.not_eq_true]; exact fun o h => (ho o h).2.1
    have e3 : outs.any s.groupQuiet = false := by
      simp only [List.any_eq_false, Bool.not_eq_true]; exact fun o h => (ho o h).2.2.1
    have e4 : outs.any s.underTrip = false := by
      simp only [List.any_eq_false, Bool.not_eq_true]; exact fun o h => (ho o h).2.2.2
    have e5 : (outs.any fun o => decide ((s.channel o).state = .faulted)) = false := by
      simp only [List.any_eq_false, decide_eq_true_eq]; exact fun o h => ((hst o).1 (ho o h).1).2
    have e7 : (ahead.any fun j => s.contend outs (s.outputsOf j)) = false := by
      simp only [List.any_eq_false, Bool.not_eq_true]; exact ha
    simp [e1, e2, e3, e4, e5, e7, hm]

/-- In HOLD nothing is clear (R28, R36). -/
theorem claimTest_hold {s : State} (h : s.mode = .hold) (outs : List OutputNo) (ahead : List SlotNo) :
    s.claimTest outs ahead ≠ none := fun hn => (claimTest_none.1 hn).2.1 h

/-! ## Cascades -/

/-- The single changes that anchor loss, chain events and scans are made of. A property that each of them keeps is kept by
every cascade: `loseAnchor_keeps` to `scanDeparture_keeps`. `W`: entries of the queue may be granted, as a scan does. `K`:
the slots whose delay may end, those of all permits that await an event among them. `G`: the permits whose events may be
given, those of all slots of `K` among them. -/
structure Cascade (W : Prop) (K : SlotNo → Prop) (G : Handle → Prop) (P : State → Prop) : Prop where
  /-- A dependent of a permit that is not LIVE is closed ANCHOR_LOST (R13). -/
  lost : ∀ (t : State) (j : SlotNo) (r : Permit) (a : Anchor), P t → r.anchor = some a →
    (t.slot a.handle.slot).state.isLive = false →
    (t.slot j).state = .armed r .awaitingEvent →
    P ((t.setSlotState j (.closed r (.anchorLost a.handle))).post r.owner (.closed (t.handle j)))
  /-- A dependent receives its event (R100, R101). -/
  started : ∀ (t : State) (j : SlotNo) (r : Permit) (a : Anchor), P t → r.anchor = some a → G a.handle →
    (t.slot j).state = .armed r .awaitingEvent → P (t.setSlotState j (.armed r (.delaying a.delay)))
  /-- A claim that is clear is granted, from the queue or at a delay end (R36, R104). -/
  granted : ∀ (t : State) (j : SlotNo) (r : Permit) (ahead : List SlotNo), P t →
    (W ∧ ∃ w, (t.slot j).state = .waiting r w) ∨ (K j ∧ ∃ d, (t.slot j).state = .armed r (.delaying d)) →
    t.claimTest r.outputNos ahead = none →
    P ((t.enterLive j r).post r.owner (.granted (t.handle j)))
  /-- A delay end that is blocked, with a wait limit (R104). -/
  queued : ∀ (t : State) (j : SlotNo) (r : Permit) (d : Nat), P t → (t.slot j).state = .armed r (.delaying d) →
    K j → 0 < r.waitLimit → P (t.enterWaiting j r)
  /-- A delay end that is blocked, without a wait limit (R104). -/
  blocked : ∀ (t : State) (j : SlotNo) (r : Permit) (d : Nat) (reason : BlockReason), P t →
    (t.slot j).state = .armed r (.delaying d) → K j →
    P ((t.setSlotState j (.closed r (.blocked reason))).post r.owner (.closed (t.handle j)))
  /-- A free choice is taken (log entry 3). -/
  chosen : ∀ t : State, P t → P { t with choices := t.choices + 1 }
  /-- A permit that awaits an event may receive it, and its delay may end. -/
  awaiting : ∀ (t : State) (j : SlotNo) (r : Permit), P t → (t.slot j).state = .armed r .awaitingEvent → K j
  /-- A permit whose delay may end may be granted, and give its event. -/
  gives : ∀ (t : State) (j : SlotNo), P t → K j → G (t.handle j)

variable {W : Prop} {K : SlotNo → Prop} {G : Handle → Prop} {P : State → Prop}

/-- What every closing of a dependent keeps, anchor loss keeps (R13, R105). -/
theorem closeDependents_keeps
    (lost : ∀ (t : State) (j : SlotNo) (r : Permit) (a : Anchor), P t → r.anchor = some a →
      (t.slot a.handle.slot).state.isLive = false → (t.slot j).state = .armed r .awaitingEvent →
      P ((t.setSlotState j (.closed r (.anchorLost a.handle))).post r.owner (.closed (t.handle j))))
    (i : SlotNo) (n : Nat) (k : SlotNo) (s : State) (hs : P s) (hl : (s.slot k).state.isLive = false) :
    P (closeDependents i n (s.handle k) s) := by
  have key : ∀ (n : Nat) (k : SlotNo) (u : State), s.lostSince u → P u → (u.slot k).state.isLive = false →
      P (closeDependents i n (s.handle k) u) := by
    intro n
    induction n with
    | zero => exact fun _ _ _ hu _ => hu
    | succ n ih =>
      intro k u hsu hu hk
      refine (foldl_keeps (P := fun t : State => s.lostSince t ∧ P t ∧ (t.slot k).state.isLive = false)
        (fun t j ht => ?_) _ _ ⟨hsu, hu, hk⟩).2.1
      split
      · rename_i hd
        obtain ⟨q, b, g1, -, -⟩ := (dependsOn_iff t j _).1 hd.2
        rw [ht.1.handle j]
        have hw : P (closeDependents i n (s.handle j) t) := ih j t ht.1 ht.2.1 (by rw [g1]; rfl)
        have hwl := (closeDependents_frame s i n j t ht.1).1
        simp only []
        generalize closeDependents i n (s.handle j) t = w at hw hwl
        have hsw := State.lostSince_trans ht.1 hwl
        have hdead := (hwl.2 k).isLive ht.2.2
        split
        · rename_i hd'
          obtain ⟨r, a, h1, h2, h3⟩ := (dependsOn_iff w j _).1 hd'
          have hc := (enterClosed_lostSince hsw hd').1
          refine ⟨State.lostSince_trans hsw hc, ?_, (hc.2 k).isLive hdead⟩
          rw [enterClosed_eq _ (by rw [h1]; rfl), ← h3]
          exact lost w j r a hw h2 (by rw [h3]; exact hdead) h1
        · exact ⟨hsw, hw, hdead⟩
      · exact ht
  exact key n k s s.lostSince_refl hs hl

theorem loseAnchor_keeps (hP : Cascade W K G P) (i : SlotNo) (s : State) (hs : P s)
    (hl : (s.slot i).state.isLive = false) : P (s.loseAnchor i) :=
  closeDependents_keeps hP.lost i 32 i s hs hl

theorem delayEndWith_keeps (hP : Cascade W K G P) {give : Handle → State → State}
    (hg : ∀ h t, P t → G h → P (give h t)) (j : SlotNo) (s : State) (hs : P s) (hk : K j) :
    P (delayEndWith give j s) := by
  simp only [delayEndWith]
  split
  · rename_i r d hj
    split
    · rename_i hc
      exact hg _ _ (hP.granted s j r s.waitQueue hs (.inr ⟨hk, d, hj⟩) hc) (hP.gives s j hs hk)
    · split
      · rename_i hw
        exact hP.queued s j r d hs hj hk hw
      · have hl : ((s.loseAnchor j).slot j).state = .armed r (.delaying d) := by
          rw [loseAnchor_slot_of_not_awaiting (by simp [hj]), hj]
        rw [enterClosed_eq (r := r) _ (by rw [hl]; rfl)]
        exact hP.blocked _ j r d _ (loseAnchor_keeps hP j s hs (by rw [hj]; rfl)) hl hk
  all_goals exact hs

/-- One dependent of a grant: its event, and with a delay of 0 its claim test (R100, R102). -/
theorem giveGrant_one_keeps (hP : Cascade W K G P) {give : Handle → State → State}
    (hg : ∀ h t, P t → G h → P (give h t)) (h : Handle) (hG : G h) (t : State) (j : SlotNo) (ht : P t) :
    P (if t.awaits j h .grant then
        (if t.awaitedDelay j = 0 then delayEndWith give j (t.startDelay j) else t.startDelay j)
      else t) := by
  split
  · rename_i hd
    obtain ⟨r, a, h1, h2, h3, -⟩ := (awaits_iff t j h .grant).1 hd
    have hst : P (t.startDelay j) := by
      rw [startDelay_eq h1 h2]
      exact hP.started t j r a ht h2 (h3 ▸ hG) h1
    split
    · exact delayEndWith_keeps hP hg j _ hst (hP.awaiting t j r ht h1)
    · exact hst
  · exact ht

theorem giveGrant_keeps (hP : Cascade W K G P) (n : Nat) (h : Handle) (s : State) (hs : P s) (hG : G h) :
    P (giveGrant n h s) := by
  induction n generalizing h s with
  | zero => exact hs
  | succ n ih =>
    exact foldl_keeps (fun t j ht => giveGrant_one_keeps hP (fun h t hp hg => ih h t hp hg) h hG t j ht) _ _ hs

theorem grantEvent_keeps (hP : Cascade W K G P) (i : SlotNo) (s : State) (hs : P s) (hG : G (s.handle i)) :
    P (s.grantEvent i) :=
  giveGrant_keeps hP 32 _ s hs hG

theorem endDelay_keeps (hP : Cascade W K G P) (j : SlotNo) (s : State) (hs : P s) (hk : K j) : P (s.endDelay j) :=
  delayEndWith_keeps hP (giveGrant_keeps hP 32) j s hs hk

theorem endEvent_keeps (hP : Cascade W K G P) (h : Handle) (s : State) (hs : P s) (hG : G h) : P (s.endEvent h) := by
  refine foldl_keeps (fun t j ht => ?_) _ _ hs
  split
  · rename_i hd
    obtain ⟨r, a, h1, h2, h3, -⟩ := (awaits_iff t j h .ending).1 hd
    rw [startDelay_eq h1 h2]
    exact hP.started t j r a ht h2 (h3 ▸ hG) h1
  · exact ht

theorem grantEvents_keeps (hP : Cascade W K G P) (granted : List SlotNo) (s : State) (hs : P s)
    (hG : ∀ t i, P t → i ∈ granted → G (t.handle i)) : P (s.grantEvents granted) := by
  unfold State.grantEvents
  induction granted generalizing s with
  | nil => exact hs
  | cons i granted ih =>
    rw [List.foldl_cons]
    exact ih (s.grantEvent i) (grantEvent_keeps hP i s hs (hG s i hs (by simp))) fun t k ht h => hG t k ht (by simp [h])

theorem endDelays_keeps (hP : Cascade W K G P) (zeros : List SlotNo) (s : State) (hs : P s) (hk : ∀ j ∈ zeros, K j) :
    P (s.endDelays zeros) := by
  unfold State.endDelays
  induction zeros generalizing s with
  | nil => exact hs
  | cons j zeros ih =>
    rw [List.foldl_cons]
    exact ih (s.endDelay j) (endDelay_keeps hP j s hs (hk j (by simp))) fun k h => hk k (by simp [h])

theorem walkQueue_keeps (hP : Cascade True K G P) (s : State) (hs : P s) : P s.walkQueue.part := by
  refine foldl_keeps (P := fun acc : ScanState => P acc.part) (fun acc i hacc => ?_) _ _ hs
  simp only [scanEntry]
  split
  · rename_i r w hw
    split
    · rename_i hc
      exact hP.granted _ i r acc.waiting hacc (.inl ⟨trivial, w, hw⟩) hc
    · exact hacc
  all_goals exact hacc

/-- What follows the walk of a departure's scan, in either order (log entry 3). -/
theorem afterWalk_keeps (hP : Cascade W K G P) (zeros granted : List SlotNo) (b : Bool) (v : State) (hv : P v)
    (hk : ∀ j ∈ zeros, K j) (hG : ∀ t i, P t → i ∈ granted → G (t.handle i)) :
    P (if b then (v.endDelays zeros).grantEvents granted else (v.grantEvents granted).endDelays zeros) := by
  split
  · exact grantEvents_keeps hP _ _ (endDelays_keeps hP _ _ hv hk) hG
  · exact endDelays_keeps hP _ _ (grantEvents_keeps hP _ _ hv hG) hk

/-- A departure's scan is the walk, and then the GRANT events and the claim tests of the delay-0 END dependents in one of the
two orders (R38, R102, log entry 3). -/
theorem scanDeparture_eq (zeros : List SlotNo) (s : State) :
    ∃ (v : State) (b : Bool), (v = s.walkQueue.part ∨ v = { s.walkQueue.part with choices := s.walkQueue.part.choices + 1 })
      ∧ s.scanDeparture zeros =
          if b then (v.endDelays zeros).grantEvents s.walkQueue.granted
          else (v.grantEvents s.walkQueue.granted).endDelays zeros := by
  simp only [State.scanDeparture]
  by_cases hz : zeros = []
  · exact ⟨_, false, .inl rfl, by simp [hz, State.endDelays]⟩
  · by_cases hg : s.walkQueue.granted = []
    · exact ⟨_, true, .inl rfl, by simp [hz, hg, State.grantEvents]⟩
    · exact ⟨_, Config.endTestsFirst s.walkQueue.part.choices, .inr rfl, by simp [hz, hg]⟩

theorem scan_keeps (hP : Cascade True K G P) (s : State) (hs : P s)
    (hG : ∀ t i, P t → i ∈ s.walkQueue.granted → G (t.handle i)) : P s.scan :=
  grantEvents_keeps hP _ _ (walkQueue_keeps hP s hs) hG

theorem scanDeparture_keeps (hP : Cascade True K G P) (zeros : List SlotNo) (s : State) (hs : P s)
    (hk : ∀ j ∈ zeros, K j) (hG : ∀ t i, P t → i ∈ s.walkQueue.granted → G (t.handle i)) :
    P (s.scanDeparture zeros) := by
  have hw := walkQueue_keeps hP s hs
  obtain ⟨v, b, hv, e⟩ := scanDeparture_eq zeros s
  rw [e]
  refine afterWalk_keeps hP _ _ b v ?_ hk hG
  rcases hv with rfl | rfl
  · exact hw
  · exact hP.chosen _ hw

/-! ## What cascades leave as it was -/

/-- `t` comes from `s` by grants and chain events alone: settings, ports and groups are as they were, no output has left
HELD, no record has gone, and no slot has changed but those that were WAITING or ARMED. -/
structure Evolves (s t : State) : Prop where
  settings : s.settingsKept t
  ports : s.portsKept t
  groups : t.groups = s.groups
  slots : ∀ j : SlotNo, (t.slot j).generation = (s.slot j).generation
    ∧ (t.slot j).state.record = (s.slot j).state.record ∧ ((s.slot j).state.settled = true → t.slot j = s.slot j)
  channels : ∀ o : OutputNo, s.keptOrGranted t o (s.channel o)

/-- An owner is the owner of the record. -/
theorem ownedBy_congr {x y : SlotState} (h : x.record = y.record) (q : Port) : x.ownedBy q = y.ownedBy q := by
  simp [SlotState.ownedBy, h]

theorem Evolves.others {s t : State} (h : Evolves s t) (j : SlotNo) :
    (t.slot j).generation = (s.slot j).generation
      ∧ (∀ q : Port, (t.slot j).state.ownedBy q = (s.slot j).state.ownedBy q)
      ∧ ((s.slot j).state.settled = true → t.slot j = s.slot j) :=
  ⟨(h.slots j).1, ownedBy_congr (h.slots j).2.1, (h.slots j).2.2⟩

theorem Evolves.onlyGranted {s t : State} (h : Evolves s t) : s.onlyGranted t :=
  ⟨h.others, fun o => by simpa using h.channels o⟩

theorem Evolves.handle {s t : State} (h : Evolves s t) (i : SlotNo) : t.handle i = s.handle i := by
  have e : t.epoch = s.epoch := by rw [h.settings.1]
  simp only [State.handle, e, (h.slots i).1]

theorem settingsKept_refl (s : State) : s.settingsKept s := ⟨rfl, fun _ => ⟨rfl, rfl⟩⟩

/-- The fields that events leave alone, one by one. -/
theorem settingsKept_iff (s t : State) : s.settingsKept t ↔
    t.powered = s.powered ∧ t.rstnLow = s.rstnLow ∧ t.mode = s.mode ∧ t.resetCause = s.resetCause ∧ t.epoch = s.epoch
      ∧ t.tickDivider = s.tickDivider ∧ t.dividerCount = s.dividerCount ∧ t.tripLines = s.tripLines
      ∧ t.reserved = s.reserved ∧ t.quota = s.quota ∧ t.pending = s.pending
      ∧ ∀ p : Port, (t.notices.get p).mask = (s.notices.get p).mask
          ∧ (t.notices.get p).promoted = (s.notices.get p).promoted := by
  cases s; cases t
  simp only [State.settingsKept, State.mk.injEq, true_and, and_assoc]

theorem settingsKept_trans {s t u : State} (h : s.settingsKept t) (h' : t.settingsKept u) : s.settingsKept u := by
  rw [settingsKept_iff] at *
  obtain ⟨a1, a2, a3, a4, a5, a6, a7, a8, a9, a10, a11, a12⟩ := h
  obtain ⟨b1, b2, b3, b4, b5, b6, b7, b8, b9, b10, b11, b12⟩ := h'
  exact ⟨b1.trans a1, b2.trans a2, b3.trans a3, b4.trans a4, b5.trans a5, b6.trans a6, b7.trans a7, b8.trans a8,
    b9.trans a9, b10.trans a10, b11.trans a11, fun p => ⟨(b12 p).1.trans (a12 p).1, (b12 p).2.trans (a12 p).2⟩⟩

theorem evolves_refl (s : State) : Evolves s s :=
  ⟨settingsKept_refl s, ⟨rfl, rfl⟩, rfl, fun _ => ⟨rfl, rfl, fun _ => rfl⟩, fun _ => .inl rfl⟩

/-- What a channel is after further grants. -/
theorem keptOrGranted_trans {s t u : State} {o : OutputNo} {c : Channel} (hst : Evolves s t)
    (h : s.keptOrGranted t o c) (htu : Evolves t u) : s.keptOrGranted u o c := by
  rcases h with e | ⟨hc, j, r, x, h1, h2, h3, h4, h5, h6⟩
  · rcases htu.channels o with e' | ⟨hc', j, r, x, h1, h2, h3, h4, h5, h6⟩
    · exact .inl (e'.trans e)
    · rw [e] at hc' h6
      refine .inr ⟨hc', j, r, x, ?_, (hst.slots j).2.1 ▸ h2, h3, h4, h5, h6⟩
      cases hs : (s.slot j).state.settled with
      | false => rfl
      | true => rw [(hst.slots j).2.2 hs, hs] at h1; cases h1
  · refine .inr ⟨hc, j, r, x, h1, h2, ?_, h4, h5, ?_⟩
    · rw [(htu.slots j).2.2 (by rw [h3]; rfl), h3]
    · rcases htu.channels o with e' | ⟨hc', -⟩
      · rw [e', h6]
      · rw [h6] at hc'; cases hc'

theorem evolves_trans {s t u : State} (h : Evolves s t) (h' : Evolves t u) : Evolves s u where
  settings := settingsKept_trans h.settings h'.settings
  ports := ⟨h'.ports.1.trans h.ports.1, h'.ports.2.trans h.ports.2⟩
  groups := h'.groups.trans h.groups
  slots j := by
    obtain ⟨a, b, c⟩ := h.slots j
    obtain ⟨a', b', c'⟩ := h'.slots j
    exact ⟨a'.trans a, b'.trans b, fun hs => (c' (by rw [c hs]; exact hs)).trans (c hs)⟩
  channels o := keptOrGranted_trans h (h.channels o) h'

/-- The mask and the promotion of a set after a post. -/
@[simp] theorem post_mask (n : Notice) (u : NoticeUnit) : (u.post n).mask = u.mask := by
  simp only [NoticeUnit.post]; split <;> rfl

@[simp] theorem post_promoted (n : Notice) (u : NoticeUnit) : (u.post n).promoted = u.promoted := by
  simp only [NoticeUnit.post]; split <;> rfl

/-- A post keeps everything but entries. -/
theorem settingsKept_post (s : State) (p : Port) (n : Notice) : s.settingsKept (s.post p n) := by
  refine ⟨rfl, fun q => ?_⟩
  simp only [State.post_notices, PerPort.get_set]
  by_cases h : q = p
  · subst h; simp
  · simp [h]

theorem evolves_post (s : State) (p : Port) (n : Notice) : Evolves s (s.post p n) :=
  ⟨settingsKept_post s p n, ⟨rfl, rfl⟩, rfl, fun _ => ⟨rfl, rfl, fun _ => rfl⟩, fun _ => .inl rfl⟩

/-- A slot that is not settled goes to another state with the same record. -/
theorem evolves_setSlotState {s : State} {j : SlotNo} {st : SlotState}
    (hr : st.record = (s.slot j).state.record) (hs : (s.slot j).state.settled = true → st = (s.slot j).state) :
    Evolves s (s.setSlotState j st) where
  settings := ⟨rfl, fun _ => ⟨rfl, rfl⟩⟩
  ports := ⟨rfl, rfl⟩
  groups := rfl
  slots k := by
    simp only [State.setSlotState, State.setSlot_slot]
    by_cases hk : k = j
    · subst hk
      rw [if_pos rfl]
      exact ⟨rfl, hr, fun h => by rw [hs h]⟩
    · rw [if_neg hk]
      exact ⟨rfl, rfl, fun _ => rfl⟩
  channels _ := .inl rfl

/-- A post leaves an entry for every notice that had one (R142). -/
theorem mem_insertNotice {n : Notice} {es : List NoticeEntry} {m : Notice} :
    (∃ e ∈ insertNotice n es, e.notice = m) ↔ m = n ∨ ∃ e ∈ es, e.notice = m := by
  induction es with
  | nil => simp [insertNotice, eq_comm]
  | cons x es ih =>
    simp only [insertNotice]
    split
    · rename_i hx
      subst hx
      simp [eq_comm]
    · split
      · simp [eq_comm]
      · simp only [List.exists_mem_cons_iff, ih]
        tauto

/-- After a post, the notice stands in the set if the mask collects its kind (R142). -/
theorem post_noticed (s : State) (p : Port) (n : Notice) : (s.post p n).noticed p n := by
  intro hm
  simp only [State.post_notices, PerPort.get_set_same, post_mask] at hm ⊢
  simp only [NoticeUnit.post, hm, if_true]
  exact mem_insertNotice.2 (.inl rfl)

/-- A grant of a claim that is clear, whole (R10, R38, R115). -/
theorem grant_grantedTo {t : State} {j : SlotNo} {r : Permit} :
    t.grantedTo ((t.enterLive j r).post r.owner (.granted (t.handle j))) j r := by
  refine ⟨fun k => ?_, rfl, fun o => ?_, rfl, ?_, post_noticed _ _ _, ?_,
    noticesAfter_congr (post_noticesAfter (t.enterLive j r) r.owner _) (by simp) rfl (fun _ _ => Iff.rfl) fun _ _ => Iff.rfl⟩
  · simp only [State.post_slot, enterLive_slot]
  · simp only [State.post_channel, enterLive_channel, takeOutputs_channel]
    cases hf : r.outputs.find? (fun e => decide (e.output = o)) with
    | none =>
      exact .inr ⟨fun e he => by simpa using List.find?_eq_none.1 hf e he, rfl⟩
    | some e =>
      exact .inl ⟨e, List.mem_of_find?_eq_some hf, by simpa using List.find?_some hf, take_eq_driven _ _ _⟩
  · exact settingsKept_trans ((settingsKept_iff _ _).2 (by simp)) (settingsKept_post _ _ _)
  · simp only [State.post_notices, PerPort.get_set]
    rw [if_neg (by cases r.owner <;> simp [otherPort])]
    simp

/-- A grant of a claim that is clear is one of the changes that `Evolves` allows. -/
theorem grant_evolves {t : State} {j : SlotNo} {r : Permit} {ahead : List SlotNo}
    (hr : (t.slot j).state.record = some r) (hn : (t.slot j).state.settled = false)
    (hc : t.claimTest r.outputNos ahead = none) :
    Evolves t ((t.enterLive j r).post r.owner (.granted (t.handle j))) := by
  obtain ⟨hsl, -, hch, hg, hset, -⟩ := grant_grantedTo (t := t) (j := j) (r := r)
  refine ⟨hset, ⟨by simp, by simp⟩, hg, fun k => ?_, fun o => ?_⟩
  · rw [hsl]
    by_cases hk : k = j
    · subst hk
      rw [if_pos rfl]
      exact ⟨rfl, hr.symm ▸ rfl, fun h => by rw [hn] at h; cases h⟩
    · rw [if_neg hk]
      exact ⟨rfl, rfl, fun _ => rfl⟩
  · rcases hch o with ⟨e, he, ho, h⟩ | ⟨-, h⟩
    · refine .inr ⟨((claimTest_none.1 hc).1 o ?_).1, j, r, e, hn, hr, ?_, he, ho, h⟩
      · rw [← ho]; exact List.mem_map_of_mem he
      · rw [hsl, if_pos rfl]
    · exact .inl h

/-- Every cascade is made of changes that leave the rest as it was (R13, R36, R100 to R104). -/
theorem evolves_cascade (W : Prop) (s : State) : Cascade W (fun _ => True) (fun _ => True) (Evolves s) where
  lost t j r a ht _ _ hj := by
    refine evolves_trans ht (evolves_trans (evolves_setSlotState (j := j) ?_ ?_) (evolves_post _ _ _))
    · rw [hj]; rfl
    · rw [hj]; intro h; cases h
  started t j r a ht _ _ hj := by
    refine evolves_trans ht (evolves_setSlotState ?_ ?_)
    · rw [hj]; rfl
    · rw [hj]; intro h; cases h
  granted t j r ahead ht hj hc := by
    refine evolves_trans ht (grant_evolves ?_ ?_ hc) <;>
      rcases hj with ⟨-, w, e⟩ | ⟨-, d, e⟩ <;> (rw [e]; rfl)
  queued t j r d ht hj _ _ := by
    refine evolves_trans ht ?_
    have h := evolves_setSlotState (s := t) (j := j) (st := .waiting r r.waitLimit) (by rw [hj]; rfl)
      (by rw [hj]; intro h; cases h)
    exact ⟨⟨rfl, fun _ => ⟨rfl, rfl⟩⟩, ⟨rfl, rfl⟩, rfl, h.slots, fun _ => .inl rfl⟩
  blocked t j r d reason ht hj _ := by
    refine evolves_trans ht (evolves_trans (evolves_setSlotState (j := j) ?_ ?_) (evolves_post _ _ _))
    · rw [hj]; rfl
    · rw [hj]; intro h; cases h
  chosen t ht := evolves_trans ht
    ⟨⟨rfl, fun _ => ⟨rfl, rfl⟩⟩, ⟨rfl, rfl⟩, rfl, fun _ => ⟨rfl, rfl, fun _ => rfl⟩, fun _ => .inl rfl⟩
  awaiting _ _ _ _ _ := trivial
  gives _ _ _ _ := trivial

theorem loseAnchor_evolves (i : SlotNo) (s : State) (hl : (s.slot i).state.isLive = false) : Evolves s (s.loseAnchor i) :=
  loseAnchor_keeps (evolves_cascade False s) i s (evolves_refl s) hl

theorem endDelay_evolves (j : SlotNo) (s : State) : Evolves s (s.endDelay j) :=
  endDelay_keeps (evolves_cascade False s) j s (evolves_refl s) trivial

theorem endEvent_evolves (h : Handle) (s : State) : Evolves s (s.endEvent h) :=
  endEvent_keeps (evolves_cascade False s) h s (evolves_refl s) trivial

theorem grantEvent_evolves (i : SlotNo) (s : State) : Evolves s (s.grantEvent i) :=
  grantEvent_keeps (evolves_cascade False s) i s (evolves_refl s) trivial

theorem scan_evolves (s : State) : Evolves s s.scan :=
  scan_keeps (evolves_cascade True s) s (evolves_refl s) fun _ _ _ _ => trivial

theorem scanDeparture_evolves (zeros : List SlotNo) (s : State) : Evolves s (s.scanDeparture zeros) :=
  scanDeparture_keeps (evolves_cascade True s) zeros s (evolves_refl s) (fun _ _ => trivial) fun _ _ _ _ => trivial

/-! ## Notices through a cascade -/

/-- A post takes no notice away. -/
theorem noticed_post {s : State} {p : Port} {n : Notice} (h : s.noticed p n) (q : Port) (m : Notice) :
    (s.post q m).noticed p n := by
  intro hm
  simp only [State.post_notices, PerPort.get_set] at hm ⊢
  by_cases hq : p = q
  · subst hq
    simp only [if_true, post_mask] at hm ⊢
    simp only [NoticeUnit.post]
    split
    · exact mem_insertNotice.2 (.inr (h hm))
    · exact h hm
  · simp only [if_neg hq] at hm ⊢
    exact h hm

/-- No cascade takes a notice away. -/
theorem noticed_cascade (W : Prop) (p : Port) (n : Notice) :
    Cascade W (fun _ => True) (fun _ => True) (fun t => t.noticed p n) where
  lost _ _ _ _ ht _ _ _ := noticed_post (s := State.setSlotState _ _ _) ht _ _
  started _ _ _ _ ht _ _ _ := ht
  granted t j r _ ht _ _ := noticed_post (s := t.enterLive j r) (by simpa [State.noticed] using ht) _ _
  queued _ _ _ _ ht _ _ _ := ht
  blocked _ _ _ _ _ ht _ _ := noticed_post (s := State.setSlotState _ _ _) ht _ _
  chosen _ ht := ht
  awaiting _ _ _ _ _ := trivial
  gives _ _ _ _ := trivial

/-- The sets go on following the slots through a further part of an event, after grants and chain events. -/
theorem Evolves.follow {s u t : State} (he : Evolves s u) (h : s.noticesFollow u fun _ => False)
    (h' : u.noticesFollow t fun _ => False) (hs : ∀ j, (u.slot j).state.settled = true → t.slot j = u.slot j) :
    s.noticesFollow t fun _ => False := by
  refine noticesFollow_trans h h' (fun p => (he.settings.2 p).1) (fun _ => False.elim) hs fun j hj =>
    ⟨(he.handle j).symm, ?_, fun p => ((he.others j).2.1 p).symm⟩
  cases hx : (s.slot j).state.settled with
  | false => rfl
  | true => rw [(he.slots j).2.2 hx, hx] at hj; cases hj

/-- A grant, with its post (R38). -/
theorem grant_noticesFollow {t : State} {j : SlotNo} {r : Permit} (hl : (t.slot j).state.isLive = false) :
    t.noticesFollow ((t.enterLive j r).post r.owner (.granted (t.handle j))) fun _ => False := by
  have ho : ∀ k, k ≠ j → ((t.enterLive j r).post r.owner (.granted (t.handle j))).slot k = t.slot k := by
    intro k hk; simp [enterLive_slot, hk]
  have hs : (((t.enterLive j r).post r.owner (.granted (t.handle j))).slot j).state = .live r (newRun r) := by
    simp [enterLive_slot]
  refine noticesAfter_congr (grant_grantedTo (t := t) (j := j) (r := r)).2.2.2.2.2.2.2 rfl rfl (fun p n => ?_)
    fun p n => ?_
  · rw [false_or, slotsPost_one ho, hs]
    constructor
    · rintro ⟨q, hp, ⟨run, -, b, hn⟩ | ⟨c, -, b, -⟩⟩
      · cases b; exact ⟨hp, hn⟩
      · cases b
    · exact fun ⟨hp, hn⟩ => ⟨r, hp, .inl ⟨_, hl, rfl, hn⟩⟩
  · rw [slotsDrop_one ho, hs, iff_false]
    rintro ⟨-, b, -⟩; cases b

/-- The sets follow the slots through every cascade (R12, R38, R104). -/
theorem notices_cascade (W : Prop) (s : State) :
    Cascade W (fun _ => True) (fun _ => True) (fun t => Evolves s t ∧ s.noticesFollow t fun _ => False) := by
  have hC := evolves_cascade W s
  have add : ∀ {t t' : State}, (Evolves s t ∧ s.noticesFollow t fun _ => False) → Evolves s t' → Evolves t t' →
      (t.noticesFollow t' fun _ => False) → Evolves s t' ∧ s.noticesFollow t' fun _ => False :=
    fun ht ht' he h' => ⟨ht', ht.1.follow ht.2 h' fun j => (he.slots j).2.2⟩
  refine ⟨fun t j r a ht ha hl hj => ?_, fun t j r a ht ha hg hj => ?_, fun t j r ahead ht hj hc => ?_,
    fun t j r d ht hj hk hw => ?_, fun t j r d reason ht hj hk => ?_, fun t ht => ?_, fun _ _ _ _ _ => trivial,
    fun _ _ _ _ => trivial⟩
  · exact add ht (hC.lost t j r a ht.1 ha hl hj) ((evolves_cascade W t).lost t j r a (evolves_refl t) ha hl hj)
      (close_noticesFollow _ (by simp [hj]))
  · refine add ht (hC.started t j r a ht.1 ha hg hj) ((evolves_cascade W t).started t j r a (evolves_refl t) ha hg hj)
      (noticesFollow_of_eq rfl fun k hk => ?_)
    simp only [State.setSlotState, State.setSlot_slot] at hk ⊢
    split at hk
    · cases hk
    · rename_i hkj; rw [if_neg hkj]
  · refine add ht (hC.granted t j r ahead ht.1 hj hc) ((evolves_cascade W t).granted t j r ahead (evolves_refl t) hj hc)
      (grant_noticesFollow ?_)
    rcases hj with ⟨-, w, e⟩ | ⟨-, d, e⟩ <;> (rw [e]; rfl)
  · refine add ht (hC.queued t j r d ht.1 hj hk hw) ((evolves_cascade W t).queued t j r d (evolves_refl t) hj hk hw)
      (noticesFollow_of_eq rfl fun k hk => ?_)
    have e : (t.enterWaiting j r).slot k = (t.setSlotState j (.waiting r r.waitLimit)).slot k := rfl
    rw [e] at hk ⊢
    simp only [State.setSlotState, State.setSlot_slot] at hk ⊢
    split at hk
    · cases hk
    · rename_i hkj; rw [if_neg hkj]
  · exact add ht (hC.blocked t j r d reason ht.1 hj hk) ((evolves_cascade W t).blocked t j r d reason (evolves_refl t) hj hk)
      (close_noticesFollow _ (by simp [hj]))
  · exact add ht (hC.chosen t ht.1) ((evolves_cascade W t).chosen t (evolves_refl t))
      (noticesFollow_of_eq rfl fun _ _ => rfl)

/-- A state's own sets follow its own slots. -/
theorem follow_refl (s : State) : Evolves s s ∧ s.noticesFollow s fun _ => False :=
  ⟨evolves_refl s, noticesFollow_of_eq rfl fun _ _ => rfl⟩

theorem scan_noticesFollow (s : State) : s.noticesFollow s.scan fun _ => False :=
  (scan_keeps (notices_cascade True s) s (follow_refl s) fun _ _ _ _ => trivial).2

theorem scanDeparture_noticesFollow (zeros : List SlotNo) (s : State) :
    s.noticesFollow (s.scanDeparture zeros) fun _ => False :=
  (scanDeparture_keeps (notices_cascade True s) zeros s (follow_refl s) (fun _ _ => trivial) fun _ _ _ _ => trivial).2

theorem loseAnchor_noticesFollow (i : SlotNo) (s : State) (hl : (s.slot i).state.isLive = false) :
    s.noticesFollow (s.loseAnchor i) fun _ => False :=
  (loseAnchor_keeps (notices_cascade False s) i s (follow_refl s) hl).2

theorem endDelay_noticesFollow (j : SlotNo) (s : State) : s.noticesFollow (s.endDelay j) fun _ => False :=
  (endDelay_keeps (notices_cascade False s) j s (follow_refl s) trivial).2

/-! ## Departures -/

/-- The slot that an ending leaves: CLOSED with the cause and the record kept, or FREE with the generation raised (R7,
R12). -/
def Slot.ended (x : Slot) (r : Permit) : Option Closure → Slot
  | some c => { generation := x.generation, state := .closed r c }
  | none => { generation := x.generation + 1, state := .free }

/-- What entering CLOSED or FREE does to every slot. -/
theorem enterEnd_slot {s : State} {i : SlotNo} {r : Permit} (ending : Option Closure)
    (h : (s.slot i).state.record = some r) (j : SlotNo) :
    (s.enterEnd i ending).slot j = if j = i then (s.slot i).ended r ending else s.slot j := by
  cases ending with
  | some c => simp [State.enterEnd, enterClosed_eq c h, State.setSlotState, State.setSlot_slot, Slot.ended]
  | none => simp [State.enterEnd, enterFree_eq h, State.setSlot_slot, Slot.ended]

/-- Entering CLOSED or FREE touches the slot, the notices and what was due to the slot. -/
theorem enterEnd_rest {s : State} {i : SlotNo} {r : Permit} (ending : Option Closure)
    (h : (s.slot i).state.record = some r) :
    s.settingsKept (s.enterEnd i ending) ∧ s.portsKept (s.enterEnd i ending)
      ∧ (s.enterEnd i ending).groups = s.groups ∧ (s.enterEnd i ending).channels = s.channels
      ∧ (s.enterEnd i ending).waitQueue = s.waitQueue := by
  cases ending with
  | some c =>
    rw [State.enterEnd, enterClosed_eq c h]
    exact ⟨settingsKept_trans (t := s.setSlotState i _) ⟨rfl, fun _ => ⟨rfl, rfl⟩⟩ (settingsKept_post _ _ _), ⟨rfl, rfl⟩,
      rfl, rfl, rfl⟩
  | none =>
    rw [State.enterEnd, enterFree_eq h]
    refine ⟨⟨rfl, fun q => ?_⟩, ⟨rfl, rfl⟩, rfl, rfl, rfl⟩
    simp only [State.setNotices_notices, PerPort.get_set]
    by_cases hq : q = r.owner
    · subst hq; rw [if_pos rfl]; exact ⟨rfl, rfl⟩
    · rw [if_neg hq]; exact ⟨rfl, rfl⟩

/-- After an ending with a cause the owner is noticed, and after one without the slot's notices are gone (R12, R14). -/
theorem enterEnd_notices {s : State} {i : SlotNo} {r : Permit} (ending : Option Closure)
    (h : (s.slot i).state.record = some r) :
    (ending.isSome = true → (s.enterEnd i ending).noticed r.owner (.closed (s.handle i)))
      ∧ (ending = none → ∀ e ∈ ((s.enterEnd i ending).notices.get r.owner).entries, e.notice.slot ≠ some i) := by
  cases ending with
  | some c =>
    refine ⟨fun _ => ?_, fun hn => by cases hn⟩
    rw [State.enterEnd, enterClosed_eq c h]
    exact post_noticed _ _ _
  | none =>
    refine ⟨(fun hn => by cases hn), fun _ e he => ?_⟩
    rw [State.enterEnd, enterFree_eq h] at he
    simp only [State.setNotices_notices, PerPort.get_set_same, NoticeUnit.dropSlot, List.mem_filter,
      decide_eq_true_eq] at he
    exact he.2

/-- The sets follow an ending: a post to the owner, or the slot's entries gone (R12, R14). -/
theorem enterEnd_noticesFollow {s : State} {i : SlotNo} {r : Permit} (ending : Option Closure)
    (h : (s.slot i).state.record = some r) (hn : ∀ q c, (s.slot i).state ≠ .closed q c) :
    s.noticesFollow (s.enterEnd i ending) fun _ => False := by
  cases ending with
  | some c => rw [State.enterEnd, enterClosed_eq c h]; exact close_noticesFollow c hn
  | none => rw [State.enterEnd, enterFree_eq h]; exact free_noticesFollow h _

/-- A slot that awaits no event stays as it is through a cascade, but for a WAITING one in a scan, and for one in DELAYING
whose delay end is taken (R10, R36, R103). -/
theorem kept_cascade (W : Prop) (i : SlotNo) (x : Slot) (ha : ∀ r, x.state ≠ .armed r .awaitingEvent)
    (hw : W → x.state.isWaiting = false) :
    Cascade W (fun k => k ≠ i ∨ ∀ r d, x.state ≠ .armed r (.delaying d)) (fun _ => True) (fun t => t.slot i = x) where
  lost t j r a ht _ _ hj := by
    simp only [State.post_slot, State.setSlotState, State.setSlot_slot]
    split
    · rename_i e; subst e
      exact absurd (ht ▸ hj) (ha r)
    · exact ht
  started t j r a ht _ _ hj := by
    simp only [State.setSlotState, State.setSlot_slot]
    split
    · rename_i e; subst e
      exact absurd (ht ▸ hj) (ha r)
    · exact ht
  granted t j r ahead ht hj _ := by
    simp only [State.post_slot, enterLive_slot]
    split
    · rename_i e; subst e
      rw [ht] at hj
      rcases hj with ⟨hW, w, e⟩ | ⟨hk, d, e⟩
      · have := hw hW; rw [e] at this; cases this
      · exact absurd e (hk.resolve_left (fun h => h rfl) r d)
    · exact ht
  queued t j r d ht hj hk _ := by
    simp only [State.enterWaiting, State.slot]
    show (t.setSlotState j _).slot i = x
    simp only [State.setSlotState, State.setSlot_slot]
    split
    · rename_i e; subst e
      exact absurd (ht ▸ hj) (hk.resolve_left (fun h => h rfl) r d)
    · exact ht
  blocked t j r d reason ht hj hk := by
    simp only [State.post_slot, State.setSlotState, State.setSlot_slot]
    split
    · rename_i e; subst e
      exact absurd (ht ▸ hj) (hk.resolve_left (fun h => h rfl) r d)
    · exact ht
  chosen t ht := ht
  awaiting t j r ht hj := by
    refine .inl ?_
    rintro rfl
    exact ha r (ht ▸ hj)
  gives _ _ _ _ := trivial

/-- A slot that is settled comes to hold nothing that it did not hold. -/
theorem settled_cascade (W : Prop) (i : SlotNo) (x : Slot) (hx : x.state.settled = true) :
    Cascade W (fun _ => True) (fun _ => True) (fun t => t.slot i = x ∧ ∀ o : OutputNo, t.holds i o = false) := by
  have na : ∀ r part, x.state ≠ .armed r part := by rintro r part e; rw [e] at hx; cases hx
  have hw := kept_cascade W i x (fun r => na r _) fun _ => by
    cases h : x.state <;> first | rfl | (rw [h] at hx; cases hx)
  refine ⟨fun t j r a ht ha hl hj => ⟨hw.lost t j r a ht.1 ha hl hj, ht.2⟩,
    fun t j r a ht ha hg hj => ⟨hw.started t j r a ht.1 ha hg hj, ht.2⟩,
    fun t j r ahead ht hj hc => ⟨hw.granted t j r ahead ht.1 (hj.imp_right fun h => ⟨.inr fun r d => na r _, h.2⟩) hc,
      fun o => ?_⟩,
    fun t j r d ht hj _ hl => ⟨hw.queued t j r d ht.1 hj (.inr fun r d => na r _) hl, ht.2⟩,
    fun t j r d reason ht hj _ => ⟨hw.blocked t j r d reason ht.1 hj (.inr fun r d => na r _), ht.2⟩, fun t ht => ht,
    fun _ _ _ _ _ => trivial, fun _ _ _ _ => trivial⟩
  have hij : i ≠ j := by
    rintro rfl
    rw [ht.1] at hj
    rcases hj with ⟨-, w, e⟩ | ⟨-, d, e⟩ <;> (rw [e] at hx; cases hx)
  simp only [State.holds, State.post_channel, enterLive_channel, takeOutputs_channel]
  split
  · simp [ChannelState.heldBy, Ne.symm hij]
  · exact ht.2 o

/-- A WAITING slot keeps its place in the queue through chain events. -/
theorem queued_cascade (i : SlotNo) (x : Slot) (hx : x.state.isWaiting = true) :
    Cascade False (fun _ => True) (fun _ => True) (fun t => t.slot i = x ∧ i ∈ t.waitQueue) := by
  have na : ∀ r part, x.state ≠ .armed r part := by rintro r part e; rw [e] at hx; cases hx
  have hw := kept_cascade False i x (fun r => na r _) fun h => h.elim
  refine ⟨fun t j r a ht ha hl hj => ⟨hw.lost t j r a ht.1 ha hl hj, ht.2⟩,
    fun t j r a ht ha hg hj => ⟨hw.started t j r a ht.1 ha hg hj, ht.2⟩,
    fun t j r ahead ht hj hc => ⟨hw.granted t j r ahead ht.1 (hj.imp_right fun h => ⟨.inr fun r d => na r _, h.2⟩) hc,
      ?_⟩,
    fun t j r d ht hj _ hl => ⟨hw.queued t j r d ht.1 hj (.inr fun r d => na r _) hl, List.mem_append_left _ ht.2⟩,
    fun t j r d reason ht hj _ => ⟨hw.blocked t j r d reason ht.1 hj (.inr fun r d => na r _), ht.2⟩, fun t ht => ht,
    fun _ _ _ _ _ => trivial, fun _ _ _ _ => trivial⟩
  have hij : i ≠ j := by
    rintro rfl
    rw [ht.1] at hj
    rcases hj with ⟨h, -⟩ | ⟨-, d, e⟩
    · exact h
    · exact na r _ e
  rw [grant_grantedTo.2.1]
  simpa using ⟨ht.2, hij⟩

end Sys2Proof.Machine
end

