-- ==== Sys2Proof/Laws/ChainEvents.lean ====
section
/-! SUPPORT. What the GRANT events and the claim tests after a walk do, said whole: which permits that await an event receive it,
which lose their anchors, and which go on as they were (R99 to R105). -/

namespace Sys2Proof.Machine

/-! ## Chain events -/

/-- `t` comes from `s` by grants and chain events alone, and its queue has grown at its tail alone: what `State.grown` says, with
the records, in the form that cascades keep. -/
structure Grows (s t : State) : Prop where
  evolves : Evolves s t
  queue : (∀ j ∈ s.waitQueue, (s.slot j).state.isWaiting = true) →
    (∀ j ∈ s.waitQueue, t.slot j = s.slot j)
      ∧ ∃ joined : List SlotNo, t.waitQueue = s.waitQueue ++ joined ∧ ∀ i ∈ joined, (t.slot i).state.isWaiting = true

theorem Grows.grown {s t : State} (h : Grows s t) : s.grown t :=
  ⟨h.evolves.onlyGranted, h.evolves.groups, h.evolves.settings, h.queue⟩

theorem grows_refl (s : State) : Grows s s := ⟨evolves_refl s, fun _ => ⟨fun _ _ => rfl, [], by simp, by simp⟩⟩

theorem grows_trans {s u t : State} (h : Grows s u) (h' : Grows u t) : Grows s t := by
  refine ⟨evolves_trans h.evolves h'.evolves, fun hw => ?_⟩
  obtain ⟨hs, joined, hq, hj⟩ := h.queue hw
  have hu : ∀ j ∈ u.waitQueue, (u.slot j).state.isWaiting = true := by
    intro j hm
    rw [hq] at hm
    rcases List.mem_append.1 hm with hm | hm
    · rw [hs j hm]; exact hw j hm
    · exact hj j hm
  obtain ⟨hs', more, hq', hm'⟩ := h'.queue hu
  refine ⟨fun j hm => (hs' j (by rw [hq]; exact List.mem_append_left _ hm)).trans (hs j hm), joined ++ more,
    by rw [hq', hq, List.append_assoc], fun i hi => ?_⟩
  rcases List.mem_append.1 hi with hi | hi
  · rw [hs' i (by rw [hq]; exact List.mem_append_right _ hi)]; exact hj i hi
  · exact hm' i hi

/-- One slot that is not WAITING changes; it may join the queue, or be taken off it. -/
theorem grows_one {s t : State} {j : SlotNo} (he : Evolves s t) (ho : ∀ m, m ≠ j → t.slot m = s.slot m)
    (hj : (s.slot j).state.isWaiting = false)
    (hq : t.waitQueue = s.waitQueue.filter (fun k => decide (k ≠ j)) ∨ t.waitQueue = s.waitQueue
      ∨ t.waitQueue = s.waitQueue ++ [j] ∧ (t.slot j).state.isWaiting = true) : Grows s t := by
  refine ⟨he, fun hw => ?_⟩
  have hne : ∀ k ∈ s.waitQueue, k ≠ j := by
    rintro k hk rfl
    rw [hw k hk] at hj; cases hj
  refine ⟨fun k hk => ho k (hne k hk), ?_⟩
  rcases hq with hq | hq | ⟨hq, hw'⟩
  · refine ⟨[], ?_, by simp⟩
    rw [hq, List.append_nil, List.filter_eq_self]
    exact fun k hk => by simpa using hne k hk
  · exact ⟨[], by simpa using hq, by simp⟩
  · exact ⟨[j], hq, by simpa using hw'⟩

/-- Every chain event is made of changes that let the queue grow at its tail alone (R34, R100 to R105). -/
theorem grows_cascade (s : State) : Cascade False (fun _ => True) (fun _ => True) (Grows s) where
  lost t j r a ht ha hl hj := grows_trans ht (grows_one (j := j)
    ((evolves_cascade False t).lost t j r a (evolves_refl t) ha hl hj)
    (fun m hm => by simp [State.setSlotState, State.setSlot_slot, hm]) (by rw [hj]; rfl) (.inr (.inl rfl)))
  started t j r a ht ha hg hj := grows_trans ht (grows_one (j := j)
    ((evolves_cascade False t).started t j r a (evolves_refl t) ha hg hj)
    (fun m hm => by simp [State.setSlotState, State.setSlot_slot, hm]) (by rw [hj]; rfl) (.inr (.inl rfl)))
  granted t j r ahead ht hj hc := by
    refine grows_trans ht (grows_one (j := j) ((evolves_cascade False t).granted t j r ahead (evolves_refl t) hj hc)
      (fun m hm => by simp [enterLive_slot, hm]) ?_ (.inl grant_grantedTo.2.1))
    rcases hj with ⟨h, -⟩ | ⟨-, d, e⟩
    · exact h.elim
    · rw [e]; rfl
  queued t j r d ht hj hk hw := by
    refine grows_trans ht (grows_one (j := j) ((evolves_cascade False t).queued t j r d (evolves_refl t) hj hk hw)
      (fun m hm => (by simp [State.setSlotState, State.setSlot_slot, hm] :
        (t.setSlotState j (.waiting r r.waitLimit)).slot m = t.slot m)) (by rw [hj]; rfl) (.inr (.inr ⟨rfl, ?_⟩)))
    have e : ((t.enterWaiting j r).slot j).state = .waiting r r.waitLimit :=
      (by simp [State.setSlotState] : ((t.setSlotState j (.waiting r r.waitLimit)).slot j).state = _)
    rw [e]; rfl
  blocked t j r d reason ht hj hk := grows_trans ht (grows_one (j := j)
    ((evolves_cascade False t).blocked t j r d reason (evolves_refl t) hj hk)
    (fun m hm => by simp [State.setSlotState, State.setSlot_slot, hm]) (by rw [hj]; rfl) (.inr (.inl rfl)))
  chosen t ht := grows_trans ht ⟨(evolves_cascade False t).chosen t (evolves_refl t), fun _ => ⟨fun _ _ => rfl, [], by simp,
    by simp⟩⟩
  awaiting _ _ _ _ _ := trivial
  gives _ _ _ _ := trivial

/-- What a claim test has brought about stays through what leaves its slot. -/
theorem testOutcome_mono {w t t' : State} {j : SlotNo} {r : Permit} (h : w.testOutcome t j r) (he : Evolves t t')
    (hj : t'.slot j = t.slot j) : w.testOutcome t' j r := by
  refine ⟨fun hc => ?_, fun reason hc => by rw [hj]; exact h.2 reason hc⟩
  obtain ⟨h1, h2⟩ := h.1 hc
  refine ⟨by rw [hj]; exact h1, fun o ho => ?_⟩
  obtain ⟨e, he1, he2, he3⟩ := h2 o ho
  refine ⟨e, he1, he2, ?_⟩
  rcases he.channels o with hk | ⟨hidle, -⟩
  · rw [hk]; exact he3
  · rw [he3] at hidle; cases hidle

/-- A claim test at a delay end leaves the permit in one of the three states of R104. -/
theorem testOutcome_tested {w t : State} {j : SlotNo} {r : Permit} (h : w.testOutcome t j r) :
    r.tested (t.slot j).state := by
  cases hc : w.claimTest r.outputNos w.waitQueue with
  | none => exact .inl (h.1 hc).1
  | some reason =>
    obtain ⟨h1, h2⟩ := h.2 reason hc
    by_cases hw : 0 < r.waitLimit
    · exact .inr (.inl ⟨hw, h1 hw⟩)
    · exact .inr (.inr ⟨by omega, reason, h2 (by omega)⟩)

/-- A claim that is clear, and what its grant brings about (R104, R115). -/
theorem grant_outcome {t : State} {j : SlotNo} {r : Permit} (hc : t.claimTest r.outputNos t.waitQueue = none) :
    t.testOutcome ((t.enterLive j r).post r.owner (.granted (t.handle j))) j r := by
  refine ⟨fun _ => ⟨by simp [enterLive_slot], fun o ho => ?_⟩, fun reason hr => (by rw [hc] at hr; cases hr)⟩
  rcases grant_grantedTo.2.2.1 o with hk | ⟨hk, -⟩
  · exact hk
  · obtain ⟨e, he, rfl⟩ := List.mem_map.1 ho
    exact absurd rfl (hk e he)

/-- The claim test at a delay end, and what it brings about (R104). -/
theorem delayEndWith_outcome (n : Nat) {t : State} {j : SlotNo} {r : Permit} {d : Nat}
    (hj : (t.slot j).state = .armed r (.delaying d)) : t.testOutcome (delayEndWith (giveGrant n) j t) j r := by
  simp only [delayEndWith, hj]
  cases hc : t.claimTest r.outputNos t.waitQueue with
  | none =>
    have hx := giveGrant_keeps
      (kept_cascade False j { generation := (t.slot j).generation, state := .live r (newRun r) } (by simp) False.elim)
      n (t.handle j) ((t.enterLive j r).post r.owner (.granted (t.handle j))) (by simp [enterLive_slot]) trivial
    exact testOutcome_mono (grant_outcome hc) (giveGrant_keeps (evolves_cascade False _) n _ _ (evolves_refl _) trivial)
      (by rw [hx]; simp [enterLive_slot])
  | some reason =>
    refine ⟨fun hn => (by rw [hc] at hn; cases hn), fun reason' hr => ⟨fun hw => ?_, fun hw => ?_⟩⟩
    · simp only [hw, if_true, State.enterWaiting, State.slot]
      show ((t.setSlotState j _).slot j).state = _
      simp [State.setSlotState]
    · rw [hc] at hr; cases hr
      simp only [hw, Nat.lt_irrefl, if_false]
      have hl : ((t.loseAnchor j).slot j).state = .armed r (.delaying d) := by rw [loseAnchor_self, hj]
      rw [enterClosed_eq (r := r) _ (by rw [hl]; rfl)]
      simp [State.setSlotState]

theorem delayEndWith_tested (n : Nat) {t : State} {j : SlotNo} {r : Permit} {d : Nat}
    (hj : (t.slot j).state = .armed r (.delaying d)) :
    r.tested ((delayEndWith (giveGrant n) j t).slot j).state := testOutcome_tested (delayEndWith_outcome n hj)

/-- Between `v` and `t` the permit of slot `j` has made its claim test. -/
def State.testedIn (v t : State) (j : SlotNo) (r : Permit) : Prop := ∃ w : State, Grows v w ∧ Grows w t ∧ w.testOutcome t j r

theorem State.testedIn.chainTested {v t : State} {j : SlotNo} {r : Permit} (h : v.testedIn t j r) : v.chainTested t j r := by
  obtain ⟨w, h1, h2, h3⟩ := h
  exact ⟨w, h1.grown, h2.grown, h3⟩

theorem State.testedIn.tested {v t : State} {j : SlotNo} {r : Permit} (h : v.testedIn t j r) : r.tested (t.slot j).state :=
  testOutcome_tested h.choose_spec.2.2

theorem chainTested_tested {v t : State} {j : SlotNo} {r : Permit} (h : v.chainTested t j r) : r.tested (t.slot j).state := by
  obtain ⟨w, -, -, h⟩ := h
  exact testOutcome_tested h

theorem State.testedIn.mono {v t t' : State} {j : SlotNo} {r : Permit} (h : v.testedIn t j r) (hg : Grows t t')
    (hj : t'.slot j = t.slot j) : v.testedIn t' j r := by
  obtain ⟨w, h1, h2, h3⟩ := h
  exact ⟨w, h1, grows_trans h2 hg, testOutcome_mono h3 hg.evolves hj⟩

/-- What a claim test at a delay end leaves is kept by every further chain event. -/
theorem Permit.tested.kept {r : Permit} {x : Slot} (h : r.tested x.state) (j : SlotNo) :
    Cascade False (fun _ => True) (fun _ => True) (fun t => t.slot j = x) := by
  have na : ∀ q part, x.state ≠ .armed q part := by
    rintro q part e
    rw [e] at h
    rcases h with h | ⟨-, h⟩ | ⟨-, reason, h⟩ <;> cases h
  have hw := kept_cascade False j x (fun r => na r _) False.elim
  exact ⟨hw.lost, hw.started, fun t k q ah ht hk => hw.granted t k q ah ht
      (hk.imp_right fun h => ⟨.inr fun r d => na r _, h.2⟩),
    fun t k q d ht hk _ => hw.queued t k q d ht hk (.inr fun r d => na r _),
    fun t k q d reason ht hk _ => hw.blocked t k q d reason ht hk (.inr fun r d => na r _), hw.chosen,
    fun _ _ _ _ _ => trivial, fun _ _ _ _ => trivial⟩

/-- A delay that runs is kept by every chain event but its own delay end. -/
theorem delaying_cascade (W : Prop) (j : SlotNo) (x : Slot) {r : Permit} {d : Nat}
    (hx : x.state = .armed r (.delaying d)) :
    Cascade W (fun k => k ≠ j) (fun _ => True) (fun t => t.slot j = x) := by
  have hw := kept_cascade W j x (by simp [hx]) (by simp [hx, SlotState.isWaiting])
  exact ⟨hw.lost, hw.started, fun t k q ah ht hk => hw.granted t k q ah ht (hk.imp_right fun h => ⟨.inl h.1, h.2⟩),
    fun t k q d ht hk h => hw.queued t k q d ht hk (.inl h),
    fun t k q d reason ht hk h => hw.blocked t k q d reason ht hk (.inl h), hw.chosen,
    fun t k q ht hk => (by rintro rfl; rw [ht, hx] at hk; cases hk), fun _ _ _ _ => trivial⟩

/-- The permits that await an event. -/
def State.awaitingSlots (t : State) : Finset SlotNo := Finset.univ.filter fun j => (t.slot j).state.partNumber = 0

theorem mem_awaitingSlots {t : State} {j : SlotNo} :
    j ∈ t.awaitingSlots ↔ ∃ r, (t.slot j).state = .armed r .awaitingEvent := by
  simp only [State.awaitingSlots, Finset.mem_filter, Finset.mem_univ, true_and]
  cases (t.slot j).state with
  | armed r part => cases part <;> simp [SlotState.partNumber]
  | free => simp [SlotState.partNumber]
  | waiting r w => simp [SlotState.partNumber]
  | live r run => simp [SlotState.partNumber]
  | closed r c => simp [SlotState.partNumber]

/-- No permit comes to await an event from `s` to `t`. -/
def State.awaitsNoMore (s t : State) : Prop :=
  ∀ (j : SlotNo) (r : Permit), (t.slot j).state = .armed r .awaitingEvent → t.slot j = s.slot j

theorem State.awaitsNoMore.card {s t : State} (h : s.awaitsNoMore t) : t.awaitingSlots.card ≤ s.awaitingSlots.card := by
  refine Finset.card_le_card fun j hj => ?_
  obtain ⟨r, hr⟩ := mem_awaitingSlots.1 hj
  exact mem_awaitingSlots.2 ⟨r, h j r hr ▸ hr⟩

/-- One slot is given a state that awaits no event. -/
theorem awaitsNoMore_one {s u t : State} (h : s.awaitsNoMore u) {j : SlotNo} (ho : ∀ m, m ≠ j → t.slot m = u.slot m)
    (hj : ∀ r, (t.slot j).state ≠ .armed r .awaitingEvent) : s.awaitsNoMore t := by
  intro m r hm
  by_cases e : m = j
  · exact absurd (e ▸ hm) (hj r)
  · rw [ho m e] at hm ⊢
    exact h m r hm

/-- No cascade brings a permit to await an event. -/
theorem awaitsNoMore_cascade (W : Prop) (s : State) : Cascade W (fun _ => True) (fun _ => True) s.awaitsNoMore where
  lost t j r a ht _ _ _ := awaitsNoMore_one ht (j := j)
    (fun m hm => by simp [State.setSlotState, State.setSlot_slot, hm]) (by simp [State.setSlotState])
  started t j r a ht _ _ _ := awaitsNoMore_one ht (j := j)
    (fun m hm => by simp [State.setSlotState, State.setSlot_slot, hm]) (by simp [State.setSlotState])
  granted t j r ahead ht _ _ := awaitsNoMore_one ht (j := j)
    (fun m hm => by simp [enterLive_slot, hm]) (by simp [enterLive_slot])
  queued t j r d ht _ _ _ := awaitsNoMore_one ht (j := j)
    (fun m hm => (by simp [State.setSlotState, State.setSlot_slot, hm] :
      (t.setSlotState j (.waiting r r.waitLimit)).slot m = t.slot m))
    (by
      have e : ((t.enterWaiting j r).slot j).state = .waiting r r.waitLimit :=
        (by simp [State.setSlotState] : ((t.setSlotState j (.waiting r r.waitLimit)).slot j).state = _)
      simp [e])
  blocked t j r d reason ht _ _ := awaitsNoMore_one ht (j := j)
    (fun m hm => by simp [State.setSlotState, State.setSlot_slot, hm]) (by simp [State.setSlotState])
  chosen t ht := ht
  awaiting _ _ _ _ _ := trivial
  gives _ _ _ _ := trivial

/-- How far the chain events that follow the grants in the slots `granted` have come from `v` to `t`, with the GRANT events of
the permits in the slots `X` still to be given (R100 to R105). -/
structure ChainRun (v : State) (granted : List SlotNo) (X : SlotNo → Prop) (t : State) : Prop where
  grows : Grows v t
  noMore : v.awaitsNoMore t
  armed : ∀ (j : SlotNo) (r : Permit) (part : ArmedPart), (t.slot j).state = .armed r part →
    ∃ q p', (v.slot j).state = .armed q p'
  fate : ∀ (j : SlotNo) (r : Permit), (v.slot j).state = .armed r .awaitingEvent →
    t.slot j = v.slot j ∨ ∃ a k, r.anchor = some a ∧ a.handle = v.handle k
      ∧ ((a.event = .grant ∧ v.givesGrant t granted k
          ∧ (0 < a.delay → (t.slot j).state = .armed r (.delaying a.delay)) ∧ (a.delay = 0 → v.testedIn t j r))
        ∨ (v.leftArmed t k
          ∧ t.slot j = { generation := (v.slot j).generation, state := .closed r (.anchorLost a.handle) }))
  lost : ∀ (j : SlotNo) (r : Permit) (a : Anchor) (k : SlotNo), (t.slot j).state = .armed r .awaitingEvent →
    r.anchor = some a → a.handle = v.handle k → (∃ q c, (t.slot k).state = .closed q c) →
    ∃ q c, (v.slot k).state = .closed q c
  given : ∀ (j : SlotNo) (r : Permit) (a : Anchor) (k : SlotNo), (t.slot j).state = .armed r .awaitingEvent →
    r.anchor = some a → a.handle = v.handle k → a.event = .grant → v.givesGrant t granted k → X k

theorem ChainRun.evolves {v t : State} {granted : List SlotNo} {X : SlotNo → Prop} (h : ChainRun v granted X t) : Evolves v t :=
  h.grows.evolves

/-- What a claim test leaves awaits no event. -/
theorem Permit.tested.not_armed {r : Permit} {x : SlotState} (h : r.tested x) (q : Permit) (part : ArmedPart) :
    x ≠ .armed q part := by
  rintro rfl
  rcases h with h | ⟨-, h⟩ | ⟨-, reason, h⟩ <;> cases h

section ChainRun

variable {v t u t' : State} {granted : List SlotNo} {X : SlotNo → Prop}

/-- At the walk's end. -/
theorem chainRun_start (v : State) (granted : List SlotNo) : ChainRun v granted (fun k => k ∈ granted) v where
  grows := grows_refl v
  noMore _ _ _ := rfl
  armed _ r part h := ⟨r, part, h⟩
  fate _ _ _ := .inl rfl
  lost _ _ _ _ _ _ _ h := h
  given _ _ _ _ _ _ _ _ h := h.resolve_right fun ⟨h1, h2⟩ => by rw [h1] at h2; cases h2

theorem givesGrant_mono {k : SlotNo} (h : v.givesGrant t granted k)
    (hk : (t.slot k).state.isLive = true → t'.slot k = t.slot k) : v.givesGrant t' granted k :=
  h.imp_right fun ⟨h1, h2⟩ => ⟨h1, by rw [hk h2]; exact h2⟩

theorem leftArmed_mono {k : SlotNo} (h : v.leftArmed t k)
    (hk : (∃ q c, (t.slot k).state = .closed q c) → t'.slot k = t.slot k) : v.leftArmed t' k :=
  ⟨h.1, by rw [hk h.2]; exact h.2⟩

/-- What has become of a permit that awaited an event stays so while its slot and the settled ones stay. -/
theorem ChainRun.fate_mono (h : ChainRun v granted X t) (hg : Grows t t')
    (hs : ∀ k, (t.slot k).state.settled = true → t'.slot k = t.slot k) {j : SlotNo} (hj : t'.slot j = t.slot j)
    {r : Permit} (hv : (v.slot j).state = .armed r .awaitingEvent) :
    t'.slot j = v.slot j ∨ ∃ a k, r.anchor = some a ∧ a.handle = v.handle k
      ∧ ((a.event = .grant ∧ v.givesGrant t' granted k
          ∧ (0 < a.delay → (t'.slot j).state = .armed r (.delaying a.delay)) ∧ (a.delay = 0 → v.testedIn t' j r))
        ∨ (v.leftArmed t' k
          ∧ t'.slot j = { generation := (v.slot j).generation, state := .closed r (.anchorLost a.handle) })) := by
  rw [hj]
  refine (h.fate j r hv).imp_right fun ⟨a, k, h1, h2, h3⟩ => ⟨a, k, h1, h2, h3.imp ?_ ?_⟩
  · refine fun ⟨g1, g2, g3, g4⟩ => ⟨g1, givesGrant_mono g2 fun hl => hs k ?_, g3, fun hz => (g4 hz).mono hg hj⟩
    cases hk : (t.slot k).state <;> first | rfl | (rw [hk] at hl; cases hl)
  · exact fun ⟨g1, g2⟩ => ⟨leftArmed_mono g1 fun ⟨q, c, hc⟩ => hs k (by rw [hc]; rfl), g2⟩

/-- One slot that was ARMED is given a state other than CLOSED, in which it awaits no event. -/
theorem ChainRun.one (h : ChainRun v granted X t) (hg : Grows t t') {j : SlotNo} {r : Permit} {part : ArmedPart}
    (hj : (t.slot j).state = .armed r part) (ho : ∀ m, m ≠ j → t'.slot m = t.slot m)
    (hna : ∀ q, (t'.slot j).state ≠ .armed q .awaitingEvent) (hnc : ∀ q c, (t'.slot j).state ≠ .closed q c)
    (hl : (t'.slot j).state.isLive = true → X j)
    (hf : ∀ q, (v.slot j).state = .armed q .awaitingEvent → q = r ∧ ∃ a k, r.anchor = some a ∧ a.handle = v.handle k
      ∧ a.event = .grant ∧ v.givesGrant t granted k
      ∧ (0 < a.delay → (t'.slot j).state = .armed r (.delaying a.delay)) ∧ (a.delay = 0 → v.testedIn t' j r)) :
    ChainRun v granted X t' := by
  have hs : ∀ k, (t.slot k).state.settled = true → t'.slot k = t.slot k := fun k hk =>
    ho k (by rintro rfl; rw [hj] at hk; cases hk)
  refine ⟨grows_trans h.grows hg, awaitsNoMore_one h.noMore ho hna, fun m q p hm => ?_, fun m q hv => ?_,
    fun m q a k hm ha hk hc => ?_, fun m q a k hm ha hk hg hgive => ?_⟩
  · by_cases e : m = j
    · exact h.armed m r part (e ▸ hj)
    · exact h.armed m q p (ho m e ▸ hm)
  · by_cases e : m = j
    · subst e
      obtain ⟨rfl, a, k, h1, h2, h3, h4, h5⟩ := hf q hv
      exact .inr ⟨a, k, h1, h2, .inl ⟨h3, givesGrant_mono h4 fun hl => hs k (by
        cases hk : (t.slot k).state <;> first | rfl | (rw [hk] at hl; cases hl)), h5⟩⟩
    · exact h.fate_mono hg hs (ho m e) hv
  · have e : m ≠ j := by rintro rfl; exact hna q hm
    have ek : k ≠ j := by rintro rfl; obtain ⟨q', c, hc⟩ := hc; exact hnc q' c hc
    exact h.lost m q a k (ho m e ▸ hm) ha hk (ho k ek ▸ hc)
  · have e : m ≠ j := by rintro rfl; exact hna q hm
    by_cases ek : k = j
    · subst ek
      rcases hgive with hgive | ⟨-, hgive⟩
      · exact h.given m q a k (ho m e ▸ hm) ha hk hg (.inl hgive)
      · exact hl hgive
    · exact h.given m q a k (ho m e ▸ hm) ha hk hg (givesGrant_mono hgive fun _ => (ho k ek).symm)

/-- One slot that was in DELAYING closes BLOCKED, and the permits whose chains of anchors lead to it lose their anchors
(R13, R104, R105). -/
theorem ChainRun.block (h : ChainRun v granted X t) (hg : Grows t t') {j : SlotNo} {r : Permit} {part : ArmedPart}
    (hj : (t.slot j).state = .armed r part) (hu : ∀ m, m ≠ j → u.slot m = t.slot m) (hh : ∀ k, u.handle k = v.handle k)
    {reason : BlockReason} (hc : (t'.slot j).state = .closed r (.blocked reason))
    (hlost : ∀ m q a, m ≠ j → Relation.TransGen u.awaitsPermit m j → (u.slot m).state = .armed q .awaitingEvent →
      q.anchor = some a →
      t'.slot m = { generation := (u.slot m).generation, state := .closed q (.anchorLost a.handle) })
    (hkept : ∀ m, m ≠ j → ¬ Relation.TransGen u.awaitsPermit m j → t'.slot m = u.slot m)
    (hf : ∀ q, (v.slot j).state = .armed q .awaitingEvent → q = r ∧ ∃ a k, r.anchor = some a ∧ a.handle = v.handle k
      ∧ a.event = .grant ∧ v.givesGrant t granted k ∧ a.delay = 0) (htest : v.testedIn t' j r) :
    ChainRun v granted X t' := by
  have down : ∀ m q a, m ≠ j → Relation.TransGen u.awaitsPermit m j → (u.slot m).state = .armed q .awaitingEvent →
      q.anchor = some a → ∀ p, (t'.slot m).state ≠ .armed q p := by
    intro m q a hm ht hq ha p e
    rw [hlost m q a hm ht hq ha] at e; cases e
  have step : ∀ m q a k, (u.slot m).state = .armed q .awaitingEvent → q.anchor = some a → a.handle = v.handle k →
      u.awaitsPermit m k := fun m q a k h1 h2 h3 => ⟨q, a, h1, h2, h3.trans (hh k).symm⟩
  -- a slot that the loss reaches has closed, and one that it does not has not changed
  have either : ∀ m, m ≠ j → t'.slot m = t.slot m
      ∨ Relation.TransGen u.awaitsPermit m j ∧ ∃ q a, (t.slot m).state = .armed q .awaitingEvent ∧ q.anchor = some a
        ∧ t'.slot m = { generation := (t.slot m).generation, state := .closed q (.anchorLost a.handle) } := by
    intro m hm
    by_cases ht : Relation.TransGen u.awaitsPermit m j
    · obtain ⟨q, a, h1, h2⟩ := awaitsPermit_awaiting ht
      exact .inr ⟨ht, q, a, hu m hm ▸ h1, h2, by rw [← hu m hm]; exact hlost m q a hm ht h1 h2⟩
    · exact .inl ((hkept m hm ht).trans (hu m hm))
  have hs : ∀ k, (t.slot k).state.settled = true → t'.slot k = t.slot k := by
    intro k hk
    have e : k ≠ j := by rintro rfl; rw [hj] at hk; cases hk
    refine (either k e).resolve_right ?_
    rintro ⟨-, q, a, h1, -⟩
    rw [h1] at hk; cases hk
  have waits : ∀ m q, (t'.slot m).state = .armed q .awaitingEvent →
      m ≠ j ∧ t'.slot m = t.slot m ∧ ¬ Relation.TransGen u.awaitsPermit m j := by
    intro m q hm
    have e : m ≠ j := by rintro rfl; rw [hc] at hm; cases hm
    refine ⟨e, ?_, fun ht => ?_⟩
    · refine (either m e).resolve_right ?_
      rintro ⟨-, q', a, -, -, h3⟩
      rw [h3] at hm; cases hm
    · obtain ⟨q', a, h1, h2⟩ := awaitsPermit_awaiting ht
      rw [hlost m q' a e ht h1 h2] at hm; cases hm
  refine ⟨grows_trans h.grows hg, fun m q hm => ?_, fun m q p hm => ?_, fun m q hv => ?_, fun m q a k hm ha hk hcl => ?_,
    fun m q a k hm ha hk hg hgive => ?_⟩
  · obtain ⟨-, hm', -⟩ := waits m q hm
    rw [hm'] at hm ⊢
    exact h.noMore m q hm
  · by_cases e : m = j
    · rw [e, hc] at hm; cases hm
    · rcases either m e with hm' | ⟨-, q', a, -, -, h3⟩
      · exact h.armed m q p (hm' ▸ hm)
      · rw [h3] at hm; cases hm
  · by_cases e : m = j
    · subst e
      obtain ⟨rfl, a, k, h1, h2, h3, h4, h5⟩ := hf q hv
      refine .inr ⟨a, k, h1, h2, .inl ⟨h3, givesGrant_mono h4 fun hl => hs k (by
        cases hk : (t.slot k).state <;> first | rfl | (rw [hk] at hl; cases hl)), by omega, fun _ => htest⟩⟩
    · rcases either m e with hm' | ⟨ht, q', a, h1, h2, h3⟩
      · exact h.fate_mono hg hs hm' hv
      · have hmv := h.noMore m q' h1
        rw [← hmv, h1] at hv; cases hv
        obtain ⟨k, hmk, hkj⟩ := Relation.TransGen.head'_iff.1 ht
        obtain ⟨q2, a2, g1, g2, g3⟩ := hmk
        rw [hu m e, h1] at g1; cases g1
        rw [h2] at g2; cases g2
        refine .inr ⟨a, k, h2, g3.trans (hh k), .inr ⟨?_, by rw [h3, hmv]⟩⟩
        rcases Relation.reflTransGen_iff_eq_or_transGen.1 hkj with rfl | hkj
        · exact ⟨h.armed _ r part hj, _, _, hc⟩
        · by_cases ek : k = j
          · subst ek; exact ⟨h.armed _ r part hj, _, _, hc⟩
          · obtain ⟨q3, a3, k1, k2⟩ := awaitsPermit_awaiting hkj
            exact ⟨h.armed k q3 _ (hu k ek ▸ k1), _, _, by rw [hlost k q3 a3 ek hkj k1 k2]⟩
  · obtain ⟨e, hm', hn⟩ := waits m q hm
    rw [hm'] at hm
    have hmk := step m q a k (by rw [hu m e, hm]) ha hk
    by_cases ek : k = j
    · exact absurd (.single (ek ▸ hmk)) hn
    · rcases either k ek with hk' | ⟨ht, -⟩
      · exact h.lost m q a k hm ha hk (hk' ▸ hcl)
      · exact absurd (.head hmk ht) hn
  · obtain ⟨e, hm', hn⟩ := waits m q hm
    rw [hm'] at hm
    refine h.given m q a k hm ha hk hg (hgive.imp_right fun ⟨g1, g2⟩ => ⟨g1, ?_⟩)
    by_cases ek : k = j
    · rw [ek, hc] at g2; cases g2
    · rcases either k ek with hk' | ⟨-, q', a', -, -, h3⟩
      · rw [← hk']; exact g2
      · rw [h3] at g2; cases g2

/-- The GRANT event of the permit in slot `k` takes it off the events still to be given. -/
def GivesAll (v : State) (granted : List SlotNo) (n : Nat) : Prop :=
  ∀ (X : SlotNo → Prop) (k : SlotNo) (t : State), ChainRun v granted (fun m => X m ∨ m = k) t → v.givesGrant t granted k →
    t.awaitingSlots.card ≤ n → ChainRun v granted X (giveGrant n (v.handle k) t)

/-- A claim test at a delay end, of a permit in DELAYING or of one that has just received its event with a delay of 0 (R102,
R104). -/
theorem delayEndWith_chainRun {n : Nat} (ih : GivesAll v granted n) (h : ChainRun v granted X t) {j : SlotNo} {r : Permit}
    {part : ArmedPart} {d : Nat} (hj : (t.slot j).state = .armed r part) (hu : ∀ m, m ≠ j → u.slot m = t.slot m)
    (huj : (u.slot j).state = .armed r (.delaying d)) (htu : Grows t u) (hn : u.awaitingSlots.card ≤ n)
    (hf : ∀ q, (v.slot j).state = .armed q .awaitingEvent → q = r ∧ ∃ a k, r.anchor = some a ∧ a.handle = v.handle k
      ∧ a.event = .grant ∧ v.givesGrant t granted k ∧ a.delay = 0) :
    ChainRun v granted X (delayEndWith (giveGrant n) j u) := by
  have hC := grows_cascade u
  have hvu := grows_trans h.grows htu
  have hh : ∀ k, u.handle k = v.handle k := hvu.evolves.handle
  have hout := delayEndWith_outcome n huj
  have hall := delayEndWith_keeps hC (giveGrant_keeps hC n) j u (grows_refl u) trivial
  revert hout hall
  simp only [delayEndWith, huj]
  cases hc : u.claimTest r.outputNos u.waitQueue with
  | none =>
    intro _ _
    have hev : Grows u ((u.enterLive j r).post r.owner (.granted (u.handle j))) :=
      hC.granted u j r _ (grows_refl u) (.inr ⟨trivial, d, huj⟩) hc
    have hwj : (((u.enterLive j r).post r.owner (.granted (u.handle j))).slot j).state = .live r (newRun r) := by
      simp [enterLive_slot]
    have hwm : ∀ m, m ≠ j → ((u.enterLive j r).post r.owner (.granted (u.handle j))).slot m = u.slot m := by
      intro m hm; simp [enterLive_slot, hm]
    have hout : u.testOutcome ((u.enterLive j r).post r.owner (.granted (u.handle j))) j r := grant_outcome hc
    simp only []
    generalize (u.enterLive j r).post r.owner (.granted (u.handle j)) = w at hev hwj hwm hout
    have hw : ChainRun v granted (fun m => X m ∨ m = j) w := by
      refine ChainRun.one (t := t) ⟨h.grows, h.noMore, h.armed, h.fate, h.lost, fun m q a k h1 h2 h3 h4 h5 =>
        .inl (h.given m q a k h1 h2 h3 h4 h5)⟩ (grows_trans htu hev) hj (fun m hm => (hwm m hm).trans (hu m hm)) (by simp [hwj])
        (by simp [hwj]) (fun _ => .inr rfl) fun q hq => ?_
      obtain ⟨e, a, k, h1, h2, h3, h4, h5⟩ := hf q hq
      exact ⟨e, a, k, h1, h2, h3, h4, by omega, fun _ => ⟨u, hvu, hev, hout⟩⟩
    rw [hh j]
    refine ih X j w hw ?_ ((awaitsNoMore_one (s := u) (u := u) (fun _ _ _ => rfl) hwm (by simp [hwj])).card.trans hn)
    by_cases hv : (v.slot j).state.isLive = true
    · have := h.evolves.slots j
      rw [this.2.2 (by cases hx : (v.slot j).state <;> first | rfl | (rw [hx] at hv; cases hv))] at hj
      rw [hj] at hv; cases hv
    · exact .inr ⟨by simpa using hv, by rw [hwj]; rfl⟩
  | some reason =>
    intro hout hall
    simp only [] at hout hall ⊢
    split at hout
    · rename_i hw
      rw [if_pos hw] at hall ⊢
      have hwj : ((u.enterWaiting j r).slot j).state = .waiting r r.waitLimit :=
        (by simp [State.setSlotState] : ((u.setSlotState j (.waiting r r.waitLimit)).slot j).state = _)
      refine h.one (grows_trans htu hall) hj (fun m hm => Eq.trans ?_ (hu m hm)) (by simp [hwj])
        (by simp [hwj]) (by simp [hwj, SlotState.isLive]) fun q hq => ?_
      · exact (by simp [State.setSlotState, State.setSlot_slot, hm] :
          (u.setSlotState j (.waiting r r.waitLimit)).slot m = u.slot m)
      · obtain ⟨e, a, k, h1, h2, h3, h4, h5⟩ := hf q hq
        exact ⟨e, a, k, h1, h2, h3, h4, by omega, fun _ => ⟨u, hvu, hall, hout⟩⟩
    · rename_i hw
      rw [if_neg hw] at hall ⊢
      have hl : ((u.loseAnchor j).slot j).state = .armed r (.delaying d) := by rw [loseAnchor_self, huj]
      rw [enterClosed_eq (r := r) _ (by rw [hl]; rfl)] at hout hall ⊢
      have hother : ∀ m, m ≠ j → (((u.loseAnchor j).setSlotState j (.closed r (.blocked reason))).post r.owner
          (.closed ((u.loseAnchor j).handle j))).slot m = (u.loseAnchor j).slot m := by
        intro m hm; simp [State.setSlotState, State.setSlot_slot, hm]
      refine h.block (u := u) (reason := reason) (grows_trans htu hall) hj hu hh (by simp [State.setSlotState])
        (fun m q a hm ht hq ha => ?_) (fun m hm ht => ?_) hf ⟨u, hvu, hall, hout⟩
      · rw [hother m hm, loseAnchor_closes hm ht hq ha]
      · rw [hother m hm, loseAnchor_frame ht]

/-- The GRANT event of a permit, with all that follows from it, reaches every permit that awaits it (R100, R102). -/
theorem giveGrant_givesAll (v : State) (granted : List SlotNo) (n : Nat) : GivesAll v granted n := by
  induction n with
  | zero =>
    intro X k t h _ hn
    refine ⟨h.grows, h.noMore, h.armed, h.fate, h.lost, fun j r a m hj _ _ _ _ => ?_⟩
    have : j ∈ t.awaitingSlots := mem_awaitingSlots.2 ⟨r, hj⟩
    rw [Finset.card_eq_zero.1 (Nat.le_zero.1 hn)] at this
    simp at this
  | succ n ih =>
    intro X k t h hk hn
    have key := foldl_each
      (P := fun u : State => ChainRun v granted (fun m => X m ∨ m = k) u ∧ v.givesGrant u granted k
        ∧ u.awaitingSlots.card ≤ n + 1)
      (Q := fun j u => u.awaits j (v.handle k) .grant = false)
      (f := fun u j => if u.awaits j (v.handle k) .grant then
          (if u.awaitedDelay j = 0 then delayEndWith (giveGrant n) j (u.startDelay j) else u.startDelay j)
        else u) (fun u j hu => ?_) allSlots t ⟨h, hk, hn⟩
    · obtain ⟨⟨hr, -, -⟩, hd⟩ := key
      refine ⟨hr.grows, hr.noMore, hr.armed, hr.fate, hr.lost, fun j r a m hj ha hm hg hgive => ?_⟩
      refine (hr.given j r a m hj ha hm hg hgive).resolve_right ?_
      rintro rfl
      exact absurd ((awaits_iff _ _ _ _).2 ⟨r, a, hj, ha, hm, hg⟩) (Bool.eq_false_iff.1 (hd j (mem_allSlots j)))
    · obtain ⟨hu, hgive, hcard⟩ := hu
      by_cases haw : u.awaits j (v.handle k) .grant = true
      · obtain ⟨r, a, h1, h2, h3, h4⟩ := (awaits_iff _ _ _ _).1 haw
        have hdel : u.awaitedDelay j = a.delay := by simp [State.awaitedDelay, h1, SlotState.awaitedAnchor, h2]
        simp only [haw, if_true, hdel, startDelay_eq h1 h2]
        have hwj : ((u.setSlotState j (.armed r (.delaying a.delay))).slot j).state = .armed r (.delaying a.delay) := by
          simp [State.setSlotState]
        have hwm : ∀ m, m ≠ j → (u.setSlotState j (.armed r (.delaying a.delay))).slot m = u.slot m := by
          intro m hm; simp [State.setSlotState, State.setSlot_slot, hm]
        have hev : Grows u (u.setSlotState j (.armed r (.delaying a.delay))) :=
          (grows_cascade u).started u j r a (grows_refl u) h2 trivial h1
        generalize u.setSlotState j (.armed r (.delaying a.delay)) = w at hwj hwm hev
        have hmore : u.awaitsNoMore w := awaitsNoMore_one (u := u) (fun _ _ _ => rfl) hwm (by simp [hwj])
        have hless : w.awaitingSlots.card ≤ n := by
          refine Nat.le_of_lt_succ (lt_of_lt_of_le (Finset.card_lt_card ⟨fun m hm => ?_, fun hsub => ?_⟩) hcard)
          · obtain ⟨q, hq⟩ := mem_awaitingSlots.1 hm
            exact mem_awaitingSlots.2 ⟨q, hmore m q hq ▸ hq⟩
          · obtain ⟨q, hq⟩ := mem_awaitingSlots.1 (hsub (mem_awaitingSlots.2 ⟨r, h1⟩))
            rw [hwj] at hq; cases hq
        have hself : ∀ q, (v.slot j).state = .armed q .awaitingEvent → q = r := by
          intro q hq
          rw [← hu.noMore j r h1, h1] at hq; cases hq; rfl
        -- what one turn has to show of the state it leaves
        have fin : ∀ x : State, ChainRun v granted (fun m => X m ∨ m = k) x → u.awaitsNoMore x →
            (∀ m, (u.slot m).state.settled = true → x.slot m = u.slot m) →
            (∀ q, (x.slot j).state ≠ .armed q .awaitingEvent) →
            (ChainRun v granted (fun m => X m ∨ m = k) x ∧ v.givesGrant x granted k ∧ x.awaitingSlots.card ≤ n + 1)
              ∧ x.awaits j (v.handle k) .grant = false
              ∧ ∀ c, u.awaits c (v.handle k) .grant = false → x.awaits c (v.handle k) .grant = false := by
          intro x hx hm hs hj
          refine ⟨⟨hx, givesGrant_mono hgive fun hl => hs k (by
            cases hk : (u.slot k).state <;> first | rfl | (rw [hk] at hl; cases hl)), hm.card.trans hcard⟩, ?_,
            fun c hc => ?_⟩
          · by_contra hw
            obtain ⟨q, b, g1, -⟩ := (awaits_iff _ _ _ _).1 (by simpa using hw)
            exact hj q g1
          · by_contra hw
            obtain ⟨q, b, g1, g2⟩ := (awaits_iff x c _ _).1 (by simpa using hw)
            rw [(awaits_iff _ _ _ _).2 ⟨q, b, hm c q g1 ▸ g1, g2⟩] at hc
            cases hc
        split
        · rename_i hz
          have hx := delayEndWith_chainRun ih hu h1 hwm hwj hev hless fun q hq =>
            ⟨hself q hq, a, k, h2, h3, h4, hgive, hz⟩
          have htest := delayEndWith_tested n hwj
          refine fin _ hx (delayEndWith_keeps (awaitsNoMore_cascade False u) (giveGrant_keeps (awaitsNoMore_cascade False u) n)
            j w hmore trivial) (fun m hm => ?_) fun q => htest.not_armed q _
          have hE := delayEndWith_keeps (evolves_cascade False w) (giveGrant_keeps (evolves_cascade False w) n) j w
            (evolves_refl w) trivial
          have hmj : m ≠ j := by rintro rfl; rw [h1] at hm; cases hm
          rw [(hE.slots m).2.2 (by rw [hwm m hmj]; exact hm), hwm m hmj]
        · rename_i hz
          refine fin w (hu.one hev h1 hwm (by simp [hwj]) (by simp [hwj]) (by simp [hwj, SlotState.isLive]) fun q hq =>
            ⟨hself q hq, a, k, h2, h3, h4, hgive, fun _ => hwj, fun h => absurd h hz⟩) hmore (fun m hm => hwm m ?_)
            (by simp [hwj])
          rintro rfl
          rw [h1] at hm; cases hm
      · simp only [haw]
        exact ⟨⟨hu, hgive, hcard⟩, by simpa using haw, fun c hc => hc⟩

theorem grantEvents_chainRun (l : List SlotNo) (hl : ∀ k ∈ l, k ∈ granted)
    (h : ChainRun v granted (fun k => X k ∨ k ∈ l) t) : ChainRun v granted X (t.grantEvents l) := by
  unfold State.grantEvents
  induction l generalizing t with
  | nil => exact ⟨h.grows, h.noMore, h.armed, h.fate, h.lost, fun j r a k h1 h2 h3 h4 h5 => by
      simpa using h.given j r a k h1 h2 h3 h4 h5⟩
  | cons k l ih =>
    rw [List.foldl_cons]
    refine ih (fun m hm => hl m (by simp [hm])) ?_
    rw [State.grantEvent, h.evolves.handle]
    refine giveGrant_givesAll v granted 32 _ k t ⟨h.grows, h.noMore, h.armed, h.fate, h.lost,
      fun j r a m h1 h2 h3 h4 h5 => ?_⟩ (.inl (hl k (by simp))) (by simpa using Finset.card_le_univ t.awaitingSlots)
    have := h.given j r a m h1 h2 h3 h4 h5
    simp only [List.mem_cons] at this
    tauto

theorem endDelays_chainRun (zeros : List SlotNo) (hz : ∀ j ∈ zeros, ∃ r d, (v.slot j).state = .armed r (.delaying d))
    (h : ChainRun v granted X t) : ChainRun v granted X (t.endDelays zeros) := by
  unfold State.endDelays
  induction zeros generalizing t with
  | nil => exact h
  | cons j zeros ih =>
    rw [List.foldl_cons]
    refine ih (fun m hm => hz m (by simp [hm])) ?_
    by_cases hj : ∃ r d, (t.slot j).state = .armed r (.delaying d)
    · obtain ⟨r, d, hj⟩ := hj
      refine delayEndWith_chainRun (giveGrant_givesAll v granted 32) h hj (fun _ _ => rfl) hj (grows_refl t)
        (by simpa using Finset.card_le_univ t.awaitingSlots) fun q hq => ?_
      obtain ⟨r', d', e⟩ := hz j (by simp)
      rw [e] at hq; cases hq
    · have e : t.endDelay j = t := by
        simp only [State.endDelay, delayEndWith]
        split
        · rename_i r d e; exact absurd ⟨r, d, e⟩ hj
        all_goals rfl
      rw [e]; exact h

end ChainRun

/-- All that follows a walk: the GRANT events of the permits it granted, which are LIVE, and the claim tests of the delay-0
END dependents, which are in DELAYING, in either order (R38, R100, R102). -/
theorem afterWalk_chainsRun (v : State) (granted zeros : List SlotNo) (b : Bool)
    (hg : ∀ i ∈ granted, (v.slot i).state.isLive = true) (hnd : zeros.Nodup)
    (hz : ∀ j ∈ zeros, ∃ r d, (v.slot j).state = .armed r (.delaying d)) :
    v.chainsRun (if b then (v.endDelays zeros).grantEvents granted else (v.grantEvents granted).endDelays zeros)
      granted (fun j => j ∈ zeros) := by
  have keep : ∀ {P : State → Prop}, Cascade False (fun _ => True) (fun _ => True) P → P v →
      P (if b then (v.endDelays zeros).grantEvents granted else (v.grantEvents granted).endDelays zeros) :=
    fun hP hv => afterWalk_keeps hP zeros granted b v hv (fun _ _ => trivial) fun _ _ _ _ => trivial
  have hrun : ChainRun v granted (fun _ => False)
      (if b then (v.endDelays zeros).grantEvents granted else (v.grantEvents granted).endDelays zeros) := by
    have h0 : ChainRun v granted (fun k => False ∨ k ∈ granted) v := by simpa using chainRun_start v granted
    split
    · exact grantEvents_chainRun granted (fun _ => id) (endDelays_chainRun zeros hz h0)
    · exact endDelays_chainRun zeros hz (grantEvents_chainRun granted (fun _ => id) h0)
  have sameSlot : ∀ i k : SlotNo, v.handle i = v.handle k → i = k := fun i k h => congrArg Handle.slot h
  have notBoth : ∀ i, v.givesGrant (if b then (v.endDelays zeros).grantEvents granted
      else (v.grantEvents granted).endDelays zeros) granted i → ¬ v.leftArmed (if b then (v.endDelays zeros).grantEvents granted
      else (v.grantEvents granted).endDelays zeros) i := by
    rintro i (hi | ⟨-, hi⟩) ⟨⟨q, part, e⟩, q', c, e'⟩
    · have := hg i hi
      rw [e] at this; cases this
    · rw [e'] at hi; cases hi
  refine ⟨fun i j r a hj hi => ?_, fun i j r a hj ha hi hl => ?_, fun j r hj hn hk => ?_,
    fun j r d hj => ⟨fun hm => ?_, fun hm => ?_⟩, fun j hj => ?_,
    hrun.grows.grown, fun p n hn => keep (noticed_cascade False p n) hn,
    fun j hj hw => (keep (queued_cascade j (v.slot j) hw) ⟨rfl, hj⟩).2, (keep (notices_cascade False v) (follow_refl v)).2⟩
  · -- a dependent of a permit that gives its GRANT
    obtain ⟨h1, h2, h3, h4⟩ := hj
    rcases hrun.fate j r h1 with e | ⟨a', k, g1, g2, ⟨-, -, g3⟩ | ⟨g3, -⟩⟩
    · exact (hrun.given j r a i (e ▸ h1) h2 h3 h4 hi).elim
    · rw [h2] at g1; cases g1
      exact ⟨g3.1, fun hz => (g3.2 hz).chainTested⟩
    · rw [h2] at g1; cases g1
      rw [sameSlot i k (h3 ▸ g2)] at hi
      exact absurd g3 (notBoth k hi)
  · -- a dependent of a permit that has closed
    rcases hrun.fate j r hj with e | ⟨a', k, g1, g2, ⟨-, g3, -⟩ | ⟨-, g3⟩⟩
    · obtain ⟨q, c, hc⟩ := hrun.lost j r a i (e ▸ hj) ha hi hl.2
      obtain ⟨q', part, hv⟩ := hl.1
      rw [hv] at hc; cases hc
    · rw [ha] at g1; cases g1
      rw [← sameSlot i k (hi ▸ g2)] at g3
      exact absurd hl (notBoth i g3)
    · rw [ha] at g1; cases g1
      exact g3
  · -- every other permit that awaits an event
    rcases hrun.fate j r hj with e | ⟨a, k, g1, g2, ⟨g3, g4, -⟩ | ⟨g3, -⟩⟩
    · exact e
    · exact absurd g4 (hn k a ⟨hj, g1, g2, g3⟩)
    · exact absurd g3 (hk k a g1 g2)
  · -- a delay-0 END dependent
    obtain ⟨l1, l2, hl, hjl1⟩ := List.eq_append_cons_of_mem hm
    have hjl2 : j ∉ l2 := by
      rw [hl] at hnd
      exact (List.nodup_cons.1 (List.nodup_append.1 hnd).2.1).1
    have hC := delaying_cascade False j (v.slot j) hj
    have hzs : ∀ u : State, u.endDelays zeros = ((u.endDelays l1).endDelay j).endDelays l2 := by
      intro u
      simp only [State.endDelays, hl, List.foldl_append, List.foldl_cons]
    have fin : ∀ u : State, Grows v u → u.slot j = v.slot j → v.testedIn (u.endDelays zeros) j r := by
      intro u hg hu
      have h1 := endDelays_keeps hC l1 u hu fun k hk e => hjl1 (e ▸ hk)
      have g1 : Grows v (u.endDelays l1) := endDelays_keeps (grows_cascade v) l1 u hg fun _ _ => trivial
      have h2 : (u.endDelays l1).testOutcome ((u.endDelays l1).endDelay j) j r :=
        delayEndWith_outcome 32 (by rw [h1]; exact hj)
      rw [hzs]
      exact State.testedIn.mono ⟨_, g1, endDelay_keeps (grows_cascade _) j _ (grows_refl _) trivial, h2⟩
        (endDelays_keeps (grows_cascade _) l2 _ (grows_refl _) fun _ _ => trivial)
        (endDelays_keeps ((testOutcome_tested h2).kept j) l2 _ rfl fun _ _ => trivial)
    cases b with
    | true =>
      have h2 := fin v (grows_refl v) rfl
      exact (h2.mono (grantEvents_keeps (grows_cascade _) granted _ (grows_refl _) fun _ _ _ _ => trivial)
        (grantEvents_keeps (h2.tested.kept j) granted (v.endDelays zeros) rfl fun _ _ _ _ => trivial)).chainTested
    | false =>
      exact (fin _ (grantEvents_keeps (grows_cascade v) granted v (grows_refl v) fun _ _ _ _ => trivial)
        (grantEvents_keeps hC granted v rfl fun _ _ _ _ => trivial)).chainTested
  · exact afterWalk_keeps (delaying_cascade False j (v.slot j) hj) zeros granted b v rfl
      (fun k hk e => hm (e ▸ hk)) fun _ _ _ _ => trivial
  · have hC := kept_cascade False j (v.slot j) (fun r => hj r _) False.elim
    exact afterWalk_keeps hC zeros granted b v rfl (fun k _ => .inr fun r d => hj r _) fun _ _ _ _ => trivial

/-- The END event reaches the dependents that await it (R101). -/
theorem endEvent_slot (s : State) (h : Handle) (j : SlotNo) :
    (s.endEvent h).slot j = if s.awaits j h .ending then (s.startDelay j).slot j else s.slot j := by
  have start : ∀ (t : State) (k j : SlotNo), j ≠ k → (t.startDelay k).slot j = t.slot j := by
    intro t k j hjk
    simp only [State.startDelay]
    split
    · split
      · simp [State.setSlotState, State.setSlot_slot, hjk]
      · rfl
    all_goals rfl
  have local' : ∀ (t u : State), t.slot j = u.slot j → t.awaits j h .ending = u.awaits j h .ending := by
    intro t u e; simp [State.awaits, e]
  have startCongr : ∀ (t u : State), t.slot j = u.slot j → (t.startDelay j).slot j = (u.startDelay j).slot j := by
    intro t u e
    simp only [State.startDelay, e]
    split
    · split
      · simp [State.setSlotState, e]
      · exact e
    all_goals exact e
  have gen : ∀ (l : List SlotNo) (t : State), l.Nodup →
      (l.foldl (fun t k => if t.awaits k h .ending then t.startDelay k else t) t).slot j =
        if j ∈ l ∧ t.awaits j h .ending = true then (t.startDelay j).slot j else t.slot j := by
    intro l
    induction l with
    | nil => intro t _; simp
    | cons k l ih =>
      intro t hl
      rw [List.foldl_cons, ih _ (List.nodup_cons.1 hl).2]
      by_cases hjk : j = k
      · subst hjk
        rw [if_neg (fun hh => (List.nodup_cons.1 hl).1 hh.1)]
        by_cases ha : t.awaits j h .ending = true
        · simp [ha]
        · simp [ha]
      · have e : (if t.awaits k h .ending = true then t.startDelay k else t).slot j = t.slot j := by
          split
          · exact start t k j hjk
          · rfl
        rw [local' _ t e, startCongr _ t e, e]
        simp [hjk]
  rw [State.endEvent, gen allSlots s (List.nodup_finRange 32)]
  simp

end Sys2Proof.Machine
end

