-- ==== Sys2Proof/Laws/Departures.lean ====
section
/-! SUPPORT. What scans and the departures from LIVE, WAITING and ARMED do, each said once and whole (R11 to R15, R35 to R38,
R102, R106). -/

namespace Sys2Proof.Machine

/-! ## Scans -/

/-- The walk of a scan, entry by entry, is the one that `State.walked` spells out (R36). -/
theorem foldl_scanEntry_walked (rest : List SlotNo) (acc : ScanState) :
    ∃ more : List SlotNo, (rest.foldl scanEntry acc).granted = acc.granted ++ more
      ∧ State.walked rest acc.waiting acc.part (rest.foldl scanEntry acc).part more := by
  induction rest generalizing acc with
  | nil => exact ⟨[], by simp, rfl, rfl⟩
  | cons i rest ih =>
    rw [List.foldl_cons]
    obtain ⟨more, h1, h2⟩ := ih (scanEntry acc i)
    cases hi : (acc.part.slot i).state with
    | waiting r w =>
      cases hc : acc.part.claimTest r.outputNos acc.waiting with
      | none =>
        have e : scanEntry acc i =
            { part := (acc.part.enterLive i r).post r.owner (.granted (acc.part.handle i))
              waiting := acc.waiting
              granted := acc.granted ++ [i] } := by simp only [scanEntry, hi, hc]
        rw [e] at h1 h2 ⊢
        refine ⟨i :: more, by simpa using h1, ?_, by simp [hi, SlotState.isWaiting]⟩
        intro q w' hq
        rw [hi] at hq; cases hq
        exact ⟨fun _ => ⟨_, more, grant_grantedTo, h2, rfl⟩, fun hn => absurd hc hn⟩
      | some reason =>
        have e : scanEntry acc i = { acc with waiting := acc.waiting ++ [i] } := by simp only [scanEntry, hi, hc]
        rw [e] at h1 h2 ⊢
        refine ⟨more, h1, ?_, by simp [hi, SlotState.isWaiting]⟩
        intro q w' hq
        rw [hi] at hq; cases hq
        exact ⟨fun hn => (by rw [hc] at hn; cases hn), fun _ => h2⟩
    | free =>
      have e : scanEntry acc i = acc := by simp only [scanEntry, hi]
      rw [e] at h1 h2 ⊢
      exact ⟨more, h1, by simp [hi], fun _ => h2⟩
    | armed r part =>
      have e : scanEntry acc i = acc := by simp only [scanEntry, hi]
      rw [e] at h1 h2 ⊢
      exact ⟨more, h1, by simp [hi], fun _ => h2⟩
    | live r run =>
      have e : scanEntry acc i = acc := by simp only [scanEntry, hi]
      rw [e] at h1 h2 ⊢
      exact ⟨more, h1, by simp [hi], fun _ => h2⟩
    | closed r c =>
      have e : scanEntry acc i = acc := by simp only [scanEntry, hi]
      rw [e] at h1 h2 ⊢
      exact ⟨more, h1, by simp [hi], fun _ => h2⟩

theorem walkQueue_walked (s : State) : State.walked s.waitQueue [] s s.walkQueue.part s.walkQueue.granted := by
  obtain ⟨more, h1, h2⟩ := foldl_scanEntry_walked s.waitQueue { part := s, waiting := [], granted := [] }
  have e : s.walkQueue.granted = more := by simpa [State.walkQueue] using h1
  rw [e]
  exact h2

/-- A slot that is not WAITING is left alone by a walk. -/
theorem walkQueue_slot {s : State} {j : SlotNo} (h : (s.slot j).state.isWaiting = false) :
    s.walkQueue.part.slot j = s.slot j := by
  refine foldl_keeps (P := fun acc : ScanState => acc.part.slot j = s.slot j) (fun acc i hacc => ?_) _ _ rfl
  simp only [scanEntry]
  split
  · rename_i r w hw
    split
    · have hij : j ≠ i := by
        rintro rfl
        rw [← hacc, hw] at h
        cases h
      simp only [State.post_slot, enterLive_slot, if_neg hij]
      exact hacc
    · exact hacc
  all_goals exact hacc

/-- The permits that a walk has granted are LIVE when it ends. -/
theorem walkQueue_granted (s : State) : ∀ i ∈ s.walkQueue.granted, (s.walkQueue.part.slot i).state.isLive = true := by
  refine foldl_keeps (P := fun acc : ScanState => ∀ i ∈ acc.granted, (acc.part.slot i).state.isLive = true)
    (fun acc j hacc => ?_) _ _ (by simp)
  simp only [scanEntry]
  split
  · split
    · intro i hi
      simp only [State.post_slot, enterLive_slot]
      split
      · rfl
      · rename_i hij
        rcases List.mem_append.1 hi with hi | hi
        · exact hacc i hi
        · exact absurd (List.mem_singleton.1 hi) hij
    · exact hacc
  all_goals exact hacc

/-- In HOLD a walk grants nothing and leaves every entry waiting (R36, R39). -/
theorem walkQueue_hold {s : State} (h : s.mode = .hold) : s.walkQueue.part = s ∧ s.walkQueue.granted = [] := by
  refine foldl_keeps (P := fun acc : ScanState => acc.part = s ∧ acc.granted = []) (fun acc i hacc => ?_) _ _ ⟨rfl, rfl⟩
  simp only [scanEntry]
  split
  · split
    · rename_i hc
      exact absurd hc (claimTest_hold (by rw [hacc.1]; exact h) _ _)
    · exact hacc
  all_goals exact hacc

/-- What a departure's scan does, whole: the walk, then the GRANT events and the claim tests of the slots in DELAYING that
the departure's END has reached with a delay of 0 (R36, R38, R102). -/
theorem scanDeparture_spec {s : State} {zeros : List SlotNo} (hnd : zeros.Nodup)
    (hz : ∀ j ∈ zeros, ∃ r d, (s.slot j).state = .armed r (.delaying d)) :
    ∃ (v : State) (granted : List SlotNo), State.walked s.waitQueue [] s v granted
      ∧ v.chainsRun (s.scanDeparture zeros) granted (fun j => j ∈ zeros)
      ∧ ∀ j, (s.slot j).state.isWaiting = false → v.slot j = s.slot j := by
  obtain ⟨v, b, hv, e⟩ := scanDeparture_eq zeros s
  refine ⟨s.walkQueue.part, s.walkQueue.granted, walkQueue_walked s, ?_, fun j hj => walkQueue_slot hj⟩
  have hz' : ∀ j ∈ zeros, ∃ r d, (s.walkQueue.part.slot j).state = .armed r (.delaying d) := by
    intro j hj
    obtain ⟨r, d, h⟩ := hz j hj
    rw [walkQueue_slot (by rw [h]; rfl)]
    exact ⟨r, d, h⟩
  rw [e]
  rcases hv with rfl | rfl
  · exact afterWalk_chainsRun _ _ zeros b (walkQueue_granted s) hnd hz'
  · exact afterWalk_chainsRun { s.walkQueue.part with choices := s.walkQueue.part.choices + 1 } _ zeros b
      (walkQueue_granted s) hnd hz'

/-- The GRANT events after a scan's walk (R38, R100). -/
theorem grantEvents_chainsRun (v : State) (granted : List SlotNo) (hg : ∀ i ∈ granted, (v.slot i).state.isLive = true) :
    v.chainsRun (v.grantEvents granted) granted (fun _ => False) := by
  have := afterWalk_chainsRun v granted [] false hg .nil (by simp)
  simpa [State.endDelays] using this

/-- A grant at a delay end, and the GRANT events that follow it at once (R100, R104). -/
theorem endDelay_granted {s : State} {j : SlotNo} {r : Permit} {d : Nat} (hj : (s.slot j).state = .armed r (.delaying d))
    (hc : s.claimTest r.outputNos s.waitQueue = none) :
    ∃ v : State, s.grantedTo v j r ∧ v.chainsRun (s.endDelay j) [j] (fun _ => False) := by
  refine ⟨(s.enterLive j r).post r.owner (.granted (s.handle j)), grant_grantedTo, ?_⟩
  have e : s.endDelay j = State.grantEvents [j] ((s.enterLive j r).post r.owner (.granted (s.handle j))) := by
    simp only [State.endDelay, delayEndWith, hj, hc, State.grantEvents, List.foldl_cons, List.foldl_nil, State.grantEvent]
    congr 1
    simp [State.handle, enterLive_slot]
  rw [e]
  exact grantEvents_chainsRun _ [j] fun i hi => by
    rw [List.mem_singleton.1 hi]
    simp [enterLive_slot, SlotState.isLive]

/-- A scan is a scan (R36 to R38). -/
theorem scan_scanned (s : State) : s.scanned s.scan :=
  ⟨s, s.walkQueue.part, s.walkQueue.granted, rfl, walkQueue_walked s, grantEvents_chainsRun _ _ (walkQueue_granted s),
    scan_noticesFollow s⟩

/-! ## Departures from LIVE -/

/-- The END event moves no output, no timer and no queue entry (R101). -/
theorem endEvent_rest (h : Handle) (s : State) :
    (s.endEvent h).channels = s.channels ∧ (s.endEvent h).groups = s.groups ∧ (s.endEvent h).waitQueue = s.waitQueue := by
  refine foldl_keeps
    (P := fun t : State => t.channels = s.channels ∧ t.groups = s.groups ∧ t.waitQueue = s.waitQueue)
    (fun t j ht => ?_) _ _ ⟨rfl, rfl, rfl⟩
  split
  · rename_i hd
    obtain ⟨r, a, h1, h2, -⟩ := (awaits_iff t j h .ending).1 hd
    rw [startDelay_eq h1 h2]
    exact ht
  · exact ht

/-- A walk of a state's own queue and the chain events after it are a scan of that state. -/
theorem scannedWith_intro {u v t : State} {granted : List SlotNo} {tested : SlotNo → Prop}
    (hw : State.walked u.waitQueue [] u v granted) (hc : v.chainsRun t granted tested)
    (hn : u.noticesFollow t fun _ => False) : u.scannedWith t tested :=
  ⟨u, v, granted, rfl, hw, hc, hn⟩

/-- The scan of a departure is a scan, and the permits in DELAYING see of it their claim tests alone (R11, R36, R102). -/
theorem scanDeparture_scanned {s : State} {zeros : List SlotNo} (hnd : zeros.Nodup)
    (hz : ∀ j ∈ zeros, ∃ r d, (s.slot j).state = .armed r (.delaying d)) :
    s.scannedWith (s.scanDeparture zeros) (fun j => j ∈ zeros)
      ∧ ∀ (j : SlotNo) (r : Permit) (d : Nat), (s.slot j).state = .armed r (.delaying d) →
          (j ∈ zeros → r.tested ((s.scanDeparture zeros).slot j).state)
            ∧ (j ∉ zeros → (s.scanDeparture zeros).slot j = s.slot j) := by
  obtain ⟨v, granted, hwalk, hrun, hstay⟩ := scanDeparture_spec hnd hz
  refine ⟨scannedWith_intro hwalk hrun (scanDeparture_noticesFollow zeros s), fun j r d hj => ?_⟩
  have hv := hstay j (by rw [hj]; rfl)
  rw [← hv]
  exact (hrun.2.2.2.1 j r d (by rw [hv, hj])).imp_left fun h hm => chainTested_tested (h hm)

/-- The exit from LIVE: what becomes of the slot, of the other slots, of the outputs it held, of their groups, of the
settings, of its END dependents and of its notices, with the scan of the departure (R11). -/
theorem exitLive_spec {s : State} {i : SlotNo} {r : Permit} {run : RunPart} (ending : Option Closure)
    (h : (s.slot i).state = .live r run) :
    (s.exitLive i ending).slot i = (s.slot i).ended r ending
      ∧ s.departed (s.exitLive i ending) i ∧ s.endsDelivered (s.exitLive i ending) i
      ∧ s.portsKept (s.exitLive i ending)
      ∧ (ending.isSome = true → (s.exitLive i ending).noticed r.owner (.closed (s.handle i))) := by
  have hr : (s.slot i).state.record = some r := by rw [h]; rfl
  have hslot := enterEnd_slot ending hr
  obtain ⟨hset, hports, hgroups, hchan, hqueue⟩ := enterEnd_rest ending hr
  have hsl : ∀ j, ((s.enterEnd i ending).letGo (s.holds i)).slot j =
      if j = i then (s.slot i).ended r ending else s.slot j := by
    intro j; rw [State.letGo_slot, hslot]
  have hch : ∀ o, ((s.enterEnd i ending).letGo (s.holds i)).channel o =
      if s.holds i o = true then (s.channel o).driven .idle .off else s.channel o := by
    intro o
    simp only [State.channel, State.letGo_channels, get_ofFn_fin, hchan, channel_letGo_eq_driven]
  have hgr : s.groupsQuieted ((s.enterEnd i ending).letGo (s.holds i)) (s.holds i) := by
    intro g
    simp only [State.letGo, State.startQuiet, State.group, get_ofFn_fin, hgroups]
    by_cases ha : (allOutputs.any fun o => s.holds i o && inSet (s.groups.get g).members o) = true
    · have he : ∃ o, s.holds i o = true ∧ inSet (s.groups.get g).members o = true := by
        obtain ⟨o, -, ho⟩ := List.any_eq_true.1 ha
        exact ⟨o, by simpa using ho⟩
      simp only [ha, if_true, Group.startQuiet, he, true_and]
    · have he : ¬ ∃ o, s.holds i o = true ∧ inSet (s.groups.get g).members o = true := by
        rintro ⟨o, ho⟩
        exact ha (List.any_eq_true.2 ⟨o, mem_allOutputs o, by simpa using ho⟩)
      simp [ha, he]
  have hsu : s.settingsKept ((s.enterEnd i ending).letGo (s.holds i)) :=
    settingsKept_trans hset ((settingsKept_iff _ _).2 (by simp))
  have hqu : ((s.enterEnd i ending).letGo (s.holds i)).waitQueue = s.waitQueue := by rw [State.letGo_waitQueue, hqueue]
  have hno : s.noticesFollow ((s.enterEnd i ending).letGo (s.holds i)) fun _ => False :=
    noticesFollow_congr (enterEnd_noticesFollow ending hr (by simp [h])) (by simp) fun j => by simp
  generalize hu : (s.enterEnd i ending).letGo (s.holds i) = u at hsl hch hgr hsu hqu hno
  have hx : s.exitLive i ending = (u.endEvent (s.handle i)).scanDeparture (u.endsAtOnce (s.handle i)) := by
    simp only [State.exitLive, h, hu]
  have hsettled : ((s.slot i).ended r ending).state.settled = true := by cases ending <;> rfl
  have hself0 : ∀ k part, ((s.slot i).ended r ending).state ≠ .armed k part := by
    intro k part e; rw [e] at hsettled; cases hsettled
  have keeps : ∀ {P : State → Prop} (_ : Cascade True (fun _ => True) (fun _ => True) P) (_ : P u),
      P (s.exitLive i ending) := by
    intro P hP hPu
    rw [hx]
    exact scanDeparture_keeps hP _ _ (endEvent_keeps hP _ _ hPu trivial) (fun _ _ => trivial) fun _ _ _ _ => trivial
  have hev : Evolves u (s.exitLive i ending) := keeps (evolves_cascade True u) (evolves_refl u)
  have follow : ∀ t, (Evolves u t ∧ u.noticesFollow t fun _ => False) →
      s.noticesFollow t fun n => ∃ o : OutputNo, none = some o ∧ n = .fault o := by
    intro t ht
    refine noticesFollow_no_fault (noticesFollow_trans hno ht.2 (fun p => (hsu.2 p).1) (fun _ => False.elim)
      (fun j => (ht.1.slots j).2.2) fun j hj => ?_)
    have hji : j ≠ i := by rintro rfl; rw [hsl, if_pos rfl, hsettled] at hj; cases hj
    have huj : u.slot j = s.slot j := by rw [hsl, if_neg hji]
    have he : u.epoch = s.epoch := by rw [hsu.1]
    exact ⟨by simp only [State.handle, huj, he], huj ▸ hj, fun p => by rw [huj]⟩
  have hself := keeps (settled_cascade True i _ hsettled) ⟨by rw [hsl, if_pos rfl], fun o => by
    rw [State.holds, hch]
    split
    · simp [ChannelState.heldBy]
    · rename_i hn; simpa [State.holds] using hn⟩
  -- the END event
  have hdep : ∀ (j : SlotNo) (q : Permit) (a : Anchor), s.dependent i j .ending q a →
      j ≠ i ∧ u.slot j = s.slot j ∧ u.awaits j (s.handle i) .ending = true ∧ u.awaitedDelay j = a.delay := by
    rintro j q a ⟨h1, h2, h3, h4⟩
    have hji : j ≠ i := by rintro rfl; rw [h] at h1; cases h1
    have huj : u.slot j = s.slot j := by rw [hsl, if_neg hji]
    exact ⟨hji, huj, (awaits_iff _ _ _ _).2 ⟨q, a, by rw [huj, h1], h2, h3, h4⟩, by
      simp [State.awaitedDelay, huj, h1, SlotState.awaitedAnchor, h2]⟩
  have hdep' : ∀ j, u.awaits j (s.handle i) .ending = true → ∃ q a, s.dependent i j .ending q a := by
    intro j hj
    obtain ⟨q, a, h1, h2, h3, h4⟩ := (awaits_iff _ _ _ _).1 hj
    have hji : j ≠ i := by
      rintro rfl
      rw [hsl, if_pos rfl] at h1
      exact hself0 _ _ h1
    rw [hsl, if_neg hji] at h1
    exact ⟨q, a, h1, h2, h3, h4⟩
  have hstart : ∀ (j : SlotNo) (q : Permit) (a : Anchor), s.dependent i j .ending q a →
      (u.endEvent (s.handle i)).slot j =
        { generation := (s.slot j).generation, state := .armed q (.delaying a.delay) } := by
    intro j q a hd
    obtain ⟨-, huj, haw, -⟩ := hdep j q a hd
    rw [endEvent_slot, if_pos haw, startDelay_eq (by rw [huj, hd.1]) hd.2.1]
    simp [State.setSlotState, huj]
  have hzmem : ∀ j, j ∈ u.endsAtOnce (s.handle i) ↔ ∃ q a, s.dependent i j .ending q a ∧ a.delay = 0 := by
    intro j
    simp only [State.endsAtOnce, List.mem_filter, mem_allSlots, true_and, Bool.and_eq_true, decide_eq_true_eq]
    constructor
    · rintro ⟨h1, h2⟩
      obtain ⟨q, a, hd⟩ := hdep' j h1
      exact ⟨q, a, hd, by rw [← (hdep j q a hd).2.2.2]; exact h2⟩
    · rintro ⟨q, a, hd, hz⟩
      exact ⟨(hdep j q a hd).2.2.1, (hdep j q a hd).2.2.2.trans hz⟩
  have hzpred : (fun j => j ∈ u.endsAtOnce (s.handle i)) = fun j => ∃ q a, s.dependent i j .ending q a ∧ a.delay = 0 :=
    funext fun j => propext (hzmem j)
  obtain ⟨e1, e2, e3⟩ := endEvent_rest (s.handle i) u
  obtain ⟨hscan, htest⟩ := scanDeparture_scanned (s := u.endEvent (s.handle i))
    (zeros := u.endsAtOnce (s.handle i)) ((List.nodup_finRange 32).filter _) fun j hj => by
      obtain ⟨q, a, hd, -⟩ := (hzmem j).1 hj
      exact ⟨q, a.delay, by rw [hstart j q a hd]⟩
  refine ⟨hself.1, ⟨fun j hj => ?_, fun o => ?_, hself.2, fun g => ?_, settingsKept_trans hsu hev.settings, ?_⟩, ?_,
    ?_, ?_⟩
  · have := hev.others j
    rw [hsl, if_neg hj] at this
    exact this
  · rcases hev.channels o with e | ⟨hc, j, q, x, h1, h2, h3⟩
    · exact .inl (by rw [e, hch])
    · rw [hch] at hc h3
      have hji : j ≠ i := by
        rintro rfl
        rw [hsl, if_pos rfl, hsettled] at h1
        cases h1
      rw [hsl, if_neg hji] at h1 h2
      exact .inr ⟨hc, j, q, x, h1, h2, h3⟩
  · have hg : (s.exitLive i ending).group g = u.group g := by simp only [State.group, hev.groups]
    rw [hg]
    exact hgr g
  · refine ⟨u.endEvent (s.handle i), ⟨fun j hj => ⟨fun q a hd => hstart j q a hd, fun hn => ?_⟩, fun o => ?_, fun g => ?_,
      e3.trans hqu, settingsKept_trans hsu (endEvent_evolves _ _).settings,
      follow _ (endEvent_keeps (notices_cascade False u) _ u (follow_refl u) trivial)⟩, ?_, ?_,
      follow _ (keeps (notices_cascade True u) (follow_refl u))⟩
    · rw [endEvent_slot, if_neg fun haw => ?_, hsl, if_neg hj]
      obtain ⟨q, a, hd⟩ := hdep' j haw
      exact hn q a hd
    · have he : (u.endEvent (s.handle i)).channel o = u.channel o := congrArg (fun c => c.get o) e1
      rw [he, if_neg (by simp), hch]
    · simp only [State.group, e2]
      exact hgr g
    · rw [hself.1, endEvent_slot, if_neg fun haw => ?_, hsl, if_pos rfl]
      obtain ⟨q, a, hd⟩ := hdep' i haw
      exact (hdep i q a hd).1 rfl
    · rw [← hzpred, hx]
      exact hscan
  · intro j q a hd
    have hw := hstart j q a hd
    rw [hx]
    obtain ⟨c1, c2⟩ := htest j q a.delay (by rw [hw])
    constructor
    · intro hpos
      rw [c2 fun hm => ?_, hw]
      obtain ⟨q', a', hd', hz⟩ := (hzmem j).1 hm
      rw [← (hdep j q' a' hd').2.2.2, (hdep j q a hd).2.2.2] at hz
      omega
    · exact fun hz => c1 ((hzmem j).2 ⟨q, a, hd, hz⟩)
  · exact ⟨hev.ports.1.trans (by rw [← hu, State.letGo_ports]; exact hports.1),
      hev.ports.2.trans (by rw [← hu, State.letGo_lastServed]; exact hports.2)⟩
  · intro hs
    refine keeps (noticed_cascade _ _ _) ?_
    have hn := (enterEnd_notices ending hr).1 hs
    rw [← hu]
    simpa [State.noticed] using hn

/-! ## Departures from WAITING and ARMED -/

/-- Anchor loss moves no output, no timer and no queue entry (R13). -/
theorem loseAnchor_rest {i : SlotNo} {s : State} (hl : (s.slot i).state.isLive = false) :
    (s.loseAnchor i).channels = s.channels ∧ (s.loseAnchor i).waitQueue = s.waitQueue
      ∧ (s.loseAnchor i).choices = s.choices :=
  closeDependents_keeps (P := fun t => t.channels = s.channels ∧ t.waitQueue = s.waitQueue ∧ t.choices = s.choices)
    (fun _ _ _ _ ht _ _ _ => ht) i 32 i s ⟨rfl, rfl, rfl⟩ hl

/-- What the loss of the anchor in slot `i`, and then its ending, do: the departures from WAITING and ARMED have this in
common (R13). -/
theorem loseAnchor_enterEnd_spec {s : State} {i : SlotNo} {r : Permit} (ending : Option Closure)
    (h : (s.slot i).state.record = some r) (hlive : (s.slot i).state.isLive = false) :
    ((s.loseAnchor i).enterEnd i ending).slot i = (s.slot i).ended r ending
      ∧ s.othersKept ((s.loseAnchor i).enterEnd i ending) i
      ∧ s.settingsKept ((s.loseAnchor i).enterEnd i ending) ∧ s.portsKept ((s.loseAnchor i).enterEnd i ending)
      ∧ ((s.loseAnchor i).enterEnd i ending).groups = s.groups
      ∧ ((s.loseAnchor i).enterEnd i ending).channels = s.channels
      ∧ ((s.loseAnchor i).enterEnd i ending).waitQueue = s.waitQueue
      ∧ s.dependentsLost ((s.loseAnchor i).enterEnd i ending) i
      ∧ (∀ j : SlotNo, j ≠ i → ¬ Relation.TransGen s.awaitsPermit j i →
          ((s.loseAnchor i).enterEnd i ending).slot j = s.slot j)
      ∧ (ending.isSome = true → ((s.loseAnchor i).enterEnd i ending).noticed r.owner (.closed (s.handle i)))
      ∧ (ending = none →
          ∀ e ∈ (((s.loseAnchor i).enterEnd i ending).notices.get r.owner).entries, e.notice.slot ≠ some i)
      ∧ ((s.slot i).state.settled = false →
          s.noticesFollow ((s.loseAnchor i).enterEnd i ending) fun _ => False) := by
  have hev := loseAnchor_evolves i s hlive
  have hr : ((s.loseAnchor i).slot i).state.record = some r := by rw [(hev.slots i).2.1, h]
  have hgen : ((s.loseAnchor i).slot i).generation = (s.slot i).generation := (hev.slots i).1
  have hsl := enterEnd_slot ending hr
  obtain ⟨hset, hports, hgroups, hchan, hqueue⟩ := enterEnd_rest ending hr
  obtain ⟨l1, l2, -⟩ := loseAnchor_rest hlive
  have hnot := enterEnd_notices ending hr
  refine ⟨?_, fun j hj => ?_, settingsKept_trans hev.settings hset, ?_, hgroups.trans hev.groups, hchan.trans l1,
    hqueue.trans l2, ?_, fun j hj hn => ?_, ?_, hnot.2, fun hu => ?_⟩
  · rw [hsl, if_pos rfl]
    cases ending <;> simp [Slot.ended, hgen]
  · rw [hsl, if_neg hj]
    exact hev.others j
  · exact ⟨hports.1.trans hev.ports.1, hports.2.trans hev.ports.2⟩
  · intro j q a hji hl hj ha
    rw [hsl, if_neg hji]
    exact loseAnchor_closes hji hl hj ha
  · rw [hsl, if_neg hj, loseAnchor_frame hn]
  · intro hs
    exact hev.handle i ▸ hnot.1 hs
  · refine hev.follow (loseAnchor_noticesFollow i s hlive) (enterEnd_noticesFollow ending hr fun q c => ?_) fun j hj => ?_
    · rw [loseAnchor_self]; intro e; rw [e] at hu; cases hu
    · rw [hsl, if_neg (by rintro rfl; rw [loseAnchor_self, hu] at hj; cases hj)]

/-- The departure from ARMED (R13, R15, R106). -/
theorem exitArmed_anchorLost {s : State} {i : SlotNo} {r : Permit} {part : ArmedPart} (ending : Option Closure)
    (h : (s.slot i).state = .armed r part) : s.anchorLost (s.exitArmed i ending) i := by
  obtain ⟨-, -, -, -, h5, h6, h7, h8, h9, -, -, h12⟩ :=
    loseAnchor_enterEnd_spec (s := s) (i := i) (r := r) ending (by rw [h]; rfl) (by rw [h]; rfl)
  refine ⟨h8, h12 (by rw [h]; rfl), h9, h6, h5, h7.trans ?_⟩
  rw [h]
  simp [SlotState.isWaiting]

/-- The departure from WAITING, its scan included (R13, R35). -/
theorem exitWaiting_leftQueue {s : State} {i : SlotNo} {r : Permit} {w : Nat} (ending : Option Closure)
    (h : (s.slot i).state = .waiting r w) : s.leftQueue (s.exitWaiting i ending) i := by
  obtain ⟨h1, -, h3, -, h5, h6, h7, h8, h9, -, -, h12⟩ :=
    loseAnchor_enterEnd_spec (s := s.leaveQueue i) (i := i) (r := r) ending
      (by rw [State.leaveQueue_slot, h]; rfl) (by rw [State.leaveQueue_slot, h]; rfl)
  have hno := h12 (by rw [State.leaveQueue_slot, h]; rfl)
  have hslots := fun j (hj : j ≠ i) => (loseAnchor_enterEnd_spec (s := s.leaveQueue i) (i := i) (r := r) ending
      (by rw [State.leaveQueue_slot, h]; rfl) (by rw [State.leaveQueue_slot, h]; rfl)).2.1 j hj
  generalize hu : ((s.leaveQueue i).loseAnchor i).enterEnd i ending = u at h1 h3 h5 h6 h7 h8 h9 hno hslots
  have hx : s.exitWaiting i ending = u.scan := by rw [State.exitWaiting, hu]
  have hset : ((u.slot i).state).settled = true := by rw [h1]; cases ending <;> rfl
  have hno' : s.noticesFollow u fun _ => False :=
    noticesAfter_congr hno rfl rfl (fun _ _ => Iff.rfl) fun _ _ => Iff.rfl
  refine ⟨⟨u, ⟨h8, hno', h9, h6, h5, h7.trans ?_⟩, ?_,
    settingsKept_trans ((settingsKept_iff _ _).2 (by simp)) h3, hx ▸ scan_scanned u⟩, ?_⟩
  · rw [h]
    simp [State.leaveQueue, SlotState.isWaiting]
  · rw [hx, ((scan_evolves u).slots i).2.2 hset]
  · rw [hx]
    refine noticesFollow_trans hno' (scan_noticesFollow u) (fun p => (h3.2 p).1) (fun _ => False.elim)
      (fun j => ((scan_evolves u).slots j).2.2) fun j hj => ?_
    have hji : j ≠ i := by rintro rfl; rw [hset] at hj; cases hj
    obtain ⟨g, o, k⟩ := hslots j hji
    have he : u.epoch = s.epoch := by rw [h3.1]; rfl
    rw [State.leaveQueue_slot] at g o k
    refine ⟨by simp only [State.handle, g, he], ?_, fun p => (o p).symm⟩
    cases hx : (s.slot j).state.settled with
    | false => rfl
    | true => rw [k hx, hx] at hj; cases hj

end Sys2Proof.Machine
end

