-- ==== Sys2Proof/Laws/Due.lean ====
section
/-! SUPPORT. What an event of a tick and what a command leave due: both drop the events of the parts they drop, and an event
withdraws the settle ends of the outputs whose levels it changes (R21, R117, R122, R126). -/

namespace Sys2Proof.Machine

/-- What is due follows the slots: no part comes back, and exactly the events of the parts dropped are due no longer (R21). -/
def State.dueFollows (s t : State) : Prop :=
  (∀ j : SlotNo, (s.slot j).state.partNumber ≤ (t.slot j).state.partNumber)
    ∧ ∀ x : TickEvent, x ∈ t.due ↔
        x ∈ s.due ∧ ∀ j : SlotNo, x.ofSlot j = true → (t.slot j).state.partNumber = (s.slot j).state.partNumber

/-- No part has changed its number, and what is due is as it was. -/
theorem dueFollows_of_eq {s t : State} (hs : ∀ j, (t.slot j).state.partNumber = (s.slot j).state.partNumber)
    (hd : t.due = s.due) : s.dueFollows t :=
  ⟨fun j => le_of_eq (hs j).symm, fun x => by simp [hd, hs]⟩

theorem dueFollows_refl (s : State) : s.dueFollows s := dueFollows_of_eq (fun _ => rfl) rfl

theorem dueFollows_trans {s u t : State} (h : s.dueFollows u) (h' : u.dueFollows t) : s.dueFollows t := by
  refine ⟨fun j => (h.1 j).trans (h'.1 j), fun x => ?_⟩
  rw [h'.2, h.2]
  constructor
  · exact fun ⟨⟨a, b⟩, c⟩ => ⟨a, fun j hj => (c j hj).trans (b j hj)⟩
  · refine fun ⟨a, b⟩ => ⟨⟨a, fun j hj => ?_⟩, fun j hj => ?_⟩
    · exact le_antisymm ((h'.1 j).trans (le_of_eq (b j hj))) (h.1 j)
    · exact le_antisymm ((le_of_eq (b j hj)).trans (h.1 j)) (h'.1 j)

/-- One part is dropped for a later one, and its events with it (R21). -/
theorem dueFollows_setSlot {s : State} {i : SlotNo} {x : Slot}
    (h : (s.slot i).state.partNumber < x.state.partNumber) : s.dueFollows (s.setSlot i x) := by
  refine ⟨fun j => ?_, fun e => ?_⟩
  · rw [State.setSlot_slot]
    split
    · rename_i hj; subst hj; exact le_of_lt h
    · exact le_refl _
  · have : e ∈ (s.setSlot i x).due ↔ e ∈ s.due ∧ e.ofSlot i = false := by simp [State.setSlot]
    rw [this]
    refine and_congr_right fun _ => ⟨fun hi j hj => ?_, fun hall => ?_⟩
    · rw [State.setSlot_slot, if_neg (by rintro rfl; rw [hi] at hj; cases hj)]
    · cases hi : e.ofSlot i with
      | false => rfl
      | true =>
        have := hall i hi
        rw [State.setSlot_slot, if_pos rfl] at this
        omega

/-- The part counted on in place keeps what is due. -/
theorem dueFollows_countSlot {s : State} {i : SlotNo} {st : SlotState}
    (h : st.partNumber = (s.slot i).state.partNumber) : s.dueFollows (s.countSlot i st) := by
  refine dueFollows_of_eq (fun j => ?_) rfl
  rw [State.countSlot_slot]
  split
  · rename_i hj; subst hj; exact h
  · rfl

/-- What is due follows the slots through every cascade. -/
theorem due_cascade (W : Prop) (s : State) : Cascade W (fun _ => True) (fun _ => True) s.dueFollows where
  lost t j r a ht _ _ hj := dueFollows_trans ht
    (dueFollows_setSlot (s := t) (i := j) (by rw [hj]; exact (by decide : 0 < 4) : (t.slot j).state.partNumber < 4))
  started t j r a ht _ _ hj := dueFollows_trans ht
    (dueFollows_setSlot (s := t) (i := j) (by rw [hj]; exact (by decide : 0 < 1) : (t.slot j).state.partNumber < 1))
  granted t j r ahead ht hj _ := by
    refine dueFollows_trans ht (dueFollows_setSlot (s := t) (i := j)
      (x := { t.slot j with state := .live r (newRun r) }) ?_)
    rcases hj with ⟨-, w, e⟩ | ⟨-, d, e⟩
    · rw [e]; exact (by decide : 2 < 3)
    · rw [e]; exact (by decide : 1 < 3)
  queued t j r d ht hj _ _ := dueFollows_trans ht
    (dueFollows_setSlot (s := t) (i := j) (x := { t.slot j with state := .waiting r r.waitLimit })
      (by rw [hj]; show 1 < 2; decide))
  blocked t j r d reason ht hj _ := dueFollows_trans ht
    (dueFollows_setSlot (s := t) (i := j) (by rw [hj]; exact (by decide : 1 < 4) : (t.slot j).state.partNumber < 4))
  chosen t ht := dueFollows_trans ht (dueFollows_of_eq (fun _ => rfl) rfl)
  awaiting _ _ _ _ _ := trivial
  gives _ _ _ _ := trivial

theorem scan_dueFollows (s : State) : s.dueFollows s.scan :=
  scan_keeps (due_cascade True s) s (dueFollows_refl s) fun _ _ _ _ => trivial

theorem endDelay_dueFollows (j : SlotNo) (s : State) : s.dueFollows (s.endDelay j) :=
  endDelay_keeps (due_cascade False s) j s (dueFollows_refl s) trivial

/-- An ending drops the part. -/
theorem enterEnd_dueFollows {s : State} {i : SlotNo} {r : Permit} (ending : Option Closure)
    (hr : (s.slot i).state.record = some r) (h : (s.slot i).state.partNumber < 4) :
    s.dueFollows (s.enterEnd i ending) := by
  cases ending with
  | some c =>
    rw [State.enterEnd, enterClosed_eq c hr]
    exact dueFollows_setSlot (s := s) (i := i) (x := { s.slot i with state := .closed r c }) h
  | none =>
    rw [State.enterEnd, enterFree_eq hr]
    exact dueFollows_setSlot (s := s) (i := i) (x := { generation := (s.slot i).generation + 1, state := .free })
      (Nat.lt_succ_of_lt h)

theorem exitLive_dueFollows (i : SlotNo) (ending : Option Closure) (s : State) : s.dueFollows (s.exitLive i ending) := by
  simp only [State.exitLive]
  split
  · rename_i r run h
    have h0 : s.dueFollows ((s.enterEnd i ending).letGo (s.holds i)) :=
      dueFollows_trans (enterEnd_dueFollows ending (r := r) (by rw [h]; rfl) (by rw [h]; show 3 < 4; decide))
        (dueFollows_of_eq (fun j => by simp) (by simp))
    exact scanDeparture_keeps (due_cascade True s) _ _
      (endEvent_keeps (due_cascade True s) _ _ h0 trivial) (fun _ _ => trivial) fun _ _ _ _ => trivial
  all_goals exact dueFollows_refl s

theorem exitWaiting_dueFollows {i : SlotNo} {s : State} {r : Permit} {w : Nat} (ending : Option Closure)
    (h : (s.slot i).state = .waiting r w) : s.dueFollows (s.exitWaiting i ending) := by
  have hq : s.dueFollows (s.leaveQueue i) := dueFollows_of_eq (fun _ => rfl) rfl
  have hs : (s.leaveQueue i).slot i = s.slot i := rfl
  have hl := loseAnchor_keeps (due_cascade False s) i (s.leaveQueue i) hq (by rw [hs, h]; rfl)
  have hk : ((s.leaveQueue i).loseAnchor i).slot i = s.slot i := loseAnchor_slot_of_not_awaiting (by rw [hs, h]; nofun)
  exact dueFollows_trans (dueFollows_trans hl (enterEnd_dueFollows ending (r := r) (by rw [hk, h]; rfl)
    (by rw [hk, h]; show 2 < 4; decide))) (scan_dueFollows _)

/-- A post leaves what is due alone. -/
theorem dueFollows_post {s t : State} (h : s.dueFollows t) (p : Port) (n : Notice) : s.dueFollows (t.post p n) :=
  dueFollows_trans h (dueFollows_of_eq (fun _ => rfl) rfl)

theorem dueFollows_scan {s t : State} (h : s.dueFollows t) : s.dueFollows t.scan :=
  dueFollows_trans h (scan_dueFollows t)

theorem dueFollows_exitLive {s t : State} (h : s.dueFollows t) (i : SlotNo) (ending : Option Closure) :
    s.dueFollows (t.exitLive i ending) :=
  dueFollows_trans h (exitLive_dueFollows i ending t)

/-! ## The events of a tick -/

/-- The work of an event leaves due exactly what belongs to no part that it dropped (R21). -/
theorem tickWork_dueFollows (e : TickEvent) (s : State) : s.dueFollows (State.tickWork e s) := by
  have phase : ∀ (i : SlotNo) (r r' : Permit) (run run' : RunPart) (ph : Phase), (s.slot i).state = .live r run →
      s.dueFollows (s.enterPhase i r' run' ph) := fun i r r' run run' ph h =>
    dueFollows_trans (dueFollows_countSlot (by rw [h]; rfl)) (dueFollows_of_eq (fun _ => rfl) rfl)
  have done : ∀ (i : SlotNo) (r : Permit) (run run' : RunPart), (s.slot i).state = .live r run →
      s.dueFollows (s.reachDone i r run') := by
    intro i r run run' h
    simp only [State.reachDone]
    split
    · exact exitLive_dueFollows i _ s
    · exact dueFollows_post (phase i r r run _ _ h) _ _
  have cycle : ∀ (i : SlotNo) (r : Permit) (run run' : RunPart), (s.slot i).state = .live r run →
      s.dueFollows (s.newCycle i r run') := by
    intro i r run run' h
    simp only [State.newCycle]
    split
    · exact phase i r _ run _ _ h
    · exact phase i r _ run _ _ h
  have fault : ∀ (o : OutputNo) (c : Channel) (left : OutputNo → Bool) (n : Notice),
      s.dueFollows (((s.setChannel o c).startQuiet left).postBoth n) := fun o c left n =>
    dueFollows_of_eq (fun _ => rfl) rfl
  cases e with
  | lease i =>
    simp only [State.tickWork, State.leaseTick]
    split
    · rename_i r run h
      split
      · split
        · exact exitLive_dueFollows i _ s
        · exact dueFollows_countSlot (by rw [h]; rfl)
      · exact dueFollows_refl s
    all_goals exact dueFollows_refl s
  | wait i =>
    simp only [State.tickWork, State.waitTick]
    split
    · rename_i r w h
      split
      · exact exitWaiting_dueFollows _ h
      · exact dueFollows_countSlot (by rw [h]; rfl)
    all_goals exact dueFollows_refl s
  | phase i =>
    simp only [State.tickWork, State.phaseTick]
    split
    · rename_i r run h
      split
      · split
        · split
          · simp only [State.endOn]
            split
            · exact dueFollows_refl s
            · exact done i r run _ h
            · exact phase i r _ run _ _ h
            · exact phase i r _ run _ _ h
          · simp only [State.boundary]
            split
            · split
              · exact done i r run _ h
              · exact cycle i r run _ h
            · exact cycle i r run _ h
          · exact dueFollows_refl s
        · exact dueFollows_countSlot (by rw [h]; rfl)
      · exact dueFollows_refl s
    all_goals exact dueFollows_refl s
  | delay j =>
    simp only [State.tickWork, State.delayTick]
    split
    · rename_i r d h
      split
      · exact endDelay_dueFollows j s
      · exact dueFollows_countSlot (by rw [h]; rfl)
    all_goals exact dueFollows_refl s
  | quiet g =>
    simp only [State.tickWork, State.quietTick]
    split
    · exact dueFollows_scan (dueFollows_of_eq (fun _ => rfl) rfl)
    · exact dueFollows_of_eq (fun _ => rfl) rfl
  | settle o =>
    simp only [State.tickWork, State.settleTick]
    split
    · split
      · split
        · exact dueFollows_of_eq (fun _ => rfl) rfl
        · simp only [State.declareFault]
          split
          · exact dueFollows_exitLive (fault _ _ _ _) _ _
          all_goals exact fault _ _ _ _
      · exact dueFollows_of_eq (fun _ => rfl) rfl
    all_goals exact dueFollows_refl s
  | trip l sample =>
    simp only [State.tickWork, State.tripTick]
    split
    · simp only [State.assertTrip]
      refine dueFollows_post (dueFollows_post (foldl_keeps (P := s.dueFollows) (fun t i ht => ?_) allSlots _ ?_) _ _) _ _
      · split
        · exact dueFollows_exitLive ht i _
        · exact ht
      · exact dueFollows_of_eq (fun _ => rfl) rfl
    · exact dueFollows_of_eq (fun _ => rfl) rfl

/-- What an event that is taken leaves due, whole (R21, R117, R122, R126). -/
theorem takeEvent_leavesDue {e : TickEvent} {s : State} (h : e ∈ s.due) : s.leavesDue (s.takeEvent e) e := by
  obtain ⟨-, hd⟩ := tickWork_dueFollows e { s with due := s.due.erase e }
  have ht : s.takeEvent e =
      { State.tickWork e { s with due := s.due.erase e } with
        due := (State.tickWork e { s with due := s.due.erase e }).due.filter
          (stillDue s (State.tickWork e { s with due := s.due.erase e })) } := by rw [State.takeEvent, if_pos h]
  rw [ht]
  generalize State.tickWork e { s with due := s.due.erase e } = t at hd
  have hs : ∀ j, ({ s with due := s.due.erase e } : State).slot j = s.slot j := fun _ => rfl
  have hu : ∀ j, ({ t with due := t.due.filter (stillDue s t) } : State).slot j = t.slot j := fun _ => rfl
  have hc : ∀ o, ({ t with due := t.due.filter (stillDue s t) } : State).channel o = t.channel o := fun _ => rfl
  intro x
  have hx := hd x
  simp only [hs] at hx
  simp only [List.mem_filter, hx, hc]
  cases x with
  | settle o =>
    simp only [TickEvent.ofSlot, stillDue, State.partStands, decide_eq_true_eq, Bool.false_eq_true, false_implies, implies_true,
      and_true, true_and, TickEvent.settle.injEq, forall_eq']
    refine and_congr_right fun _ => ⟨fun ⟨a, b⟩ => ⟨a.symm, fun hon => ?_⟩, fun ⟨a, b⟩ => ⟨a.symm, ?_⟩⟩
    · rcases b with b | b
      · rw [hon] at b; cases b
      · exact b.symm
    · cases hx : (s.channel o).expected with
      | off => exact .inl rfl
      | on => exact .inr (b hx).symm
  | lease i => simp [TickEvent.ofSlot, stillDue, State.partStands, hu]
  | wait i => simp [TickEvent.ofSlot, stillDue, State.partStands, hu]
  | phase i => simp [TickEvent.ofSlot, stillDue, State.partStands, hu]
  | delay i => simp [TickEvent.ofSlot, stillDue, State.partStands, hu]
  | quiet g => simp [TickEvent.ofSlot, stillDue, State.partStands]
  | trip l sample => simp [TickEvent.ofSlot, stillDue, State.partStands]

/-! ## Commands -/

/-- What the slots and what is due of two parts say of `keepsDue` is all that matters. -/
theorem keepsDue_congr {s s' t t' : State} (h : s.keepsDue t) (hs : s'.due = s.due) (ht : t'.due = t.due)
    (hss : ∀ j, s'.slot j = s.slot j) (hts : ∀ j, t'.slot j = t.slot j) : s'.keepsDue t' := by
  intro x
  rw [hs, ht, h x]
  cases x <;> simp [State.partStands, hss, hts]

/-- Where what is due follows the slots, a command keeps what it has to keep due. -/
theorem State.dueFollows.keepsDue {s t : State} (h : s.dueFollows t) : s.keepsDue t := by
  intro x
  rw [h.2 x]
  refine and_congr_right fun _ => ?_
  cases x <;> simp [State.partStands, TickEvent.ofSlot]

theorem exitArmed_dueFollows {i : SlotNo} {s : State} {r : Permit} {part : ArmedPart} (ending : Option Closure)
    (h : (s.slot i).state = .armed r part) : s.dueFollows (s.exitArmed i ending) := by
  refine dueFollows_trans (loseAnchor_keeps (due_cascade False s) i s (dueFollows_refl s) (by rw [h]; rfl))
    (enterEnd_dueFollows ending (r := r) (by rw [loseAnchor_self, h]; rfl) ?_)
  rw [loseAnchor_self, h]
  cases part
  · exact (by decide : 0 < 4)
  · exact (by decide : 1 < 4)

/-- RELEASE and REVOKE (R15, R19). -/
theorem endPermit_keepsDue (i : SlotNo) (ending : Option Closure) (s : State) : s.keepsDue (s.endPermit i ending) := by
  refine State.dueFollows.keepsDue ?_
  simp only [State.endPermit]
  split
  · exact exitWaiting_dueFollows ending ‹_›
  · exact exitArmed_dueFollows ending ‹_›
  · exact exitLive_dueFollows i ending s
  all_goals exact dueFollows_refl s

theorem partNumber_lt_of_record {x : SlotState} {r : Permit} (h : x.record = some r) : x.partNumber < 5 := by
  cases x with
  | free => cases h
  | armed q part => cases part; exacts [(by decide : 0 < 5), (by decide : 1 < 5)]
  | waiting q w => exact (by decide : 2 < 5)
  | live q run => exact (by decide : 3 < 5)
  | closed q c => exact (by decide : 4 < 5)

theorem enterFree_dueFollows (s : State) (i : SlotNo) : s.dueFollows (s.enterFree i) := by
  cases hr : (s.slot i).state.record with
  | none => simp only [State.enterFree, hr]; exact dueFollows_refl s
  | some r =>
    rw [enterFree_eq hr]
    exact dueFollows_setSlot (s := s) (i := i) (x := { generation := (s.slot i).generation + 1, state := .free })
      (partNumber_lt_of_record hr)

/-- RETIRE (R16). -/
theorem enterFree_keepsDue (s : State) (i : SlotNo) : s.keepsDue (s.enterFree i) := (enterFree_dueFollows s i).keepsDue

/-- PURGE (R20). -/
theorem purgeSlots_keepsDue (owner : Port) (s : State) : s.keepsDue (s.purgeSlots owner) :=
  State.dueFollows.keepsDue (foldl_keeps (P := s.dueFollows)
    (fun t i ht => dueFollows_trans ht (enterFree_dueFollows t i)) _ _ (dueFollows_refl s))

/-- RESUME, CLEAR_TRIP and CLEAR_FAULT (R37). -/
theorem scan_keepsDue (s : State) : s.keepsDue s.scan := (scan_dueFollows s).keepsDue

/-- A claim puts its permit in a FREE slot, which it does not leave FREE; then events may follow. -/
theorem keepsDue_fromFree {s t : State} {i : SlotNo} {x : Slot} (h : (s.slot i).state = .free)
    (ht : (s.setSlot i x).dueFollows t) (hf : (t.slot i).state ≠ .free) : s.keepsDue t := by
  have hp : (t.slot i).state.partNumber ≠ (s.slot i).state.partNumber := by
    rw [h]
    intro e
    cases hx : (t.slot i).state with
    | free => exact hf hx
    | armed r part => rw [hx] at e; cases part <;> cases e
    | waiting r w | live r run | closed r c => rw [hx] at e; cases e
  intro e
  rw [ht.2 e]
  have hd : e ∈ (s.setSlot i x).due ↔ e ∈ s.due ∧ e.ofSlot i = false := by simp [State.setSlot]
  have one : ∀ j : SlotNo, (e ∈ s.due ∧ e.ofSlot i = false) ∧ (∀ k, e.ofSlot k = true →
      (t.slot k).state.partNumber = ((s.setSlot i x).slot k).state.partNumber) ↔ e ∈ s.due ∧ s.partStands t e := by
    intro _
    rw [and_assoc]
    refine and_congr_right fun _ => ?_
    cases e with
    | quiet g | settle o | trip l sample => simp [TickEvent.ofSlot, State.partStands]
    | lease j | wait j | phase j | delay j =>
      simp only [TickEvent.ofSlot, State.partStands, decide_eq_true_eq, decide_eq_false_iff_not, forall_eq']
      rw [State.setSlot_slot]
      by_cases hj : j = i
      · subst hj; simp [hp]
      · simp [hj]
  rw [hd]
  exact one i

/-- A direct claim (R30, R31, R32). -/
theorem directClaim_keepsDue {s : State} {i : SlotNo} (h : (s.slot i).state = .free) (r : Permit) :
    s.keepsDue (s.directClaim i r).state := by
  simp only [State.directClaim]
  split
  · exact keepsDue_fromFree (x := { s.slot i with state := .live r (newRun r) }) h
      (dueFollows_of_eq (fun j => by simp [State.enterLive, State.setSlotState]) rfl) (by simp [enterLive_slot])
  · split
    · refine keepsDue_fromFree (x := { s.slot i with state := .waiting r r.waitLimit }) h
        (dueFollows_of_eq (fun _ => rfl) rfl) ?_
      have e : ((s.enterWaiting i r).slot i).state = .waiting r r.waitLimit :=
        (by simp [State.setSlotState] : ((s.setSlotState i (.waiting r r.waitLimit)).slot i).state = _)
      simp [e]
    · exact State.dueFollows.keepsDue (dueFollows_refl s)

/-- A chained claim (R33, R98, R102). -/
theorem armClaim_keepsDue {s : State} {i : SlotNo} (h : (s.slot i).state = .free) (r : Permit) (a : Anchor) :
    s.keepsDue (s.armClaim i r a).state := by
  have armed : ∀ part : ArmedPart, s.keepsDue (s.setSlotState i (.armed r part)) := fun part =>
    keepsDue_fromFree (x := { s.slot i with state := .armed r part }) h (dueFollows_refl _) (by simp [State.setSlotState])
  simp only [State.armClaim]
  split
  · split
    · have hs : ((s.setSlotState i (.armed r (.delaying a.delay))).slot i).state = .armed r (.delaying a.delay) := by
        simp [State.setSlotState]
      refine keepsDue_fromFree (x := { s.slot i with state := .armed r (.delaying a.delay) }) h (endDelay_dueFollows i _)
        fun hf => ?_
      have ht : r.tested (((s.setSlotState i (.armed r (.delaying a.delay))).endDelay i).slot i).state :=
        delayEndWith_tested 32 hs
      rw [hf] at ht
      rcases ht with h | ⟨-, h⟩ | ⟨-, reason, h⟩ <;> cases h
    · exact armed _
  · exact armed _

/-- What the engine does to the ports around a command is no part of it. -/
theorem keepsDue_ports {s t : State} (h : s.keepsDue t) (p : PerPort LinkPort) (q : Port) :
    s.keepsDue { t with ports := p, lastServed := q } :=
  keepsDue_congr h rfl rfl (fun _ => rfl) fun _ => rfl

end Sys2Proof.Machine
end

