-- ==== Sys2Proof/Laws/Engine.lean ====
section
/-! SUPPORT. What the command engine does with a request, once and for every command (R171, R172), the checks on a handle (R6),
and the reading of the fields that commands write. -/

namespace Sys2Proof.Machine

/-! ## Bytes and handles -/

theorem handleWord_extract (e : BitVec 4) (g : BitVec 7) (x : BitVec 5) :
    (e ++ g ++ x : BitVec 16).extractLsb' 12 4 = e ∧ (e ++ g ++ x : BitVec 16).extractLsb' 5 7 = g
      ∧ (e ++ g ++ x : BitVec 16).extractLsb' 0 5 = x := by
  refine ⟨?_, ?_, ?_⟩
  all_goals
    apply BitVec.eq_of_getLsbD_eq
    intro k hk
    rw [BitVec.getLsbD_extractLsb', BitVec.getLsbD_append, BitVec.getLsbD_append]
  · simp [hk, show ¬ 12 + k < 5 by omega, show ¬ 12 + k - 5 < 7 by omega, show 12 + k - 5 - 7 = k by omega]
  · simp [hk, show ¬ 5 + k < 5 by omega]
  · simp [hk]

/-- The 16-bit layout of a handle names that handle (R179). -/
@[simp] theorem handleOfWord_handleWord (h : Handle) : handleOfWord (handleWord h) = h := by
  obtain ⟨e, g, i⟩ := h
  have hx := handleWord_extract e g (BitVec.ofNat 5 i.val)
  simp only [handleOfWord, handleWord, hx.1, hx.2.1, hx.2.2]
  congr 1
  exact Fin.ext (by simp)

/-- A 16-bit field written is the field read (R166). -/
theorem wordAt_wordOf {n : Nat} (h : n < 65536) (rest : List Byte) : wordAt (wordOf n ++ rest) 0 = n := by
  simp only [wordAt, byteAt, wordOf, List.cons_append, List.nil_append, List.getD_cons_zero, List.getD_cons_succ,
    BitVec.toNat_ofNat]
  omega

@[simp] theorem wordAt_cons (b : Byte) (bs : List Byte) (k : Nat) : wordAt (b :: bs) (k + 1) = wordAt bs k := rfl
@[simp] theorem byteAt_cons (b : Byte) (bs : List Byte) (k : Nat) : byteAt (b :: bs) (k + 1) = byteAt bs k := rfl
@[simp] theorem length_wordOf (n : Nat) : (wordOf n).length = 2 := rfl
@[simp] theorem length_byteOf (n : Nat) : (byteOf n).length = 1 := rfl

/-! ## The command engine -/

/-- What a command leaves, before it is answered, has the ports as the request taken left them. -/
def Reply.quiet (x : Reply) (s : State) : Prop := x.state.ports = s.ports ∧ x.state.lastServed = s.lastServed

/-- The request that the engine takes is the oldest of its port's mailbox (R171). -/
theorem nextRequest_some {s : State} {p : Port} {r : Request} (h : s.nextRequest = some (p, r)) :
    s.working = true ∧ s.servedPort = some p ∧ (s.ports.get p).mailbox = r :: (s.ports.get p).mailbox.tail
      ∧ (s.ports.get p).responses.length < 4 := by
  simp only [State.nextRequest] at h
  split at h
  · rename_i q hq
    split at h
    · rename_i r' rest hm
      obtain ⟨rfl, rfl⟩ : q = p ∧ r' = r := by simpa using h
      refine ⟨?_, hq, by rw [hm]; rfl, ?_⟩
      · simp only [State.servedPort] at hq
        split at hq
        · assumption
        · cases hq
      · have hql : s.qualifies q = true := by
          simp only [State.servedPort] at hq
          cases hc : s.qualifies .control <;> cases hs : s.qualifies .supervisor <;> cases q <;>
            simp_all [otherPort]
        simp [State.qualifies] at hql
        exact hql.2
    · cases h
  · cases h

/-- One turn of the engine on the request it takes, with the three checks of R172 made. -/
theorem engineStep_next {s : State} {p : Port} {r : Request} {c : Command} (act : Port → List Byte → State → Reply)
    (h : s.nextRequest = some (p, r)) (hc : commandOf r = c) :
    engineStep c act s = .next (State.respond p r.tag (carryOut c act p r.params (s.takeRequest p))) := by
  simp [engineStep, h, hc]

/-- The row of a command that the engine does not carry out now leaves the part as it is. -/
theorem engineStep_idle {s : State} {c : Command} (act : Port → List Byte → State → Reply)
    (h : ∀ p r, s.nextRequest = some (p, r) → commandOf r ≠ c) : engineStep c act s = .next s := by
  simp only [engineStep]
  split
  · rename_i p r hr
    rw [if_neg (h p r hr)]
  · rfl

/-- A request that passes the checks of R172 is carried out. -/
theorem engineStep_carries {s : State} {p : Port} {r : Request} {c : Command} (act : Port → List Byte → State → Reply)
    (h : s.carries p r c) :
    engineStep c act s = .next (State.respond p r.tag (act p r.params (s.takeRequest p))) := by
  rw [engineStep_next act h.1 h.2.1]
  simp [carryOut, h.2.2.1, h.2.2.2.1, h.2.2.2.2]

/-- A port and the other one are all the ports. -/
theorem PerPort.ext_get {α : Type} {x y : PerPort α} (p : Port) (h : x.get p = y.get p)
    (ho : x.get (otherPort p) = y.get (otherPort p)) : x = y := by
  cases x; cases y; cases p <;> simp_all [PerPort.get, otherPort]

/-- A command whose effect leaves the ports alone is answered as R171 and R172 say. -/
theorem respond_answered {s : State} {p : Port} {r : Request} {x : Reply} (h : x.quiet (s.takeRequest p)) :
    s.answered (State.respond p r.tag x) p r x.status x.payload := by
  obtain ⟨hp, hl⟩ := h
  refine ⟨?_, ?_, ?_⟩
  · simp [State.respond, State.setPort, hp]
  · simp [State.respond, State.setPort, hp]
  · simp [State.respond, State.setPort, hl]

/-- A refusal or a report changes the ports alone, and answers. -/
theorem onlyAnswers_of_engineStep {s : State} {p : Port} {r : Request} {c : Command} {x : Reply}
    (act : Port → List Byte → State → Reply) (hx : exec c.row s = engineStep c act s) (h : s.carries p r c)
    (ha : act p r.params (s.takeRequest p) = x) (hs : x.state = s.takeRequest p) :
    s.onlyAnswers c p r x.status x.payload := by
  refine ⟨State.respond p r.tag x, ?_, ?_, ?_⟩
  · rw [hx, engineStep_carries act h, ha]
  · exact respond_answered ⟨by rw [hs], by rw [hs]⟩
  · simp only [State.respond, State.setPort, hs, State.takeRequest]

/-- Every command row is one turn of the engine. -/
theorem exec_row (c : Command) :
    ∃ act : Port → List Byte → State → Reply, ∀ s : State, exec c.row s = engineStep c act s := by
  cases c <;> exact ⟨_, fun _ => rfl⟩

/-- Taking a request changes nothing that a claim test, a handle or a report reads. -/
@[simp] theorem takeRequest_handle (s : State) (p : Port) (i : SlotNo) : (s.takeRequest p).handle i = s.handle i := rfl
@[simp] theorem takeRequest_claimTest (s : State) (p : Port) (outs : List OutputNo) (ahead : List SlotNo) :
    (s.takeRequest p).claimTest outs ahead = s.claimTest outs ahead := rfl
@[simp] theorem takeRequest_usedCount (s : State) (p q : Port) : (s.takeRequest p).usedCount q = s.usedCount q := rfl

/-- What the checks of R6 on a handle let through (R6). -/
theorem withPermit_eq (s : State) (h : Handle) (mayUse : Permit → Bool) (k : Permit → Reply) (r : Permit)
    (hh : s.handle h.slot = h) (hr : (s.slot h.slot).state.record = some r) :
    withPermit s h mayUse k = if mayUse r then k r else refuse .notOwner s := by
  simp [withPermit, hr, hh]

/-- A handle that is not the current name of a permit is STALE (R6). -/
theorem withPermit_stale (s : State) (h : Handle) (mayUse : Permit → Bool) (k : Permit → Reply)
    (hh : s.handle h.slot ≠ h ∨ (s.slot h.slot).state = .free) : withPermit s h mayUse k = refuse .stale s := by
  rcases hh with hh | hh
  · simp only [withPermit]
    split
    · rw [if_neg hh]
    · rfl
  · simp [withPermit, hh, SlotState.record]

/-! ## The events of a tick -/

/-- An event that is not due has no effect. -/
theorem takeEvent_of_not_due {e : TickEvent} {s : State} (h : e ∉ s.due) : s.takeEvent e = s := by
  simp [State.takeEvent, h]

/-- An event that is due is taken, whole; only what is due is changed besides (R21, R161). -/
theorem takeEvent_of_due {e : TickEvent} {s : State} (h : e ∈ s.due) :
    ∃ due, s.takeEvent e = { State.tickWork e { s with due := s.due.erase e } with due := due } := by
  rw [State.takeEvent, if_pos h]
  exact ⟨_, rfl⟩

/-- With nothing due a tick is finished. -/
theorem tickFinished_of_nothing_due {s : State} (h : s.due = []) : s.tickFinished = s := by
  simp [State.tickFinished, h, finishTick]

/-- Whatever each event taken keeps, and each free choice, the end of a tick keeps (log entry 4). -/
theorem tickFinished_keeps {P : State → Prop} (event : ∀ (e : TickEvent) (t : State), P t → P (t.takeEvent e))
    (chosen : ∀ t : State, P t → P { t with choices := t.choices + 1 }) (s : State) (hs : P s) : P s.tickFinished := by
  have gen : ∀ (n : Nat) (t : State), P t → P (finishTick n t) := by
    intro n
    induction n with
    | zero => exact fun t ht => ht
    | succ n ih =>
      intro t ht
      simp only [finishTick]
      split
      · exact ht
      · exact ih _ (event _ _ ht)
      · exact ih _ (event _ _ (chosen _ ht))
  exact gen _ s hs

end Sys2Proof.Machine
end

