-- ==== Sys2Proof/Tests/Slice0.lean ====
section
/-! SUPPORT. Tests of the model against the manual's worked examples and tables, at most two for each command, each about
one step on a small state; the smoke test of WellFormed; and, for each statement of Certificates/Slice0/Obligations.lean that
has hypotheses, a witness that meets them. Expected values are the manual's, or worked by hand from its rules. -/

open Sys2Proof Sys2Proof.Machine

namespace Sys2Proof.Tests

set_option Elab.async false

/-! ## Helpers -/

/-- The state after one command. -/
def after (i : Instr) (s : State) : State :=
  match exec i s with
  | .next t => t
  | .fault _ => s
  | .refused _ => s

/-- One request waits in port `p`'s mailbox, with tag 0x2A. -/
def asking (p : Port) (code : Byte) (params : List Byte) (s : State) : State :=
  s.setPort p { s.ports.get p with mailbox := [{ code := code, tag := 0x2A, params := params }] }

/-- The request of `asking`. -/
def request (code : Byte) (params : List Byte) : Request := { code := code, tag := 0x2A, params := params }

/-- The newest response of port `p`: status and payload. -/
def answer (p : Port) (s : State) : Option (Status × List Byte) :=
  (s.ports.get p).responses.getLast?.map fun r => (r.status, r.payload)

/-- The part in RUN. -/
def running : State := { State.reset with mode := .run }

/-- A STEADY permit of the Control Port for some outputs, with lease 40, renew guard 15 and wait limit 20. -/
def steady (outs : List OutputNo) : Permit :=
  { owner := .control
    outputs := outs.map fun o => { output := o, invert := false }
    pattern := .steady
    closeOnCompletion := false
    lease := 40
    renewGuard := some 15
    waitLimit := 20
    anchor := none
    chainDepth := 1
    label := none }

/-- The permit of section 5.11: outputs 8 and 9, 9 inverted, CYCLE with on 5 and off 3. -/
def cycling : Permit :=
  { steady [] with
    outputs := [{ output := 8, invert := false }, { output := 9, invert := true }]
    pattern := .cycle 5 3
    lease := 100
    renewGuard := none }

/-- A PULSE permit that closes on completion, or stays in DONE. -/
def pulsing (close : Bool) : Permit := { steady [0] with pattern := .pulse 20, closeOnCompletion := close }

/-- A BURST permit on outputs 0 and, inverted, 1. -/
def bursting (close : Bool) : Permit :=
  { steady [] with
    outputs := [{ output := 0, invert := false }, { output := 1, invert := true }]
    pattern := .burst 3 2 2
    closeOnCompletion := close }

/-- A permit chained to the permit with handle `h`. -/
def chained (o : OutputNo) (h : Handle) (ev : AwaitedEvent) (delay wait depth : Nat) : Permit :=
  { steady [o] with
    pattern := .pulse 20
    anchor := some { handle := h, event := ev, delay := delay }
    waitLimit := wait
    chainDepth := depth }

/-- The run part of `r` in some phase, with its counts. -/
def runIn (r : Permit) (ph : Phase) (lease phase : Option Nat) : RunPart :=
  { newRun r with phase := ph, leaseRemaining := lease, phaseRemaining := phase }

/-- Slot `i` LIVE with record `r` and this run part, holding its outputs. -/
def liveWith (i : SlotNo) (r : Permit) (run : RunPart) (s : State) : State :=
  (s.enterLive i r).countSlot i (.live r run)

/-- Exclusion group `g` with members and a dead time. -/
def grouped (g : GroupNo) (members : OutputSet) (dead : Nat) (s : State) : State :=
  s.setGroup g { members := members, deadTime := dead, quietRemaining := 0 }

/-- An enabled trip line, active HIGH. -/
def armedLine (len : Nat) (map : OutputSet) (count : Nat) (latched : Bool) : TripLine :=
  { enabled := true, activeLevel := .high, filterLength := len, map := map, filterCount := count, latched := latched }

/-- A channel with settle time 3. -/
def watched (st : ChannelState) (expected feedback : Level) (sv : Supervision) : Channel :=
  { state := st, polarity := .activeHigh, settleTime := 3, expected := expected, feedback := feedback, supervision := sv }

/-- The state with one event of a tick due. -/
def dueOne (e : TickEvent) (s : State) : State := { s with due := [e] }

/-! ## WellFormed -/

theorem test_short_reset_pulse_ill_formed : (Instr.rstnReset 3).wellFormed = false := by decide
theorem test_reset_pulse_well_formed : (Instr.rstnReset 4).wellFormed = true := by decide

/-! ## Formats (spec/12) -/

/-- R178: a NOP with tag 0 is 0x01, 0x00, 0x00, 0x6B; the register is 0x07 and 0x15 on the way. -/
theorem test_crc_of_nop : crc8 [0x01] = 0x07 ∧ crc8 [0x01, 0x00] = 0x15 ∧ crc8 [0x01, 0x00, 0x00] = 0x6B := by decide

/-- R179: the handle 2/17/5 is 0x2225. -/
theorem test_handle_word : handleWord { epoch := 2, generation := 17, slot := 5 } = 0x2225 := by decide

/-- Section 12.7: the S2 claim's flags byte is 0xA1, its length N 18 and its frame 22 bytes. -/
theorem test_claim_frame :
    claimParams
        { kind := 1, closeOnCompletion := true, entries := [(0, false), (5, false)], on := 10, off := 0, count := 0
          lease := 100, waitLimit := 20, renewGuard := none
          anchor := some ({ epoch := 0, generation := 0, slot := 0 }, 1, 4), label := none }
      = [0xA1, 2, 0, 5, 0, 10, 0, 0, 0, 0, 100, 0, 20, 0, 0, 1, 0, 4] := by decide

/-- No row of the opcode table gives bits. -/
theorem test_no_word_spells_a_command : decodeTableWord 32 0x01 = none := rfl

/-! ## Supply and reset (R162) -/

theorem test_power_on :
    (after .powerOn { running with epoch := 5, powered := false }).mode = .setup
      ∧ (after .powerOn { running with epoch := 5, powered := false }).epoch = 0 := by decide

theorem test_power_loss : (after .powerLoss running).working = false := by decide

theorem test_rstn_reset_wraps_epoch :
    (after (.rstnReset 4) { running with epoch := 15 }).epoch = 0
      ∧ (after (.rstnReset 4) { running with epoch := 15 }).resetCause = .pin := by decide

theorem test_short_rstn_is_no_reset : (after (.rstnReset 3) running).mode = .run := by decide

theorem test_reset_release : (after .resetRelease { State.reset with rstnLow := true }).working = true := by decide

/-! ## Link ports (chapter 11) -/

/-- Section 11.6: RUN, no attention, ACCEPTED, epoch 3, 4 places free, response follows. -/
def collecting : State :=
  { running with
    epoch := 3
    ports :=
      { control :=
          { resetPort with outcome := .accepted, responses := [{ tag := 1, status := .ok, payload := [] }] }
        supervisor := resetPort } }

theorem test_transaction_start : (after (.transactionStart .control) collecting).dataOut .control = some 0x44 := by decide

theorem test_byte_shifted :
    (after (.completeByteShifted .control 0x01) (after (.transactionStart .control) collecting)).dataOut .control
      = some 0x39 := by decide

/-- A transaction that has taken these bytes. -/
def shifted (bs : List Byte) : State :=
  collecting.setPort .control
    { collecting.ports.control with
      chipSelect := true
      transaction := some
        { header := collecting.formHeader .control
          selected := collecting.ports.control.responses.head?
          received := bs } }

/-- The NOP frame is accepted; 4 bytes did not shift the 4-byte response out behind the 2 header bytes. -/
theorem test_transaction_end_accepts :
    (after (.transactionEnd .control) (shifted [0x01, 0x00, 0x00, 0x6B])).ports.control.mailbox
        = [{ code := 0x01, tag := 0, params := [] }]
      ∧ (after (.transactionEnd .control) (shifted [0x01, 0x00, 0x00, 0x6B])).ports.control.responses.length = 1 := by
  decide +kernel

/-- A wrong check byte; 6 bytes shifted the response out. -/
theorem test_transaction_end_bad_check :
    (after (.transactionEnd .control) (shifted [0x01, 0x00, 0x00, 0x6A, 0, 0])).ports.control.outcome = .badCheck
      ∧ (after (.transactionEnd .control) (shifted [0x01, 0x00, 0x00, 0x6A, 0, 0])).ports.control.responses = [] := by
  decide +kernel

theorem test_unknown_command :
    answer .supervisor (after .unknownCommand (asking .supervisor 0x02 [] running)) = some (.unknownCommand, []) := by
  decide

theorem test_nop : answer .control (after .nop (asking .control 0x01 [] running)) = some (.ok, []) := by decide

/-! ## Claims (chapter 2) -/

/-- Section 2.10 before the queue is built: epoch 2, group 0 of outputs 4 and 5, slots 0 and 1 LIVE. -/
def twoLive : State :=
  ({ grouped 0 0x30 20 running with epoch := 2 }.enterLive 0 (steady [0, 1])).enterLive 1 (steady [4])

/-- Section 1.8: the first claim is given 1/4/0. -/
theorem test_claim_granted :
    answer .control (after .claim (asking .control 0x10 [0, 1, 2, 0, 0, 0, 0, 0, 0, 200, 0, 0]
      ({ running with epoch := 1 }.setSlot 0 { generation := 4, state := .free }))) = some (.granted, [0x10, 0x80]) := by
  decide

/-- Section 2.10, claim B, with the queue empty: GROUP, position 1, 2/0/2. -/
theorem test_claim_queued_group :
    answer .control (after .claim (asking .control 0x10 [0, 1, 5, 0, 0, 0, 0, 0, 3, 232, 1, 244] twoLive))
      = some (.queued, [0x20, 0x02, 2, 1]) := by decide

/-! ## The permit table (chapter 1) -/

/-- Section 2.10, first release: slot 0 is FREE with generation 1, and A is granted. -/
theorem test_release_scans :
    ((after .release (asking .control 0x11 [0x20, 0x00] (twoLive.enterWaiting 2 (steady [1])))).slot 0).generation = 1
      ∧ ((after .release (asking .control 0x11 [0x20, 0x00] (twoLive.enterWaiting 2 (steady [1])))).channel 1).state
        = .held 2 false := by decide +kernel

/-- Section 1.8: RETIRE 1/4/0 frees slot 0 with generation 5. -/
theorem test_retire :
    (after .retire (asking .control 0x12 [0x10, 0x80]
      ({ running with epoch := 1 }.setSlot 0 { generation := 4, state := .closed (steady [2]) .expired }))).slot 0
      = { generation := 5, state := .free } := by decide

/-- Section 12.7: the record of 0/0/1. -/
theorem test_query :
    answer .control (after .query (asking .control 0x15 [0x00, 0x01]
      (running.setSlotState 1 (.closed
        { chained 0 { epoch := 0, generation := 0, slot := 0 } .ending 4 20 2 with
          outputs := [{ output := 0, invert := false }, { output := 5, invert := false }]
          pattern := .pulse 10, closeOnCompletion := true, lease := 100, renewGuard := none } (.tripped 0)))))
      = some (.ok, [0, 1, 4, 0x51, 2, 0, 5, 0, 10, 0, 0, 0, 0, 100, 0, 20, 2, 0, 0, 1, 0, 4, 2, 0, 0]) := by decide

/-- R18: two slots from slot 0 on, then no more. -/
theorem test_list :
    answer .supervisor (after .list (asking .supervisor 0x16 [0, 0] twoLive))
      = some (.ok, [2, 0xFF, 0x20, 0x00, 3, 0x20, 0x01, 3]) := by decide

/-- Section 3.7: REVOKE of the low switch sets group 0's quiet time to 4 and group 1's to 10. -/
theorem test_revoke_quiets_both_groups :
    ((after .revoke (asking .supervisor 0x20 [0, 1]
        ((grouped 1 0x6 10 (grouped 0 0x3 4 running)).enterLive 1 (steady [1])))).group 0).quietRemaining = 4
      ∧ ((after .revoke (asking .supervisor 0x20 [0, 1]
        ((grouped 1 0x6 10 (grouped 0 0x3 4 running)).enterLive 1 (steady [1])))).group 1).quietRemaining = 10 := by
  decide +kernel

/-- R20: the CLOSED slot is freed and counted, the LIVE ones stay. -/
theorem test_purge :
    answer .supervisor (after .purge (asking .supervisor 0x21 [0]
      (twoLive.setSlotState 3 (.closed (steady [2]) .expired)))) = some (.ok, [1]) := by decide

/-! ## Leases (chapter 4) and patterns (chapter 5) -/

/-- Section 4.7: 30 left, guard 15. -/
theorem test_renew_too_early :
    answer .control (after .renew (asking .control 0x13 [0, 2]
      (liveWith 2 (steady [6]) (runIn (steady [6]) .on (some 30) none) running)))
      = some (.tooEarly, [0, 30, 0, 15]) := by decide

/-- Section 4.7: exactly 15 left. -/
theorem test_renew_at_the_guard :
    ((after .renew (asking .control 0x13 [0, 2]
      (liveWith 2 (steady [6]) (runIn (steady [6]) .on (some 15) none) running))).slot 2).state
      = .live (steady [6]) (runIn (steady [6]) .on (some 40) none) := by decide

/-- Section 5.11: the second RESTAGE, REPLACED with phase OFF and phase remaining 2. -/
theorem test_restage_replaces :
    answer .control (after .restage (asking .control 0x14 [0, 3, 0, 4, 0, 4]
      (liveWith 3 cycling { runIn cycling .off (some 90) (some 2) with staged := some (2, 6) } running)))
      = some (.replaced, [1, 0, 2, 0]) := by decide

/-! ## Reports, notices and the store (chapters 7, 9 and 10) -/

/-- Section 9.7: output 13, FAULTED with feedback ON. -/
theorem test_find_faulted :
    answer .control (after .find (asking .control 0x17 [13]
      (running.setChannel 13 (watched .faulted .off .on .suspended)))) = some (.ok, [2, 8, 0, 0, 0, 3, 0]) := by decide

/-- The Control Port's set of section 9.7 after tick 530. -/
def noticedPart : State :=
  { running with epoch := 2 }.setNotices .control
    { entries :=
        [ { notice := .trip 2, count := 2 }, { notice := .fault 12, count := 1 },
          { notice := .closed { epoch := 2, generation := 1, slot := 3 }, count := 1 },
          { notice := .granted { epoch := 2, generation := 0, slot := 4 }, count := 1 } ]
      mask := 0b11111
      promoted := some .granted }

/-- Section 9.7: the promoted GRANTED 2/0/4, count 1, 3 left. -/
theorem test_read_notice_promoted :
    answer .control (after .readNotice (asking .control 0x18 [] noticedPart)) = some (.ok, [4, 1, 0x20, 0x04, 3]) := by
  decide

/-- Section 9.7: an empty set. -/
theorem test_read_notice_empty :
    answer .supervisor (after .readNotice (asking .supervisor 0x18 [] noticedPart)) = some (.empty, []) := by decide

/-- R149: ATTN_C is low while the Control Port's set holds an entry, ATTN_S high without one. -/
theorem test_attention_levels :
    noticedPart.attentionLine .control = .low ∧ noticedPart.attentionLine .supervisor = .high := by decide

/-- Section 10.8 before the RESTART: RUN, epoch 0, POWER_ON, 29 free, one waiting, used counts 3 and 0. -/
def beforeRestart : State :=
  ((({ (grouped 0 0x3 10 running) with tickDivider := 500 }.enterLive 0 (steady [0])).enterLive 1 (steady [5])).enterWaiting
    2 (steady [1]))

theorem test_device_status :
    answer .supervisor (after .deviceStatus (asking .supervisor 0x19 [] beforeRestart))
      = some (.ok, [1, 0, 0, 29, 1, 0, 0, 0, 3, 0]) := by decide

/-- Section 10.8: RESTART answers epoch 1 and leaves generation 1 and quiet remaining 10. -/
theorem test_restart_frees_and_quiets :
    answer .supervisor (after .restart (asking .supervisor 0x27 [] beforeRestart)) = some (.ok, [1])
      ∧ ((after .restart (asking .supervisor 0x27 [] beforeRestart)).group 0).quietRemaining = 10 := by decide

theorem test_restart_slots :
    (after .restart (asking .supervisor 0x27 [] beforeRestart)).slot 2 = { generation := 1, state := .free } := by decide

/-- Section 10.8, first request, with a divider count at 7. -/
theorem test_configure_tick_divider :
    (after .configureTickDivider (asking .supervisor 0x22 [1, 1, 244] { State.reset with dividerCount := 7 })).tickDivider
        = 500
      ∧ (after .configureTickDivider (asking .supervisor 0x22 [1, 1, 244]
          { State.reset with dividerCount := 7 })).dividerCount = 0 := by decide

/-- R114: ACTIVE_LOW puts the idle line at the high level, and supervision starts. -/
theorem test_configure_output :
    (after .configureOutput (asking .supervisor 0x22 [2, 4, 1, 3] State.reset)).outputLine 4 = .high
      ∧ ((after .configureOutput (asking .supervisor 0x22 [2, 4, 1, 3] State.reset)).channel 4).supervision
        = .settling 3 := by decide

/-- R117, the tick after the command: the line, still low, is ON in the new polarity, and the due settle end finds a
mismatch. -/
theorem test_configure_output_before_a_due_settle_end :
    ((after (.settleEnd 4) (after .configureOutput (asking .supervisor 0x22 [2, 4, 1, 1] (dueOne (.settle 4)
      (State.reset.setChannel 4 { watched .idle .off .off (.settling 1) with settleTime := 1 }))))).channel 4).state
      = .faulted := by decide

theorem test_configure_group :
    (after .configureGroup (asking .supervisor 0x22 [3, 0, 0, 3, 0, 10] State.reset)).group 0
      = { members := 3, deadTime := 10, quietRemaining := 0 } := by decide

/-- Section 10.8: LOCKED in RUN. -/
theorem test_configure_group_locked :
    answer .supervisor (after .configureGroup (asking .supervisor 0x22 [3, 0, 0, 3, 0, 12] running))
      = some (.locked, []) := by decide

/-- R130: a new filter length clears the filter count and keeps the latch. -/
theorem test_configure_trip_new_length :
    (after .configureTrip (asking .supervisor 0x22 [4, 1, 1, 0, 2, 0, 3]
        (State.reset.setLine 1 (armedLine 3 7 2 true)))).line 1 = armedLine 2 3 0 true := by decide

/-- R130: disabling clears filter count and latch. -/
theorem test_configure_trip_disables :
    ((after .configureTrip (asking .supervisor 0x22 [4, 1, 0, 0, 3, 0, 7]
        (State.reset.setLine 1 (armedLine 3 7 2 true)))).line 1).latched = false := by decide

theorem test_configure_reserved :
    (after .configureReserved (asking .supervisor 0x22 [5, 0x12, 0x34] State.reset)).reserved = 0x1234 := by decide

/-- Section 10.8: 28 and 8 would sum to 36. -/
theorem test_configure_quota_sum :
    answer .supervisor (after .configureQuota (asking .supervisor 0x22 [6, 0, 28] State.reset)) = some (.badParam, []) := by
  decide

theorem test_configure_quota :
    (after .configureQuota (asking .supervisor 0x22 [6, 1, 4] State.reset)).quota = { control := 24, supervisor := 4 } := by
  decide

/-- Section 9.7: the mask without FAULT removes FAULT 12. -/
theorem test_configure_notice_mask :
    ((after .configureNoticeMask (asking .supervisor 0x22 [7, 0, 0x1D] noticedPart)).notices.control.entries.map
      NoticeEntry.notice)
      = [.trip 2, .closed { epoch := 2, generation := 1, slot := 3 },
          .granted { epoch := 2, generation := 0, slot := 4 }] := by decide

/-- Section 10.8: accepted in RUN. -/
theorem test_configure_notice_promote :
    (after .configureNoticePromote (asking .supervisor 0x22 [8, 0, 3] running)).notices.control.promoted = some .closed := by
  decide

theorem test_configure_unknown_item :
    answer .supervisor (after .configureUnknownItem (asking .supervisor 0x22 [9] running)) = some (.badParam, []) := by
  decide

/-- R183: TRIP(1) as section 10.8 leaves it. -/
theorem test_read_config_trip :
    answer .control (after .readConfig (asking .control 0x23 [4, 1] (running.setLine 1 (armedLine 2 3 0 false))))
      = some (.ok, [1, 0, 2, 0, 3, 0, 0]) := by decide

/-! ## Modes and clearing (chapters 8 and 10) -/

/-- Section 10.8: group 0 of one member. -/
theorem test_enter_run_invalid :
    answer .supervisor (after .enterRun (asking .supervisor 0x24 [] (grouped 0 0x1 10 State.reset)))
      = some (.invalidConfig, [3, 0]) := by decide

theorem test_enter_run : (after .enterRun (asking .supervisor 0x24 [] State.reset)).mode = .run := by decide

theorem test_hold : (after .hold (asking .supervisor 0x25 [] running)).mode = .hold := by decide

/-- Section 10.8: the scan of RESUME grants the entry on output 5 and not the one on output 1. -/
theorem test_resume_grants :
    (after .resume (asking .supervisor 0x26 []
      { ((((grouped 0 0x3 10 running).enterLive 0 (steady [0])).enterWaiting 1 (steady [5])).enterWaiting 2 (steady [1]))
        with mode := .hold })).waitQueue = [2] := by decide +kernel

/-- Section 8.8: the filter count stands at the filter length. -/
theorem test_clear_trip_still_active :
    answer .supervisor (after .clearTrip (asking .supervisor 0x28 [1] (running.setLine 1 (armedLine 3 7 3 true))))
      = some (.stillActive, []) := by decide

/-- Section 8.8: the clear grants the waiting entry on output 1. -/
theorem test_clear_trip_scans :
    ((after .clearTrip (asking .supervisor 0x28 [1]
      ((running.setLine 1 (armedLine 3 7 0 true)).enterWaiting 3 (steady [1])))).channel 1).state = .held 3 false := by
  decide +kernel

/-- Section 7.10: FB10 still reads ON. -/
theorem test_clear_fault_still_faulty :
    answer .supervisor (after .clearFault (asking .supervisor 0x29 [10]
      (running.setChannel 10 (watched .faulted .off .on .suspended)))) = some (.stillFaulty, []) := by decide

/-- Section 7.10: FB10 reads OFF. -/
theorem test_clear_fault :
    (after .clearFault (asking .supervisor 0x29 [10]
      (running.setChannel 10 (watched .faulted .off .off .suspended)))).channel 10
      = watched .idle .off .off (.settling 3) := by decide

/-! ## Ticks and their events -/

/-- Section 7.10, tick 320: a mismatch in WATCHING starts the settle time. -/
theorem test_tick_mismatch :
    (after (.tick 0x400 0) { running.setChannel 10 (watched .idle .off .off .watching) with dividerCount := 999 }).channel 10
      = watched .idle .off .on (.settling 3) := by decide

/-- R161: no tick before the period in which the divider count would reach TICK_DIVIDER. -/
theorem test_no_tick_yet : (after (.tick 0 0) { running with dividerCount := 998 }).dividerCount = 998 := by decide

theorem test_refclk_period : (after .refclkPeriod { running with dividerCount := 7 }).dividerCount = 8 := by decide

/-- Section 4.7, tick 593: the lease runs out, output 6 goes IDLE and group 2 goes quiet for 8. -/
theorem test_lease_expiry :
    ((after (.leaseExpiry 2) (dueOne (.lease 2) (liveWith 2 (steady [6]) (runIn (steady [6]) .on (some 1) none)
        (grouped 2 0xC0 8 running)))).slot 2).state = .closed (steady [6]) .expired
      ∧ ((after (.leaseExpiry 2) (dueOne (.lease 2) (liveWith 2 (steady [6]) (runIn (steady [6]) .on (some 1) none)
        (grouped 2 0xC0 8 running)))).group 2).quietRemaining = 8 := by decide +kernel

/-- R69: a lease of 40 renewed before the tick stands at 39 after it. -/
theorem test_lease_renewed_before_the_tick :
    ((after (.leaseExpiry 0) (dueOne (.lease 0) (liveWith 0 (steady [0]) (runIn (steady [0]) .on (some 40) none)
      running))).slot 0).state = .live (steady [0]) (runIn (steady [0]) .on (some 39) none) := by decide

/-- Section 2.10, tick 160: slot 5 closes WAIT_TIMEOUT and leaves the queue. -/
theorem test_wait_timeout :
    ((after (.waitTimeout 5) (dueOne (.wait 5) ((twoLive.enterWaiting 5 (steady [4])).countSlot 5
        (.waiting (steady [4]) 1)))).slot 5).state = .closed (steady [4]) .waitTimeout
      ∧ (after (.waitTimeout 5) (dueOne (.wait 5) ((twoLive.enterWaiting 5 (steady [4])).countSlot 5
        (.waiting (steady [4]) 1)))).waitQueue = [] := by decide +kernel

/-- Section 5.11, tick 1005: phase OFF for 3, output 8 OFF and output 9 ON. -/
theorem test_on_phase_end :
    ((after (.onPhaseEnd 3) (dueOne (.phase 3) (liveWith 3 cycling (runIn cycling .on (some 95) (some 1)) running))).channel
        9).expected = .on
      ∧ ((after (.onPhaseEnd 3) (dueOne (.phase 3)
        (liveWith 3 cycling (runIn cycling .on (some 95) (some 1)) running))).slot 3).state
        = .live cycling (runIn cycling .off (some 95) (some 3)) := by decide

/-- Section 5.11, tick 1016: the boundary applies the pair 4, 4. -/
theorem test_cycle_boundary_applies_the_pair :
    ((after (.cycleBoundary 3) (dueOne (.phase 3) (liveWith 3 cycling
        { runIn cycling .off (some 84) (some 1) with staged := some (4, 4) } running))).slot 3).state
      = .live { cycling with pattern := .cycle 4 4 } (runIn cycling .on (some 84) (some 4)) := by decide

/-- Section 5.3 (R81), tick 10: the last boundary brings the BURST to DONE. -/
theorem test_cycle_boundary_completes :
    ((after (.cycleBoundary 0) (dueOne (.phase 0) (liveWith 0 (bursting false)
        { runIn (bursting false) .off (some 30) (some 1) with cyclesRemaining := some 1 } running))).slot 0).state
      = .live (bursting false)
          { runIn (bursting false) .done (some 30) none with cyclesRemaining := some 0 } := by decide

/-- Section 6.9, tick 223: B closes BLOCKED with QUIET, and C ANCHOR_LOST. -/
theorem test_delay_end_blocked :
    ((after (.delayEnd 1) (dueOne (.delay 1)
        (((running.setGroup 0 { members := 3, deadTime := 5, quietRemaining := 2 }).setSlotState 1
          (.armed (chained 1 { epoch := 0, generation := 0, slot := 0 } .ending 3 0 2) (.delaying 1))).setSlotState 2
          (.armed (chained 0 { epoch := 0, generation := 0, slot := 1 } .ending 6 0 3) .awaitingEvent)))).slot 2).state
      = .closed (chained 0 { epoch := 0, generation := 0, slot := 1 } .ending 6 0 3)
          (.anchorLost { epoch := 0, generation := 0, slot := 1 }) := by decide +kernel

/-- Section 3.7, tick 214: the quiet end grants slot 1. -/
theorem test_quiet_end_grants :
    ((after (.quietEnd 0) (dueOne (.quiet 0)
      ((running.setGroup 0 { members := 3, deadTime := 4, quietRemaining := 1 }).enterWaiting 1 (steady [1])))).channel
      1).state = .held 1 false := by decide +kernel

/-- Section 7.10, tick 311: output 11 driven ON reads OFF. -/
theorem test_settle_end_declares_a_fault :
    (after (.settleEnd 11) (dueOne (.settle 11) (running.setChannel 11 (watched .idle .on .off (.settling 1))))).channel 11
      = watched .faulted .off .off .suspended := by decide

/-- R117: a settle time of 3 that a command starts before the tick stands at 2 after it, whatever the feedback. -/
theorem test_settle_time_started_before_the_tick :
    (after (.settleEnd 11) (dueOne (.settle 11) (running.setChannel 11 (watched .idle .off .on (.settling 3))))).channel 11
      = watched .idle .off .on (.settling 2) := by decide

/-- Section 8.8, tick 403: slot 0 closes TRIPPED, slot 2 takes output 4 and slot 3 stays. -/
theorem test_filtered_assertion :
    (after (.filteredAssertion 1) (dueOne (.trip 1 .high)
      ((((running.setLine 1 (armedLine 3 7 2 false)).enterLive 0 (steady [1, 4])).enterWaiting 2 (steady [4])).enterWaiting
        3 (steady [1])))).waitQueue = [3] := by decide +kernel

/-- Section 9.7, tick 520: a standing TRIP entry counts up. -/
theorem test_filtered_assertion_counts :
    ((after (.filteredAssertion 2) (dueOne (.trip 2 .high) ((noticedPart.setLine 2
      (armedLine 1 0x80 0 true))))).notices.control.entries.head?) = some { notice := .trip 2, count := 3 } := by decide +kernel

/-! ## Witnesses: formats, resets, ports and engine -/

/-- A request that passes the three checks of R172, from its parts. -/
theorem carries_of {s : State} {p : Port} {r : Request} {c : Command}
    (h : s.nextRequest = some (p, r) ∧ commandOf r = c ∧ c ≠ .unknown ∧ permitted c p = true
      ∧ lengthOk c r.params = true) : s.carries p r c := h

theorem witness_RequestFrameIsJudgedWhole :
    ((request 0x01 []).code ≠ 0 ∧ (request 0x01 []).params.length ≤ 32)
      ∧ (request 0xFF (List.replicate 32 0)).code ≠ 0 ∧ (request 0xFF (List.replicate 32 0)).params.length ≤ 32 := by decide

/-- Every field at the greatest value of its width. -/
def widest : ClaimFields :=
  { kind := 7, closeOnCompletion := true, entries := [(127, true), (0, false)], on := 65535, off := 65535, count := 255
    lease := 65535, waitLimit := 65535, renewGuard := some 65535
    anchor := some ({ epoch := 15, generation := 127, slot := 31 }, 255, 65535), label := some 65535 }

theorem witness_ClaimParametersRoundTrip :
    widest.kind < 8 ∧ widest.entries.length < 256 ∧ (∀ e ∈ widest.entries, e.1 < 128) ∧ widest.on < 65536
      ∧ widest.off < 65536 ∧ widest.count < 256 ∧ widest.lease < 65536 ∧ widest.waitLimit < 65536
      ∧ (∀ g ∈ widest.renewGuard, g < 65536) ∧ (∀ a ∈ widest.anchor, a.2.1 < 256 ∧ a.2.2 < 65536)
      ∧ ∀ l ∈ widest.label, l < 65536 := by decide

theorem witness_StatusHeaderCarriesItsFields :
    (collecting.formHeader .control).freePlaces ≤ 4 ∧ { collecting.formHeader .control with freePlaces := 0 }.freePlaces ≤ 4 := by
  decide

theorem witness_PinResetRaisesEpochOnce :
    (3 < 4) ∧ (4 ≤ 4 ∧ { running with rstnLow := true }.rstnLow = true)
      ∧ 4 ≤ 4 ∧ running.rstnLow = false ∧ running.powered = true := by decide

theorem witness_ResetHoldsThePartStill :
    { running with rstnLow := true }.working = false ∧ { running with powered := false }.working = false := by decide

theorem witness_TransactionShiftsHeaderAndResponse :
    (collecting.working = true ∧ (collecting.ports.get .control).chipSelect = false)
      ∧ ((shifted [1]).ports.get .control).transaction.isSome = true
      ∧ (collecting.ports.get .control).transaction = none := by decide

/-- One transaction for each case of R169: nothing, 0x00 first, too short by the frame and by N, N above 32, a wrong check
byte, and a request for a mailbox with room and for a full one. -/
theorem witness_TransactionEndJudgesTheFrame :
    (collecting.ports.get .control).transaction = none
      ∧ (∀ bs ∈ [[], [0], [1, 0], [1, 0, 0], [1, 0, 33], [1, 0, 0, 0x6A], [1, 0, 0, 0x6B], [1, 0, 0, 0x6B, 0, 0]],
          ∃ x : Transaction, ((shifted bs).ports.get .control).transaction = some x ∧ x.received = bs)
      ∧ ∃ x : Transaction, (((shifted [1, 0, 0, 0x6B]).setPort .control
          { (shifted [1, 0, 0, 0x6B]).ports.get .control with
            mailbox := List.replicate 4 (request 0x01 []) }).ports.get .control).transaction = some x := by
  refine ⟨rfl, fun bs _ => ⟨_, rfl, rfl⟩, _, rfl⟩

theorem witness_EngineAlternatesBetweenPorts :
    (asking .control 0x01 [] (asking .supervisor 0x01 [] running)).working = true
      ∧ (∃ q : Port → Prop, ∀ p : Port, q p ↔
          ((asking .control 0x01 [] (asking .supervisor 0x01 [] running)).ports.get p).mailbox ≠ []
            ∧ ((asking .control 0x01 [] (asking .supervisor 0x01 [] running)).ports.get p).responses.length < 4)
      ∧ ∀ p : Port, ¬ ((running.ports.get p).mailbox ≠ [] ∧ (running.ports.get p).responses.length < 4) := by
  refine ⟨by decide, ⟨_, fun _ => Iff.rfl⟩, fun p => ?_⟩
  cases p <;> decide

theorem witness_EngineAnswersEachRequestOnce :
    (asking .control 0x01 [] running).nextRequest = some (.control, request 0x01 []) := by decide

theorem witness_EngineRefusesBeforeTheCommand :
    ((asking .control 0x02 [] running).nextRequest = some (.control, request 0x02 [])
        ∧ commandOf (request 0x02 []) = .unknown)
      ∧ ((asking .control 0x20 [0, 0] running).nextRequest = some (.control, request 0x20 [0, 0])
        ∧ commandOf (request 0x20 [0, 0]) = .revoke ∧ permitted .revoke .control = false)
      ∧ (asking .control 0x01 [0] running).nextRequest = some (.control, request 0x01 [0])
        ∧ commandOf (request 0x01 [0]) = .nop ∧ permitted .nop .control = true ∧ lengthOk .nop [0] = false
        ∧ (request 0x22 [8]).code = 0x22 ∧ byteAt (request 0x22 [8]).params 0 = 8 ∧ byteAt (request 0x22 [9]).params 0 = 9 := by
  decide

theorem witness_NopOnlyAnswers : (asking .control 0x01 [] running).carries .control (request 0x01 []) .nop :=
  carries_of (by decide)

/-! ## Witnesses: claims -/

/-- A STEADY claim for output 6. -/
def plain : ClaimFields :=
  { kind := 0, closeOnCompletion := false, entries := [(6, false)], on := 0, off := 0, count := 0, lease := 40
    waitLimit := 0, renewGuard := none, anchor := none, label := none }

/-- The claim `f` waits in the Control Port's mailbox. -/
def claiming (f : ClaimFields) (s : State) : State := asking .control 0x10 (claimParams f) s

/-- The request of `claiming`. -/
def claimOf (f : ClaimFields) : Request := request 0x10 (claimParams f)

/-- A claim chained to slot 0's permit. -/
def plainAfter (event delay : Nat) : ClaimFields :=
  { plain with anchor := some ({ epoch := 0, generation := 0, slot := 0 }, event, delay) }

/-- One claim for each way to be malformed, at the boundary. -/
def malformedClaims : List ClaimFields :=
  [ { plain with entries := [] },
    { plain with entries := [(0, false), (1, false), (2, false), (3, false), (4, false), (5, false), (6, false), (7, false),
        (8, false)] },
    { plain with entries := [(16, false)] }, { plain with entries := [(6, false), (6, false)] }, { plain with kind := 4 },
    { plain with kind := 1 }, { plain with kind := 2, on := 1 }, { plain with kind := 3, on := 1, off := 1 },
    plainAfter 2 0, { plain with entries := [(6, true)] }, { plain with lease := 0 },
    { plain with renewGuard := some 0 }, { plain with renewGuard := some 41 } ]

theorem witness_ClaimRefusedByFirstFailingCheck_malformed :
    ∀ f ∈ malformedClaims, (claiming f running).carries .control (claimOf f) .claim
      ∧ (readClaim (claimParams f)).malformed .control := by
  unfold State.carries ClaimFields.malformed
  decide

theorem plain_not_malformed : ¬ (readClaim (claimParams plain)).malformed .control := by
  unfold ClaimFields.malformed
  decide

theorem witness_ClaimRefusedByFirstFailingCheck_conflicting :
    (claiming { plain with entries := [(0, false), (1, false)] } (grouped 0 3 4 running)).carries .control
        (claimOf { plain with entries := [(0, false), (1, false)] }) .claim
      ∧ ¬ (readClaim (claimParams { plain with entries := [(0, false), (1, false)] })).malformed .control
      ∧ (claiming { plain with entries := [(0, false), (1, false)] } (grouped 0 3 4 running)).conflicting [0, 1]
      ∧ (readClaim (claimParams { plain with entries := [(0, false), (1, false)] })).outputs.map OutputEntry.output
        = [0, 1] := by
  unfold State.carries ClaimFields.malformed State.conflicting
  decide

/-- RESERVED, NOT_RUNNING and NO_SLOT: output 6 reserved; the mode SETUP; a quota of 0. -/
theorem witness_ClaimRefusedByFirstFailingCheck_part :
    ¬ (readClaim (claimParams plain)).malformed .control
      ∧ (readClaim (claimParams plain)).outputs.map OutputEntry.output = [6]
      ∧ (claiming plain { running with reserved := 0x40 }).carries .control (claimOf plain) .claim
      ∧ ¬ (claiming plain { running with reserved := 0x40 }).conflicting [6]
      ∧ (∃ o ∈ [(6 : OutputNo)], inSet (claiming plain { running with reserved := 0x40 }).reserved o = true)
      ∧ (claiming plain State.reset).carries .control (claimOf plain) .claim
      ∧ ¬ (claiming plain State.reset).conflicting [6] ∧ (claiming plain State.reset).mode = .setup
      ∧ (∀ o ∈ [(6 : OutputNo)], inSet (claiming plain State.reset).reserved o = false)
      ∧ (claiming plain { running with quota := { control := 0, supervisor := 8 } }).carries .control (claimOf plain) .claim
      ∧ ¬ (claiming plain { running with quota := { control := 0, supervisor := 8 } }).conflicting [6]
      ∧ (claiming plain { running with quota := { control := 0, supervisor := 8 } }).mode ≠ .setup
      ∧ (claiming plain { running with quota := { control := 0, supervisor := 8 } }).quota.get .control
        ≤ (claiming plain { running with quota := { control := 0, supervisor := 8 } }).usedCount .control := by
  unfold State.carries ClaimFields.malformed State.conflicting
  and_intros
  all_goals decide

/-- The parts against which a claim chained to 0/0/0 is refused: slot 0 with another generation, of the other port, CLOSED;
and LIVE at depth 4. -/
def badAnchors : List State :=
  [ running.setSlot 0 { generation := 1, state := .live (steady [0]) (newRun (steady [0])) },
    running.setSlotState 0 (.live { steady [0] with owner := .supervisor } (newRun (steady [0]))),
    running.setSlotState 0 (.closed (steady [0]) .expired) ]

/-- Slot 0 LIVE at chain depth 4. -/
def deepAnchor : State := running.enterLive 0 { steady [0] with chainDepth := 4 }

theorem witness_ClaimRefusedByFirstFailingCheck_anchor :
    ¬ (readClaim (claimParams (plainAfter 1 0))).malformed .control
      ∧ (readClaim (claimParams (plainAfter 1 0))).anchor = some ({ epoch := 0, generation := 0, slot := 0 }, 1, 0)
      ∧ (readClaim (claimParams (plainAfter 1 0))).outputs.map OutputEntry.output = [6]
      ∧ (∀ s ∈ badAnchors, (claiming (plainAfter 1 0) s).carries .control (claimOf (plainAfter 1 0)) .claim
          ∧ ¬ (claiming (plainAfter 1 0) s).conflicting [6]
          ∧ (∀ o ∈ [(6 : OutputNo)], inSet (claiming (plainAfter 1 0) s).reserved o = false)
          ∧ s.mode ≠ .setup ∧ s.usedCount .control < s.quota.get .control ∧ (s.slot 1).state = .free
          ∧ (s.handle 0 ≠ { epoch := 0, generation := 0, slot := 0 } ∨ (s.slot 0).state.ownedBy .control = false
            ∨ (s.slot 0).state = .closed (steady [0]) .expired))
      ∧ (claiming (plainAfter 1 0) deepAnchor).carries .control (claimOf (plainAfter 1 0)) .claim
      ∧ deepAnchor.handle 0 = { epoch := 0, generation := 0, slot := 0 }
      ∧ (deepAnchor.slot 0).state.record = some { steady [0] with chainDepth := 4 }
      ∧ (deepAnchor.slot 0).state.isLive = true := by
  unfold State.carries ClaimFields.malformed State.conflicting
  and_intros
  all_goals decide +kernel

theorem witness_ClearClaimIsGranted :
    (claiming plain running).carries .control (claimOf plain) .claim ∧ (claiming plain running).queueLaw
      ∧ (claiming plain running).claimRefusal .control (readClaim (claimParams plain)) = none
      ∧ (readClaim (claimParams plain)).anchor = none ∧ (claiming plain running).isLowestFree 0
      ∧ (claiming plain running).claimTest ((readClaim (claimParams plain)).outputs.map OutputEntry.output)
        (claiming plain running).waitQueue = none := by
  unfold State.carries State.queueLaw State.isLowestFree
  decide +kernel

/-- Output 6 held by slot 0. -/
def heldSix : State := running.enterLive 0 (steady [6])

theorem witness_BlockedClaimWaitsOrLeavesNoTrace :
    ∀ f ∈ [plain, { plain with waitLimit := 1 }],
      (claiming f heldSix).carries .control (claimOf f) .claim
        ∧ (claiming f heldSix).claimRefusal .control (readClaim (claimParams f)) = none
        ∧ (readClaim (claimParams f)).anchor = none ∧ (claiming f heldSix).isLowestFree 1
        ∧ (claiming f heldSix).claimTest ((readClaim (claimParams f)).outputs.map OutputEntry.output)
          (claiming f heldSix).waitQueue = some .held
        ∧ (readClaim (claimParams f)).waitLimit = f.waitLimit := by
  unfold State.carries State.isLowestFree
  decide +kernel

/-- The anchor LIVE, with END awaited; with GRANT awaited and a delay of 1; with GRANT awaited and no delay, clear and
blocked, without and with a wait limit; and the anchor still ARMED. -/
theorem witness_ChainedClaimIsArmed :
    (∀ x ∈ [(running.enterLive 0 (steady [0]), plainAfter 1 0), (running.enterLive 0 (steady [0]), plainAfter 0 1),
          (running.enterLive 0 (steady [0]), plainAfter 0 0), (heldSix, plainAfter 0 0),
          (heldSix, { plainAfter 0 0 with waitLimit := 1 })],
      (claiming x.2 x.1).carries .control (claimOf x.2) .claim ∧ (claiming x.2 x.1).queueLaw
        ∧ (claiming x.2 x.1).claimRefusal .control (readClaim (claimParams x.2)) = none
        ∧ (readClaim (claimParams x.2)).anchorField.isSome = true ∧ (claiming x.2 x.1).isLowestFree 1
        ∧ (claiming x.2 x.1).anchorRefusal .control { epoch := 0, generation := 0, slot := 0 } = none
        ∧ ((claiming x.2 x.1).slot 0).state.isLive = true ∧ ((claiming x.2 x.1).slot 0).state.record.isSome = true)
      ∧ (claiming (plainAfter 0 0) (running.setSlotState 0 (.armed (steady [0]) .awaitingEvent))).anchorRefusal .control
        { epoch := 0, generation := 0, slot := 0 } = none := by
  unfold State.carries State.queueLaw State.isLowestFree
  decide +kernel

/-! ## Witnesses: commands that name a handle -/

/-- A handle command with code `code` for slot 0's permit waits in port `p`'s mailbox. -/
def naming (p : Port) (code : Byte) (s : State) : State := asking p code [0, 0] s

theorem record_unique {st : SlotState} {r q : Permit} (h : st.record = some r) (h' : st.record = some q) : r = q :=
  Option.some.inj (h.symm.trans h')

/-- Slot 0 LIVE, WAITING, ARMED and CLOSED, with handle 0/0/0. -/
def liveZero : State := running.enterLive 0 (steady [0])
def waitingZero : State := (running.enterLive 1 (steady [0])).enterWaiting 0 (steady [0])
def armedZero : State :=
  (running.enterLive 1 (steady [0])).setSlotState 0
    (.armed (chained 0 { epoch := 0, generation := 0, slot := 1 } .ending 3 0 2) .awaitingEvent)
def closedZero : State := running.setSlotState 0 (.closed (steady [0]) .expired)

theorem liveZero_state : (liveZero.slot 0).state = .live (steady [0]) (newRun (steady [0])) := by decide +kernel
theorem waitingZero_state : (waitingZero.slot 0).state = .waiting (steady [0]) 20 := by decide +kernel
theorem armedZero_state : (armedZero.slot 0).state
    = .armed (chained 0 { epoch := 0, generation := 0, slot := 1 } .ending 3 0 2) .awaitingEvent := by decide +kernel
theorem closedZero_state : (closedZero.slot 0).state = .closed (steady [0]) .expired := by decide +kernel

theorem live_not_closed {st : SlotState} {r : Permit} {run : RunPart} (h : st = .live r run) (q : Permit) (c : Closure) :
    st ≠ .closed q c := by
  rw [h]
  exact SlotState.noConfusion

theorem waiting_not_closed {st : SlotState} {r : Permit} {w : Nat} (h : st = .waiting r w) (q : Permit) (c : Closure) :
    st ≠ .closed q c := by
  rw [h]
  exact SlotState.noConfusion

theorem armed_not_closed {st : SlotState} {r : Permit} {part : ArmedPart} (h : st = .armed r part) (q : Permit)
    (c : Closure) : st ≠ .closed q c := by
  rw [h]
  exact SlotState.noConfusion

/-- STALE by generation and by a FREE slot; NOT_OWNER for RELEASE from the Supervisor Port and for QUERY from the Control
Port; WRONG_STATE for RELEASE of a CLOSED permit, RETIRE of a LIVE one and RENEW of a CLOSED one. -/
theorem witness_HandleCommandsRefuseInOrder :
    ((naming .control 0x11 (running.setSlot 0 { generation := 1, state := .closed (steady [0]) .expired })).carries .control
        (request 0x11 [0, 0]) .release
      ∧ (running.setSlot 0 { generation := 1, state := .closed (steady [0]) .expired }).handle 0 ≠ handleAt [0, 0] 0)
    ∧ ((naming .control 0x11 running).carries .control (request 0x11 [0, 0]) .release ∧ (running.slot 0).state = .free)
    ∧ ((naming .supervisor 0x11 closedZero).carries .supervisor (request 0x11 [0, 0]) .release
      ∧ closedZero.handle 0 = handleAt [0, 0] 0 ∧ (closedZero.slot 0).state.record = some (steady [0])
      ∧ (steady [0]).owner ≠ .supervisor)
    ∧ ((naming .control 0x15 (running.setSlotState 0 (.closed { steady [0] with owner := .supervisor } .expired))).carries
        .control (request 0x15 [0, 0]) .query)
    ∧ ((naming .control 0x11 closedZero).carries .control (request 0x11 [0, 0]) .release
      ∧ (closedZero.slot 0).state = .closed (steady [0]) .expired ∧ (steady [0]).owner = .control)
    ∧ ((naming .control 0x12 liveZero).carries .control (request 0x12 [0, 0]) .retire
      ∧ liveZero.handle 0 = handleAt [0, 0] 0 ∧ (liveZero.slot 0).state.record = some (steady [0])
      ∧ ∀ cause : Closure, (liveZero.slot 0).state ≠ .closed (steady [0]) cause)
    ∧ (naming .control 0x13 closedZero).carries .control (request 0x13 [0, 0]) .renew
      ∧ ∀ run : RunPart, (closedZero.slot 0).state ≠ .live (steady [0]) run := by
  refine ⟨⟨carries_of (by decide), by decide⟩, ⟨carries_of (by decide), by decide⟩,
    ⟨carries_of (by decide), by decide, by decide, by decide⟩, carries_of (by decide),
    ⟨carries_of (by decide), by decide, by decide⟩,
    ⟨carries_of (by decide +kernel), by decide +kernel, by decide +kernel, live_not_closed liveZero_state _⟩,
    carries_of (by decide), fun run h => ?_⟩
  rw [closedZero_state] at h
  exact SlotState.noConfusion h

/-- RELEASE of slot 0's permit LIVE, WAITING and ARMED. -/
theorem witness_ReleaseFreesThePermit :
    (∀ s ∈ [liveZero, waitingZero, armedZero],
        (naming .control 0x11 s).carries .control (request 0x11 [0, 0]) .release ∧ s.handle 0 = handleAt [0, 0] 0
          ∧ (s.slot 0).state.ownedBy .control = true)
      ∧ (∀ c : Closure, (liveZero.slot 0).state ≠ .closed (steady [0]) c)
      ∧ (∀ c : Closure, (waitingZero.slot 0).state ≠ .closed (steady [0]) c)
      ∧ ∀ c : Closure, (armedZero.slot 0).state
          ≠ .closed (chained 0 { epoch := 0, generation := 0, slot := 1 } .ending 3 0 2) c := by
  refine ⟨?_, live_not_closed liveZero_state _, waiting_not_closed waitingZero_state _, armed_not_closed armedZero_state _⟩
  unfold State.carries
  decide +kernel

/-- REVOKE of slot 0's permit LIVE, WAITING and ARMED. -/
theorem witness_RevokeClosesThePermit :
    (∀ s ∈ [liveZero, waitingZero, armedZero],
        (naming .supervisor 0x20 s).carries .supervisor (request 0x20 [0, 0]) .revoke ∧ s.handle 0 = handleAt [0, 0] 0
          ∧ (s.slot 0).state.record.isSome = true)
      ∧ (∀ c : Closure, (liveZero.slot 0).state ≠ .closed (steady [0]) c)
      ∧ (∀ c : Closure, (waitingZero.slot 0).state ≠ .closed (steady [0]) c)
      ∧ ∀ c : Closure, (armedZero.slot 0).state
          ≠ .closed (chained 0 { epoch := 0, generation := 0, slot := 1 } .ending 3 0 2) c := by
  refine ⟨?_, live_not_closed liveZero_state _, waiting_not_closed waitingZero_state _, armed_not_closed armedZero_state _⟩
  unfold State.carries
  decide +kernel

/-- The handle of slot `i` in a part that has freed no slot. -/
def first (i : SlotNo) : Handle := { epoch := 0, generation := 0, slot := i }

/-- Output 9 held from slot 4. Slot 0 is at the end of its delay; slot 1 awaits its GRANT, slot 2 the END of slot 1, and slot 3
the END of slot 4. The delay end of slot 0 and the lease end of slot 4 are due. -/
def longChain : State :=
  { (((((running.enterLive 4 (steady [9])).setSlotState 0 (.armed (chained 6 (first 4) .ending 3 0 2) (.delaying 1))).setSlotState 1
      (.armed (chained 7 (first 0) .grant 0 0 3) .awaitingEvent)).setSlotState 2
      (.armed (chained 8 (first 1) .ending 2 0 4) .awaitingEvent)).setSlotState 3
      (.armed (chained 5 (first 4) .ending 2 0 2) .awaitingEvent)) with
    due := [.delay 0, .lease 4, .settle 9] }

/-- A chain of two anchors that leads to the permit released, and one that leads elsewhere. -/
theorem witness_dependentsLost_downTheChain :
    longChain.awaitsPermit 1 0 ∧ Relation.TransGen longChain.awaitsPermit 2 0
      ∧ ¬ Relation.TransGen longChain.awaitsPermit 3 0
      ∧ (naming .control 0x11 longChain).carries .control (request 0x11 [0, 0]) .release
      ∧ (naming .supervisor 0x20 longChain).carries .supervisor (request 0x20 [0, 0]) .revoke := by
  have h1 : longChain.awaitsPermit 1 0 := ⟨_, _, rfl, rfl, rfl⟩
  have h2 : longChain.awaitsPermit 2 1 := ⟨_, _, rfl, rfl, rfl⟩
  refine ⟨h1, .tail (.single h2) h1, fun h => ?_, ?_⟩
  · obtain ⟨k, ⟨r, a, e1, e2, e3⟩, hk⟩ := Relation.TransGen.head'_iff.1 h
    have hr : SlotState.armed (chained 5 (first 4) .ending 2 0 2) .awaitingEvent = .armed r .awaitingEvent := e1
    cases hr
    cases e2
    obtain rfl : (4 : SlotNo) = k := congrArg Handle.slot e3
    rcases Relation.reflTransGen_iff_eq_or_transGen.1 hk with e | hk
    · cases e
    · obtain ⟨m, ⟨r, a, e4, -⟩, -⟩ := Relation.TransGen.head'_iff.1 hk
      have hr : SlotState.live (steady [9]) (newRun (steady [9])) = .armed r .awaitingEvent := e4
      cases hr
  · unfold State.carries
    decide +kernel

/-- R13, R105, R21: RELEASE of slot 0's permit closes slot 1 with slot 0's handle and slot 2 with slot 1's, leaves slot 3, and takes
back the delay end alone. -/
theorem test_release_loses_the_chain :
    ((after .release (naming .control 0x11 longChain)).slot 1).state
        = .closed (chained 7 (first 0) .grant 0 0 3) (.anchorLost (first 0))
      ∧ ((after .release (naming .control 0x11 longChain)).slot 2).state
        = .closed (chained 8 (first 1) .ending 2 0 4) (.anchorLost (first 1))
      ∧ (after .release (naming .control 0x11 longChain)).slot 3 = longChain.slot 3
      ∧ (after .release (naming .control 0x11 longChain)).due = [.lease 4, .settle 9] := by decide +kernel

/-- R100, R99: the GRANT event of slot 0 reaches slot 1, which awaits it, and not slots 2 and 3, which await an END. -/
theorem test_grant_leaves_end_dependents :
    ((after (.delayEnd 0) longChain).slot 1).state
        = .live (chained 7 (first 0) .grant 0 0 3) (newRun (chained 7 (first 0) .grant 0 0 3))
      ∧ (after (.delayEnd 0) longChain).slot 2 = longChain.slot 2
      ∧ (after (.delayEnd 0) longChain).slot 3 = longChain.slot 3 := by decide +kernel

/-- R104, R105: where slot 1's own claim test is blocked, slot 2 loses its anchor. -/
theorem test_blocked_grant_dependent_loses_its_own :
    ((after (.delayEnd 0) (longChain.setChannel 7 { resetChannel with state := .faulted })).slot 1).state
        = .closed (chained 7 (first 0) .grant 0 0 3) (.blocked .fault)
      ∧ ((after (.delayEnd 0) (longChain.setChannel 7 { resetChannel with state := .faulted })).slot 2).state
        = .closed (chained 8 (first 1) .ending 2 0 4) (.anchorLost (first 1)) := by decide +kernel

/-- RETIRE by the owner and by the Supervisor Port; PURGE of port code 0, 1 and 2. -/
theorem witness_RetireAndPurgeFreeClosedSlots :
    ((naming .control 0x12 closedZero).carries .control (request 0x12 [0, 0]) .retire
      ∧ (naming .supervisor 0x12 closedZero).carries .supervisor (request 0x12 [0, 0]) .retire
      ∧ closedZero.handle 0 = handleAt [0, 0] 0 ∧ (closedZero.slot 0).state = .closed (steady [0]) .expired
      ∧ (steady [0]).owner = .control)
    ∧ ((asking .supervisor 0x21 [0] closedZero).carries .supervisor (request 0x21 [0]) .purge
      ∧ byteAt [0] 0 = portCode .control)
    ∧ ((asking .supervisor 0x21 [1] closedZero).carries .supervisor (request 0x21 [1]) .purge
      ∧ byteAt [1] 0 = portCode .supervisor)
    ∧ (asking .supervisor 0x21 [2] closedZero).carries .supervisor (request 0x21 [2]) .purge ∧ 1 < byteAt [2] 0 := by
  unfold State.carries
  decide +kernel

/-- What the statement on QUERY supposes of the record's flags, values in force, entries and state part, for slot 0. -/
def recordParts (s : State) (q : Permit) (flags : Byte) (values : Nat × Nat × Nat) (entries part : List Byte) : Prop :=
  (flags.getLsbD 7 = decide (q.owner = .supervisor) ∧ flags.getLsbD 6 = q.closeOnCompletion
      ∧ flags.getLsbD 5 = q.renewGuard.isSome ∧ flags.getLsbD 4 = q.anchor.isSome ∧ flags.getLsbD 3 = q.label.isSome
      ∧ flags.toNat % 8 = (match q.pattern with | .steady => 0 | .pulse _ => 1 | .cycle _ _ => 2 | .burst _ _ _ => 3)
      ∧ values = (match q.pattern with
          | .steady => (0, 0, 0)
          | .pulse a => (a, 0, 0)
          | .cycle a b => (a, b, 0)
          | .burst a b c => (a, b, c))
      ∧ entries.length = q.outputs.length
      ∧ ∀ (k : Nat) (e : OutputEntry) (b : Byte), q.outputs[k]? = some e → entries[k]? = some b →
          b.getLsbD 7 = e.invert ∧ b.toNat % 128 = e.output.val)
    ∧ (∀ w : Nat, (s.slot 0).state = .waiting q w → part = wordOf w ++ byteOf (s.waitQueue.idxOf 0 + 1))
    ∧ ((s.slot 0).state = .armed q .awaitingEvent → part = [0, 0, 0])
    ∧ (∀ d : Nat, (s.slot 0).state = .armed q (.delaying d) → part = [1] ++ wordOf d)
    ∧ (∀ run : RunPart, (s.slot 0).state = .live q run →
        ∃ presence : Byte, presence.getLsbD 7 = run.leaseRemaining.isSome
          ∧ presence.getLsbD 6 = run.phaseRemaining.isSome ∧ presence.getLsbD 5 = run.cyclesRemaining.isSome
          ∧ presence.getLsbD 4 = run.staged.isSome ∧ presence.toNat % 16 = 0
          ∧ part = [presence, match run.phase with | .on => 0 | .off => 1 | .done => 2]
              ++ (run.leaseRemaining.toList.flatMap wordOf) ++ (run.phaseRemaining.toList.flatMap wordOf)
              ++ (run.cyclesRemaining.toList.flatMap byteOf)
              ++ (run.staged.toList.flatMap fun pair => wordOf pair.1 ++ wordOf pair.2))
    ∧ ∀ cause : Closure, (s.slot 0).state = .closed q cause →
        part = (match cause with
          | .expired => [1, 0, 0]
          | .tripped l => [2] ++ wordOf l.val
          | .fault o => [3] ++ wordOf o.val
          | .revoked => [4, 0, 0]
          | .anchorLost a => [5] ++ wordOf (handleWord a).toNat
          | .waitTimeout => [6, 0, 0]
          | .blocked reason => [7] ++ wordOf (blockReasonCode reason)
          | .completed => [8, 0, 0])

theorem single_entry {e e' : OutputEntry} {b b' : Byte} {k : Nat} (h : [e][k]? = some e') (h' : [b][k]? = some b') :
    e = e' ∧ b = b' := by
  cases k with
  | zero => exact ⟨Option.some.inj h, Option.some.inj h'⟩
  | succ k => cases h

/-- QUERY of slot 0's permit LIVE, WAITING, ARMED and CLOSED, with the flags, the values, the entry and the state part of
each by section 12.6. -/
theorem witness_QueryReportsTheRecord :
    (∀ s ∈ [liveZero, waitingZero, armedZero, closedZero],
      (naming .supervisor 0x15 s).carries .supervisor (request 0x15 [0, 0]) .query ∧ s.handle 0 = handleAt [0, 0] 0
        ∧ (s.slot 0).state.record.isSome = true)
      ∧ recordParts liveZero (steady [0]) 0x20 (0, 0, 0) [0] [0x80, 0, 0, 40]
      ∧ recordParts waitingZero (steady [0]) 0x20 (0, 0, 0) [0] [0, 20, 1]
      ∧ recordParts armedZero (chained 0 { epoch := 0, generation := 0, slot := 1 } .ending 3 0 2) 0x31 (20, 0, 0) [0]
          [0, 0, 0]
      ∧ recordParts closedZero (steady [0]) 0x20 (0, 0, 0) [0] [1, 0, 0] := by
  have entry : ∀ (k : Nat) (e : OutputEntry) (b : Byte), [({ output := 0, invert := false } : OutputEntry)][k]? = some e →
      [(0 : Byte)][k]? = some b → b.getLsbD 7 = e.invert ∧ b.toNat % 128 = e.output.val := by
    intro k e b h h'
    obtain ⟨rfl, rfl⟩ := single_entry h h'
    decide
  refine ⟨by unfold State.carries; decide +kernel, ?_, ?_, ?_, ?_⟩
  all_goals
    refine ⟨⟨by decide, by decide, by decide, by decide, by decide, by decide, by decide, by decide, entry⟩, ?_⟩
  · rw [liveZero_state]
    refine ⟨nofun, nofun, nofun, fun run h => ?_, nofun⟩
    obtain ⟨-, rfl⟩ := SlotState.live.inj h
    exact ⟨0x80, by decide, by decide, by decide, by decide, by decide, by decide⟩
  · rw [waitingZero_state]
    refine ⟨fun w h => ?_, nofun, nofun, nofun, nofun⟩
    obtain ⟨-, rfl⟩ := SlotState.waiting.inj h
    decide +kernel
  · rw [armedZero_state]
    exact ⟨nofun, fun _ => rfl, nofun, nofun, nofun⟩
  · rw [closedZero_state]
    refine ⟨nofun, nofun, nofun, nofun, fun cause h => ?_⟩
    obtain ⟨-, rfl⟩ := SlotState.closed.inj h
    rfl

/-- One slot parameter at 31 and 32; two with port codes 0, 1 and 2; from the Control Port naming the Supervisor Port. -/
theorem witness_ListReportsSlotsInPages :
    (∀ ps ∈ [[31], [32], [31, 0], [31, 1], [0, 2], [32, 0]],
        (asking .supervisor 0x16 ps liveZero).carries .supervisor (request 0x16 ps) .list)
      ∧ (asking .control 0x16 [31, 1] liveZero).carries .control (request 0x16 [31, 1]) .list
      ∧ byteAt [31] 0 ≤ 31 ∧ 31 < byteAt [32] 0 ∧ 1 < byteAt [0, 2] 1
      ∧ byteAt [31, 0] 1 = portCode .control ∧ byteAt [31, 1] 1 = portCode .supervisor := by
  unfold State.carries
  decide +kernel

/-! ## Witnesses: reports and notices -/

/-- FIND of output 16; of output 15, IDLE; of output 0, held by the asking port's permit. -/
theorem witness_FindReportsTheChannel :
    ((asking .control 0x17 [16] liveZero).carries .control (request 0x17 [16]) .find ∧ 15 < byteAt [16] 0)
      ∧ ((asking .control 0x17 [15] liveZero).carries .control (request 0x17 [15]) .find ∧ byteAt [15] 0 = (15 : OutputNo).val
        ∧ (liveZero.channel 15).state.isHeld = false ∧ (0 : Byte).getLsbD 4 = decide ((liveZero.channel 15).expected = .on)
        ∧ (0 : Byte).getLsbD 3 = decide ((liveZero.channel 15).feedback = .on)
        ∧ (0 : Byte).getLsbD 2 = liveZero.underTrip 15)
      ∧ (asking .control 0x17 [0] liveZero).carries .control (request 0x17 [0]) .find ∧ byteAt [0] 0 = (0 : OutputNo).val
        ∧ (liveZero.channel 0).state = .held 0 false ∧ (liveZero.slot 0).state.record = some (steady [0])
        ∧ (0xD0 : Byte).getLsbD 7 = true ∧ (0xD0 : Byte).getLsbD 6 = decide ((steady [0]).owner = .control)
        ∧ (0xD0 : Byte).getLsbD 5 = false ∧ (0xD0 : Byte).getLsbD 4 = decide ((liveZero.channel 0).expected = .on)
        ∧ (0xD0 : Byte).getLsbD 3 = decide ((liveZero.channel 0).feedback = .on)
        ∧ (0xD0 : Byte).getLsbD 2 = liveZero.underTrip 0 := by
  unfold State.carries
  decide +kernel

/-- A part with line 1 latched and output 10 FAULTED. -/
def troubled : State :=
  (running.setLine 1 (armedLine 3 7 0 true)).setChannel 10 (watched .faulted .off .off .suspended)

theorem witness_DeviceStatusReportsThePart :
    (asking .control 0x19 [] troubled).carries .control (request 0x19 []) .deviceStatus
      ∧ (∀ k : Fin 8, (2 : Byte).getLsbD k.val = (if h : k.val < 4 then (troubled.line ⟨k.val, h⟩).latched else false))
      ∧ ∀ o : OutputNo, (0x400 : Word16).getLsbD o.val = decide ((troubled.channel o).state = .faulted) := by
  unfold State.carries
  decide +kernel

/-- Every item with its greatest index, and one index and item code above each range. -/
theorem witness_ReadConfigReportsTheItem :
    ∀ ps ∈ [[1], [2, 15], [2, 16], [3, 7], [3, 8], [4, 3], [4, 4], [5], [6, 1], [6, 2], [7, 1], [7, 2], [8, 1], [8, 2],
        [0], [9]],
      (asking .control 0x23 ps troubled).carries .control (request 0x23 ps) .readConfig := by
  unfold State.carries
  decide +kernel

/-- TRIP 2 twice and CLOSED 0/0/0 in the Control Port's set. -/
def noticedZero (promoted : Option NoticeKind) : State :=
  closedZero.setNotices .control
    { entries :=
        [ { notice := .trip 2, count := 2 },
          { notice := .closed { epoch := 0, generation := 0, slot := 0 }, count := 1 } ]
      mask := 0b11111
      promoted := promoted }

theorem noticedZero_lawful (k : Option NoticeKind) : (noticedZero k).noticeLaw := by
  have hown : ((noticedZero k).slot 0).state.ownedBy .control = true := by
    rw [noticedZero, State.setNotices_slot, closedZero_state]
    rfl
  have hc : ((noticedZero k).notices.get .control).entries =
      [ { notice := .trip 2, count := 2 },
        { notice := .closed { epoch := 0, generation := 0, slot := 0 }, count := 1 } ] := rfl
  have hs : ((noticedZero k).notices.get .supervisor).entries = [] := rfl
  intro p
  cases p with
  | control =>
    have hm : ((noticedZero k).notices.get .control).mask = 0b11111 := rfl
    rw [hc, hm]
    refine ⟨by decide, by decide, by decide, fun e he h hh => ?_⟩
    rcases List.mem_cons.mp he with rfl | he
    · cases hh
    · obtain rfl := List.mem_singleton.mp he
      obtain rfl : { epoch := 0, generation := 0, slot := 0 } = h := Option.some.inj hh
      exact ⟨rfl, hown⟩
  | supervisor =>
    rw [hs]
    refine ⟨List.Pairwise.nil, List.nodup_nil, fun e he => ?_, fun e he => ?_⟩
    all_goals cases he

/-- The set empty; nothing promoted; a promoted kind present, and one absent. -/
theorem witness_ReadNoticeTakesTheFirstEntry :
    ((asking .supervisor 0x18 [] (noticedZero none)).carries .supervisor (request 0x18 []) .readNotice
        ∧ ((noticedZero none).notices.get .supervisor).entries = [])
      ∧ (∀ k ∈ [none, some NoticeKind.closed, some NoticeKind.granted],
          (asking .control 0x18 [] (noticedZero k)).carries .control (request 0x18 []) .readNotice
            ∧ ((noticedZero k).notices.get .control).entries ≠ [])
      ∧ ∀ k : Option NoticeKind, (asking .control 0x18 [] (noticedZero k)).noticeLaw := by
  refine ⟨?_, ?_, fun k => noticedZero_lawful k⟩
  all_goals
    unfold State.carries
    decide +kernel

/-! ## Witnesses: RENEW and RESTAGE -/

/-- Slot 0 LIVE with no lease, with a lease of 30 beyond its guard of 15, and of 15 at it. -/
theorem witness_RenewSetsTheFullLease :
    ∀ n ∈ [none, some 30, some 15],
      (naming .control 0x13 (liveWith 0 (steady [0]) (runIn (steady [0]) .on n none) running)).carries .control
          (request 0x13 [0, 0]) .renew
        ∧ (liveWith 0 (steady [0]) (runIn (steady [0]) .on n none) running).handle 0 = handleAt [0, 0] 0
        ∧ ((liveWith 0 (steady [0]) (runIn (steady [0]) .on n none) running).slot 0).state
          = .live (steady [0]) (runIn (steady [0]) .on n none)
        ∧ (steady [0]).owner = .control ∧ (steady [0]).renewGuard = some 15 := by
  unfold State.carries
  decide +kernel

/-- RESTAGE of a STEADY permit, of a BURST in DONE, of a CYCLE with an on of 0 and an off of 0, and with both given. -/
theorem witness_RestageStagesThePair :
    (∀ x ∈ [(steady [0], Phase.on), (bursting false, Phase.done), (cycling, Phase.off)],
        ∀ ps ∈ [[0, 0, 0, 0, 0, 1], [0, 0, 0, 1, 0, 0], [0, 0, 0, 1, 0, 1]],
          (asking .control 0x14 ps (liveWith 0 x.1 (runIn x.1 x.2 (some 9) (some 1)) running)).carries .control
              (request 0x14 ps) .restage
            ∧ (liveWith 0 x.1 (runIn x.1 x.2 (some 9) (some 1)) running).handle 0 = handleAt ps 0
            ∧ ((liveWith 0 x.1 (runIn x.1 x.2 (some 9) (some 1)) running).slot 0).state
              = .live x.1 (runIn x.1 x.2 (some 9) (some 1))
            ∧ x.1.owner = .control)
      ∧ wordAt [0, 0, 0, 0, 0, 1] 2 = 0 ∧ wordAt [0, 0, 0, 1, 0, 0] 4 = 0 ∧ wordAt [0, 0, 0, 1, 0, 1] 2 ≠ 0 := by
  unfold State.carries
  decide +kernel

/-! ## Witnesses: configuration -/

theorem reset_setupLaw_with {s : State} (h : s.channels = State.reset.channels) (h' : s.slots = State.reset.slots) :
    s.setupLaw := by
  have hc : ∀ o : OutputNo, s.channel o = State.reset.channel o := fun o => congrArg (fun v => v.get o) h
  have hs : ∀ i : SlotNo, s.slot i = State.reset.slot i := fun i => congrArg (fun v => v.get i) h'
  refine ⟨fun o _ => ?_, fun _ => ⟨fun i => ?_, fun o => ?_⟩⟩
  · rw [hc]
    exact (by decide : ∀ o : OutputNo, (State.reset.channel o).expected = .off) o
  · rw [hs]
    exact (by decide : ∀ i : SlotNo, (State.reset.slot i).state = .free) i
  · rw [hc]
    exact (by decide : ∀ o : OutputNo, (State.reset.channel o).state.isHeld = false) o

theorem witness_ConfigureRefusesUnknownAndLocked :
    (asking .supervisor 0x22 [9] running).carries .supervisor (request 0x22 [9]) .configureUnknownItem
      ∧ running.mode ≠ .setup
      ∧ ∀ x ∈ [(Command.configureTickDivider, [1, 1, 244]), (.configureOutput, [2, 16, 2, 0]),
            (.configureGroup, [3, 8, 0, 3, 0, 4]), (.configureTrip, [4, 4, 1, 0, 2, 0, 7]), (.configureReserved, [5, 0, 1]),
            (.configureQuota, [6, 2, 33])],
          (asking .supervisor 0x22 x.2 running).carries .supervisor (request 0x22 x.2) x.1 := by
  unfold State.carries
  decide

/-- GROUP with the greatest index and dead time, and one above each; OUTPUT with the greatest index and polarity, one above
each, IDLE and FAULTED. -/
theorem witness_ConfigureGroupAndOutput :
    (∀ ps ∈ [[3, 7, 0, 3, 0x0F, 0xFF], [3, 8, 0, 3, 0, 4], [3, 7, 0, 3, 0x10, 0]],
        (asking .supervisor 0x22 ps State.reset).carries .supervisor (request 0x22 ps) .configureGroup)
      ∧ wordAt [3, 7, 0, 3, 0x0F, 0xFF] 4 = 4095 ∧ 4095 < wordAt [3, 7, 0, 3, 0x10, 0] 4
      ∧ (∀ ps ∈ [[2, 15, 1, 255], [2, 15, 0, 0], [2, 16, 1, 3], [2, 15, 2, 3]],
        (asking .supervisor 0x22 ps State.reset).carries .supervisor (request 0x22 ps) .configureOutput)
      ∧ (asking .supervisor 0x22 [2, 15, 1, 255] State.reset).setupLaw
      ∧ (asking .supervisor 0x22 [2, 15, 1, 255] State.reset).mode = .setup
      ∧ (State.reset.channel 15).state = .idle
      ∧ (asking .supervisor 0x22 [2, 15, 1, 255] (dueOne (.settle 15) State.reset)).setupLaw
      ∧ TickEvent.settle 15 ∈ (dueOne (.settle 15) State.reset).due
      ∧ (asking .supervisor 0x22 [2, 15, 1, 255] (dueOne (.settle 15) State.reset)).carries .supervisor
        (request 0x22 [2, 15, 1, 255]) .configureOutput := by
  refine ⟨?_, ?_, ?_, ?_, reset_setupLaw_with rfl rfl, rfl, ?_, reset_setupLaw_with rfl rfl, ?_, ?_⟩
  all_goals
    try unfold State.carries
    decide

/-- A line above 3, an active level above 1, a filter length of 0 and of 16; and lengths 1 and 15 on a disabled line, on an
enabled one kept enabled and on one disabled. -/
theorem witness_ConfigureTripActsOnCountAndLatch :
    (∀ ps ∈ [[4, 4, 1, 0, 2, 0, 7], [4, 3, 1, 2, 2, 0, 7], [4, 3, 1, 0, 0, 0, 7], [4, 3, 1, 0, 16, 0, 7],
          [4, 3, 1, 1, 1, 0, 7], [4, 3, 1, 0, 15, 0, 7], [4, 3, 0, 0, 15, 0, 7]],
        (asking .supervisor 0x22 ps State.reset).carries .supervisor (request 0x22 ps) .configureTrip
          ∧ (asking .supervisor 0x22 ps (State.reset.setLine 3 (armedLine 15 7 2 true))).carries .supervisor
            (request 0x22 ps) .configureTrip)
      ∧ (State.reset.line 3).enabled = false ∧ ((State.reset.setLine 3 (armedLine 15 7 2 true)).line 3).enabled = true
      ∧ ∀ ps : List Byte, (asking .supervisor 0x22 ps State.reset).setupLaw
        ∧ (asking .supervisor 0x22 ps (State.reset.setLine 3 (armedLine 15 7 2 true))).setupLaw := by
  refine ⟨?_, ?_, ?_, fun ps => ⟨reset_setupLaw_with rfl rfl, reset_setupLaw_with rfl rfl⟩⟩
  all_goals
    try unfold State.carries
    decide +kernel

/-- Dividers 9 and 10; any RESERVED set; quotas for ports 0, 1 and 2, one of 33, one that would sum to 33 and one to 32. -/
theorem witness_ConfigureWritesTheStore :
    (asking .supervisor 0x22 [1, 0, 9] State.reset).carries .supervisor (request 0x22 [1, 0, 9]) .configureTickDivider
      ∧ (asking .supervisor 0x22 [1, 0, 10] State.reset).carries .supervisor (request 0x22 [1, 0, 10]) .configureTickDivider
      ∧ (asking .supervisor 0x22 [5, 0, 1] State.reset).carries .supervisor (request 0x22 [5, 0, 1]) .configureReserved
      ∧ (∀ ps ∈ [[6, 2, 0], [6, 0, 33], [6, 0, 25], [6, 0, 24], [6, 1, 8]],
          (asking .supervisor 0x22 ps State.reset).carries .supervisor (request 0x22 ps) .configureQuota)
      ∧ (∀ p ∈ [Port.control, .supervisor], State.reset.usedCount p = 0)
      ∧ 32 < 25 + State.reset.quota.get (otherPort .control) ∧ 24 + State.reset.quota.get (otherPort .control) ≤ 32 := by
  unfold State.carries
  decide

theorem witness_ConfigureNoticesInEveryMode :
    (∀ ps ∈ [[7, 0, 31], [7, 1, 0], [7, 2, 0], [7, 0, 32]],
        (asking .supervisor 0x22 ps running).carries .supervisor (request 0x22 ps) .configureNoticeMask)
      ∧ ∀ ps ∈ [[8, 0, 0], [8, 1, 5], [8, 2, 0], [8, 0, 6]],
        (asking .supervisor 0x22 ps running).carries .supervisor (request 0x22 ps) .configureNoticePromote := by
  unfold State.carries
  decide

/-! ## Witnesses: modes and clearing -/

/-- RUN; SETUP with a group of one; with quotas above 32; with an enabled line of empty map; and clean. -/
theorem witness_EnterRunChecksTheStore :
    (asking .supervisor 0x24 [] running).carries .supervisor (request 0x24 []) .enterRun
      ∧ (∀ s ∈ [grouped 7 1 4 State.reset, { State.reset with quota := { control := 25, supervisor := 8 } },
            State.reset.setLine 3 (armedLine 1 0 0 false), State.reset],
          (asking .supervisor 0x24 [] s).carries .supervisor (request 0x24 []) .enterRun ∧ s.mode = .setup)
      ∧ (∀ g : GroupNo, (∃ o : OutputNo, ∀ o' : OutputNo,
            inSet ((grouped 7 1 4 State.reset).group g).members o' = true ↔ o' = o) ↔ g = 7)
      ∧ (∀ g : GroupNo, ¬ ∃ o : OutputNo, ∀ o' : OutputNo, inSet (State.reset.group g).members o' = true ↔ o' = o)
      ∧ 32 < 25 + 8
      ∧ ((State.reset.setLine 3 (armedLine 1 0 0 false)).line 3).enabled = true
      ∧ ∀ l : LineNo, (State.reset.line l).enabled = false := by
  unfold State.carries
  decide +kernel

theorem witness_HoldAndResumeMoveTheMode :
    ((asking .supervisor 0x25 [] running).carries .supervisor (request 0x25 []) .hold ∧ running.mode = .run)
      ∧ ((asking .supervisor 0x25 [] State.reset).carries .supervisor (request 0x25 []) .hold ∧ State.reset.mode ≠ .run)
      ∧ ((asking .supervisor 0x26 [] { running with mode := .hold }).carries .supervisor (request 0x26 []) .resume)
      ∧ (asking .supervisor 0x26 [] running).carries .supervisor (request 0x26 []) .resume ∧ running.mode ≠ .hold := by
  unfold State.carries
  decide

theorem witness_RestartFreesEverySlot :
    (asking .supervisor 0x27 [] beforeRestart).carries .supervisor (request 0x27 []) .restart :=
  carries_of (by decide +kernel)

/-- Lines 3 and 4: disabled, not latched, still active, and clear; outputs 15 and 16: IDLE, FAULTED with feedback ON and
OFF. -/
theorem witness_ClearTripAndClearFault :
    (∀ s ∈ [running, running.setLine 3 (armedLine 3 7 0 false), running.setLine 3 (armedLine 3 7 3 true),
          running.setLine 3 (armedLine 3 7 2 true)],
        (asking .supervisor 0x28 [3] s).carries .supervisor (request 0x28 [3]) .clearTrip)
      ∧ (asking .supervisor 0x28 [4] running).carries .supervisor (request 0x28 [4]) .clearTrip
      ∧ (∀ s ∈ [running, running.setChannel 15 (watched .faulted .off .on .suspended),
          running.setChannel 15 (watched .faulted .off .off .suspended)],
        (asking .supervisor 0x29 [15] s).carries .supervisor (request 0x29 [15]) .clearFault)
      ∧ (asking .supervisor 0x29 [16] running).carries .supervisor (request 0x29 [16]) .clearFault := by
  unfold State.carries
  decide +kernel

/-! ## Witnesses: ticks and their events -/

theorem witness_TimeBaseCountsPeriodsAndTicks :
    ({ liveZero with dividerCount := 999 }.working = true
        ∧ { liveZero with dividerCount := 999 }.tickDivider ≤ { liveZero with dividerCount := 999 }.dividerCount + 1
        ∧ { liveZero with dividerCount := 999 }.due = [] ∧ ∃ fall : Nat → Nat, ∀ n, fall n = if n ≤ 1 then n else n - 1)
      ∧ { liveZero with dividerCount := 998 }.working = true
        ∧ { liveZero with dividerCount := 998 }.dividerCount + 1 < { liveZero with dividerCount := 998 }.tickDivider
        ∧ { liveZero with dividerCount := 998 }.due = [] :=
  ⟨⟨by decide +kernel, by decide +kernel, by decide +kernel, _, fun _ => rfl⟩, by decide +kernel, by decide +kernel,
    by decide +kernel⟩

/-- Slot 0's lease at its last tick, and slot 0's wait at its last tick. -/
def leaseEnding : State := dueOne (.lease 0) (liveWith 0 (steady [0]) (runIn (steady [0]) .on (some 1) none) running)
def waitEnding : State := dueOne (.wait 0) (waitingZero.countSlot 0 (.waiting (steady [0]) 1))

/-- Slot 0's lease renewed to 2 since the tick at which it would have run out, and to its whole 40. -/
theorem witness_LeaseAndWaitRunOut_renewed :
    ∀ n ∈ [2, 40],
      TickEvent.lease 0 ∈ (dueOne (.lease 0) (liveWith 0 (steady [0]) (runIn (steady [0]) .on (some n) none) running)).due
        ∧ ((dueOne (.lease 0) (liveWith 0 (steady [0]) (runIn (steady [0]) .on (some n) none) running)).slot 0).state
          = .live (steady [0]) (runIn (steady [0]) .on (some n) none) := by decide +kernel

/-- The time base with a lease of the last tick still to run out. -/
theorem witness_TimeBaseCountsPeriodsAndTicks_outstanding :
    leaseEnding.working = true ∧ leaseEnding.due ≠ [] ∧ leaseEnding.dividerCount + 1 < leaseEnding.tickDivider
      ∧ { leaseEnding with dividerCount := 999 }.working = true ∧ { leaseEnding with dividerCount := 999 }.due ≠ []
      ∧ { leaseEnding with dividerCount := 999 }.tickDivider ≤ { leaseEnding with dividerCount := 999 }.dividerCount + 1 := by
  decide +kernel

theorem witness_LeaseAndWaitRunOut :
    (TickEvent.lease 0 ∈ leaseEnding.due
        ∧ (leaseEnding.slot 0).state = .live (steady [0]) (runIn (steady [0]) .on (some 1) none))
      ∧ TickEvent.wait 0 ∈ waitEnding.due ∧ (waitEnding.slot 0).state = .waiting (steady [0]) 1 := by decide +kernel

/-- Slot 0's phase at its last tick. -/
def phaseEnding (r : Permit) (run : RunPart) : State := dueOne (.phase 0) (liveWith 0 r run running)

/-- A CYCLE, a BURST and a PULSE that stays in DONE or closes. -/
theorem witness_OnPhaseEndMovesThePattern :
    ∀ r ∈ [cycling, bursting false, pulsing false, pulsing true],
      TickEvent.phase 0 ∈ (phaseEnding r (runIn r .on (some 9) (some 1))).due
        ∧ ((phaseEnding r (runIn r .on (some 9) (some 1))).slot 0).state = .live r (runIn r .on (some 9) (some 1)) := by
  decide +kernel

/-- A CYCLE without and with a staged pair, a BURST with 2 and with 1 cycles remaining that stays in DONE or closes. -/
theorem witness_CycleBoundaryStartsTheNextCycle :
    ∀ x ∈ [(cycling, runIn cycling .off (some 9) (some 1)),
          (cycling, { runIn cycling .off (some 9) (some 1) with staged := some (4, 4) }),
          (bursting false, runIn (bursting false) .off (some 9) (some 1)),
          (bursting false, { runIn (bursting false) .off (some 9) (some 1) with cyclesRemaining := some 1 }),
          (bursting true, { runIn (bursting true) .off (some 9) (some 1) with cyclesRemaining := some 1 })],
      TickEvent.phase 0 ∈ (phaseEnding x.1 x.2).due ∧ ((phaseEnding x.1 x.2).slot 0).state = .live x.1 x.2
        ∧ x.2.phase = .off ∧ x.2.phaseRemaining = some 1
        ∧ (x.2.cyclesRemaining = none ∨ x.2.cyclesRemaining = some 2 ∨ x.2.cyclesRemaining = some 1) := by
  decide +kernel

/-- Slot 1 at the end of its delay, in a part where output 0 is free or held. -/
def delayEnding (wait : Nat) (s : State) : State :=
  dueOne (.delay 1)
    (s.setSlotState 1 (.armed (chained 0 { epoch := 0, generation := 0, slot := 9 } .ending 3 wait 2) (.delaying 1)))

theorem witness_DelayEndMakesTheClaimTest :
    (∀ x ∈ [(0, running), (0, liveZero), (1, liveZero)],
        TickEvent.delay 1 ∈ (delayEnding x.1 x.2).due
          ∧ ((delayEnding x.1 x.2).slot 1).state
            = .armed (chained 0 { epoch := 0, generation := 0, slot := 9 } .ending 3 x.1 2) (.delaying 1))
      ∧ (delayEnding 0 running).claimTest [0] (delayEnding 0 running).waitQueue = none
      ∧ (delayEnding 0 liveZero).claimTest [0] (delayEnding 0 liveZero).waitQueue = some .held
      ∧ (chained 0 { epoch := 0, generation := 0, slot := 9 } .ending 3 0 2).outputNos = [0] := by decide +kernel

/-- The last count, and one of 2 and of 4 that a departure has set since the tick. -/
theorem witness_QuietEndScansTheQueue :
    ∀ n ∈ [1, 2, 4],
      TickEvent.quiet 7 ∈ (dueOne (.quiet 7) (running.setGroup 7 { members := 3, deadTime := 4, quietRemaining := n })).due
        ∧ ((dueOne (.quiet 7) (running.setGroup 7 { members := 3, deadTime := 4, quietRemaining := n })).group
          7).quietRemaining = n := by decide +kernel

/-- A match; a mismatch on an output that is IDLE, and on one that a LIVE permit holds. -/
theorem witness_SettleEndComparesTheFeedback :
    (∀ c ∈ [watched .idle .off .off (.settling 1), watched .idle .off .on (.settling 1)],
        TickEvent.settle 15 ∈ (dueOne (.settle 15) (running.setChannel 15 c)).due
          ∧ ((dueOne (.settle 15) (running.setChannel 15 c)).channel 15).supervision = .settling 1)
      ∧ TickEvent.settle 0 ∈ (dueOne (.settle 0) (liveZero.setChannel 0 (watched (.held 0 false) .on .off (.settling 1)))).due
      ∧ ((dueOne (.settle 0) (liveZero.setChannel 0 (watched (.held 0 false) .on .off (.settling 1)))).channel 0).supervision
        = .settling 1
      ∧ ((dueOne (.settle 0) (liveZero.setChannel 0 (watched (.held 0 false) .on .off (.settling 1)))).slot 0).state
        = .live (steady [0]) (newRun (steady [0])) := by decide +kernel

/-- A settle time of 2 and of 3 that a command has started since the tick. -/
theorem witness_SettleEndComparesTheFeedback_restarted :
    ∀ n ∈ [2, 3],
      TickEvent.settle 15 ∈ (dueOne (.settle 15) (running.setChannel 15 (watched .idle .off .on (.settling n)))).due
        ∧ ((dueOne (.settle 15) (running.setChannel 15 (watched .idle .off .on (.settling n)))).channel 15).supervision
          = .settling n := by decide +kernel

/-- Both ports have entries for TRIP 3, FAULT 0 and COMPLETED 0/0/0, at a repeat count of 15, 1 and 14. -/
def standing (s : State) : State :=
  let unit : NoticeUnit :=
    { entries :=
        [ { notice := .trip 3, count := 15 }, { notice := .fault 0, count := 1 },
          { notice := .completed { epoch := 0, generation := 0, slot := 0 }, count := 14 } ]
      mask := 0b11111
      promoted := none }
  { s with notices := { control := unit, supervisor := unit } }

/-- The order that the statements on posts suppose, in a part with standing entries and in one without. -/
theorem witness_notices_ordered (s : State) :
    (standing s).noticesOrdered ∧ running.noticesOrdered
      ∧ ∀ p : Port, maskHas ((standing s).notices.get p).mask .trip = true
          ∧ { notice := .trip 3, count := 15 } ∈ ((standing s).notices.get p).entries := by
  refine ⟨fun p => ?_, fun p => ?_, fun p => ?_⟩
  · cases p <;> (show List.Pairwise _ _; simp [standing, PerPort.get, Notice.place])
  · cases p <;> exact .nil
  · cases p <;> exact ⟨(by decide : maskHas 0b11111 .trip = true), by simp [standing, PerPort.get]⟩

/-- R142: a count of 15 stays. -/
theorem test_post_at_15 :
    ((after (.filteredAssertion 3) (standing (dueOne (.trip 3 .high) (running.setLine 3
      (armedLine 1 0x80 0 true))))).notices.supervisor.entries.map NoticeEntry.count) = [15, 1, 14] := by decide +kernel

/-- R142: one post of COMPLETED to the owner, none to the other port. -/
theorem test_completed_counts :
    (after (.onPhaseEnd 0) (standing (phaseEnding (pulsing false) (runIn (pulsing false) .on (some 9) (some 1))))).notices.control.entries.map
        NoticeEntry.count = [15, 1, 15]
      ∧ (after (.onPhaseEnd 0) (standing (phaseEnding (pulsing false)
          (runIn (pulsing false) .on (some 9) (some 1))))).notices.supervisor.entries.map NoticeEntry.count = [15, 1, 14] := by
  decide +kernel

/-- Line 3 at its last sample, with output 0 of its map held by slot 0 and output 6 outside it by slot 1. -/
def tripping : State :=
  dueOne (.trip 3 .high) ((liveZero.enterLive 1 (steady [6])).setLine 3 (armedLine 15 7 14 false))

theorem witness_FilteredAssertionTripsTheHolders :
    TickEvent.trip 3 .high ∈ tripping.due ∧ (∀ x ∈ [Electrical.high, .low], TickEvent.trip 3 x ∈ tripping.due → x = .high)
      ∧ tripping.due.Nodup ∧ (tripping.line 3).enabled = true ∧ (tripping.line 3).activeLevel = .high
      ∧ (tripping.line 3).filterCount + 1 = (tripping.line 3).filterLength
      ∧ (tripping.slot 0).state = .live (steady [0]) (newRun (steady [0])) ∧ tripping.holds 0 0 = true
      ∧ inSet (tripping.line 3).map 0 = true ∧ (tripping.slot 1).state = .live (steady [6]) (newRun (steady [6]))
      ∧ (tripping.slot 2).state = .free := by decide +kernel

/-- A sample still due on a line that a CONFIGURE has left disabled, with the other active level, two below its new filter length
and, which no CONFIGURE does, at it. -/
theorem witness_FilteredAssertionTripsTheHolders_configured :
    ∀ x ∈ [{ armedLine 15 7 0 false with enabled := false }, { armedLine 15 7 14 false with activeLevel := .low },
        armedLine 15 7 13 false, armedLine 15 7 15 true],
      TickEvent.trip 3 .high ∈ (dueOne (.trip 3 .high) (running.setLine 3 x)).due
        ∧ TickEvent.trip 3 .low ∉ (dueOne (.trip 3 .high) (running.setLine 3 x)).due
        ∧ (dueOne (.trip 3 .high) (running.setLine 3 x)).due.Nodup
        ∧ (dueOne (.trip 3 .high) (running.setLine 3 x)).line 3 = x
        ∧ (x.enabled = false ∨ .high ≠ x.activeLevel ∨ x.filterCount + 1 ≠ x.filterLength) := by decide +kernel

/-- R130: a CONFIGURE of TRIP taken before the tick's sample, with a longer filter: the sample is the first of the new count. -/
theorem test_configure_trip_before_a_due_sample :
    ((after (.filteredAssertion 1) (after .configureTrip (asking .supervisor 0x22 [4, 1, 1, 0, 3, 0, 7]
      (dueOne (.trip 1 .high) (State.reset.setLine 1 (armedLine 2 7 1 false)))))).line 1) = armedLine 3 7 1 false := by
  decide +kernel

theorem witness_FilteredAssertionTripsTheHolders_lawful : tripping.holdingLaw := by
  unfold State.holdingLaw
  decide +kernel

/-- The wait queue 0, 2, 3: slot 0's output 0 is held; slot 2 wants it too, with output 2; and slot 3 wants output 3. -/
def threeWaiting : State := (waitingZero.enterWaiting 2 (steady [0, 2])).enterWaiting 3 (steady [3])

/-- HOLD; and a walk that leaves the oldest entry, holds the next one back behind it once the output is free, and grants the
youngest. -/
theorem witness_ScanGrantsInOrderAndNotInHold :
    { waitingZero with mode := .hold }.mode = .hold
      ∧ threeWaiting.waitQueue = [0, 2, 3] ∧ (threeWaiting.slot 2).state = .waiting (steady [0, 2]) 20
      ∧ threeWaiting.claimTest (steady [0]).outputNos [] = some .held
      ∧ ({ threeWaiting with channels := running.channels }).claimTest (steady [0, 2]).outputNos [0] = some .queueAhead
      ∧ threeWaiting.claimTest (steady [3]).outputNos [0, 2] = none := by decide +kernel

/-! ## Witnesses: the laws -/

/-- The part with command `c` at the front of its waiting commands. -/
def facing (c : Instr) (s : State) : State := { s with pending := [c] }

/-- A NOP waiting in a mailbox, its row in front. -/
theorem witness_PortsLawKept :
    (facing .nop (asking .control 0x01 [] running)).portsLaw
      ∧ ∃ t : State, step (facing .nop (asking .control 0x01 [] running)) = .next t := by
  refine ⟨fun p => ?_, _, rfl⟩
  cases p <;> decide

/-- A claim waiting in a mailbox, its row in front. -/
theorem witness_QuotaLawKept :
    (facing .claim (claiming plain liveZero)).quotaLaw ∧ ∃ t : State, step (facing .claim (claiming plain liveZero)) = .next t := by
  refine ⟨⟨by decide, fun p => ?_⟩, ?_⟩
  · cases p <;> decide +kernel
  · exact ⟨after .claim (claiming plain liveZero), rfl⟩

/-- A wait that runs out. -/
theorem witness_QueueLawKept :
    (facing (.waitTimeout 0) waitEnding).queueLaw ∧ ∃ t : State, step (facing (.waitTimeout 0) waitEnding) = .next t := by
  refine ⟨?_, _, rfl⟩
  unfold State.queueLaw
  decide +kernel

/-- A lease that runs out, with its output held. -/
theorem witness_HoldingLawKept :
    (facing (.leaseExpiry 0) leaseEnding).holdingLaw ∧ (facing (.leaseExpiry 0) leaseEnding).driveLaw
      ∧ ∃ t : State, step (facing (.leaseExpiry 0) leaseEnding) = .next t := by
  refine ⟨?_, ?_, _, rfl⟩
  · unfold State.holdingLaw
    decide +kernel
  · unfold State.driveLaw
    decide +kernel

theorem witness_SetupLawKept :
    (facing (.leaseExpiry 0) leaseEnding).setupLaw
      ∧ ∃ t : State, step (facing (.leaseExpiry 0) leaseEnding) = .next t := by
  refine ⟨?_, _, rfl⟩
  unfold State.setupLaw
  decide +kernel

/-- A lease that runs out in a group with a dead time. -/
def groupEnding : State := facing (.leaseExpiry 0) (grouped 0 3 4 leaseEnding)

theorem witness_ExclusionLawKept :
    groupEnding.setupLaw ∧ groupEnding.exclusionLaw ∧ ∃ t : State, step groupEnding = .next t := by
  refine ⟨?_, ?_, _, rfl⟩
  · unfold State.setupLaw
    decide +kernel
  · unfold State.exclusionLaw
    decide +kernel

/-- A lease that runs out beside a latched line that maps output 7. -/
def latchEnding : State := facing (.leaseExpiry 0) (leaseEnding.setLine 3 (armedLine 3 0x80 3 true))

theorem witness_TripLawKept :
    latchEnding.setupLaw ∧ latchEnding.holdingLaw ∧ latchEnding.tripLaw ∧ latchEnding.underTrip 7 = true
      ∧ ∃ t : State, step latchEnding = .next t := by
  refine ⟨?_, ?_, ?_, by decide +kernel, _, rfl⟩
  · unfold State.setupLaw
    decide +kernel
  · unfold State.holdingLaw
    decide +kernel
  · unfold State.tripLaw
    decide +kernel

theorem free_of_running (i : SlotNo) : (running.slot i).state = .free :=
  (by decide : ∀ i : SlotNo, (running.slot i).state = .free) i

/-- A part with no event due, at a tick. -/
theorem witness_LeaseLawKept :
    (facing .refclkPeriod liveZero).leaseLaw ∧ ∃ t : State, step (facing .refclkPeriod liveZero) = .next t := by
  refine ⟨fun i => ?_, after .refclkPeriod liveZero, rfl⟩
  show (liveZero.slot i).state.timersWithin
  rw [liveZero, State.enterLive_slot]
  split
  · exact ⟨by decide, by decide⟩
  · rw [free_of_running]
    trivial

theorem witness_NoticeLawKept :
    (facing (.leaseExpiry 0) (noticedZero none)).noticeLaw
      ∧ ∃ t : State, step (facing (.leaseExpiry 0) (noticedZero none)) = .next t :=
  ⟨noticedZero_lawful none, _, rfl⟩

/-- Slot 0 LIVE, and slot 1 awaiting its END. -/
def chainedPair : State :=
  (running.setSlotState 0 (.live (steady [0]) (newRun (steady [0])))).setSlotState 1
    (.armed (chained 6 { epoch := 0, generation := 0, slot := 0 } .ending 3 0 2) .awaitingEvent)

theorem chainedPair_slot (i : SlotNo) :
    (chainedPair.slot i).state =
      if i = 1 then .armed (chained 6 { epoch := 0, generation := 0, slot := 0 } .ending 3 0 2) .awaitingEvent
      else if i = 0 then .live (steady [0]) (newRun (steady [0])) else .free := by
  rw [chainedPair, State.setSlotState_slot]
  split
  · rfl
  · rw [State.setSlotState_slot]
    split
    · rfl
    · exact free_of_running i

theorem chainedPair_chainLaw : chainedPair.chainLaw := by
  refine ⟨fun i r hr => ?_, fun j => ?_⟩
  · replace hr : r ∈ (chainedPair.slot i).state.record := hr
    rw [chainedPair_slot] at hr
    split at hr
    · obtain rfl := Option.some.inj hr
      decide
    · split at hr
      · obtain rfl := Option.some.inj hr
        decide
      · cases hr
  · show chainedPair.anchorStands j
    have h0 : (chainedPair.slot 0).state = .live (steady [0]) (newRun (steady [0])) := chainedPair_slot 0
    rw [State.anchorStands, chainedPair_slot]
    split_ifs
    · refine ⟨rfl, ?_⟩
      show match (chainedPair.slot 0).state with
        | .waiting q _ => q.anchors (chained 6 { epoch := 0, generation := 0, slot := 0 } .ending 3 0 2)
        | .armed q _ => q.anchors (chained 6 { epoch := 0, generation := 0, slot := 0 } .ending 3 0 2)
        | .live q _ => q.anchors (chained 6 { epoch := 0, generation := 0, slot := 0 } .ending 3 0 2)
            ∧ AwaitedEvent.ending = .ending
        | .free => False
        | .closed _ _ => False
      rw [h0]
      exact ⟨⟨rfl, rfl⟩, rfl⟩
    · trivial
    · trivial

theorem witness_ChainLawKept :
    (facing (.leaseExpiry 0) chainedPair).chainLaw
      ∧ ∃ t : State, step (facing (.leaseExpiry 0) chainedPair) = .next t :=
  ⟨chainedPair_chainLaw, _, rfl⟩

/-- A lawful part in which a chained claim with no delay makes its claim test at once. -/
theorem witness_ChainedClaimIsArmed_lawful : (claiming (plainAfter 0 0) liveZero).chainLaw := by
  have hs : ∀ i : SlotNo, ((claiming (plainAfter 0 0) liveZero).slot i).state =
      if i = 0 then .live (steady [0]) (newRun (steady [0])) else .free := by
    intro i
    show (liveZero.slot i).state = _
    rw [liveZero, State.enterLive_slot]
    split
    · rfl
    · exact free_of_running i
  refine ⟨fun i r hr => ?_, fun j => ?_⟩
  · rw [hs] at hr
    split at hr
    · obtain rfl := Option.some.inj hr
      decide
    · cases hr
  · rw [State.anchorStands, hs]
    split_ifs
    · trivial
    · trivial

theorem witness_RangesKept :
    (facing .refclkPeriod troubled).rangesLaw ∧ ∃ t : State, step (facing .refclkPeriod troubled) = .next t := by
  refine ⟨⟨by decide, by decide, by decide, by decide, fun o => ?_, ?_⟩, after .refclkPeriod troubled, rfl⟩
  · show (troubled.channel o).supervised
    rw [troubled, State.setChannel_channel]
    split
    · exact ⟨by decide, rfl⟩
    · have h : ∀ o : OutputNo, ((running.setLine 1 (armedLine 3 7 0 true)).channel o) = resetChannel := by decide
      rw [h]
      exact ⟨by decide, nofun, rfl⟩
  · unfold TripLine.filtered
    decide

end Sys2Proof.Tests
end

section
/-! PROOFS. Each of the claim test's checks in the spec's terms, and the test as the first of the seven that fails (R28, R29, R50). -/

namespace Sys2Proof.Machine

theorem isHeld_iff {st : ChannelState} : st.isHeld = true ↔ ∃ (i : SlotNo) (b : Bool), st = .held i b := by
  cases st <;> simp [ChannelState.isHeld]

theorem groupHeld_iff {s : State} {o : OutputNo} :
    s.groupHeld o = true ↔ ∃ (g : GroupNo) (o' : OutputNo) (i : SlotNo) (b : Bool), o' ≠ o
      ∧ inSet (s.group g).members o = true ∧ inSet (s.group g).members o' = true
      ∧ (s.channel o').state = .held i b := by
  simp only [State.groupHeld, List.any_eq_true, mem_allGroups, mem_allOutputs, true_and, Bool.and_eq_true,
    decide_eq_true_eq, isHeld_iff]
  constructor
  · rintro ⟨g, ho, o', ⟨hne, ho'⟩, i, b, hst⟩
    exact ⟨g, o', i, b, hne, ho, ho', hst⟩
  · rintro ⟨g, o', i, b, hne, ho, ho', hst⟩
    exact ⟨g, ho, o', ⟨hne, ho'⟩, i, b, hst⟩

theorem groupQuiet_iff {s : State} {o : OutputNo} :
    s.groupQuiet o = true ↔ ∃ g : GroupNo, inSet (s.group g).members o = true ∧ (s.group g).quietRemaining ≠ 0 := by
  simp [State.groupQuiet, Nat.pos_iff_ne_zero]

theorem underTrip_iff {s : State} {o : OutputNo} :
    s.underTrip o = true ↔ ∃ l : LineNo, (s.line l).enabled = true ∧ (s.line l).latched = true
      ∧ inSet (s.line l).map o = true := by
  simp [State.underTrip, and_assoc]

theorem contend_iff {s : State} {a b : List OutputNo} :
    s.contend a b = true ↔ (∃ o ∈ a, o ∈ b)
      ∨ ∃ g : GroupNo, (∃ o ∈ a, inSet (s.group g).members o = true) ∧ ∃ o ∈ b, inSet (s.group g).members o = true := by
  simp [State.contend]

/-- A Boolean check of the members of a list, in the terms of what it checks. -/
theorem any_iff_exists_mem {α : Type} {l : List α} {check : α → Bool} {P : α → Prop} (h : ∀ x, check x = true ↔ P x) :
    l.any check = true ↔ ∃ x ∈ l, P x :=
  List.any_eq_true.trans (exists_congr fun x => and_congr_right fun _ => h x)

/-- Settles O15: the model and the statement make the tests in the same order, so it is enough that each test of the model
is the statement's, for any output (for any entry ahead, in the last) (R28). -/
theorem claimTestReportsFirstFailure : Obligations.ClaimTestReportsFirstFailure := by
  intro s outs ahead
  have held := any_iff_exists_mem (l := outs) fun o => isHeld_iff (st := (s.channel o).state)
  have group := any_iff_exists_mem (l := outs) fun o => groupHeld_iff (s := s) (o := o)
  have quiet := any_iff_exists_mem (l := outs) fun o => groupQuiet_iff (s := s) (o := o)
  have trip := any_iff_exists_mem (l := outs) fun o => underTrip_iff (s := s) (o := o)
  have fault := any_iff_exists_mem (l := outs) fun o => decide_eq_true_iff (p := (s.channel o).state = .faulted)
  have queue := any_iff_exists_mem (l := ahead) fun j => contend_iff (s := s) (a := outs) (b := s.outputsOf j)
  exact if_congr held rfl <| if_congr group rfl <| if_congr quiet rfl <| if_congr trip rfl <| if_congr fault rfl <|
    if_congr Iff.rfl rfl <| if_congr queue rfl rfl

end Sys2Proof.Machine
end

section
/-! PROOFS. The statements on operating modes and configuration: the check of the store that ENTER_RUN makes, the two sets that
DEVICE_STATUS reports, and the items of READ_CONFIG (R153, R154, R159, R164). -/

namespace Sys2Proof.Machine

/-! ## Answers that change nothing -/

/-- A command that reports is answered OK with its payload, and changes nothing. -/
theorem onlyAnswers_of_report {s : State} {p : Port} {r : Request} {c : Command} {payload : List Byte}
    (act : Port → List Byte → State → Reply) (hx : exec c.row s = engineStep c act s) (h : s.carries p r c)
    (ha : act p r.params (s.takeRequest p) = report payload (s.takeRequest p)) : s.onlyAnswers c p r .ok payload :=
  onlyAnswers_of_engineStep act hx h ha rfl

/-- A command that refuses is answered with its status, without a payload, and changes nothing. -/
theorem onlyAnswers_of_refuse {s : State} {p : Port} {r : Request} {c : Command} {status : Status}
    (act : Port → List Byte → State → Reply) (hx : exec c.row s = engineStep c act s) (h : s.carries p r c)
    (ha : act p r.params (s.takeRequest p) = refuse status (s.takeRequest p)) : s.onlyAnswers c p r status [] :=
  onlyAnswers_of_engineStep act hx h ha rfl

/-! ## DEVICE_STATUS: sets as sums of bits -/

/-- The sum of the weights of the true bits is the number with those bits. -/
theorem sum_bits_eq_ofBits {n : Nat} (bit : Fin n → Bool) :
    ((List.finRange n).map fun i => if bit i = true then 2 ^ i.val else 0).sum = Nat.ofBits bit := by
  induction n with
  | zero => rfl
  | succ n ih =>
    have tail : ((List.finRange n).map fun i => if bit i.succ = true then 2 ^ i.succ.val else 0).sum
        = 2 * Nat.ofBits (bit ∘ Fin.succ) := by
      rw [← ih, ← List.sum_map_mul_left]
      simp [pow_succ']
    rw [Nat.ofBits_succ, ← tail, List.finRange_succ, List.map_cons, List.sum_cons, List.map_map, add_comm]
    cases bit 0 <;> simp [Function.comp_def]

/-- Bit `l` of the latched trip set stands for line `l` (R183). -/
theorem latchedSet_testBit (s : State) (k : Nat) :
    s.latchedSet.testBit k = if h : k < 4 then (s.line ⟨k, h⟩).latched else false := by
  have bits : s.latchedSet = Nat.ofBits fun l : LineNo => (s.line l).latched := sum_bits_eq_ofBits _
  rw [bits, Nat.testBit_ofBits]

/-- Bit `o` of the faulted output set stands for output `o` (R164). -/
theorem faultedSet_testBit (s : State) (k : Nat) :
    s.faultedSet.testBit k = if h : k < 16 then decide ((s.channel ⟨k, h⟩).state = .faulted) else false := by
  have bits : s.faultedSet = Nat.ofBits fun o : OutputNo => decide ((s.channel o).state = .faulted) := by
    simp [← sum_bits_eq_ofBits, State.faultedSet, allOutputs]
  rw [bits, Nat.testBit_ofBits]

/-- The byte with a bit for each latched line is the one reported. -/
theorem byteOf_latchedSet {s : State} {latched : Byte}
    (h : ∀ k : Fin 8, latched.getLsbD k.val = (if h : k.val < 4 then (s.line ⟨k.val, h⟩).latched else false)) :
    byteOf s.latchedSet = [latched] := by
  refine congrArg (fun b => [b]) (BitVec.eq_of_getLsbD_eq fun k hk => ?_)
  rw [BitVec.getLsbD_ofNat, latchedSet_testBit, h ⟨k, hk⟩]
  simp [hk]

/-- The word with a bit for each FAULTED output has the value reported. -/
theorem faultedSet_eq {s : State} {faulted : Word16}
    (h : ∀ o : OutputNo, faulted.getLsbD o.val = decide ((s.channel o).state = .faulted)) :
    s.faultedSet = faulted.toNat := by
  refine Nat.eq_of_testBit_eq fun k => ?_
  rw [faultedSet_testBit, BitVec.testBit_toNat]
  split
  case isTrue hk => exact (h ⟨k, hk⟩).symm
  case isFalse hk => exact (BitVec.getLsbD_of_ge _ _ (by omega)).symm

/-- Settles O26: the payload is the model's, once its two sets are read bit by bit (R164, R183). -/
theorem deviceStatusReportsThePart : Obligations.DeviceStatusReportsThePart := by
  refine ⟨fun p => by cases p <;> rfl, fun ps => by simp [lengthOk], fun s p r latched faulted h hl hf => ?_⟩
  rw [← byteOf_latchedSet hl, ← faultedSet_eq hf]
  exact onlyAnswers_of_report (fun _ _ t => report t.statusPayload t) rfl h rfl

/-! ## READ_CONFIG: the items and their indices -/

@[simp] theorem outputOf_val (o : OutputNo) : outputOf o.val = some o := dif_pos o.isLt
@[simp] theorem groupOf_val (g : GroupNo) : groupOf g.val = some g := dif_pos g.isLt
@[simp] theorem lineOf_val (l : LineNo) : lineOf l.val = some l := dif_pos l.isLt
@[simp] theorem portOfCode_portCode (p : Port) : portOfCode (portCode p) = some p := by cases p <;> rfl

theorem outputOf_eq_none {n : Nat} (h : 15 < n) : outputOf n = none := dif_neg (by omega)
theorem groupOf_eq_none {n : Nat} (h : 7 < n) : groupOf n = none := dif_neg (by omega)
theorem lineOf_eq_none {n : Nat} (h : 3 < n) : lineOf n = none := dif_neg (by omega)

theorem portOfCode_eq_none {n : Nat} (h : 1 < n) : portOfCode n = none := by
  match n, h with
  | n + 2, _ => rfl

/-- A flag in a byte of its own. -/
theorem byteOf_flagBit (b : Bool) : byteOf (flagBit b 1) = [if b then 1 else 0] := by cases b <;> rfl

@[simp] theorem reportOn_some {α : Type} (x : α) (payload : α → List Byte) (s : State) :
    reportOn (some x) payload s = report (payload x) s := rfl

@[simp] theorem reportOn_none {α : Type} (payload : α → List Byte) (s : State) :
    reportOn none payload s = refuse .badParam s := rfl

/-- READ_CONFIG refuses an index that its item has not, and an unknown item (R159). -/
theorem readConfigAct_badParam {p : Port} {params : List Byte} {s : State} {item k : Nat} (hi : item = byteAt params 0)
    (hk : k = byteAt params 1)
    (h : (item = 2 ∧ 15 < k) ∨ (item = 3 ∧ 7 < k) ∨ (item = 4 ∧ 3 < k) ∨ (6 ≤ item ∧ item ≤ 8 ∧ 1 < k)
      ∨ item = 0 ∨ 8 < item) : readConfigAct p params s = refuse .badParam s := by
  simp only [readConfigAct, ← hi, ← hk]
  split
  case h_2 => rw [outputOf_eq_none (by omega), reportOn_none]
  case h_3 => rw [groupOf_eq_none (by omega), reportOn_none]
  case h_4 => rw [lineOf_eq_none (by omega), reportOn_none]
  case h_6 | h_7 | h_8 => rw [portOfCode_eq_none (by omega), reportOn_none]
  case h_9 => rfl
  all_goals omega

/-- Settles O27, item by item: an index in the item's range names what it indexes, and taking the request changes nothing that
an item reads (R159). -/
theorem readConfigReportsTheItem : Obligations.ReadConfigReportsTheItem := by
  refine ⟨fun p => by cases p <;> rfl, fun s p r item k h hitem hk => ?_⟩
  have reports {payload} := onlyAnswers_of_report (payload := payload) readConfigAct rfl h
  refine ⟨fun hi => reports ?tickDivider, fun o hi ho => reports ?output, fun g hi hg => reports ?group,
    fun l hi hl => reports ?trip, fun hi => reports ?reserved, fun q hi hq => reports ?quota,
    fun q hi hq => reports ?noticeMask, fun q hi hq => reports ?noticePromote,
    fun hbad => onlyAnswers_of_refuse readConfigAct rfl h (readConfigAct_badParam hitem hk hbad)⟩
  all_goals simp only [readConfigAct, ← hitem, ← hk, hi]
  case output => rw [ho, outputOf_val]; rfl
  case group => rw [hg, groupOf_val]; rfl
  case trip => rw [hl, lineOf_val, reportOn_some, linePayload, byteOf_flagBit, byteOf_flagBit]; rfl
  case quota | noticeMask | noticePromote => rw [hq, portOfCode_portCode]; rfl
  all_goals rfl

/-! ## ENTER_RUN: the checks of the store -/

/-- A set has size 1 exactly if it has one member and no other. -/
theorem setSize_eq_one_iff (m : OutputSet) :
    setSize m = 1 ↔ ∃ o : OutputNo, ∀ o' : OutputNo, inSet m o' = true ↔ o' = o := by
  rw [setSize, List.countP_eq_length_filter, List.length_eq_one_iff]
  refine exists_congr fun o => ?_
  have nodup : (allOutputs.filter (inSet m)).Nodup := (List.nodup_finRange 16).filter _
  rw [← List.perm_singleton, List.perm_ext_iff_of_nodup nodup (List.nodup_singleton o)]
  simp

/-- A set is empty exactly if no output is in it. -/
theorem outputSet_eq_zero_iff (m : OutputSet) : m = 0 ↔ ∀ o : OutputNo, inSet m o = false := by
  constructor
  · rintro rfl o
    exact BitVec.getLsbD_zero
  · exact fun h => BitVec.eq_of_getLsbD_eq fun k hk => (h ⟨k, hk⟩).trans BitVec.getLsbD_zero.symm

/-- The first number that has a property is found by a search in ascending order. -/
theorem finRange_find?_first {n : Nat} {check : Fin n → Bool} {P : Fin n → Prop} (hc : ∀ j, check j = true ↔ P j)
    {i : Fin n} (hi : P i) (hfirst : ∀ j : Fin n, j.val < i.val → ¬ P j) : (List.finRange n).find? check = some i := by
  rw [← Fin.find?_eq_find?_finRange, Fin.find?_eq_some_iff]
  exact ⟨(hc i).2 hi, fun j hj => Bool.eq_false_iff.2 fun h => hfirst j hj ((hc j).1 h)⟩

/-- A search for a property that nothing has finds nothing. -/
theorem find?_none_of_forall_not {α : Type} {l : List α} {check : α → Bool} {P : α → Prop}
    (hc : ∀ x, check x = true ↔ P x) (h : ∀ x, ¬ P x) : l.find? check = none :=
  List.find?_eq_none.2 fun x _ hx => h x ((hc x).1 hx)

/-- ENTER_RUN in SETUP reports the check of the store that fails (R154). -/
theorem enterRunAct_invalidConfig {p : Port} {params : List Byte} {s : State} {item index : Nat} (hm : s.mode = .setup)
    (h : s.invalidConfig = some (item, index)) :
    enterRunAct p params s = { state := s, status := .invalidConfig, payload := byteOf item ++ byteOf index } := by
  simp [enterRunAct, hm, h]

/-- ENTER_RUN in SETUP on a store that passes every check (R154). -/
theorem enterRunAct_run {p : Port} {params : List Byte} {s : State} (hm : s.mode = .setup) (h : s.invalidConfig = none) :
    enterRunAct p params s = accept { s with mode := .run } := by
  simp [enterRunAct, hm, h]

/-- ENTER_RUN acts in SETUP alone (R153). -/
theorem enterRunAct_wrongState {p : Port} {params : List Byte} {s : State} (hm : s.mode ≠ .setup) :
    enterRunAct p params s = refuse .wrongState s := by
  unfold enterRunAct
  split
  case h_1 h => exact absurd h hm
  all_goals rfl

/-- Settles O36: the searches of the model find the first group of one member and the first enabled line of empty map, so its
three checks are the statement's, in the same order (R154). -/
theorem enterRunChecksTheStore : Obligations.EnterRunChecksTheStore := by
  intro s p r alone mapless h halone hmapless
  have groupCheck (g : GroupNo) : decide (setSize (s.group g).members = 1) = true ↔ alone g := by
    rw [decide_eq_true_iff, setSize_eq_one_iff, halone]
  have lineCheck (l : LineNo) : ((s.line l).enabled && decide ((s.line l).map = 0)) = true ↔ mapless l := by
    rw [Bool.and_eq_true, decide_eq_true_iff, outputSet_eq_zero_iff, hmapless]
  have invalid (hm : s.mode = .setup) {item index : Nat} (hi : s.invalidConfig = some (item, index)) :
      s.onlyAnswers .enterRun p r .invalidConfig (byteOf item ++ byteOf index) :=
    onlyAnswers_of_engineStep enterRunAct rfl h (enterRunAct_invalidConfig (s := s.takeRequest p) hm hi) rfl
  refine ⟨fun hm => ?_, fun hm => ⟨fun g hg hfirst => ?_, fun hgroups => ?_⟩⟩
  · exact onlyAnswers_of_refuse enterRunAct rfl h (enterRunAct_wrongState hm)
  · have bad : s.badGroup = some g := finRange_find?_first groupCheck hg hfirst
    exact invalid hm (by simp [State.invalidConfig, bad])
  · have good : s.badGroup = none := find?_none_of_forall_not groupCheck hgroups
    refine ⟨fun hq => invalid hm (by simp [State.invalidConfig, good, hq]),
      fun hq => ⟨fun l hl hfirst => ?_, fun hlines => ?_⟩⟩
    · have bad : s.badLine = some l := finRange_find?_first lineCheck hl hfirst
      exact invalid hm (by simp [State.invalidConfig, good, Nat.not_lt.2 hq, bad])
    · have clean : s.badLine = none := find?_none_of_forall_not lineCheck hlines
      have valid : s.invalidConfig = none := by simp [State.invalidConfig, good, Nat.not_lt.2 hq, clean]
      have act : enterRunAct p r.params (s.takeRequest p) = accept { s.takeRequest p with mode := .run } :=
        enterRunAct_run (s := s.takeRequest p) hm valid
      refine ⟨State.respond p r.tag (accept { s.takeRequest p with mode := .run }), ?_,
        respond_answered ⟨rfl, rfl⟩, rfl⟩
      rw [← act]
      exact engineStep_carries enterRunAct h

end Sys2Proof.Machine
end

section
/-! PROOFS. The statement on NOP, and the received bytes that carry no request (R169, R172 to R174). -/

namespace Sys2Proof.Machine

theorem permitted_nop (p : Port) : permitted .nop p = true := by cases p <;> rfl

theorem lengthOk_nop_iff (params : List Byte) : lengthOk .nop params = true ↔ params = [] := by
  simp [lengthOk]

/-- Whatever follows a first byte of 0x00 is not judged (R169, case 1). -/
theorem judgeBytes_code_zero (after : List Byte) : judgeBytes (0 :: after) = .noRequest := by
  simp [judgeBytes]

/-- NOP accepts the state that taking its request has left, so the part shows the answer and nothing else (R174). -/
theorem nop_onlyAnswers {s : State} {p : Port} {r : Request} (h : s.carries p r .nop) :
    s.onlyAnswers .nop p r .ok [] :=
  onlyAnswers_of_engineStep (x := accept (s.takeRequest p)) (fun _ _ t => accept t) rfl h rfl rfl

/-- Settles O13: the permission, the length and the first byte are read off the checks, and the answer is that of an accepted
command whose effect is none (R174). -/
theorem nopOnlyAnswers : Obligations.NopOnlyAnswers :=
  ⟨permitted_nop, lengthOk_nop_iff, fun _ _ _ => nop_onlyAnswers, judgeBytes_code_zero⟩

end Sys2Proof.Machine
end

section
/-! PROOFS. The statement on the status header: its bytes are fields set side by side (R177). -/

namespace Sys2Proof.Machine

/-! ## Fields of a byte -/

/-- A field set above `n` lower bits is worth `2 ^ n` times its value. -/
theorem toNat_append_eq_mul_add {m n : Nat} (x : BitVec m) (y : BitVec n) :
    (x ++ y).toNat = x.toNat * 2 ^ n + y.toNat := by
  rw [BitVec.toNat_append, ← Nat.shiftLeft_add_eq_or_of_lt y.isLt, Nat.shiftLeft_eq]

/-- A flag is a field of one bit, 1 when it is set. -/
theorem toNat_ofBool_eq_ite (b : Bool) : (BitVec.ofBool b).toNat = if b then 1 else 0 := by
  cases b <;> rfl

/-- The mode has a code for a field of two bits (R177). -/
theorem modeCode_lt (m : Mode) : modeCode m < 2 ^ 2 := by cases m <;> decide

/-- The outcome has a code for a field of three bits (R177). -/
theorem outcomeCode_lt (o : RequestOutcome) : outcomeCode o < 2 ^ 3 := by cases o <;> decide

/-! ## The status header -/

/-- The first byte of the header: mode, attention and outcome above two bits of 0 (R177). -/
theorem modeByte_toNat (m : Mode) (attention : Bool) (o : RequestOutcome) :
    (BitVec.ofNat 2 (modeCode m) ++ BitVec.ofBool attention ++ BitVec.ofNat 3 (outcomeCode o) ++ 0#2).toNat
      = modeCode m * 64 + (if attention then 1 else 0) * 32 + outcomeCode o * 4 := by
  have mode := Nat.mod_eq_of_lt (modeCode_lt m)
  have outcome := Nat.mod_eq_of_lt (outcomeCode_lt o)
  simp only [toNat_append_eq_mul_add, toNat_ofBool_eq_ite, BitVec.toNat_ofNat, mode, outcome]
  omega

/-- The second byte of the header: epoch, free places and response follows (R177). Up to 7 places would fit the field. -/
theorem epochByte_toNat (epoch : BitVec 4) {places : Nat} (hplaces : places < 2 ^ 3) (follows : Bool) :
    (epoch ++ BitVec.ofNat 3 places ++ BitVec.ofBool follows).toNat
      = epoch.toNat * 16 + places * 2 + (if follows then 1 else 0) := by
  simp only [toNat_append_eq_mul_add, toNat_ofBool_eq_ite, BitVec.toNat_ofNat, Nat.mod_eq_of_lt hplaces]
  omega

/-- Settles O4: each byte is the sum of its fields by their weights, as every code and the free places, at most 4, fit the
width of their field; the codes of the mode and the outcome are those of R177. -/
theorem statusHeaderCarriesItsFields : Obligations.StatusHeaderCarriesItsFields := by
  intro h hplaces
  have fits : h.freePlaces < 2 ^ 3 := by omega
  exact ⟨_, _, rfl, modeByte_toNat h.mode h.attention h.outcome, epochByte_toNat h.epoch fits h.responseFollows⟩

end Sys2Proof.Machine
end


section
/-! PROOFS. What a step can do, said once: the elementary changes that the events of a tick and the commands are made of, and
the theorem that a property which each of these changes keeps is kept by every step. -/

set_option Elab.async false

namespace Sys2Proof.Machine

/-! ## Changes in place -/

/-- The part of a slot counted on in place: the same record in the same state and phase, with its timers in their ranges if they
were so before (R3). -/
inductive SlotState.Recounted : SlotState → SlotState → Prop
  | waiting (r : Permit) (w w' : Nat) (h : (SlotState.waiting r w).timersWithin → (SlotState.waiting r w').timersWithin) :
    Recounted (.waiting r w) (.waiting r w')
  | delaying (r : Permit) (d d' : Nat) : Recounted (.armed r (.delaying d)) (.armed r (.delaying d'))
  | live (r : Permit) (run run' : RunPart) (hp : run'.phase = run.phase)
    (h : (SlotState.live r run).timersWithin → (SlotState.live r run').timersWithin) : Recounted (.live r run) (.live r run')

/-- Output `o` declared FAULTED, before its holder is closed (R121, R122). -/
def State.failOutput (o : OutputNo) (s : State) : State :=
  ((s.setChannel o (s.channel o).fail).startQuiet fun x => decide (x = o) && (s.channel o).state.isHeld).postBoth
    (.fault o)

theorem declareFault_eq (o : OutputNo) (s : State) :
    s.declareFault o =
      match (s.channel o).state with
      | .held i _ => (s.failOutput o).exitLive i (some (.fault o))
      | .idle => s.failOutput o
      | .faulted => s.failOutput o := rfl

@[simp] theorem failOutput_slot (o : OutputNo) (s : State) (i : SlotNo) : (s.failOutput o).slot i = s.slot i := rfl

@[simp] theorem failOutput_channel (o : OutputNo) (s : State) (x : OutputNo) :
    (s.failOutput o).channel x = if x = o then (s.channel o).fail else s.channel x :=
  State.setChannel_channel s o (s.channel o).fail x

/-- The part with another wait queue. -/
def State.withQueue (q : List SlotNo) (s : State) : State := { s with waitQueue := q }

theorem enterClosed_withQueue (j : SlotNo) (c : Closure) (q : List SlotNo) (s : State) :
    (s.withQueue q).enterClosed j c = (s.enterClosed j c).withQueue q := by
  have hs : (s.withQueue q).slot j = s.slot j := rfl
  simp only [State.enterClosed, hs]
  cases (s.slot j).state.record <;> rfl

/-- The queue plays no part in the loss of an anchor (R13). -/
theorem closeDependents_withQueue (i : SlotNo) (q : List SlotNo) (n : Nat) (h : Handle) (s : State) :
    closeDependents i n h (s.withQueue q) = (closeDependents i n h s).withQueue q := by
  induction n generalizing h s with
  | zero => rfl
  | succ n ih =>
    have depends (u : State) (j : SlotNo) (k : Handle) : (u.withQueue q).dependsOn j k = u.dependsOn j k := rfl
    have name (u : State) (j : SlotNo) : (u.withQueue q).handle j = u.handle j := rfl
    simp only [closeDependents]
    generalize allSlots = l
    induction l generalizing s with
    | nil => rfl
    | cons j l ihl =>
      rw [List.foldl_cons, List.foldl_cons, ← ihl]
      congr 1
      simp only [depends, name, ih, enterClosed_withQueue]
      split
      · split <;> rfl
      · rfl

theorem loseAnchor_leaveQueue (i : SlotNo) (s : State) (hl : (s.slot i).state.isLive = false) :
    (s.leaveQueue i).loseAnchor i = (s.loseAnchor i).leaveQueue i := by
  have h := closeDependents_withQueue i (s.waitQueue.filter fun j => decide (j ≠ i)) 32 (s.handle i) s
  rw [State.leaveQueue, State.leaveQueue, (loseAnchor_rest hl).2.1]
  exact h

/-! ## The events of a tick -/

/-- The changes of an event of a tick that grant, close and free no permit. -/
structure EventBase (P : State → Prop) : Prop where
  /-- Events that are due are withdrawn, and free choices taken (log entries 2 and 4). -/
  settled : ∀ (t : State) (due : List TickEvent) (choices : Nat), due.Sublist t.due → P t →
    P { t with due := due, choices := choices } := by
    intros; assumption
  /-- A post of a line's or an output's notice, or of a permit's to its owner (R142). -/
  noted : ∀ (t : State) (p : Port) (n : Notice), P t →
    (n.permit = none ∨ ∃ j, n.permit = some (t.handle j) ∧ (t.slot j).state.ownedBy p = true) → P (t.post p n) := by
    intros; assumption
  /-- A part counted on in place (R35, R61, R78, R103). -/
  recounted : ∀ (t : State) (i : SlotNo) (st : SlotState), P t → (t.slot i).state.Recounted st → P (t.countSlot i st) := by
    intros; assumption
  /-- A phase of a pattern begins, perhaps with another pair of durations (R78 to R83). -/
  phased : ∀ (t : State) (i : SlotNo) (r : Permit) (run run' : RunPart) (pat : Pattern) (ph : Phase), P t →
    (t.slot i).state = .live r run → run'.leaseRemaining = run.leaseRemaining →
    P (t.enterPhase i { r with pattern := pat } run' ph) := by
    intros; assumption
  /-- A quiet timer falls (R53, R54). -/
  quieted : ∀ (t : State) (g : GroupNo) (n : Nat), P t → n ≤ (t.group g).quietRemaining →
    P (t.setGroup g { t.group g with quietRemaining := n }) := by
    intros; assumption
  /-- A settle time falls, or ends with a match (R117, R118). -/
  supervised : ∀ (t : State) (o : OutputNo) (n : Nat) (sup : Supervision), P t → (t.channel o).supervision = .settling n →
    (2 ≤ n ∧ sup = .settling (n - 1)) ∨ sup = .watching → P (t.setChannel o { t.channel o with supervision := sup }) := by
    intros; assumption
  /-- An output that no LIVE permit holds is declared FAULTED (R121). -/
  failed : ∀ (t : State) (o : OutputNo), P t →
    (∀ i b r run, (t.channel o).state = .held i b → (t.slot i).state ≠ .live r run) → P (t.failOutput o) := by
    intros; assumption
  /-- A sample at a trip line (R131). -/
  sampled : ∀ (t : State) (l : LineNo) (sample : Electrical), P t → P (t.setLine l ((t.line l).takeSample sample)) := by
    intros; assumption

/-- A filtered assertion, where the exits from LIVE and the setting of the latch are kept. -/
theorem EventBase.asserted {P : State → Prop} (hP : EventBase P)
    (exitLive : ∀ (t : State) (i : SlotNo) (r : Permit) (run : RunPart) (ending : Option Closure), P t →
      (t.slot i).state = .live r run → P (t.exitLive i ending))
    (latched : ∀ (t : State) (l : LineNo), P t → (t.line l).enabled = true →
      P (t.setLine l { t.line l with latched := true })) (t : State) (l : LineNo) (ht : P t)
    (hl : (t.line l).enabled = true) : P (t.assertTrip l) := by
  have both : ∀ u : State, P u → P (u.postBoth (.trip l)) := fun u hu =>
    hP.noted _ _ _ (hP.noted _ _ _ hu (.inl rfl)) (.inl rfl)
  refine both _ (foldl_keeps (P := P) (fun u i hu => ?_) allSlots _ (latched t l ht hl))
  split
  · by_cases h : ∃ r run, (u.slot i).state = .live r run
    · obtain ⟨r, run, h⟩ := h
      exact exitLive u i r run _ hu h
    · simp only [State.exitLive]
      split
      case h_1 r run e => exact absurd ⟨r, run, e⟩ h
      all_goals exact hu
  · exact hu

/-- A property kept by the whole scans, departures, claim tests and filtered assertions of the events of a tick, and by their
other changes. -/
structure EventLaw (P : State → Prop) : Prop extends EventBase P where
  scan : ∀ t : State, P t → P t.scan
  exitLive : ∀ (t : State) (i : SlotNo) (r : Permit) (run : RunPart) (ending : Option Closure), P t →
    (t.slot i).state = .live r run → P (t.exitLive i ending)
  exitWaiting : ∀ (t : State) (i : SlotNo) (r : Permit) (w : Nat) (ending : Option Closure), P t →
    (t.slot i).state = .waiting r w → P (t.exitWaiting i ending)
  endDelay : ∀ (t : State) (j : SlotNo) (r : Permit) (d : Nat), P t → (t.slot j).state = .armed r (.delaying d) →
    P (t.endDelay j)
  /-- An output is declared FAULTED and its LIVE holder closed (R121, R122). -/
  failedHeld : ∀ (t : State) (o : OutputNo) (i : SlotNo) (b : Bool) (r : Permit) (run : RunPart), P t →
    (t.channel o).state = .held i b → (t.slot i).state = .live r run →
    P ((t.failOutput o).exitLive i (some (.fault o)))
  /-- A filtered assertion of an enabled line (R132). -/
  asserted : ∀ (t : State) (l : LineNo), P t → (t.line l).enabled = true → P (t.assertTrip l)

theorem EventLaw.reachDone {P : State → Prop} (hP : EventLaw P) {t : State} {i : SlotNo} {r : Permit} {run run' : RunPart}
    (ht : P t) (h : (t.slot i).state = .live r run) (hl : run'.leaseRemaining = run.leaseRemaining) :
    P (t.reachDone i r run') := by
  simp only [State.reachDone]
  split
  · exact hP.exitLive t i r run _ ht h
  · refine hP.noted _ _ _ (hP.phased t i r run { run' with staged := none } r.pattern .done ht h hl)
      (.inr ⟨i, ?_, ?_⟩)
    · simp [State.enterPhase, Notice.permit, State.handle]
    · simp [State.enterPhase, SlotState.ownedBy, SlotState.record]

theorem EventLaw.newCycle {P : State → Prop} (hP : EventLaw P) {t : State} {i : SlotNo} {r : Permit} {run run' : RunPart}
    (ht : P t) (h : (t.slot i).state = .live r run) (hl : run'.leaseRemaining = run.leaseRemaining) :
    P (t.newCycle i r run') := by
  simp only [State.newCycle]
  split
  · exact hP.phased t i r run _ _ _ ht h hl
  · exact hP.phased t i r run _ r.pattern _ ht h hl

theorem EventLaw.phaseTick {P : State → Prop} (hP : EventLaw P) (i : SlotNo) (t : State) (ht : P t) : P (t.phaseTick i) := by
  simp only [State.phaseTick]
  split
  case h_1 r run h =>
    split
    · split
      · split
        · simp only [State.endOn]
          split
          · exact ht
          · exact hP.reachDone ht h rfl
          · exact hP.phased t i r run run r.pattern _ ht h rfl
          · exact hP.phased t i r run run r.pattern _ ht h rfl
        · simp only [State.boundary]
          split
          · split
            · exact hP.reachDone ht h rfl
            · exact hP.newCycle ht h rfl
          · exact hP.newCycle ht h rfl
        · exact ht
      · exact hP.recounted t i _ ht (h ▸ .live r run _ rfl id)
    · exact ht
  all_goals exact ht

/-- A property that the parts of a tick's events keep, the work of every event keeps. -/
theorem EventLaw.tickWork {P : State → Prop} (hP : EventLaw P) (e : TickEvent) (t : State) (ht : P t) :
    P (State.tickWork e t) := by
  cases e with
  | lease i =>
    simp only [State.tickWork, State.leaseTick]
    split
    case h_1 r run h =>
      split
      case h_1 n hn =>
        split
        · exact hP.exitLive t i r run _ ht h
        · refine hP.recounted t i _ ht (h ▸ .live r run _ rfl ?_)
          simp only [SlotState.timersWithin, hn]
          omega
      case h_2 => exact ht
    all_goals exact ht
  | wait i =>
    simp only [State.tickWork, State.waitTick]
    split
    case h_1 r w h =>
      split
      · exact hP.exitWaiting t i r w _ ht h
      · refine hP.recounted t i _ ht (h ▸ .waiting r w _ ?_)
        simp only [SlotState.timersWithin]
        omega
    all_goals exact ht
  | phase i => exact hP.phaseTick i t ht
  | delay j =>
    simp only [State.tickWork, State.delayTick]
    split
    case h_1 r d h =>
      split
      · exact hP.endDelay t j r d ht h
      · exact hP.recounted t j _ ht (h ▸ .delaying r d _)
    all_goals exact ht
  | quiet g =>
    simp only [State.tickWork, State.quietTick]
    split
    · exact hP.scan _ (hP.quieted t g 0 ht (Nat.zero_le _))
    · exact hP.quieted t g _ ht (Nat.sub_le _ _)
  | settle o =>
    simp only [State.tickWork, State.settleTick]
    split
    case h_1 n hn =>
      split
      · split
        · exact hP.supervised t o n _ ht hn (.inr rfl)
        · rw [declareFault_eq]
          split
          case h_1 i b hc =>
            by_cases hlive : ∃ r run, (t.slot i).state = .live r run
            · obtain ⟨r, run, h⟩ := hlive
              exact hP.failedHeld t o i b r run ht hc h
            · have notLive : ∀ r run, (t.slot i).state ≠ .live r run := fun r run h => hlive ⟨r, run, h⟩
              have hf := hP.failed t o ht fun i' b' r run hc' => by
                rw [hc] at hc'; cases hc'; exact notLive r run
              simp only [State.exitLive]
              split
              case h_1 r run h => exact absurd h (notLive r run)
              all_goals exact hf
          case h_2 hc | h_3 hc =>
            exact hP.failed t o ht fun i b r run hc' => by rw [hc] at hc'; cases hc'
      · exact hP.supervised t o n _ ht hn (.inl ⟨by omega, rfl⟩)
    all_goals exact ht
  | trip l sample =>
    simp only [State.tickWork, State.tripTick]
    have hs := hP.sampled t l sample ht
    split
    case isTrue ha =>
      refine hP.asserted _ l hs ?_
      have hen : (t.line l).enabled = true := by
        simp only [TripLine.asserts, Bool.and_eq_true] at ha; exact ha.1.1
      rw [State.setLine_line_same, TripLine.takeSample]
      split <;> (try split) <;> (try split) <;> exact hen
    case isFalse => exact hs

theorem EventLaw.takeEvent {P : State → Prop} (hP : EventLaw P) (e : TickEvent) (t : State) (ht : P t) : P (t.takeEvent e) := by
  simp only [State.takeEvent]
  split
  · exact hP.settled _ _ _ List.filter_sublist (hP.tickWork e _ (hP.settled t _ t.choices List.erase_sublist ht))
  · exact ht

theorem EventLaw.tickFinished {P : State → Prop} (hP : EventLaw P) (t : State) (ht : P t) : P t.tickFinished :=
  tickFinished_keeps hP.takeEvent (fun u hu => hP.settled u u.due _ (List.Sublist.refl _) hu) t ht

/-- A property kept by the parts that scans, departures and claim tests are made of. -/
structure EventParts (P : State → Prop) : Prop extends EventBase P where
  /-- A permit that is WAITING, or in DELAYING, and whose claim is clear goes LIVE (R36, R104). -/
  granted : ∀ (t : State) (j : SlotNo) (r : Permit) (ahead : List SlotNo), P t → (t.slot j).state.record = some r →
    (t.slot j).state.settled = false → t.claimTest r.outputNos ahead = none → P (t.enterLive j r) := by
    intros; assumption
  /-- A delay end that is blocked, with a wait limit (R104). -/
  queued : ∀ (t : State) (j : SlotNo) (r : Permit) (d : Nat), P t → (t.slot j).state = .armed r (.delaying d) →
    0 < r.waitLimit → P (t.enterWaiting j r) := by
    intros; assumption
  /-- A dependent receives its event (R100, R101). -/
  started : ∀ (t : State) (j : SlotNo) (r : Permit) (a : Anchor), P t → r.anchor = some a →
    (t.slot j).state = .armed r .awaitingEvent → P (t.setSlotState j (.armed r (.delaying a.delay))) := by
    intros; assumption
  /-- A permit that is ARMED or CLOSED ends (R12, R13, R14). -/
  ended : ∀ (t : State) (i : SlotNo) (r : Permit) (ending : Option Closure), P t → (t.slot i).state.record = some r →
    (t.slot i).state.isLive = false → (t.slot i).state.isWaiting = false → P (t.enterEnd i ending)
  /-- A WAITING permit ends (R35). -/
  endWaiting : ∀ (t : State) (i : SlotNo) (r : Permit) (w : Nat) (ending : Option Closure), P t →
    (t.slot i).state = .waiting r w → P ((t.leaveQueue i).enterEnd i ending)
  /-- A LIVE permit ends and lets go of its outputs (R11). -/
  endLive : ∀ (t : State) (i : SlotNo) (r : Permit) (run : RunPart) (ending : Option Closure), P t →
    (t.slot i).state = .live r run → P ((t.enterEnd i ending).letGo (t.holds i))
  /-- An output is declared FAULTED, and its LIVE holder ends and lets go of its outputs (R121, R122). -/
  endFailed : ∀ (t : State) (o : OutputNo) (i : SlotNo) (b : Bool) (r : Permit) (run : RunPart), P t →
    (t.channel o).state = .held i b → (t.slot i).state = .live r run →
    P (((t.failOutput o).enterEnd i (some (.fault o))).letGo ((t.failOutput o).holds i))

section Parts

variable {P : State → Prop}

theorem EventParts.cascade (hP : EventParts P) : Cascade True (fun _ => True) (fun _ => True) P := by
  have close (t : State) (j : SlotNo) (r : Permit) (c : Closure) (ht : P t) (hr : (t.slot j).state.record = some r)
      (hl : (t.slot j).state.isLive = false) (hw : (t.slot j).state.isWaiting = false) :
      P ((t.setSlotState j (.closed r c)).post r.owner (.closed (t.handle j))) := by
    rw [← enterClosed_eq c hr]
    exact hP.ended t j r (some c) ht hr hl hw
  refine ⟨fun t j r a ht _ _ hj => close t j r _ ht (by rw [hj]; rfl) (by rw [hj]; rfl) (by rw [hj]; rfl),
    fun t j r a ht ha _ hj => hP.started t j r a ht ha hj, fun t j r ahead ht hj hc => ?_,
    fun t j r d ht hj _ hw => hP.queued t j r d ht hj hw,
    fun t j r d reason ht hj _ => close t j r _ ht (by rw [hj]; rfl) (by rw [hj]; rfl) (by rw [hj]; rfl),
    fun t ht => hP.settled t t.due _ (List.Sublist.refl _) ht, fun _ _ _ _ _ => trivial, fun _ _ _ _ => trivial⟩
  have hr : (t.slot j).state.record = some r := by rcases hj with ⟨-, w, e⟩ | ⟨-, d, e⟩ <;> (rw [e]; rfl)
  have hs : (t.slot j).state.settled = false := by rcases hj with ⟨-, w, e⟩ | ⟨-, d, e⟩ <;> (rw [e]; rfl)
  refine hP.noted _ _ _ (hP.granted t j r ahead ht hr hs hc) (.inr ⟨j, ?_, ?_⟩)
  · simp [Notice.permit, State.handle, State.enterLive_slot]
  · simp [State.enterLive_slot, SlotState.ownedBy, SlotState.record]

theorem EventParts.scan (hP : EventParts P) (t : State) (ht : P t) : P t.scan :=
  scan_keeps hP.cascade t ht fun _ _ _ _ => trivial

/-- What is left of an exit from LIVE after the outputs have been let go (R11). -/
theorem EventParts.departure (hP : EventParts P) (h : Handle) (t : State) (ht : P t) :
    P ((t.endEvent h).scanDeparture (t.endsAtOnce h)) :=
  scanDeparture_keeps hP.cascade _ _ (endEvent_keeps hP.cascade _ _ ht trivial) (fun _ _ => trivial) fun _ _ _ _ => trivial

theorem EventParts.exitLive (hP : EventParts P) (t : State) (i : SlotNo) (r : Permit) (run : RunPart)
    (ending : Option Closure) (ht : P t) (h : (t.slot i).state = .live r run) : P (t.exitLive i ending) := by
  simp only [State.exitLive, h]
  exact hP.departure _ _ (hP.endLive t i r run ending ht h)

theorem EventParts.exitWaiting (hP : EventParts P) (t : State) (i : SlotNo) (r : Permit) (w : Nat) (ending : Option Closure)
    (ht : P t) (h : (t.slot i).state = .waiting r w) : P (t.exitWaiting i ending) := by
  have hl : (t.slot i).state.isLive = false := by rw [h]; rfl
  rw [State.exitWaiting, loseAnchor_leaveQueue i t hl]
  exact hP.scan _ (hP.endWaiting _ i r w ending (loseAnchor_keeps hP.cascade i t ht hl) (by rw [loseAnchor_self, h]))

theorem EventParts.exitArmed (hP : EventParts P) (t : State) (i : SlotNo) (r : Permit) (part : ArmedPart)
    (ending : Option Closure) (ht : P t) (h : (t.slot i).state = .armed r part) : P (t.exitArmed i ending) :=
  hP.ended _ i r ending (loseAnchor_keeps hP.cascade i t ht (by rw [h]; rfl)) (by rw [loseAnchor_self, h]; rfl)
    (by rw [loseAnchor_self, h]; rfl) (by rw [loseAnchor_self, h]; rfl)

theorem EventParts.asserted (hP : EventParts P)
    (latched : ∀ (t : State) (l : LineNo), P t → (t.line l).enabled = true →
      P (t.setLine l { t.line l with latched := true })) (t : State) (l : LineNo) (ht : P t)
    (hl : (t.line l).enabled = true) : P (t.assertTrip l) :=
  hP.toEventBase.asserted hP.exitLive latched t l ht hl

theorem EventParts.eventLaw (hP : EventParts P)
    (asserted : ∀ (t : State) (l : LineNo), P t → (t.line l).enabled = true → P (t.assertTrip l)) : EventLaw P where
  toEventBase := hP.toEventBase
  scan := hP.scan
  exitLive := hP.exitLive
  exitWaiting := hP.exitWaiting
  endDelay t j _ _ ht _ := endDelay_keeps hP.cascade j t ht trivial
  failedHeld t o i b r run ht hc h := by
    have hs : ((t.failOutput o).slot i).state = .live r run := h
    simp only [State.exitLive, hs]
    exact hP.departure _ _ (hP.endFailed t o i b r run ht hc h)
  asserted := asserted

end Parts

end Sys2Proof.Machine
end

section
/-! PROOFS. What a step can do, said once: the commands, and the theorem that a property which each elementary change keeps is
kept by every step. -/

set_option Elab.async false

namespace Sys2Proof.Machine

/-! ## Claims -/

/-- The record of a claim that has passed checks 1 to 9 of R25 can stand in the part. -/
structure State.admits (s : State) (r : Permit) : Prop where
  notSetup : s.mode ≠ .setup
  nodup : r.outputNos.Nodup
  noConflict : s.selfConflict r.outputNos = false
  room : s.usedCount r.owner < s.quota.get r.owner

/-- The outputs of a list that check 1 of R25 has let through are named once each (R26). -/
theorem outputs_nodup_of_listOk {f : ClaimFields} (h : f.listOk = true) :
    (f.outputs.map OutputEntry.output).Nodup := by
  simp only [ClaimFields.listOk, Bool.and_eq_true, decide_eq_true_eq, List.all_eq_true] at h
  obtain ⟨⟨-, hrange⟩, hnodup⟩ := h
  rw [ClaimFields.outputs, List.map_map]
  rw [List.nodup_map_iff_inj_on (List.Nodup.of_map _ hnodup)]
  intro a ha b hb hab
  refine List.inj_on_of_nodup_map hnodup ha hb ?_
  have hval := congrArg Fin.val hab
  simp only [Function.comp_apply, Fin.val_ofNat] at hval
  have := hrange a ha
  have := hrange b hb
  omega

theorem outputNos_permit (f : ClaimFields) (p : Port) (depth : Nat) :
    (f.permit p depth).outputNos = f.outputs.map OutputEntry.output := rfl

/-- What checks 1 to 9 of R25 let through. -/
theorem admits_of_claimRefusal {s : State} {p : Port} {f : ClaimFields} (h : s.claimRefusal p f = none) (depth : Nat) :
    s.admits (f.permit p depth) := by
  simp only [State.claimRefusal] at h
  split at h; · cases h
  case isFalse hlist =>
  split at h; · cases h
  split at h; · cases h
  split at h; · cases h
  split at h; · cases h
  split at h; · cases h
  case isFalse hconf =>
  split at h; · cases h
  split at h; · cases h
  case isFalse hmode =>
  split at h; · cases h
  case isFalse hroom =>
  exact ⟨hmode, outputs_nodup_of_listOk (by simpa using hlist), by rw [outputNos_permit]; simpa using hconf,
    Nat.lt_of_not_le hroom⟩

/-- The lowest FREE slot is FREE (R8). -/
theorem free_of_lowestFree {s : State} {i : SlotNo} (h : s.lowestFree = some i) : (s.slot i).state = .free := by
  have := List.find?_some h
  cases hs : (s.slot i).state with
  | free => rfl
  | waiting | armed | live | closed => rw [hs] at this; cases this

/-! ## Bytes of the parameters -/

theorem byteAt_lt (bs : List Byte) (k : Nat) : byteAt bs k < 256 := (bs.getD k 0).isLt

theorem wordAt_lt (bs : List Byte) (k : Nat) : wordAt bs k < 65536 := by
  have := byteAt_lt bs k
  have := byteAt_lt bs (k + 1)
  simp only [wordAt]
  omega

/-! ## What no event of a tick changes -/

/-- The supply, the mode, the time base, the store and the ports of `t` are those of `s`: no event of a tick writes them. -/
def State.deviceKept (s t : State) : Prop :=
  t.powered = s.powered ∧ t.rstnLow = s.rstnLow ∧ t.mode = s.mode ∧ t.resetCause = s.resetCause ∧ t.epoch = s.epoch
    ∧ t.tickDivider = s.tickDivider ∧ t.dividerCount = s.dividerCount ∧ t.reserved = s.reserved ∧ t.quota = s.quota
    ∧ t.ports = s.ports ∧ t.lastServed = s.lastServed ∧ t.pending = s.pending
    ∧ ∀ p : Port, (t.notices.get p).mask = (s.notices.get p).mask
        ∧ (t.notices.get p).promoted = (s.notices.get p).promoted

theorem deviceKept_refl (s : State) : s.deviceKept s :=
  ⟨rfl, rfl, rfl, rfl, rfl, rfl, rfl, rfl, rfl, rfl, rfl, rfl, fun _ => ⟨rfl, rfl⟩⟩

theorem deviceKept_trans {s t u : State} (h : s.deviceKept t) (hs : t.settingsKept u) (hp : t.portsKept u) : s.deviceKept u := by
  obtain ⟨a1, a2, a3, a4, a5, a6, a7, -, a8, a9, a10, a11⟩ := (settingsKept_iff t u).1 hs
  obtain ⟨b1, b2, b3, b4, b5, b6, b7, b8, b9, b10, b11, b12, b13⟩ := h
  exact ⟨a1.trans b1, a2.trans b2, a3.trans b3, a4.trans b4, a5.trans b5, a6.trans b6, a7.trans b7, a8.trans b8,
    a9.trans b9, hp.1.trans b10, hp.2.trans b11, a10.trans b12,
    fun p => ⟨(a11 p).1.trans (b13 p).1, (a11 p).2.trans (b13 p).2⟩⟩

/-- An ending writes none of it. -/
theorem deviceKept_enterEnd {s t : State} {i : SlotNo} {r : Permit} (ending : Option Closure) (h : s.deviceKept t)
    (hr : (t.slot i).state.record = some r) : s.deviceKept (t.enterEnd i ending) :=
  deviceKept_trans h (enterEnd_rest ending hr).1 (enterEnd_rest ending hr).2.1

theorem deviceKept_post {s t : State} (h : s.deviceKept t) (p : Port) (n : Notice) : s.deviceKept (t.post p n) :=
  deviceKept_trans h (settingsKept_post t p n) ⟨rfl, rfl⟩

theorem deviceKept_failOutput {s t : State} (o : OutputNo) (h : s.deviceKept t) : s.deviceKept (t.failOutput o) :=
  have quiet : s.deviceKept ((t.setChannel o (t.channel o).fail).startQuiet fun x =>
    decide (x = o) && (t.channel o).state.isHeld) := h
  deviceKept_post (deviceKept_post quiet _ _) _ _

theorem deviceKept_eventLaw (s : State) : EventLaw s.deviceKept :=
  have parts : EventParts s.deviceKept :=
    { noted := fun _ p n ht _ => deviceKept_post ht p n
      ended := fun _ _ _ ending ht hr _ _ => deviceKept_enterEnd ending ht hr
      endWaiting := fun t i r w ending ht h =>
        deviceKept_enterEnd (t := t.leaveQueue i) (r := r) ending ht (by rw [State.leaveQueue_slot, h]; rfl)
      endLive := fun t i r run ending ht h =>
        (deviceKept_enterEnd (r := r) ending ht (by rw [h]; rfl) : s.deviceKept (t.enterEnd i ending))
      failed := fun t o ht _ => deviceKept_failOutput o ht
      endFailed := fun t o i b r run ht _ h =>
        (deviceKept_enterEnd (r := r) _ (deviceKept_failOutput o ht) (by rw [failOutput_slot, h]; rfl) : s.deviceKept ((t.failOutput o).enterEnd i (some (.fault o)))) }
  parts.eventLaw (parts.asserted fun _ _ ht _ => ht)

theorem tickFinished_divider (s : State) :
    s.tickFinished.tickDivider = s.tickDivider ∧ s.tickFinished.dividerCount = s.dividerCount := by
  obtain ⟨-, -, -, -, -, hdiv, hcount, -⟩ := (deviceKept_eventLaw s).tickFinished s (deviceKept_refl s)
  exact ⟨hdiv, hcount⟩

/-! ## The laws of a step -/

/-- A property `P` that what every command but RESTART does keeps, part by part, from the states of `P₀`. `P₀` is `P` itself, or says besides
what a single command needs to know of the state it starts from. -/
structure ActBase (P₀ P : State → Prop) : Prop where
  start : ∀ t : State, P₀ t → P t := by
    intros; assumption
  /-- ENTER_RUN, HOLD and RESUME (R154 to R156). -/
  moved : ∀ (t : State) (m : Mode), P t → m ≠ .setup → P { t with mode := m } := by
    intros; assumption
  /-- CONFIGURE of TICK_DIVIDER (R161). -/
  divided : ∀ (t : State) (n : Nat), P t → 10 ≤ n → n ≤ 65535 → P { t with tickDivider := n, dividerCount := 0 } := by
    intros; assumption
  /-- CONFIGURE of RESERVED (R160). -/
  reserved : ∀ (t : State) (set : OutputSet), P t → P { t with reserved := set } := by
    intros; assumption
  /-- CONFIGURE of QUOTA (R9). -/
  quotas : ∀ (t : State) (p : Port) (q : Nat), P t → t.usedCount p ≤ q → q + t.quota.get (otherPort p) ≤ 32 →
    P { t with quota := t.quota.set p q } := by
    intros; assumption
  /-- CONFIGURE of OUTPUT (R114). -/
  output : ∀ (t : State) (o : OutputNo) (pol : Polarity) (settle : Nat) (ahead : Bool), P t → t.mode = .setup →
    settle ≤ 255 → P (t.setChannel o ((t.channel o).configure pol settle ahead)) := by
    intros; assumption
  /-- CONFIGURE of GROUP (R47). -/
  grouped : ∀ (t : State) (g : GroupNo) (members : OutputSet) (dead : Nat), P t → t.mode = .setup → dead ≤ 4095 →
    P (t.setGroup g { t.group g with members := members, deadTime := dead }) := by
    intros; assumption
  /-- CONFIGURE of TRIP (R130). -/
  line : ∀ (t : State) (l : LineNo) (enable : Bool) (level : Electrical) (len : Nat) (map : OutputSet), P t →
    t.mode = .setup → 1 ≤ len → len ≤ 15 → P (t.setLine l ((t.line l).configure enable level len map)) := by
    intros; assumption
  /-- CLEAR_TRIP (R137). -/
  unlatched : ∀ (t : State) (l : LineNo), P t → (t.line l).enabled = true →
    P (t.setLine l { t.line l with latched := false }) := by
    intros; assumption
  /-- CLEAR_FAULT (R124). -/
  unfaulted : ∀ (t : State) (o : OutputNo), P t → (t.channel o).state = .faulted →
    P (t.setChannel o { t.channel o with
      state := .idle, expected := .off, supervision := freshSupervision (t.channel o).settleTime }) := by
    intros; assumption
  /-- READ_NOTICE, and CONFIGURE of NOTICE_MASK and of NOTICE_PROMOTE: entries are taken out of a set (R145, R147, R148). -/
  thinned : ∀ (t : State) (p : Port) (u : NoticeUnit), P t → u.entries.Sublist (t.notices.get p).entries →
    (u.mask = (t.notices.get p).mask ∨ ∀ e ∈ u.entries, maskHas u.mask e.notice.kind = true) → P (t.setNotices p u) := by
    intros; assumption

/-- A property kept by what the ports, the supply and the time base do, and by RESTART. -/
structure LinkBase (P₀ P : State → Prop) : Prop where
  /-- The supply, the ports, the port served last and the commands that wait, before a command (R162, R165, R171). -/
  before : ∀ (t : State) (powered rstnLow : Bool) (ports : PerPort LinkPort) (lastServed : Port) (pending : List Instr),
    P₀ t → P₀ { t with powered := powered, rstnLow := rstnLow, ports := ports, lastServed := lastServed, pending := pending } := by
    intros; assumption
  /-- The same after a command. -/
  linked : ∀ (t : State) (powered rstnLow : Bool) (ports : PerPort LinkPort) (lastServed : Port) (pending : List Instr),
    P t → P { t with powered := powered, rstnLow := rstnLow, ports := ports, lastServed := lastServed, pending := pending } := by
    intros; assumption
  /-- A reset of the whole part (R22, R162). -/
  reset : ∀ (t : State) (epoch : BitVec 4) (cause : ResetCause), P (State.resetBlocks epoch cause t)
  /-- RESTART (R163). -/
  restarted : ∀ t : State, P t → P t.restart
  /-- A tick (R161). -/
  ticked : ∀ (t : State) (feedback : BitVec 16) (trips : BitVec 4), P t → P (t.tickAll feedback trips)
  /-- A period of REFCLK without a tick (R161). -/
  counted : ∀ (t : State), P t → t.dividerCount + 1 < t.tickDivider → P { t with dividerCount := t.dividerCount + 1 } := by
    intros; assumption

structure StepBase (P₀ P : State → Prop) : Prop extends ActBase P₀ P, LinkBase P₀ P

/-- A property that every command keeps, its claims, departures and the freeing of CLOSED slots taken whole. -/
structure ActLaw (P₀ P : State → Prop) : Prop extends EventLaw P, ActBase P₀ P where
  exitArmed : ∀ (t : State) (i : SlotNo) (r : Permit) (part : ArmedPart) (ending : Option Closure), P t →
    (t.slot i).state = .armed r part → P (t.exitArmed i ending)
  freed : ∀ (t : State) (i : SlotNo) (r : Permit) (c : Closure), P t → (t.slot i).state = .closed r c → P (t.enterFree i)
  direct : ∀ (t : State) (i : SlotNo) (r : Permit), P₀ t → (t.slot i).state = .free → t.admits r → r.anchor = none →
    r.chainDepth = 1 → P (t.directClaim i r).state
  chained : ∀ (t : State) (i : SlotNo) (r : Permit) (a : Anchor), P₀ t → (t.slot i).state = .free → t.admits r →
    r.anchor = some a → t.anchorRefusal r.owner a.handle = none → r.chainDepth = t.depthAt a.handle + 1 →
    P (t.armClaim i r a).state

/-- A property that every step keeps. -/
structure StepLaw (P₀ P : State → Prop) : Prop extends ActLaw P₀ P, LinkBase P₀ P

section Step

variable {P₀ P : State → Prop}

theorem ActLaw.claimAct (hP : ActLaw P₀ P) (p : Port) (params : List Byte) (t : State) (ht : P₀ t) :
    P (claimAct p params t).state := by
  simp only [Machine.claimAct]
  split
  · exact hP.start t ht
  case h_2 href =>
    split
    · exact hP.start t ht
    case h_2 i hi =>
      have hadm := admits_of_claimRefusal href
      split
      case h_1 ha => exact hP.direct t i _ ht (free_of_lowestFree hi) (hadm 1) ha rfl
      case h_2 a ha =>
        split
        · exact hP.start t ht
        case h_2 hanchor => exact hP.chained t i _ a ht (free_of_lowestFree hi) (hadm _) ha hanchor rfl

/-- The checks on a handle change nothing (R6). -/
theorem withPermit_keeps {t : State} {h : Handle} {mayUse : Permit → Bool} {k : Permit → Reply} (ht : P t)
    (hk : ∀ r, (t.slot h.slot).state.record = some r → P (k r).state) : P (withPermit t h mayUse k).state := by
  simp only [withPermit]
  split
  case h_1 r hr =>
    split
    · split
      · exact hk r hr
      · exact ht
    · exact ht
  · exact ht

theorem ActLaw.endPermit (hP : ActLaw P₀ P) (i : SlotNo) (ending : Option Closure) (t : State) (ht : P t) :
    P (t.endPermit i ending) := by
  simp only [State.endPermit]
  split
  case h_1 r w h => exact hP.exitWaiting t i r w ending ht h
  case h_2 r part h => exact hP.exitArmed t i r part ending ht h
  case h_3 r run h => exact hP.exitLive t i r run ending ht h
  all_goals exact ht

theorem ActLaw.permitCommands (hP : ActLaw P₀ P) (p : Port) (params : List Byte) (t : State) (ht : P t) :
    P (releaseAct p params t).state ∧ P (revokeAct p params t).state ∧ P (retireAct p params t).state
      ∧ P (queryAct p params t).state ∧ P (renewAct p params t).state ∧ P (restageAct p params t).state := by
  refine ⟨withPermit_keeps ht fun _ _ => ?_, withPermit_keeps ht fun _ _ => ?_, withPermit_keeps ht fun _ _ => ?_,
    withPermit_keeps ht fun _ _ => ht, withPermit_keeps ht fun _ _ => ?_, withPermit_keeps ht fun _ _ => ?_⟩
  case refine_1 | refine_2 =>
    split
    case h_1 | h_5 => exact ht
    all_goals exact hP.endPermit _ _ t ht
  case refine_3 =>
    split
    case h_1 r c h => exact hP.freed t _ r c ht h
    all_goals exact ht
  case refine_4 =>
    split
    case h_1 r run h =>
      simp only [renewLive]
      split
      · exact ht
      case h_2 n hn =>
        split
        · refine hP.recounted t _ _ ht (h ▸ .live r run _ rfl ?_)
          simp only [SlotState.timersWithin, hn]
          omega
        · exact ht
    all_goals exact ht
  case refine_5 =>
    split
    case h_1 r run h =>
      simp only [restageLive]
      split
      · exact ht
      · split
        · exact ht
        · exact hP.recounted t _ _ ht (h ▸ .live r run _ rfl id)
    all_goals exact ht

theorem ActLaw.purgeAct (hP : ActLaw P₀ P) (p : Port) (params : List Byte) (t : State) (ht : P t) :
    P (purgeAct p params t).state := by
  simp only [Machine.purgeAct]
  split
  · exact ht
  case h_2 owner _ =>
    -- a slot that is still to be freed is CLOSED, as it was at first
    have gen : ∀ (l : List SlotNo) (u : State), l.Nodup → P u → (∀ i ∈ l, u.closedOf owner i = true) →
        P (l.foldl (fun u i => u.enterFree i) u) := by
      intro l
      induction l with
      | nil => exact fun _ _ hu _ => hu
      | cons i l ih =>
        intro u hl hu hc
        obtain ⟨hil, hl⟩ := List.nodup_cons.1 hl
        have hi := hc i (by simp)
        simp only [State.closedOf] at hi
        split at hi
        case h_1 r c h =>
          refine ih _ hl (hP.freed u i r c hu h) fun j hj => ?_
          have hji : j ≠ i := by rintro rfl; exact hil hj
          have : (u.enterFree i).slot j = u.slot j := by
            rw [enterFree_eq (r := r) (by rw [h]; rfl)]; simp [State.setSlot_slot, hji]
          have hj' := hc j (by simp [hj])
          simp only [State.closedOf, this] at hj' ⊢
          exact hj'
        all_goals cases hi
    exact gen _ t ((List.nodup_finRange 32).filter _) ht fun i hi => (List.mem_filter.1 hi).2

theorem ActLaw.listAct (hP : ActLaw P₀ P) (p : Port) (params : List Byte) (t : State) (ht : P t) :
    P (listAct p params t).state := by
  have hchoice := hP.settled t t.due (t.choices + 1) (List.Sublist.refl _) ht
  simp only [Machine.listAct]
  split
  · split <;> exact ht
  · split
    · exact ht
    · split
      · split
        · split <;> exact hchoice
        · exact ht
      · split <;> exact ht

theorem ActLaw.readNoticeAct (hP : ActLaw P₀ P) (p : Port) (params : List Byte) (t : State) (ht : P t) :
    P (readNoticeAct p params t).state := by
  simp only [Machine.readNoticeAct]
  split
  · exact ht
  · exact hP.thinned t p _ ht List.erase_sublist (.inl rfl)

/-- A report changes nothing (R159). -/
theorem readConfigAct_state (p : Port) (params : List Byte) (t : State) : (readConfigAct p params t).state = t := by
  have reported {α : Type} (index : Option α) (payload : α → List Byte) : (reportOn index payload t).state = t := by
    cases index <;> rfl
  simp only [readConfigAct]
  split
  case h_1 | h_5 | h_9 => rfl
  all_goals exact reported _ _

theorem findAct_state (p : Port) (params : List Byte) (t : State) : (findAct p params t).state = t := by
  simp only [findAct]
  split <;> rfl

/-- A locked item outside SETUP is not configured (R158). -/
theorem inSetup_keeps {k : State → Reply} {t : State} (ht : P t) (hk : t.mode = .setup → P (k t).state) :
    P (inSetup k t).state := by
  simp only [inSetup]
  split
  case isTrue h => exact hk h
  case isFalse => exact ht

theorem ActLaw.configureActs (hP : ActLaw P₀ P) (p : Port) (params : List Byte) (t : State) (ht : P t) :
    P (configureTickDividerAct p params t).state ∧ P (configureOutputAct p params t).state
      ∧ P (configureGroupAct p params t).state ∧ P (configureTripAct p params t).state
      ∧ P (configureQuotaAct p params t).state ∧ P (configureNoticeMaskAct p params t).state
      ∧ P (configureNoticePromoteAct p params t).state := by
  refine ⟨inSetup_keeps ht fun _ => ?_, inSetup_keeps ht fun hm => ?_, inSetup_keeps ht fun hm => ?_,
    inSetup_keeps ht fun hm => ?_, inSetup_keeps ht fun _ => ?_, ?_, ?_⟩
  case refine_1 =>
    split
    · exact ht
    · have := wordAt_lt params 1
      exact hP.divided t _ ht (by omega) (by omega)
  case refine_2 =>
    split
    · have := byteAt_lt params 3
      exact hP.output t _ _ _ _ ht hm (by omega)
    all_goals exact ht
  case refine_3 =>
    split
    · exact ht
    · split
      · exact ht
      · exact hP.grouped t _ _ _ ht hm (by omega)
  case refine_4 =>
    split
    case h_1 l level _ _ =>
      split
      · exact ht
      · have hl := hP.line t l (decide (byteAt params 2 ≠ 0)) level (byteAt params 4) (BitVec.ofNat 16 (wordAt params 5))
          ht hm (by omega) (by omega)
        simp only [accept]
        split
        · exact hP.scan _ hl
        · exact hl
    all_goals exact ht
  case refine_5 =>
    split
    · exact ht
    · simp only []
      split
      · exact ht
      · exact hP.quotas t _ _ ht (by omega) (by omega)
  case refine_6 =>
    simp only [configureNoticeMaskAct]
    split
    · exact ht
    · split
      · exact ht
      · refine hP.thinned t _ _ ht List.filter_sublist (.inr fun e he => ?_)
        exact (List.mem_filter.1 he).2
  case refine_7 =>
    simp only [configureNoticePromoteAct]
    split
    · exact ht
    · split
      · exact ht
      · exact hP.thinned t _ _ ht (List.Sublist.refl _) (.inl rfl)

theorem ActLaw.modeActs (hP : ActLaw P₀ P) (p : Port) (params : List Byte) (t : State) (ht : P t) :
    P (enterRunAct p params t).state ∧ P (holdAct p params t).state ∧ P (resumeAct p params t).state
      ∧ P (clearTripAct p params t).state ∧ P (clearFaultAct p params t).state := by
  refine ⟨?_, ?_, ?_, ?_, ?_⟩
  case refine_1 =>
    simp only [enterRunAct]
    split
    · split
      · exact ht
      · exact hP.moved t .run ht (by decide)
    all_goals exact ht
  case refine_2 =>
    simp only [holdAct]
    split
    · exact hP.moved t .hold ht (by decide)
    all_goals exact ht
  case refine_3 =>
    simp only [resumeAct]
    split
    · exact hP.scan _ (hP.moved t .run ht (by decide))
    all_goals exact ht
  case refine_4 =>
    simp only [clearTripAct]
    split
    · exact ht
    · split
      · exact ht
      case isFalse h =>
        split
        · exact ht
        · exact hP.scan _ (hP.unlatched t _ ht (by simpa using fun e => h (.inl e)))
  case refine_5 =>
    simp only [clearFaultAct]
    split
    · exact ht
    · split
      · exact ht
      case isFalse h =>
        split
        · exact ht
        · exact hP.scan _ (hP.unfaulted t _ ht (by simpa using h))

/-- What a command does, after the checks of R172. -/
def Command.act : Command → Port → List Byte → State → Reply
  | .unknown => fun _ _ t => refuse .unknownCommand t
  | .nop => fun _ _ t => accept t
  | .claim => Machine.claimAct
  | .release => releaseAct
  | .retire => retireAct
  | .renew => renewAct
  | .restage => restageAct
  | .query => queryAct
  | .list => Machine.listAct
  | .find => findAct
  | .readNotice => Machine.readNoticeAct
  | .deviceStatus => fun _ _ t => report t.statusPayload t
  | .revoke => revokeAct
  | .purge => Machine.purgeAct
  | .configureTickDivider => configureTickDividerAct
  | .configureOutput => configureOutputAct
  | .configureGroup => configureGroupAct
  | .configureTrip => configureTripAct
  | .configureReserved => fun _ params s =>
    inSetup (s := s) fun t => accept { t with reserved := BitVec.ofNat 16 (wordAt params 1) }
  | .configureQuota => configureQuotaAct
  | .configureNoticeMask => configureNoticeMaskAct
  | .configureNoticePromote => configureNoticePromoteAct
  | .configureUnknownItem => fun _ _ t => refuse .badParam t
  | .readConfig => readConfigAct
  | .enterRun => enterRunAct
  | .hold => holdAct
  | .resume => resumeAct
  | .restart => restartAct
  | .clearTrip => clearTripAct
  | .clearFault => clearFaultAct

/-- The row of a command is a turn of the engine on what the command does (R172). -/
theorem exec_row_eq (c : Command) (s : State) : exec c.row s = engineStep c c.act s := by
  cases c <;> rfl

/-- A row of the engine leaves the part as it is, or takes a request of its own kind and answers it (R171, R172). -/
theorem exec_row_cases {c : Command} {s t : State} (h : exec c.row s = .next t) :
    t = s ∨ ∃ p r, s.nextRequest = some (p, r) ∧ commandOf r = c
      ∧ t = State.respond p r.tag (carryOut c c.act p r.params (s.takeRequest p)) := by
  rw [exec_row_eq] at h
  simp only [engineStep] at h
  split at h
  case h_1 p r hr =>
    split at h
    case isTrue hc => cases h; exact .inr ⟨p, r, hr, hc, rfl⟩
    case isFalse => cases h; exact .inl rfl
  case h_2 => cases h; exact .inl rfl

/-- A property that all parts of commands keep, each command but RESTART keeps. -/
theorem ActLaw.act (hP : ActLaw P₀ P) {c : Command} (hc : c ≠ .restart) (p : Port) (params : List Byte) (t : State)
    (ht : P₀ t) : P (c.act p params t).state := by
  have hs := hP.start t ht
  obtain ⟨release, revoke, retire, query, renew, restage⟩ := hP.permitCommands p params t hs
  obtain ⟨divider, output, group, trip, quota, mask, promote⟩ := hP.configureActs p params t hs
  obtain ⟨enterRun, hold, resume, clearTrip, clearFault⟩ := hP.modeActs p params t hs
  cases c with
  | unknown | nop | deviceStatus | configureUnknownItem => exact hs
  | claim => exact hP.claimAct p params t ht
  | release => exact release
  | revoke => exact revoke
  | retire => exact retire
  | query => exact query
  | renew => exact renew
  | restage => exact restage
  | list => exact hP.listAct p params t hs
  | find => exact (congrArg P (findAct_state p params t)).mpr hs
  | readNotice => exact hP.readNoticeAct p params t hs
  | purge => exact hP.purgeAct p params t hs
  | configureTickDivider => exact divider
  | configureOutput => exact output
  | configureGroup => exact group
  | configureTrip => exact trip
  | configureReserved => exact inSetup_keeps hs fun _ => hP.reserved t _ hs
  | configureQuota => exact quota
  | configureNoticeMask => exact mask
  | configureNoticePromote => exact promote
  | readConfig => exact (congrArg P (readConfigAct_state p params t)).mpr hs
  | enterRun => exact enterRun
  | hold => exact hold
  | resume => exact resume
  | restart => exact absurd rfl hc
  | clearTrip => exact clearTrip
  | clearFault => exact clearFault

/-- The checks of R172 keep what the command keeps. -/
theorem carryOut_keeps {c : Command} {p : Port} {params : List Byte} {t : State} (ht : P t)
    (hact : P (c.act p params t).state) : P (carryOut c c.act p params t).state := by
  simp only [carryOut]
  split
  · exact ht
  · split
    · split
      · exact hact
      · exact ht
    · exact ht

/-- A property that each command keeps, every row of the engine keeps. -/
theorem StepLaw.exec_row (hP : StepLaw P₀ P) (c : Command) {s t : State} (hs : P₀ s) (h : exec c.row s = .next t) : P t := by
  rcases exec_row_cases h with rfl | ⟨p, r, -, -, rfl⟩
  · exact hP.start _ hs
  · have taken : P₀ (s.takeRequest p) := hP.before s s.powered s.rstnLow _ p s.pending hs
    have hact : P (c.act p r.params (s.takeRequest p)).state := by
      by_cases hc : c = .restart
      · subst hc; exact hP.restarted _ (hP.start _ taken)
      · exact hP.act hc p r.params _ taken
    exact hP.linked _ _ _ _ _ _ (carryOut_keeps (hP.start _ taken) hact)

/-- The command whose row an instruction is, where it is one of the engine's. -/
def commandOfRow : Instr → Option Command
  | .unknownCommand => some .unknown
  | .nop => some .nop
  | .claim => some .claim
  | .release => some .release
  | .retire => some .retire
  | .query => some .query
  | .list => some .list
  | .revoke => some .revoke
  | .purge => some .purge
  | .renew => some .renew
  | .restage => some .restage
  | .find => some .find
  | .readNotice => some .readNotice
  | .deviceStatus => some .deviceStatus
  | .configureTickDivider => some .configureTickDivider
  | .configureOutput => some .configureOutput
  | .configureGroup => some .configureGroup
  | .configureTrip => some .configureTrip
  | .configureReserved => some .configureReserved
  | .configureQuota => some .configureQuota
  | .configureNoticeMask => some .configureNoticeMask
  | .configureNoticePromote => some .configureNoticePromote
  | .configureUnknownItem => some .configureUnknownItem
  | .readConfig => some .readConfig
  | .enterRun => some .enterRun
  | .hold => some .hold
  | .resume => some .resume
  | .restart => some .restart
  | .clearTrip => some .clearTrip
  | .clearFault => some .clearFault
  | _ => none

theorem row_of_command {c : Instr} {k : Command} (h : commandOfRow c = some k) : c = k.row := by
  cases c <;> cases h <;> rfl

/-- The row of every command of the engine, and every other row. -/
theorem StepLaw.exec (hP : StepLaw P₀ P) (c : Instr) {s t : State} (hs : P₀ s) (h : exec c s = .next t) : P t := by
  have stay := hP.start s hs
  have event (e : TickEvent) {s : State} (hs : P s) : P (s.takeEvent e) := hP.takeEvent e s hs
  have link (ports : PerPort LinkPort) : P { s with ports := ports } :=
    hP.linked s s.powered s.rstnLow ports s.lastServed s.pending stay
  have row {k : Command} (hk : commandOfRow c = some k) : P t := by
    rw [row_of_command hk] at h
    exact hP.exec_row k hs h
  cases c with
  | powerOn => cases h; exact hP.reset _ _ _
  | powerLoss => cases h; exact hP.reset _ _ _
  | resetRelease => cases h; exact hP.linked s s.powered false s.ports s.lastServed s.pending stay
  | rstnReset n =>
    simp only [Machine.exec, execRstnReset] at h
    split at h
    · cases h; exact stay
    · split at h
      · cases h; exact stay
      · split at h
        · cases h; exact hP.reset _ _ _
        · cases h; exact hP.linked s s.powered true s.ports s.lastServed s.pending stay
  | transactionStart p =>
    simp only [Machine.exec, execTransactionStart] at h
    split at h
    · cases h; exact stay
    · split at h <;> (cases h; exact link _)
  | transactionEnd p =>
    simp only [Machine.exec, execTransactionEnd] at h
    split at h <;> (cases h; exact link _)
  | completeByteShifted p data =>
    simp only [Machine.exec, execCompleteByteShifted] at h
    split at h
    · cases h; exact link _
    · cases h; exact stay
  | tick feedback trips =>
    simp only [Machine.exec, execTick] at h
    split at h
    · cases h; exact hP.ticked _ _ _ (hP.tickFinished s stay)
    · cases h; exact stay
  | refclkPeriod =>
    simp only [Machine.exec, execRefclkPeriod] at h
    split at h
    case isTrue hc =>
      obtain ⟨hdiv, hcount⟩ := tickFinished_divider s
      have := hP.counted _ (hP.tickFinished s stay) (by rw [hdiv, hcount]; exact hc.2)
      rw [hcount] at this
      cases h; exact this
    case isFalse => cases h; exact stay
  | leaseExpiry i | waitTimeout i | delayEnd i | quietEnd g | settleEnd o => cases h; exact event _ stay
  | filteredAssertion l => cases h; exact event _ (event _ stay)
  | onPhaseEnd i | cycleBoundary i =>
    simp only [Machine.exec, execOnPhaseEnd, execCycleBoundary] at h
    split at h
    · cases h; exact event _ stay
    · cases h; exact stay
  | _ => exact row rfl

/-- A property that each elementary change keeps, every step keeps. -/
theorem StepLaw.step (hP : StepLaw P₀ P) {s t : State} (hs : P₀ s) (h : step s = .next t) : P t := by
  simp only [Machine.step] at h
  split at h
  · cases h; exact hP.start s hs
  · exact hP.exec _ (hP.before s s.powered s.rstnLow s.ports s.lastServed _ hs) h

end Step

/-- A property kept by the parts of claims too. -/
structure ActParts (P₀ P : State → Prop) : Prop extends EventParts P, ActBase P₀ P where
  /-- A direct claim that is clear is granted (R30). -/
  claimed : ∀ (t : State) (i : SlotNo) (r : Permit), P₀ t → (t.slot i).state = .free → t.admits r →
    t.claimTest r.outputNos t.waitQueue = none → P (t.enterLive i r) := by
    intros; assumption
  /-- A direct claim that is blocked joins the queue (R31). -/
  joined : ∀ (t : State) (i : SlotNo) (r : Permit), P₀ t → (t.slot i).state = .free → t.admits r → 0 < r.waitLimit →
    P (t.enterWaiting i r) := by
    intros; assumption
  /-- A chained claim is ARMED (R98). -/
  armed : ∀ (t : State) (i : SlotNo) (r : Permit) (part : ArmedPart), P₀ t → (t.slot i).state = .free → t.admits r →
    P (t.setSlotState i (.armed r part)) := by
    intros; assumption

/-- A property kept by the parts of everything that a step can do. -/
structure StepParts (P₀ P : State → Prop) : Prop extends ActParts P₀ P, LinkBase P₀ P

theorem ActParts.actLaw {P₀ P : State → Prop} (hP : ActParts P₀ P) (hE : EventLaw P) : ActLaw P₀ P where
  toEventLaw := hE
  toActBase := hP.toActBase
  exitArmed := hP.toEventParts.exitArmed
  freed t i r c ht h := hP.ended t i r none ht (by rw [h]; rfl) (by rw [h]; rfl) (by rw [h]; rfl)
  direct t i r ht hf ha _ _ := by
    simp only [State.directClaim]
    split
    case h_1 hc => exact hP.claimed t i r ht hf ha hc
    case h_2 =>
      split
      case isTrue hw => exact hP.joined t i r ht hf ha hw
      case isFalse => exact hP.start t ht
  chained t i r a ht hf ha _ _ _ := by
    simp only [State.armClaim]
    split
    · split
      · exact hE.endDelay _ i r a.delay (hP.armed t i r _ ht hf ha) (by simp)
      · exact hP.armed t i r _ ht hf ha
    · exact hP.armed t i r _ ht hf ha

/-- Where the setting of a latch by itself keeps the property, so does the whole filtered assertion. -/
theorem ActParts.plainActLaw {P₀ P : State → Prop} (hP : ActParts P₀ P)
    (latched : ∀ (t : State) (l : LineNo), P t → (t.line l).enabled = true →
      P (t.setLine l { t.line l with latched := true }) := by intros; assumption) : ActLaw P₀ P :=
  hP.actLaw (hP.toEventParts.eventLaw (hP.toEventParts.asserted latched))

theorem StepParts.stepLaw {P₀ P : State → Prop} (hP : StepParts P₀ P) (hE : EventLaw P) : StepLaw P₀ P where
  toActLaw := hP.actLaw hE
  toLinkBase := hP.toLinkBase

theorem StepParts.plainLaw {P₀ P : State → Prop} (hP : StepParts P₀ P)
    (latched : ∀ (t : State) (l : LineNo), P t → (t.line l).enabled = true →
      P (t.setLine l { t.line l with latched := true }) := by intros; assumption) : StepLaw P₀ P where
  toActLaw := hP.toActParts.plainActLaw latched
  toLinkBase := hP.toLinkBase

end Sys2Proof.Machine
end

section
/-! PROOFS. What the slots and the channels are after each elementary change, and the laws that speak of slots, queue and quotas
alone: leases, the wait queue, quotas (R9, R34, R66). -/

set_option Elab.async false

namespace Sys2Proof.Machine

/-! ## The slots after each change -/

theorem tick_recounted (x : SlotState) : x.tick = x ∨ x.Recounted x.tick := by
  cases x with
  | free | closed r c => exact .inl rfl
  | armed r part =>
    cases part with
    | awaitingEvent => exact .inl rfl
    | delaying d => exact .inr (.delaying r d _)
  | waiting r w =>
    refine .inr (.waiting r w _ ?_)
    simp only [SlotState.timersWithin, countDown]
    split <;> omega
  | live r run =>
    refine .inr (.live r run _ rfl ?_)
    simp only [SlotState.timersWithin]
    cases run.leaseRemaining with
    | none => exact id
    | some n =>
      simp only [Option.map_some, countDown]
      split <;> omega

theorem tickAll_slot (s : State) (feedback : BitVec 16) (trips : BitVec 4) (i : SlotNo) :
    (s.tickAll feedback trips).slot i = { s.slot i with state := (s.slot i).state.tick } := get_ofFn_fin _ i

theorem restart_slot (s : State) (i : SlotNo) :
    s.restart.slot i = { generation := (s.slot i).generation + 1, state := .free } := get_ofFn_fin _ i

theorem resetBlocks_slot (s : State) (epoch : BitVec 4) (cause : ResetCause) (i : SlotNo) :
    (State.resetBlocks epoch cause s).slot i = { generation := 0, state := .free } := by
  show (Vector.replicate 32 _).get i = _
  rw [get_eq_getElem, Vector.getElem_replicate]

theorem enterPhase_slot (s : State) (i : SlotNo) (r : Permit) (run : RunPart) (ph : Phase) (j : SlotNo) :
    (s.enterPhase i r run ph).slot j =
      if j = i then
        { s.slot i with state := .live r { run with phase := ph, phaseRemaining := r.pattern.phaseTime ph } }
      else s.slot j := by
  rw [State.enterPhase, State.handPhase_slot, State.countSlot_slot]

theorem leaveQueue_enterEnd_slot {s : State} {i : SlotNo} {r : Permit} (ending : Option Closure)
    (h : (s.slot i).state.record = some r) (j : SlotNo) :
    ((s.leaveQueue i).enterEnd i ending).slot j = if j = i then (s.slot i).ended r ending else s.slot j :=
  enterEnd_slot (s := s.leaveQueue i) ending h j

/-- What holds of every slot's state holds after one slot has changed, if it holds of the new state of that slot. -/
theorem forall_slot_of_one {Q : SlotState → Prop} {s t : State} {i : SlotNo} {x : Slot}
    (h : ∀ j, t.slot j = if j = i then x else s.slot j) (hs : ∀ j, Q (s.slot j).state) (hx : Q x.state) :
    ∀ j, Q (t.slot j).state := by
  intro j
  rw [h j]
  split
  · exact hx
  · exact hs j

theorem ended_state (x : Slot) (r : Permit) (ending : Option Closure) :
    (x.ended r ending).state = .free ∨ ∃ c, (x.ended r ending).state = .closed r c := by
  cases ending with
  | none => exact .inl rfl
  | some c => exact .inr ⟨c, rfl⟩

/-! ## Leases -/

theorem SlotState.Recounted.timersWithin {x y : SlotState} (h : x.Recounted y) (hx : x.timersWithin) : y.timersWithin := by
  cases h with
  | waiting r w w' h => exact h hx
  | delaying r d d' => trivial
  | live r run run' hp h => exact h hx

theorem timersWithin_ended (x : Slot) (r : Permit) (ending : Option Closure) : (x.ended r ending).state.timersWithin := by
  rcases ended_state x r ending with e | ⟨c, e⟩ <;> (rw [e]; trivial)

theorem timersWithin_newRun (r : Permit) : (SlotState.live r (newRun r)).timersWithin := by
  simp only [SlotState.timersWithin, newRun]
  by_cases h : r.lease = 0 <;> simp only [h, if_true, if_false, Nat.le_refl, and_true]
  omega

theorem leaseLaw_enterEnd {t : State} {i : SlotNo} {r : Permit} (ending : Option Closure) (ht : t.leaseLaw)
    (hr : (t.slot i).state.record = some r) : (t.enterEnd i ending).leaseLaw :=
  forall_slot_of_one (enterEnd_slot ending hr) ht (timersWithin_ended _ r ending)

theorem leaseLaw_enterLive {t : State} (i : SlotNo) (r : Permit) (ht : t.leaseLaw) : (t.enterLive i r).leaseLaw :=
  forall_slot_of_one (State.enterLive_slot t i r) ht (timersWithin_newRun r)

theorem leaseLaw_enterWaiting {t : State} (i : SlotNo) (r : Permit) (ht : t.leaseLaw) (hw : 0 < r.waitLimit) :
    (t.enterWaiting i r).leaseLaw :=
  forall_slot_of_one (State.enterWaiting_slot t i r) ht ⟨hw, Nat.le_refl _⟩

theorem leaseLaw_armed {t : State} (i : SlotNo) (r : Permit) (part : ArmedPart) (ht : t.leaseLaw) :
    (t.setSlotState i (.armed r part)).leaseLaw :=
  forall_slot_of_one (State.setSlotState_slot t i _) ht trivial

theorem leaseLaw_parts : StepParts State.leaseLaw State.leaseLaw where
  recounted t i st ht h := forall_slot_of_one (State.countSlot_slot t i st) ht (h.timersWithin (ht i))
  phased t i r run run' pat ph ht h hl := by
    refine forall_slot_of_one (enterPhase_slot t i _ run' ph) ht ?_
    have := ht i
    rw [h] at this
    simpa only [SlotState.timersWithin, hl] using this
  granted t j r _ ht _ _ _ := leaseLaw_enterLive j r ht
  queued t j r _ ht _ hw := leaseLaw_enterWaiting j r ht hw
  started t j r a ht _ _ := leaseLaw_armed j r _ ht
  ended t i r ending ht hr _ _ := leaseLaw_enterEnd ending ht hr
  endWaiting t i r w ending ht h :=
    leaseLaw_enterEnd (t := t.leaveQueue i) (r := r) ending ht (by rw [State.leaveQueue_slot, h]; rfl)
  endLive t i r run ending ht h :=
    (leaseLaw_enterEnd (r := r) ending ht (by rw [h]; rfl) : (t.enterEnd i ending).leaseLaw)
  endFailed t o i b r run ht _ h :=
    (leaseLaw_enterEnd (t := t.failOutput o) (r := r) _ ht (by rw [failOutput_slot, h]; rfl) :
      ((t.failOutput o).enterEnd i _).leaseLaw)
  reset t epoch cause i := by rw [resetBlocks_slot]; trivial
  restarted t _ i := by rw [restart_slot]; trivial
  ticked t feedback trips ht i := by
    rw [tickAll_slot]
    rcases tick_recounted (t.slot i).state with e | h
    · rw [e]; exact ht i
    · exact h.timersWithin (ht i)
  claimed t i r ht _ _ _ := leaseLaw_enterLive i r ht
  joined t i r ht _ _ hw := leaseLaw_enterWaiting i r ht hw
  armed t i r part ht _ _ := leaseLaw_armed i r part ht

/-- Settles O57: each timer is started within its range, and falls no further than to 1 before the event in which it ends (R3,
R59, R66). -/
theorem leaseLawKept : Obligations.LeaseLawKept :=
  fun _ _ hs h => leaseLaw_parts.plainLaw.step hs h

end Sys2Proof.Machine
end

section
/-! PROOFS. The laws on the wait queue and on quotas (R9, R34). -/

set_option Elab.async false

namespace Sys2Proof.Machine

/-! ## The wait queue -/

/-- The law on the queue, and where its entries come from: those that stood in `q₀` are in their order, ahead of those that have
joined since; and no slot of `q₀` is ARMED, so none of them can join again (R34). -/
def State.queueSince (q₀ : List SlotNo) (t : State) : Prop :=
  t.queueLaw
    ∧ (∃ kept joined : List SlotNo, t.waitQueue = kept ++ joined ∧ kept.Sublist q₀ ∧ ∀ i ∈ joined, i ∉ q₀)
    ∧ ∀ i ∈ q₀, ∀ r part, (t.slot i).state ≠ .armed r part

theorem queueSince_start {q₀ : List SlotNo} {t : State} (h : t.queueLaw ∧ t.waitQueue = q₀) : t.queueSince q₀ := by
  obtain ⟨h, rfl⟩ := h
  refine ⟨h, ⟨t.waitQueue, [], by simp, List.Sublist.refl _, by simp⟩, fun i hi r part e => ?_⟩
  have := (h.2 i).1 hi
  rw [e] at this
  cases this

/-- No slot has entered or left WAITING, and none of `q₀` has come to be ARMED. -/
theorem queueSince_of_same {q₀ : List SlotNo} {t u : State} (ht : t.queueSince q₀) (hq : u.waitQueue = t.waitQueue)
    (hw : ∀ j, (u.slot j).state.isWaiting = (t.slot j).state.isWaiting)
    (ha : ∀ j ∈ q₀, ∀ r part, (u.slot j).state = .armed r part → ∃ r' part', (t.slot j).state = .armed r' part') :
    u.queueSince q₀ := by
  refine ⟨⟨hq ▸ ht.1.1, fun i => by rw [hq, hw]; exact ht.1.2 i⟩, hq ▸ ht.2.1, fun i hi r part e => ?_⟩
  obtain ⟨r', part', e'⟩ := ha i hi r part e
  exact ht.2.2 i hi r' part' e'

/-- One slot enters a state that is neither WAITING nor ARMED, and leaves the queue if it was in it. -/
theorem queueSince_leave {q₀ : List SlotNo} {t u : State} {i : SlotNo} {x : Slot} (ht : t.queueSince q₀)
    (hs : ∀ j, u.slot j = if j = i then x else t.slot j)
    (hq : u.waitQueue = t.waitQueue.filter (fun j => decide (j ≠ i))
      ∨ (t.slot i).state.isWaiting = false ∧ u.waitQueue = t.waitQueue)
    (hx : x.state.partNumber ≥ 3) : u.queueSince q₀ := by
  have hfilter : u.waitQueue = t.waitQueue.filter fun j => decide (j ≠ i) := by
    rcases hq with hq | ⟨hi, hq⟩
    · exact hq
    · rw [hq, eq_comm, List.filter_eq_self]
      rintro j hj
      have : j ≠ i := by rintro rfl; rw [(ht.1.2 j).1 hj] at hi; cases hi
      simpa using this
  have hxw : x.state.isWaiting = false := by
    cases hx' : x.state with
    | free | armed | live | closed => rfl
    | waiting => rw [hx'] at hx; exact absurd hx (by simp [SlotState.partNumber])
  refine ⟨⟨hfilter ▸ ht.1.1.filter _, fun j => ?_⟩, ?_, fun j hj r part e => ?_⟩
  · rw [hfilter, List.mem_filter, hs j, ht.1.2 j]
    by_cases h : j = i
    · simp [h, hxw]
    · simp [h]
  · obtain ⟨kept, joined, h1, h2, h3⟩ := ht.2.1
    refine ⟨kept.filter _, joined.filter _, by rw [hfilter, h1, List.filter_append], List.filter_sublist.trans h2, ?_⟩
    exact fun j hj => h3 j (List.mem_filter.1 hj).1
  · rw [hs j] at e
    split at e
    · rw [e] at hx
      cases part <;> exact absurd hx (by simp [SlotState.partNumber])
    · exact ht.2.2 j hj r part e

/-- One slot joins the queue at its tail. -/
theorem queueSince_join {q₀ : List SlotNo} {t : State} {i : SlotNo} (r : Permit) (ht : t.queueSince q₀)
    (hi : (t.slot i).state.isWaiting = false) (hq₀ : i ∉ q₀) : (t.enterWaiting i r).queueSince q₀ := by
  have hnew : i ∉ t.waitQueue := fun hm => by rw [(ht.1.2 i).1 hm] at hi; cases hi
  refine ⟨⟨?_, fun j => ?_⟩, ?_, fun j hj r' part => ?_⟩
  · rw [State.enterWaiting_waitQueue, List.nodup_append]
    refine ⟨ht.1.1, List.nodup_singleton i, fun a ha b hb => ?_⟩
    rw [List.mem_singleton.1 hb]
    rintro rfl
    exact hnew ha
  · rw [State.enterWaiting_waitQueue, List.mem_append, List.mem_singleton, State.enterWaiting_slot, ht.1.2 j]
    by_cases h : j = i
    · simp [h, SlotState.isWaiting]
    · simp [h]
  · obtain ⟨kept, joined, h1, h2, h3⟩ := ht.2.1
    refine ⟨kept, joined ++ [i], by rw [State.enterWaiting_waitQueue, h1, List.append_assoc], h2, fun j hj => ?_⟩
    rcases List.mem_append.1 hj with hj | hj
    · exact h3 j hj
    · rw [List.mem_singleton.1 hj]; exact hq₀
  · rw [State.enterWaiting_slot]
    split
    · simp
    · exact ht.2.2 j hj r' part

theorem SlotState.Recounted.isWaiting {x y : SlotState} (h : x.Recounted y) : y.isWaiting = x.isWaiting := by
  cases h <;> rfl

theorem SlotState.Recounted.armed {x y : SlotState} (h : x.Recounted y) {r : Permit} {part : ArmedPart}
    (hy : y = .armed r part) : ∃ part', x = .armed r part' := by
  cases h with
  | waiting | live => cases hy
  | delaying q d d' => cases hy; exact ⟨_, rfl⟩

/-- One slot changes and is WAITING neither before nor after, or both, and is ARMED only if it was. -/
theorem queueSince_one {q₀ : List SlotNo} {t u : State} {i : SlotNo} {x : Slot} (ht : t.queueSince q₀)
    (hq : u.waitQueue = t.waitQueue) (hs : ∀ j, u.slot j = if j = i then x else t.slot j)
    (hw : x.state.isWaiting = (t.slot i).state.isWaiting)
    (ha : i ∈ q₀ → ∀ r part, x.state = .armed r part → ∃ r' part', (t.slot i).state = .armed r' part') :
    u.queueSince q₀ := by
  refine queueSince_of_same ht hq (fun j => ?_) fun j hj r part e => ?_
  · rw [hs j]
    split
    case isTrue h => rw [hw, h]
    case isFalse => rfl
  · rw [hs j] at e
    split at e
    case isTrue h => exact h ▸ ha (h ▸ hj) r part e
    case isFalse => exact ⟨r, part, e⟩

theorem partNumber_ended (x : Slot) (r : Permit) (ending : Option Closure) : (x.ended r ending).state.partNumber ≥ 3 := by
  rcases ended_state x r ending with e | ⟨c, e⟩ <;> (rw [e]; simp [SlotState.partNumber])

theorem queueSince_enterEnd {q₀ : List SlotNo} {t : State} {i : SlotNo} {r : Permit} (ending : Option Closure)
    (ht : t.queueSince q₀) (hr : (t.slot i).state.record = some r) (hw : (t.slot i).state.isWaiting = false) :
    (t.enterEnd i ending).queueSince q₀ :=
  queueSince_leave ht (enterEnd_slot ending hr) (.inr ⟨hw, (enterEnd_rest ending hr).2.2.2.2⟩) (partNumber_ended _ r ending)

theorem queueSince_enterLive {q₀ : List SlotNo} {t : State} (i : SlotNo) (r : Permit) (ht : t.queueSince q₀) :
    (t.enterLive i r).queueSince q₀ :=
  queueSince_leave ht (State.enterLive_slot t i r) (.inl (State.enterLive_waitQueue t i r)) (by simp [SlotState.partNumber])

theorem queueSince_parts (q₀ : List SlotNo) :
    StepParts (fun t => t.queueLaw ∧ t.waitQueue = q₀) (State.queueSince q₀) where
  start _ := queueSince_start
  recounted t i st ht h := queueSince_one ht rfl (State.countSlot_slot t i st) h.isWaiting fun _ r part e => by
    obtain ⟨part', e'⟩ := h.armed e
    exact ⟨r, part', e'⟩
  phased t i r run run' pat ph ht h _ := queueSince_one ht rfl (enterPhase_slot t i _ run' ph) (by rw [h]; rfl) (fun _ _ _ e => by cases e)
  granted t j r _ ht _ _ _ := queueSince_enterLive j r ht
  queued t j r d ht h _ := queueSince_join r ht (by rw [h]; rfl) fun hj => ht.2.2 j hj _ _ h
  started t j r a ht _ h :=
    queueSince_one ht rfl (State.setSlotState_slot t j _) (by rw [h]; rfl) fun _ _ _ _ => ⟨r, _, h⟩
  ended t i r ending ht hr _ hw := queueSince_enterEnd ending ht hr hw
  endWaiting t i r w ending ht h := by
    have hr : (t.slot i).state.record = some r := by rw [h]; rfl
    exact queueSince_leave ht (leaveQueue_enterEnd_slot ending hr)
      (.inl (enterEnd_rest (s := t.leaveQueue i) ending hr).2.2.2.2) (partNumber_ended _ r ending)
  endLive t i r run ending ht h := by
    have := queueSince_enterEnd (r := r) ending ht (by rw [h]; rfl) (by rw [h]; rfl)
    exact queueSince_of_same this rfl (fun _ => rfl) fun _ _ r part h => ⟨r, part, h⟩
  endFailed t o i b r run ht _ h := by
    have hf : (t.failOutput o).queueSince q₀ :=
      queueSince_of_same ht rfl (fun _ => rfl) fun _ _ r part h => ⟨r, part, h⟩
    have := queueSince_enterEnd (r := r) (some (.fault o)) hf (by rw [failOutput_slot, h]; rfl) (by rw [failOutput_slot, h]; rfl)
    exact queueSince_of_same this rfl (fun _ => rfl) fun _ _ r part h => ⟨r, part, h⟩
  reset t epoch cause := by
    refine ⟨⟨List.nodup_nil, fun i => ?_⟩, ⟨[], [], rfl, List.nil_sublist _, by simp⟩, fun i _ => ?_⟩
    · rw [resetBlocks_slot]; simp [State.resetBlocks, State.reset, SlotState.isWaiting]
    · rw [resetBlocks_slot]; simp
  restarted t _ := by
    refine ⟨⟨List.nodup_nil, fun i => ?_⟩, ⟨[], [], rfl, List.nil_sublist _, by simp⟩, fun i _ => ?_⟩
    · rw [restart_slot]; simp [State.restart, SlotState.isWaiting]
    · rw [restart_slot]; simp
  ticked t feedback trips ht := by
    refine queueSince_of_same ht rfl (fun j => ?_) fun j _ r part e => ?_
    · rw [tickAll_slot]
      rcases tick_recounted (t.slot j).state with h | h
      · rw [h]
      · exact h.isWaiting
    · rw [tickAll_slot] at e
      rcases tick_recounted (t.slot j).state with h | h
      · exact ⟨r, part, h ▸ e⟩
      · obtain ⟨part', e'⟩ := h.armed e
        exact ⟨r, part', e'⟩
  claimed t i r ht _ _ _ := queueSince_enterLive i r (queueSince_start ht)
  joined t i r ht h _ _ := by
    have hw : (t.slot i).state.isWaiting = false := by rw [h]; rfl
    refine queueSince_join r (queueSince_start ht) hw fun hi => ?_
    rw [← ht.2, ht.1.2 i, hw] at hi
    cases hi
  armed t i r part ht h _ := by
    refine queueSince_one (queueSince_start ht) rfl (State.setSlotState_slot t i _) (by rw [h]; rfl) fun hi => ?_
    rw [← ht.2, ht.1.2 i, h] at hi
    cases hi

/-- Settles O52: a permit joins the queue at its tail, from FREE or from DELAYING, and a slot that stood in the queue at the start
of the step does not come back to either within it (R34). -/
theorem queueLawKept : Obligations.QueueLawKept := by
  intro s t hs h
  have ht := (queueSince_parts s.waitQueue).plainLaw.step ⟨hs, rfl⟩ h
  exact ⟨ht.1, ht.2.1⟩

end Sys2Proof.Machine
end

section
/-! PROOFS. The law on quotas (R9). -/

set_option Elab.async false

namespace Sys2Proof.Machine

/-! ## Used counts -/

theorem countP_le_add_one {α : Type} {p q : α → Bool} {a : α} {l : List α} (hl : l.Nodup)
    (h : ∀ x ∈ l, x ≠ a → q x = true → p x = true) : l.countP q ≤ l.countP p + 1 := by
  induction l with
  | nil => simp
  | cons x l ih =>
    obtain ⟨hx, hl⟩ := List.nodup_cons.1 hl
    rw [List.countP_cons, List.countP_cons]
    by_cases hxa : x = a
    · have : l.countP q ≤ l.countP p := List.countP_mono_left fun y hy hq =>
        h y (by simp [hy]) (by rintro rfl; exact hx (hxa ▸ hy)) hq
      split <;> split <;> omega
    · have := ih hl fun y hy => h y (by simp [hy])
      have := h x (by simp) hxa
      by_cases hq : q x = true <;> simp_all; omega

theorem usedCount_mono {t u : State} {p : Port}
    (h : ∀ j, (u.slot j).state.ownedBy p = true → (t.slot j).state.ownedBy p = true) : u.usedCount p ≤ t.usedCount p :=
  List.countP_mono_left fun j _ => h j

/-- A record entered in one slot raises the used count of its owner by one at most, and no other (R1). -/
theorem usedCount_enter {t u : State} {i : SlotNo} {x : Slot} {r : Permit} (p : Port)
    (hs : ∀ j, u.slot j = if j = i then x else t.slot j) (hr : x.state.record = some r) :
    u.usedCount p ≤ t.usedCount p + (if r.owner = p then 1 else 0) := by
  have other (j : SlotNo) (hj : j ≠ i) (ho : (u.slot j).state.ownedBy p = true) : (t.slot j).state.ownedBy p = true := by
    rw [hs j, if_neg hj] at ho
    exact ho
  split
  case isTrue => exact countP_le_add_one (List.nodup_finRange 32) fun j _ => other j
  case isFalse h =>
    refine usedCount_mono fun j ho => ?_
    by_cases hj : j = i
    · rw [hs j, if_pos hj, SlotState.ownedBy, hr] at ho
      exact absurd (by simpa using ho) h
    · exact other j hj ho

/-! ## The law -/

theorem quotaLaw_mono {t u : State} (ht : t.quotaLaw) (hq : u.quota = t.quota)
    (h : ∀ p j, (u.slot j).state.ownedBy p = true → (t.slot j).state.ownedBy p = true) : u.quotaLaw := by
  obtain ⟨hsum, hused⟩ := ht
  refine ⟨hq ▸ hsum, fun p => ?_⟩
  rw [hq]
  exact (usedCount_mono (h p)).trans (hused p)

/-- No owner has come to a slot that is changed. -/
theorem quotaLaw_one {t u : State} {i : SlotNo} {x : Slot} (ht : t.quotaLaw) (hq : u.quota = t.quota)
    (hs : ∀ j, u.slot j = if j = i then x else t.slot j)
    (hx : ∀ p, x.state.ownedBy p = true → (t.slot i).state.ownedBy p = true) : u.quotaLaw :=
  quotaLaw_mono ht hq fun p j ho => by
    rw [hs j] at ho
    split at ho
    case isTrue h => exact h ▸ hx p ho
    case isFalse => exact ho

/-- A record that there is room for is entered in a slot (R25). -/
theorem quotaLaw_enter {t u : State} {i : SlotNo} {x : Slot} {r : Permit} (ht : t.quotaLaw) (hq : u.quota = t.quota)
    (hs : ∀ j, u.slot j = if j = i then x else t.slot j) (hr : x.state.record = some r) (ha : t.admits r) : u.quotaLaw := by
  obtain ⟨hsum, hused⟩ := ht
  refine ⟨hq ▸ hsum, fun p => ?_⟩
  have := usedCount_enter p hs hr
  have := hused p
  have := ha.room
  rw [hq]
  split at *
  · subst_vars; omega
  · omega

theorem ownedBy_of_record {x y : SlotState} {r : Permit} (hy : y.record = some r) (hx : x.record = some r ∨ x = .free) (p : Port)
    (ho : x.ownedBy p = true) : y.ownedBy p = true := by
  rcases hx with hx | rfl
  · rw [ownedBy_congr (hy.trans hx.symm)]; exact ho
  · cases ho

theorem record_ended (x : Slot) (r : Permit) (ending : Option Closure) :
    (x.ended r ending).state.record = some r ∨ (x.ended r ending).state = .free := by
  cases ending <;> simp [Slot.ended, SlotState.record]

theorem SlotState.Recounted.record {x y : SlotState} (h : x.Recounted y) : y.record = x.record := by
  cases h <;> rfl

theorem record_tick (x : SlotState) : x.tick.record = x.record := by
  rcases tick_recounted x with h | h
  · rw [h]
  · exact h.record

theorem quotaLaw_enterEnd {t : State} {i : SlotNo} {r : Permit} (ending : Option Closure) (ht : t.quotaLaw)
    (hr : (t.slot i).state.record = some r) : (t.enterEnd i ending).quotaLaw := by
  obtain ⟨-, -, -, -, -, -, -, -, -, hq, -⟩ := (settingsKept_iff _ _).1 (enterEnd_rest ending hr).1
  exact quotaLaw_one ht hq (enterEnd_slot ending hr) (ownedBy_of_record hr (record_ended _ r ending))

theorem quotaLaw_empty {u : State} (hsum : u.quota.control + u.quota.supervisor ≤ 32) (h : ∀ i, (u.slot i).state = .free) :
    u.quotaLaw :=
  ⟨hsum, fun p => by
    have : u.usedCount p = 0 := List.countP_eq_zero.2 fun i _ => by rw [h i]; simp [SlotState.ownedBy, SlotState.record]
    omega⟩

theorem quotaLaw_parts : StepParts State.quotaLaw State.quotaLaw where
  noted t p n ht _ := quotaLaw_mono ht rfl fun _ _ => id
  recounted t i st ht h := quotaLaw_one ht rfl (State.countSlot_slot t i st) fun p ho => ownedBy_congr h.record p ▸ ho
  phased t i r run run' pat ph ht h _ := quotaLaw_one ht rfl (enterPhase_slot t i _ run' ph) fun _ ho => by rw [h]; exact ho
  failed t o ht _ := quotaLaw_mono ht rfl fun _ _ => id
  granted t j r _ ht hr _ _ := quotaLaw_one ht rfl (State.enterLive_slot t j r) (ownedBy_of_record hr (.inl rfl))
  queued t j r d ht h _ := quotaLaw_one ht rfl (State.enterWaiting_slot t j r) fun _ ho => by rw [h]; exact ho
  started t j r a ht _ h := quotaLaw_one ht rfl (State.setSlotState_slot t j _) fun _ ho => by rw [h]; exact ho
  ended t i r ending ht hr _ _ := quotaLaw_enterEnd ending ht hr
  endWaiting t i r w ending ht h :=
    quotaLaw_enterEnd (t := t.leaveQueue i) (r := r) ending ht (by rw [State.leaveQueue_slot, h]; rfl)
  endLive t i r run ending ht h :=
    (quotaLaw_enterEnd (r := r) ending ht (by rw [h]; rfl) : (t.enterEnd i ending).quotaLaw)
  endFailed t o i b r run ht _ h :=
    (quotaLaw_enterEnd (t := t.failOutput o) (r := r) _ (quotaLaw_mono ht rfl fun _ _ => id)
      (by rw [failOutput_slot, h]; rfl) : ((t.failOutput o).enterEnd i _).quotaLaw)
  reset t epoch cause := quotaLaw_empty (Nat.le_of_ble_eq_true rfl) fun i => by rw [resetBlocks_slot]
  restarted t ht := quotaLaw_empty ht.1 fun i => by rw [restart_slot]
  ticked t feedback trips ht := quotaLaw_mono ht rfl fun p j ho => by
    rw [tickAll_slot] at ho
    exact ownedBy_congr (record_tick _) p ▸ ho
  quotas t p q ht hused hsum := by
    refine ⟨?_, fun p' => ?_⟩
    · cases p <;> simp only [PerPort.set, otherPort, PerPort.get] at hsum ⊢ <;> omega
    · rw [PerPort.get_set]
      split
      case isTrue h => exact h ▸ hused
      case isFalse => exact ht.2 p'
  claimed t i r ht _ ha _ := quotaLaw_enter ht rfl (State.enterLive_slot t i r) rfl ha
  joined t i r ht _ ha _ := quotaLaw_enter ht rfl (State.enterWaiting_slot t i r) rfl ha
  armed t i r part ht _ ha := quotaLaw_enter ht rfl (State.setSlotState_slot t i _) rfl ha

/-- Settles O51: a slot gets an owner by a claim alone, which check 10 of R25 lets through only below the quota; CONFIGURE of
QUOTA sets no quota below the used count (R9). -/
theorem quotaLawKept : Obligations.QuotaLawKept :=
  fun _ _ hs h => quotaLaw_parts.plainLaw.step hs h

end Sys2Proof.Machine
end

section
/-! PROOFS. The law on holding and the drive levels (R10, R30, R76, R113). -/

set_option Elab.async false

namespace Sys2Proof.Machine

/-! ## What a slot drives -/

/-- No output is named twice in the record of the slot (R2). -/
def SlotState.listsOnce (x : SlotState) : Prop := ∀ r, x.record = some r → r.outputNos.Nodup

theorem outputsOf_nodup_iff (s : State) (i : SlotNo) : (s.outputsOf i).Nodup ↔ (s.slot i).state.listsOnce := by
  simp only [State.outputsOf, SlotState.listsOnce]
  cases (s.slot i).state.record <;> simp

theorem listsOnce_congr {x y : SlotState} (h : y.record = x.record) (hx : x.listsOnce) : y.listsOnce :=
  fun r hr => hx r (h ▸ hr)

theorem listsOnce_ended {x : Slot} {r : Permit} (ending : Option Closure) (hr : x.state.record = some r)
    (hx : x.state.listsOnce) : (x.ended r ending).state.listsOnce := by
  rcases record_ended x r ending with e | e
  · exact listsOnce_congr (e.trans hr.symm) hx
  · rw [e]; exact fun _ h => nomatch h

theorem drives_false_of_not_live {x : SlotState} (h : x.isLive = false) (o : OutputNo) (b : Bool) : x.drives o b = false := by
  cases x with
  | live => cases h
  | free | waiting | armed | closed => rfl

theorem isLive_ended (x : Slot) (r : Permit) (ending : Option Closure) : (x.ended r ending).state.isLive = false := by
  rcases ended_state x r ending with e | ⟨c, e⟩ <;> (rw [e]; rfl)

theorem SlotState.Recounted.drives {x y : SlotState} (h : x.Recounted y) (o : OutputNo) (b : Bool) :
    y.drives o b = x.drives o b := by
  cases h <;> rfl

theorem tick_drives (x : SlotState) (o : OutputNo) (b : Bool) : x.tick.drives o b = x.drives o b := by
  rcases tick_recounted x with h | h
  · rw [h]
  · exact h.drives o b

theorem heldBy_iff (c : ChannelState) (i : SlotNo) : c.heldBy i = true ↔ ∃ b, c = .held i b := by
  cases c <;> simp [ChannelState.heldBy]

/-! ## The law on holding -/

/-- The holders are the same, and no slot has come to drive another output. -/
theorem holdingLaw_of_same {t u : State} (ht : t.holdingLaw)
    (hc : ∀ o i b, (u.channel o).state = .held i b ↔ (t.channel o).state = .held i b)
    (hd : ∀ i o b, (u.slot i).state.drives o b = (t.slot i).state.drives o b)
    (hn : ∀ i, (t.slot i).state.listsOnce → (u.slot i).state.listsOnce) : u.holdingLaw := by
  obtain ⟨hold, once⟩ := ht
  refine ⟨fun o i b => by rw [hc, hd, hold], fun i => ?_⟩
  rw [outputsOf_nodup_iff]
  exact hn i ((outputsOf_nodup_iff t i).1 (once i))

/-- One slot has changed; it drives what it drove before. -/
theorem holdingLaw_one {t u : State} {i : SlotNo} {x : Slot} (ht : t.holdingLaw)
    (hc : ∀ o i b, (u.channel o).state = .held i b ↔ (t.channel o).state = .held i b)
    (hs : ∀ j, u.slot j = if j = i then x else t.slot j)
    (hd : ∀ o b, x.state.drives o b = (t.slot i).state.drives o b)
    (hn : (t.slot i).state.listsOnce → x.state.listsOnce) : u.holdingLaw := by
  refine holdingLaw_of_same ht hc (fun j o b => ?_) fun j hj => ?_ <;> rw [hs j] <;> split
  case refine_1.isTrue h => rw [h]; exact hd o b
  case refine_2.isTrue h => exact hn (h ▸ hj)
  case refine_2.isFalse => exact hj
  case refine_1.isFalse => rfl

/-- A slot that was not LIVE enters another state that is not LIVE. -/
theorem holdingLaw_notLive {t u : State} {i : SlotNo} {x : Slot} (ht : t.holdingLaw)
    (hc : ∀ o i b, (u.channel o).state = .held i b ↔ (t.channel o).state = .held i b)
    (hs : ∀ j, u.slot j = if j = i then x else t.slot j) (hi : (t.slot i).state.isLive = false)
    (hx : x.state.isLive = false) (hn : (t.slot i).state.listsOnce → x.state.listsOnce) : u.holdingLaw :=
  holdingLaw_one ht hc hs (fun o b => by rw [drives_false_of_not_live hi, drives_false_of_not_live hx]) hn

/-- A slot leaves LIVE, and exactly the outputs that it held are held no longer. -/
theorem holdingLaw_leave {t u : State} {i : SlotNo} {x : Slot} (ht : t.holdingLaw)
    (hc : ∀ o k b, (u.channel o).state = .held k b ↔ (t.channel o).state = .held k b ∧ k ≠ i)
    (hs : ∀ j, u.slot j = if j = i then x else t.slot j) (hx : x.state.isLive = false)
    (hn : (t.slot i).state.listsOnce → x.state.listsOnce) : u.holdingLaw := by
  obtain ⟨hold, once⟩ := ht
  refine ⟨fun o k b => ?_, fun k => ?_⟩
  · rw [hc, hs k]
    by_cases h : k = i
    · simp [h, drives_false_of_not_live hx]
    · simp [h, hold]
  · have := (outputsOf_nodup_iff t k).1 (once k)
    rw [outputsOf_nodup_iff, hs k]
    split
    case isTrue h => exact hn (h ▸ this)
    case isFalse => exact this

/-- A record names each output once, so it gives each one flag. -/
theorem find_output {es : List OutputEntry} (h : (es.map OutputEntry.output).Nodup) (o : OutputNo) :
    (∃ b, es.find? (fun e => decide (e.output = o)) = some ⟨o, b⟩
        ∧ ∀ b', es.contains ⟨o, b'⟩ = decide (b = b'))
      ∨ es.find? (fun e => decide (e.output = o)) = none ∧ o ∉ es.map OutputEntry.output
        ∧ ∀ b', es.contains ⟨o, b'⟩ = false := by
  cases hf : es.find? (fun e => decide (e.output = o)) with
  | some e =>
    obtain ⟨o', b⟩ := e
    have ho : o' = o := by simpa using List.find?_some hf
    have hmem : (⟨o', b⟩ : OutputEntry) ∈ es := List.mem_of_find?_eq_some hf
    subst ho
    refine .inl ⟨b, rfl, fun b' => ?_⟩
    by_cases hb : b = b'
    · subst hb; simpa using hmem
    · have : (⟨o', b'⟩ : OutputEntry) ∉ es := fun h' => hb (by
        have := List.inj_on_of_nodup_map h hmem h' rfl
        exact congrArg OutputEntry.invert this)
      simpa [hb] using this
  | none =>
    have hno : ∀ e ∈ es, e.output ≠ o := by simpa using hf
    refine .inr ⟨rfl, by simpa using hno, fun b' => ?_⟩
    simpa using fun h' => hno _ h' rfl

/-- The holders after a grant. -/
theorem enterLive_held {t : State} {j : SlotNo} {r : Permit} (hn : r.outputNos.Nodup) (o : OutputNo) (k : SlotNo) (b : Bool) :
    ((t.enterLive j r).channel o).state = .held k b ↔
      if o ∈ r.outputNos then k = j ∧ r.outputs.contains ⟨o, b⟩ = true else (t.channel o).state = .held k b := by
  rw [enterLive_channel, takeOutputs_channel]
  rcases find_output hn o with ⟨b', hf, hcon⟩ | ⟨hf, hno, -⟩
  · have ho : o ∈ r.outputNos := List.mem_map.2 ⟨_, List.mem_of_find?_eq_some hf, rfl⟩
    simp only [hf, take_state, ho, if_true, hcon, decide_eq_true_eq, ChannelState.held.injEq, eq_comm (a := j)]
  · simp only [hf, if_neg (show o ∉ r.outputNos from hno)]

theorem holdingLaw_enterLive {t : State} {j : SlotNo} {r : Permit} (ht : t.holdingLaw) (hl : (t.slot j).state.isLive = false)
    (hn : r.outputNos.Nodup) (hi : ∀ o ∈ r.outputNos, (t.channel o).state = .idle) : (t.enterLive j r).holdingLaw := by
  obtain ⟨hold, once⟩ := ht
  refine ⟨fun o k b => ?_, fun k => ?_⟩
  · rw [enterLive_held hn, enterLive_slot]
    have hk := hold o k b
    split
    case isTrue ho =>
      rw [hi o ho] at hk
      by_cases h : k = j
      · simp [h, SlotState.drives]
      · simpa [h] using hk
    case isFalse ho =>
      by_cases h : k = j
      · have : (⟨o, b⟩ : OutputEntry) ∉ r.outputs := fun h' => ho (List.mem_map.2 ⟨_, h', rfl⟩)
        rw [h, drives_false_of_not_live hl] at hk
        simpa [h, SlotState.drives, this] using hk
      · simpa [h] using hk
  · rw [outputsOf_nodup_iff, enterLive_slot]
    split
    · rintro q ⟨⟩; exact hn
    · exact (outputsOf_nodup_iff t k).1 (once k)

theorem holdingLaw_empty {u : State} (hs : ∀ i, (u.slot i).state = .free) (hc : ∀ o i b, (u.channel o).state ≠ .held i b) :
    u.holdingLaw :=
  ⟨fun o i b => by simp [hs i, hc o i b, SlotState.drives], fun i => by
    rw [outputsOf_nodup_iff, hs i]; exact fun _ h => nomatch h⟩

theorem enterEnd_channel {t : State} {i : SlotNo} {r : Permit} (ending : Option Closure)
    (hr : (t.slot i).state.record = some r) (o : OutputNo) : (t.enterEnd i ending).channel o = t.channel o := by
  simp only [State.channel, (enterEnd_rest ending hr).2.2.2.1]

theorem listsOnce_armed (r : Permit) (part : ArmedPart) (h : r.outputNos.Nodup) : (SlotState.armed r part).listsOnce := by
  rintro q ⟨⟩; exact h

theorem handPhase_state (i : SlotNo) (ph : Phase) (c : Channel) : (c.handPhase i ph).state = c.state := by
  simp only [Channel.handPhase]
  split
  · split <;> simp
  · rfl
  · rfl

theorem enterPhase_channel (s : State) (i : SlotNo) (r : Permit) (run : RunPart) (ph : Phase) (o : OutputNo) :
    (s.enterPhase i r run ph).channel o = (s.channel o).handPhase i ph := State.handPhase_channel _ i ph o

theorem tickAll_channel (s : State) (feedback : BitVec 16) (trips : BitVec 4) (o : OutputNo) :
    (s.tickAll feedback trips).channel o = (s.channel o).tick (sampledLevel feedback o.val) := get_ofFn_fin _ o

theorem restart_channel (s : State) (o : OutputNo) :
    s.restart.channel o = if (s.channel o).state.isHeld then (s.channel o).letGo else s.channel o := State.letGo_channel s _ o

theorem resetBlocks_channel (s : State) (epoch : BitVec 4) (cause : ResetCause) (o : OutputNo) :
    (State.resetBlocks epoch cause s).channel o = State.reset.channel o := rfl

theorem reset_channel (o : OutputNo) : (State.reset.channel o).state = .idle ∧ (State.reset.channel o).expected = .off := by
  have : State.reset.channel o = resetChannel := by
    show (Vector.replicate 16 _).get o = _
    rw [get_eq_getElem, Vector.getElem_replicate]
  rw [this]; exact ⟨rfl, rfl⟩

theorem restart_not_held (s : State) (o : OutputNo) : (s.restart.channel o).state.isHeld = false := by
  rw [restart_channel]
  split
  · simp [ChannelState.isHeld]
  · exact Bool.eq_false_iff.2 ‹_›

theorem not_held_of_isHeld {c : ChannelState} (h : c.isHeld = false) (i : SlotNo) (b : Bool) : c ≠ .held i b := by
  rintro rfl; cases h

/-- The holders after the LIVE permit of a slot has ended (R115). -/
theorem endLive_held {t : State} {i : SlotNo} {r : Permit} (ending : Option Closure)
    (hr : (t.slot i).state.record = some r) (o : OutputNo) (k : SlotNo) (b : Bool) :
    (((t.enterEnd i ending).letGo (t.holds i)).channel o).state = .held k b ↔ (t.channel o).state = .held k b ∧ k ≠ i := by
  rw [State.letGo_channel, enterEnd_channel ending hr, State.holds]
  by_cases h : (t.channel o).state.heldBy i = true
  · obtain ⟨b', e⟩ := (heldBy_iff _ i).1 h
    rw [if_pos h, channel_letGo_state, e]
    simp only [reduceCtorEq, ChannelState.held.injEq, false_iff]
    rintro ⟨⟨rfl, -⟩, hk⟩
    exact hk rfl
  · rw [if_neg h, iff_self_and]
    rintro e rfl
    exact h ((heldBy_iff _ k).2 ⟨b, e⟩)

theorem fail_state (c : Channel) : c.fail.state = .faulted := rfl

/-- The slots after an output has been declared FAULTED and the permit of slot `i` has ended. -/
theorem endFailed_slot {t : State} {i : SlotNo} {r : Permit} (o : OutputNo) (ending : Option Closure)
    (hr : (t.slot i).state.record = some r) (j : SlotNo) :
    (((t.failOutput o).enterEnd i ending).letGo ((t.failOutput o).holds i)).slot j =
      if j = i then (t.slot i).ended r ending else t.slot j := by
  rw [State.letGo_slot]
  exact enterEnd_slot (s := t.failOutput o) ending hr j

theorem settled_not_live {x : SlotState} (h : x.settled = false) : x.isLive = false := by
  cases x with
  | live => cases h
  | free | waiting | armed | closed => rfl

theorem listsOnce_of_holdingLaw {t : State} (ht : t.holdingLaw) {i : SlotNo} {r : Permit}
    (hr : (t.slot i).state.record = some r) : r.outputNos.Nodup := (outputsOf_nodup_iff t i).1 (ht.2 i) r hr

theorem holdingLaw_eventParts : EventParts State.holdingLaw where
  noted t p n ht _ := holdingLaw_of_same ht (fun _ _ _ => Iff.rfl) (fun _ _ _ => rfl) fun _ => id
  recounted t i st ht h :=
    holdingLaw_one ht (fun _ _ _ => Iff.rfl) (State.countSlot_slot t i st) h.drives (listsOnce_congr h.record)
  phased t i r run run' pat ph ht h _ :=
    holdingLaw_one ht (fun o _ _ => by rw [enterPhase_channel, handPhase_state]) (enterPhase_slot t i _ run' ph)
      (fun o b => by rw [h]; rfl) fun hn q hq => by
        cases hq
        exact hn r (by rw [h]; rfl)
  supervised t o n sup ht h _ :=
    holdingLaw_of_same ht (fun o' _ _ => by rw [State.setChannel_channel]; split <;> simp_all) (fun _ _ _ => rfl) fun _ => id
  failed t o ht h := by
    refine holdingLaw_of_same ht (fun o' i b => ?_) (fun _ _ _ => rfl) fun _ => id
    rw [failOutput_channel]
    split
    case isTrue ho =>
      simp only [fail_state, reduceCtorEq, false_iff]
      intro hc
      have hd := (ht.1 o' i b).1 hc
      cases hs : (t.slot i).state with
      | live r run => exact h i b r run (ho ▸ hc) hs
      | _ => rw [hs] at hd; cases hd
    case isFalse => rfl
  granted t j r ahead ht hr hs hc :=
    holdingLaw_enterLive ht (settled_not_live hs) (listsOnce_of_holdingLaw ht hr) fun o ho => ((claimTest_none.1 hc).1 o ho).1
  queued t j r d ht h _ :=
    holdingLaw_notLive ht (fun _ _ _ => Iff.rfl) (State.enterWaiting_slot t j r) (by rw [h]; rfl) rfl
      (listsOnce_congr (by rw [h]; rfl))
  started t j r a ht _ h :=
    holdingLaw_notLive ht (fun _ _ _ => Iff.rfl) (State.setSlotState_slot t j _) (by rw [h]; rfl) rfl
      (listsOnce_congr (by rw [h]; rfl))
  ended t i r ending ht hr hl _ :=
    holdingLaw_notLive ht (fun _ _ _ => by rw [enterEnd_channel ending hr]) (enterEnd_slot ending hr) hl
      (isLive_ended _ r ending) (listsOnce_ended ending hr)
  endWaiting t i r w ending ht h := by
    have hr : (t.slot i).state.record = some r := by rw [h]; rfl
    exact holdingLaw_notLive ht (fun o _ _ => by rw [enterEnd_channel (t := t.leaveQueue i) ending hr]; rfl)
      (leaveQueue_enterEnd_slot ending hr) (by rw [h]; rfl) (isLive_ended _ r ending) (listsOnce_ended ending hr)
  endLive t i r run ending ht h := by
    have hr : (t.slot i).state.record = some r := by rw [h]; rfl
    exact holdingLaw_leave ht (endLive_held ending hr) (enterEnd_slot ending hr) (isLive_ended _ r ending)
      (listsOnce_ended ending hr)
  endFailed t o i b r run ht hc h := by
    have hr : (t.slot i).state.record = some r := by rw [h]; rfl
    refine holdingLaw_leave ht (fun o' k b' => ?_) (endFailed_slot o (some (.fault o)) hr) (isLive_ended _ r _)
      (listsOnce_ended _ hr)
    rw [endLive_held (t := t.failOutput o) _ hr, failOutput_channel]
    by_cases ho : o' = o
    · subst ho
      simp only [if_true, fail_state, reduceCtorEq, false_and, false_iff, hc, ChannelState.held.injEq]
      rintro ⟨⟨rfl, -⟩, hk⟩
      exact hk rfl
    · rw [if_neg ho]

theorem holdingLaw_stepBase : StepBase State.holdingLaw State.holdingLaw where
  reset t epoch cause := holdingLaw_empty (fun i => by rw [resetBlocks_slot]) fun o i b => by
    rw [resetBlocks_channel, (reset_channel o).1]; simp
  restarted t _ := holdingLaw_empty (fun i => by rw [restart_slot]) fun o => not_held_of_isHeld (restart_not_held t o)
  ticked t feedback trips ht :=
    holdingLaw_of_same ht (fun o _ _ => by rw [tickAll_channel]; rfl) (fun i o b => by rw [tickAll_slot]; exact tick_drives _ o b)
      fun i hn => by rw [tickAll_slot]; exact listsOnce_congr (record_tick _) hn
  output t o pol settle ahead ht _ _ :=
    holdingLaw_of_same ht (fun o' _ _ => by rw [State.setChannel_channel]; split <;> simp_all [Channel.configure]) (fun _ _ _ => rfl) fun _ => id
  unfaulted t o ht h :=
    holdingLaw_of_same ht (fun o' _ _ => by rw [State.setChannel_channel]; split <;> simp_all) (fun _ _ _ => rfl) fun _ => id

theorem holdingLaw_parts : StepParts State.holdingLaw State.holdingLaw where
  toEventParts := holdingLaw_eventParts
  toActBase := holdingLaw_stepBase.toActBase
  toLinkBase := holdingLaw_stepBase.toLinkBase
  claimed t i r ht h ha hc :=
    holdingLaw_enterLive ht (by rw [h]; rfl) ha.nodup fun o ho => ((claimTest_none.1 hc).1 o ho).1
  joined t i r ht h ha _ :=
    holdingLaw_notLive ht (fun _ _ _ => Iff.rfl) (State.enterWaiting_slot t i r) (by rw [h]; rfl) rfl
      fun _ => by rintro q ⟨⟩; exact ha.nodup
  armed t i r part ht h ha :=
    holdingLaw_notLive ht (fun _ _ _ => Iff.rfl) (State.setSlotState_slot t i _) (by rw [h]; rfl) rfl
      fun _ => listsOnce_armed r part ha.nodup

end Sys2Proof.Machine
end

section
/-! PROOFS. The drive levels (R76, R113). -/

set_option Elab.async false

namespace Sys2Proof.Machine

/-- The level that the part of a slot gives to an output which the slot holds with this invert flag (R113). -/
def SlotState.levelGiven (x : SlotState) (b : Bool) : Level :=
  match x with
  | .live _ run => driveLevel run.phase b
  | .free => .off
  | .waiting _ _ => .off
  | .armed _ _ => .off
  | .closed _ _ => .off

theorem ruledLevel_held {s : State} {o : OutputNo} {i : SlotNo} {b : Bool} (h : (s.channel o).state = .held i b) :
    s.ruledLevel o = (s.slot i).state.levelGiven b := by
  rw [State.ruledLevel, h]
  cases hs : (s.slot i).state <;> simp [SlotState.levelGiven, hs]

theorem ruledLevel_not_held {s : State} {o : OutputNo} (h : (s.channel o).state.isHeld = false) : s.ruledLevel o = .off := by
  simp only [State.ruledLevel]
  split
  · rfl
  · rfl
  case h_3 e => rw [e] at h; cases h

theorem levelGiven_not_live {x : SlotState} (h : x.isLive = false) (b : Bool) : x.levelGiven b = .off := by
  cases x with
  | live => cases h
  | free | waiting | armed | closed => rfl

/-- The level that is given to a channel in this state by these slots. -/
theorem driveLaw_iff (s : State) : s.driveLaw ↔
    ∀ o, ((s.channel o).state.isHeld = false → (s.channel o).expected = .off)
      ∧ ∀ i b, (s.channel o).state = .held i b → (s.channel o).expected = (s.slot i).state.levelGiven b := by
  refine forall_congr' fun o => ⟨fun h => ⟨fun hn => h.trans (ruledLevel_not_held hn), fun i b e => h.trans (ruledLevel_held e)⟩,
    fun ⟨hn, hh⟩ => ?_⟩
  cases hs : (s.channel o).state with
  | held i b => rw [hh i b hs, ruledLevel_held hs]
  | idle | faulted => rw [ruledLevel_not_held (by rw [hs]; rfl), hn (by rw [hs]; rfl)]

/-- Every output is driven as it was, and the slots give the levels that they gave. -/
theorem driveLaw_of_same {t u : State} (ht : t.driveLaw)
    (hc : ∀ o, (u.channel o).state = (t.channel o).state ∧ (u.channel o).expected = (t.channel o).expected
      ∨ (u.channel o).state.isHeld = false ∧ (u.channel o).expected = .off)
    (hl : ∀ i b o, (u.channel o).state = .held i b → (u.slot i).state.levelGiven b = (t.slot i).state.levelGiven b) :
    u.driveLaw := by
  rw [driveLaw_iff] at ht ⊢
  refine fun o => ?_
  rcases hc o with ⟨hst, hex⟩ | ⟨hst, hex⟩
  · rw [hex]
    exact ⟨fun hn => (ht o).1 (hst ▸ hn), fun i b e => by rw [hl i b o e]; exact (ht o).2 i b (hst ▸ e)⟩
  · exact ⟨fun _ => hex, fun i b e => by rw [e] at hst; cases hst⟩

/-- One slot has changed, which gives OFF level before and after. -/
theorem driveLaw_notLive {t u : State} {i : SlotNo} {x : Slot} (ht : t.driveLaw)
    (hc : ∀ o, u.channel o = t.channel o) (hs : ∀ j, u.slot j = if j = i then x else t.slot j)
    (hi : (t.slot i).state.isLive = false) (hx : x.state.isLive = false) : u.driveLaw := by
  refine driveLaw_of_same ht (fun o => .inl ⟨by rw [hc], by rw [hc]⟩) fun j b o _ => ?_
  rw [hs j]
  split
  case isTrue h => rw [levelGiven_not_live hx, h, levelGiven_not_live hi]
  case isFalse => rfl

/-- One slot ends, and the outputs that it holds are let go. -/
theorem driveLaw_leave {t u : State} {i : SlotNo} {x : Slot} (ht : t.driveLaw)
    (hc : ∀ o, u.channel o = if (t.channel o).state.heldBy i then (t.channel o).letGo else t.channel o)
    (hs : ∀ j, u.slot j = if j = i then x else t.slot j) : u.driveLaw := by
  refine driveLaw_of_same ht (fun o => ?_) fun j b o e => ?_
  · rw [hc o]
    split
    · exact .inr ⟨by simp [ChannelState.isHeld], channel_letGo_expected _⟩
    · exact .inl ⟨rfl, rfl⟩
  · rw [hs j, if_neg]
    rintro rfl
    rw [hc o] at e
    split at e
    case isTrue => rw [channel_letGo_state] at e; cases e
    case isFalse h => exact h ((heldBy_iff _ j).2 ⟨b, e⟩)

theorem driveLaw_failOutput {t : State} (o : OutputNo) (ht : t.driveLaw) : (t.failOutput o).driveLaw := by
  refine driveLaw_of_same ht (fun o' => ?_) fun _ _ _ _ => rfl
  rw [failOutput_channel]
  split
  · exact .inr ⟨rfl, rfl⟩
  · exact .inl ⟨rfl, rfl⟩

theorem driveLaw_enterLive {t : State} {j : SlotNo} {r : Permit} (hh : t.holdingLaw) (ht : t.driveLaw)
    (hl : (t.slot j).state.isLive = false) : (t.enterLive j r).driveLaw := by
  rw [driveLaw_iff] at ht ⊢
  intro o
  rw [enterLive_channel, takeOutputs_channel]
  split
  case h_1 e _ =>
    simp only [take_state, take_expected, ChannelState.isHeld, Bool.true_eq_false, false_imp_iff, true_and]
    rintro i b ⟨⟩
    rw [enterLive_slot, if_pos rfl]
    rfl
  case h_2 =>
    refine ⟨(ht o).1, fun i b e => ?_⟩
    rw [enterLive_slot, if_neg, (ht o).2 i b e]
    rintro rfl
    have := (hh.1 o i b).1 e
    rw [drives_false_of_not_live hl] at this
    cases this

theorem SlotState.Recounted.levelGiven {x y : SlotState} (h : x.Recounted y) (b : Bool) : y.levelGiven b = x.levelGiven b := by
  cases h with
  | waiting | delaying => rfl
  | live r run run' hp _ => simp only [SlotState.levelGiven, hp]

theorem handPhase_other {c : Channel} {i : SlotNo} (h : c.state.heldBy i = false) (ph : Phase) : c.handPhase i ph = c := by
  simp only [Channel.handPhase]
  split
  case h_1 k b e =>
    rw [e] at h
    rw [if_neg (by simpa [ChannelState.heldBy] using h)]
  all_goals rfl

theorem driveLaw_enterPhase {t : State} {i : SlotNo} (r : Permit) (run : RunPart) (ph : Phase) (ht : t.driveLaw) :
    (t.enterPhase i r run ph).driveLaw := by
  rw [driveLaw_iff] at ht ⊢
  intro o
  rw [enterPhase_channel]
  by_cases h : (t.channel o).state.heldBy i = true
  · obtain ⟨b, e⟩ := (heldBy_iff _ i).1 h
    rw [handPhase_eq_driven e]
    simp only [driven_state, driven_expected, ChannelState.isHeld, Bool.true_eq_false, false_imp_iff, true_and]
    rintro k b' ⟨⟩
    rw [enterPhase_slot, if_pos rfl]
    rfl
  · rw [handPhase_other (by simpa using h)]
    refine ⟨(ht o).1, fun k b e => ?_⟩
    rw [enterPhase_slot, if_neg, (ht o).2 k b e]
    rintro rfl
    exact h ((heldBy_iff _ k).2 ⟨b, e⟩)

/-- The laws on holding and on drive levels together. -/
def State.drivenLaw (s : State) : Prop := s.holdingLaw ∧ s.driveLaw

theorem drivenLaw_eventParts : EventParts State.drivenLaw where
  noted t p n ht hn := ⟨holdingLaw_eventParts.noted t p n ht.1 hn, ht.2⟩
  recounted t i st ht h := ⟨holdingLaw_eventParts.recounted t i st ht.1 h, driveLaw_of_same ht.2 (fun _ => .inl ⟨rfl, rfl⟩)
    fun j b o _ => by
      rw [State.countSlot_slot]
      split
      case isTrue e => rw [e]; exact h.levelGiven b
      case isFalse => rfl⟩
  phased t i r run run' pat ph ht h hl :=
    ⟨holdingLaw_eventParts.phased t i r run run' pat ph ht.1 h hl, driveLaw_enterPhase _ run' ph ht.2⟩
  supervised t o n sup ht h hs := ⟨holdingLaw_eventParts.supervised t o n sup ht.1 h hs,
    driveLaw_of_same ht.2 (fun o' => by rw [State.setChannel_channel]; split <;> simp_all) fun _ _ _ _ => rfl⟩
  failed t o ht h := ⟨holdingLaw_eventParts.failed t o ht.1 h, driveLaw_failOutput o ht.2⟩
  granted t j r ahead ht hr hs hc :=
    ⟨holdingLaw_eventParts.granted t j r ahead ht.1 hr hs hc, driveLaw_enterLive ht.1 ht.2 (settled_not_live hs)⟩
  queued t j r d ht h hw := ⟨holdingLaw_eventParts.queued t j r d ht.1 h hw,
    driveLaw_notLive ht.2 (fun _ => rfl) (State.enterWaiting_slot t j r) (by rw [h]; rfl) rfl⟩
  started t j r a ht ha h := ⟨holdingLaw_eventParts.started t j r a ht.1 ha h,
    driveLaw_notLive ht.2 (fun _ => rfl) (State.setSlotState_slot t j _) (by rw [h]; rfl) rfl⟩
  ended t i r ending ht hr hl hw := ⟨holdingLaw_eventParts.ended t i r ending ht.1 hr hl hw,
    driveLaw_notLive ht.2 (enterEnd_channel ending hr) (enterEnd_slot ending hr) hl (isLive_ended _ r ending)⟩
  endWaiting t i r w ending ht h := by
    have hr : (t.slot i).state.record = some r := by rw [h]; rfl
    exact ⟨holdingLaw_eventParts.endWaiting t i r w ending ht.1 h,
      driveLaw_notLive ht.2 (enterEnd_channel (t := t.leaveQueue i) ending hr) (leaveQueue_enterEnd_slot ending hr)
        (by rw [h]; rfl) (isLive_ended _ r ending)⟩
  endLive t i r run ending ht h := by
    have hr : (t.slot i).state.record = some r := by rw [h]; rfl
    exact ⟨holdingLaw_eventParts.endLive t i r run ending ht.1 h,
      driveLaw_leave ht.2 (fun o => by rw [State.letGo_channel, enterEnd_channel ending hr, State.holds]) (enterEnd_slot ending hr)⟩
  endFailed t o i b r run ht hc h := by
    have hr : (t.slot i).state.record = some r := by rw [h]; rfl
    exact ⟨holdingLaw_eventParts.endFailed t o i b r run ht.1 hc h,
      driveLaw_leave (driveLaw_failOutput o ht.2)
        (fun o' => by rw [State.letGo_channel, enterEnd_channel (t := t.failOutput o) _ hr, State.holds])
        (endFailed_slot o (some (.fault o)) hr)⟩

theorem driveLaw_empty {u : State} (h : ∀ o, (u.channel o).state.isHeld = false ∧ (u.channel o).expected = .off) : u.driveLaw :=
  fun o => (h o).2.trans (ruledLevel_not_held (h o).1).symm

theorem tick_levelGiven (x : SlotState) (b : Bool) : x.tick.levelGiven b = x.levelGiven b := by
  rcases tick_recounted x with h | h
  · rw [h]
  · exact h.levelGiven b

theorem drivenLaw_stepBase : StepBase State.drivenLaw State.drivenLaw where
  reset t epoch cause := ⟨holdingLaw_stepBase.reset t epoch cause, driveLaw_empty fun o => by
    rw [resetBlocks_channel, (reset_channel o).1, (reset_channel o).2]; exact ⟨rfl, rfl⟩⟩
  restarted t ht := ⟨holdingLaw_stepBase.restarted t ht.1, driveLaw_empty fun o => ⟨restart_not_held t o, by
    rw [restart_channel]
    split
    · exact channel_letGo_expected _
    case isFalse h => exact ((driveLaw_iff t).1 ht.2 o).1 (Bool.eq_false_iff.2 h)⟩⟩
  ticked t feedback trips ht := ⟨holdingLaw_stepBase.ticked t feedback trips ht.1,
    driveLaw_of_same ht.2 (fun o => by rw [tickAll_channel]; exact .inl ⟨rfl, rfl⟩) fun i b _ _ => by
      rw [tickAll_slot]; exact tick_levelGiven _ b⟩
  output t o pol settle ahead ht hm hs := ⟨holdingLaw_stepBase.output t o pol settle ahead ht.1 hm hs,
    driveLaw_of_same ht.2 (fun o' => by rw [State.setChannel_channel]; split <;> simp_all [Channel.configure]) fun _ _ _ _ => rfl⟩
  unfaulted t o ht h := ⟨holdingLaw_stepBase.unfaulted t o ht.1 h,
    driveLaw_of_same ht.2 (fun o' => by rw [State.setChannel_channel]; split <;> simp_all [ChannelState.isHeld]) fun _ _ _ _ => rfl⟩

theorem drivenLaw_parts : StepParts State.drivenLaw State.drivenLaw where
  toEventParts := drivenLaw_eventParts
  toActBase := drivenLaw_stepBase.toActBase
  toLinkBase := drivenLaw_stepBase.toLinkBase
  claimed t i r ht h ha hc := ⟨holdingLaw_parts.claimed t i r ht.1 h ha hc, driveLaw_enterLive ht.1 ht.2 (by rw [h]; rfl)⟩
  joined t i r ht h ha hw := ⟨holdingLaw_parts.joined t i r ht.1 h ha hw,
    driveLaw_notLive ht.2 (fun _ => rfl) (State.enterWaiting_slot t i r) (by rw [h]; rfl) rfl⟩
  armed t i r part ht h ha := ⟨holdingLaw_parts.armed t i r part ht.1 h ha,
    driveLaw_notLive ht.2 (fun _ => rfl) (State.setSlotState_slot t i _) (by rw [h]; rfl) rfl⟩

/-- Settles O53: an output becomes HELD by a grant alone, which lists it, and leaves HELD with the permit that holds it; and
whatever changes its holder or the holder's phase hands it the level of R113. -/
theorem holdingLawKept : Obligations.HoldingLawKept :=
  fun _ _ hh hd h => drivenLaw_parts.plainLaw.step ⟨hh, hd⟩ h

end Sys2Proof.Machine
end

section
/-! PROOFS. The law on SETUP (R152). -/

set_option Elab.async false

namespace Sys2Proof.Machine

/-- Output `o` is at its OFF level, unless it is HELD. -/
def Channel.restsOff (c : Channel) : Prop := c.state.isHeld = false → c.expected = .off

/-- No slot has entered or left FREE, and an output is HELD only if it was. -/
theorem setupLaw_of_same {t u : State} (ht : t.setupLaw) (hm : u.mode = t.mode)
    (hc : ∀ o, (t.channel o).restsOff → (u.channel o).restsOff)
    (hh : ∀ o, (t.channel o).state.isHeld = false → (u.channel o).state.isHeld = false)
    (hs : ∀ i, (t.slot i).state = .free → (u.slot i).state = .free) : u.setupLaw := by
  obtain ⟨off, setup⟩ := ht
  refine ⟨fun o => hc o (off o), fun h => ?_⟩
  obtain ⟨free, notHeld⟩ := setup (hm ▸ h)
  exact ⟨fun i => hs i (free i), fun o => hh o (notHeld o)⟩

theorem SlotState.Recounted.hasRecord {x y : SlotState} (h : x.Recounted y) : ∃ r, x.record = some r := by
  cases h <;> exact ⟨_, rfl⟩

/-- Outside SETUP the law speaks of the drive levels alone. -/
theorem setupLaw_of_not_setup {t u : State} (ht : t.setupLaw) (hm : u.mode ≠ .setup)
    (hc : ∀ o, (t.channel o).restsOff → (u.channel o).restsOff) : u.setupLaw :=
  ⟨fun o => hc o (ht.1 o), fun h => absurd h hm⟩

/-- Where a slot is not FREE, the part is not in SETUP. -/
theorem not_setup_of_record {t : State} (ht : t.setupLaw) {i : SlotNo} {r : Permit} (h : (t.slot i).state.record = some r) :
    t.mode ≠ .setup := fun hm => by
  rw [(ht.2 hm).1 i] at h
  cases h

/-- Where a slot is not FREE, the law speaks of the drive levels alone. -/
theorem setupLaw_of_record {t u : State} {i : SlotNo} {r : Permit} (ht : t.setupLaw) (h : (t.slot i).state.record = some r)
    (hm : u.mode = t.mode) (hc : ∀ o, (t.channel o).restsOff → (u.channel o).restsOff) : u.setupLaw :=
  setupLaw_of_not_setup ht (hm ▸ not_setup_of_record ht h) hc

theorem restsOff_letGo (left : Bool) (c : Channel) (h : c.restsOff) :
    (if left = true then c.letGo else c).restsOff := by
  split
  · exact fun _ => channel_letGo_expected c
  · exact h

theorem restsOff_handPhase (i : SlotNo) (ph : Phase) {c : Channel} (h : c.restsOff) : (c.handPhase i ph).restsOff := by
  intro hn
  rw [handPhase_state] at hn
  have other : c.state.heldBy i = false := by
    cases hs : c.state with
    | held => rw [hs] at hn; cases hn
    | idle | faulted => rfl
  rw [handPhase_other other]
  exact h hn

theorem restsOff_enterLive {t : State} (j : SlotNo) (r : Permit) (o : OutputNo) (h : (t.channel o).restsOff) :
    ((t.enterLive j r).channel o).restsOff := by
  rw [enterLive_channel, takeOutputs_channel]
  split
  · intro hn
    rw [take_state] at hn
    cases hn
  · exact h

theorem restsOff_failOutput {t : State} (o o' : OutputNo) (h : (t.channel o').restsOff) :
    ((t.failOutput o).channel o').restsOff := by
  rw [failOutput_channel]
  split
  · exact fun _ => rfl
  · exact h

/-- The mode after an ending, and after the outputs are let go. -/
theorem enterEnd_mode {t : State} {i : SlotNo} {r : Permit} (ending : Option Closure)
    (hr : (t.slot i).state.record = some r) : (t.enterEnd i ending).mode = t.mode := by
  obtain ⟨-, -, hm, -⟩ := (settingsKept_iff _ _).1 (enterEnd_rest ending hr).1
  exact hm

theorem setupLaw_eventParts : EventParts State.setupLaw where
  noted t p n ht _ := setupLaw_of_same ht rfl (fun _ => id) (fun _ => id) fun _ => id
  recounted t i st ht h := setupLaw_of_record ht h.hasRecord.choose_spec rfl fun _ => id
  phased t i r run run' pat ph ht h _ :=
    setupLaw_of_record ht (i := i) (r := r) (by rw [h]; rfl) rfl fun o => by
      rw [enterPhase_channel]; exact restsOff_handPhase i ph
  supervised t o n sup ht _ _ :=
    setupLaw_of_same ht rfl (fun o' h => by rw [State.setChannel_channel]; split <;> simp_all [Channel.restsOff])
      (fun o' h => by rw [State.setChannel_channel]; split <;> simp_all) fun _ => id
  failed t o ht _ :=
    setupLaw_of_same ht rfl (restsOff_failOutput o) (fun o' h => by rw [failOutput_channel]; split; exacts [rfl, h])
      fun _ => id
  granted t j r ahead ht hr _ _ := setupLaw_of_record ht hr (State.enterLive_mode t j r) (restsOff_enterLive j r)
  queued t j r d ht h _ := setupLaw_of_record ht (i := j) (r := r) (by rw [h]; rfl) rfl fun _ => id
  started t j r a ht _ h := setupLaw_of_record ht (i := j) (r := r) (by rw [h]; rfl) rfl fun _ => id
  ended t i r ending ht hr _ _ :=
    setupLaw_of_record ht hr (enterEnd_mode ending hr) fun o h => by rw [enterEnd_channel ending hr]; exact h
  endWaiting t i r w ending ht h := by
    have hr : (t.slot i).state.record = some r := by rw [h]; rfl
    exact setupLaw_of_record ht hr (enterEnd_mode (t := t.leaveQueue i) ending hr) fun o ho => by
      rw [enterEnd_channel (t := t.leaveQueue i) ending hr]; exact ho
  endLive t i r run ending ht h := by
    have hr : (t.slot i).state.record = some r := by rw [h]; rfl
    refine setupLaw_of_record ht hr ?_ fun o ho => ?_
    · rw [State.letGo_mode, enterEnd_mode ending hr]
    · rw [State.letGo_channel, enterEnd_channel ending hr]; exact restsOff_letGo _ _ ho
  endFailed t o i b r run ht _ h := by
    have hr : (t.slot i).state.record = some r := by rw [h]; rfl
    refine setupLaw_of_record ht hr ?_ fun o' ho => ?_
    · rw [State.letGo_mode, enterEnd_mode (t := t.failOutput o) _ hr]; rfl
    · rw [State.letGo_channel, enterEnd_channel (t := t.failOutput o) _ hr]
      exact restsOff_letGo _ _ (restsOff_failOutput o o' ho)

theorem setupLaw_stepBase : StepBase State.setupLaw State.setupLaw where
  reset t epoch cause := by
    refine ⟨fun o _ => ?_, fun _ => ⟨fun i => by rw [resetBlocks_slot], fun o => ?_⟩⟩
    · rw [resetBlocks_channel, (reset_channel o).2]
    · rw [resetBlocks_channel, (reset_channel o).1]; rfl
  restarted t ht :=
    ⟨fun o => by rw [restart_channel]; exact restsOff_letGo _ _ (ht.1 o),
      fun _ => ⟨fun i => by rw [restart_slot], restart_not_held t⟩⟩
  moved t m ht hm := setupLaw_of_not_setup ht hm fun _ => id
  ticked t feedback trips ht :=
    setupLaw_of_same ht rfl (fun o h => by rw [tickAll_channel]; exact h) (fun o h => by rw [tickAll_channel]; exact h)
      fun i h => by rw [tickAll_slot, h]; rfl
  output t o pol settle ahead ht _ _ :=
    setupLaw_of_same ht rfl
      (fun o' h => by rw [State.setChannel_channel]; split <;> simp_all [Channel.restsOff, Channel.configure])
      (fun o' h => by rw [State.setChannel_channel]; split <;> simp_all [Channel.configure]) fun _ => id
  unfaulted t o ht _ :=
    setupLaw_of_same ht rfl (fun o' h => by rw [State.setChannel_channel]; split <;> simp_all [Channel.restsOff])
      (fun o' h => by rw [State.setChannel_channel]; split <;> simp_all [ChannelState.isHeld]) fun _ => id

theorem setupLaw_parts : StepParts State.setupLaw State.setupLaw where
  toEventParts := setupLaw_eventParts
  toActBase := setupLaw_stepBase.toActBase
  toLinkBase := setupLaw_stepBase.toLinkBase
  claimed t i r ht _ ha _ :=
    setupLaw_of_not_setup ht (by rw [State.enterLive_mode]; exact ha.notSetup) (restsOff_enterLive i r)
  joined t i r ht _ ha _ := setupLaw_of_not_setup ht ha.notSetup fun _ => id
  armed t i r part ht _ ha := setupLaw_of_not_setup ht ha.notSetup fun _ => id

/-- Settles O54: the part enters SETUP with every slot FREE and no output HELD, check 9 of R25 refuses each claim there, and an
output that leaves HELD is handed OFF level. -/
theorem setupLawKept : Obligations.SetupLawKept :=
  fun _ _ hs h => setupLaw_parts.plainLaw.step hs h

end Sys2Proof.Machine
end

section
/-! PROOFS. The laws on mutual exclusion and quiet time (R49, R50, R51). -/

set_option Elab.async false

namespace Sys2Proof.Machine

/-! ## Lists without self-conflict -/

theorem eq_of_countP_le_one {α : Type} {p : α → Bool} {l : List α} (h : l.countP p ≤ 1) {a b : α} (ha : a ∈ l) (hb : b ∈ l)
    (hpa : p a = true) (hpb : p b = true) : a = b := by
  rw [List.countP_eq_length_filter] at h
  have ha' : a ∈ l.filter p := List.mem_filter.2 ⟨ha, hpa⟩
  have hb' : b ∈ l.filter p := List.mem_filter.2 ⟨hb, hpb⟩
  match hf : l.filter p, h with
  | [], _ => rw [hf] at ha'; cases ha'
  | [x], _ =>
    rw [hf, List.mem_singleton] at ha' hb'
    exact ha'.trans hb'.symm

/-- A list without self-conflict names one member of a group at most (R49). -/
theorem eq_of_selfConflict {s : State} {outs : List OutputNo} (h : s.selfConflict outs = false) {g : GroupNo} {o o' : OutputNo}
    (ho : o ∈ outs) (ho' : o' ∈ outs) (hg : inSet (s.group g).members o = true) (hg' : inSet (s.group g).members o' = true) :
    o = o' := by
  simp only [State.selfConflict, List.any_eq_false, decide_eq_true_eq] at h
  exact eq_of_countP_le_one (by have := h g (mem_allGroups g); omega) ho ho' hg hg'

theorem selfConflict_congr {s t : State} (hm : ∀ g, (t.group g).members = (s.group g).members) (outs : List OutputNo) :
    t.selfConflict outs = s.selfConflict outs := by
  simp only [State.selfConflict, hm]

theorem selfConflict_nil (s : State) : s.selfConflict [] = false := by simp [State.selfConflict]

/-- No permit lists two members of one group, said of the records (R49). -/
def State.recordsClear (s : State) : Prop :=
  ∀ (i : SlotNo) (r : Permit), (s.slot i).state.record = some r → s.selfConflict r.outputNos = false

theorem recordsClear_iff (s : State) : s.recordsClear ↔ ∀ i, s.selfConflict (s.outputsOf i) = false := by
  refine forall_congr' fun i => ?_
  simp only [State.outputsOf]
  cases (s.slot i).state.record <;> simp [selfConflict_nil]

theorem recordsClear_of_same {t u : State} (ht : t.recordsClear) (hm : ∀ g, (u.group g).members = (t.group g).members)
    (hr : ∀ i r, (u.slot i).state.record = some r → ∃ j q, (t.slot j).state.record = some q ∧ r.outputNos = q.outputNos) :
    u.recordsClear := by
  intro i r h
  obtain ⟨j, q, hq, e⟩ := hr i r h
  rw [selfConflict_congr hm, e]
  exact ht j q hq

theorem countDown_le (n : Nat) : countDown n ≤ n := by
  simp only [countDown]; split <;> omega

theorem tickAll_group (s : State) (feedback : BitVec 16) (trips : BitVec 4) (g : GroupNo) :
    (s.tickAll feedback trips).group g = (s.group g).tick := get_ofFn_fin _ g

/-! ## The law -/

/-- Output `o` is HELD. -/
def State.heldNow (s : State) (o : OutputNo) : Prop := (s.channel o).state.isHeld = true

theorem exclusionLaw_iff (s : State) : s.exclusionLaw ↔
    (∀ (g : GroupNo) (o o' : OutputNo), inSet (s.group g).members o = true → inSet (s.group g).members o' = true →
        s.heldNow o → s.heldNow o' → o = o')
      ∧ (∀ (g : GroupNo) (o : OutputNo), inSet (s.group g).members o = true → s.heldNow o → (s.group g).quietRemaining = 0)
      ∧ s.recordsClear := by
  rw [recordsClear_iff]; rfl

/-- Outputs may have left HELD, none has become so; and a quiet timer has risen only where no member is HELD any more. -/
theorem exclusionLaw_of_leave {t u : State} (ht : t.exclusionLaw) (hm : ∀ g, (u.group g).members = (t.group g).members)
    (hh : ∀ o, u.heldNow o → t.heldNow o)
    (hq : ∀ g o, inSet (t.group g).members o = true → u.heldNow o → (u.group g).quietRemaining ≤ (t.group g).quietRemaining)
    (hr : ∀ i r, (u.slot i).state.record = some r → ∃ j q, (t.slot j).state.record = some q ∧ r.outputNos = q.outputNos) :
    u.exclusionLaw := by
  rw [exclusionLaw_iff] at ht ⊢
  obtain ⟨one, quiet, clear⟩ := ht
  refine ⟨fun g o o' hg hg' ho ho' => ?_, fun g o hg ho => ?_, recordsClear_of_same clear hm hr⟩
  · rw [hm] at hg hg'
    exact one g o o' hg hg' (hh o ho) (hh o' ho')
  · rw [hm] at hg
    have := hq g o hg ho
    have := quiet g o hg (hh o ho)
    omega

/-- Neither holders nor groups have changed. -/
theorem exclusionLaw_of_same {t u : State} (ht : t.exclusionLaw) (hg : ∀ g, u.group g = t.group g)
    (hh : ∀ o, u.heldNow o → t.heldNow o)
    (hr : ∀ i r, (u.slot i).state.record = some r → ∃ j q, (t.slot j).state.record = some q ∧ r.outputNos = q.outputNos) :
    u.exclusionLaw :=
  exclusionLaw_of_leave ht (fun g => by rw [hg]) hh (fun g _ _ _ => by rw [hg]) hr

/-- The records after one slot has changed. -/
theorem records_one {t u : State} {i : SlotNo} {x : Slot} (hs : ∀ j, u.slot j = if j = i then x else t.slot j)
    (hx : ∀ r, x.state.record = some r → ∃ j q, (t.slot j).state.record = some q ∧ r.outputNos = q.outputNos) (j : SlotNo)
    (r : Permit) (h : (u.slot j).state.record = some r) :
    ∃ j q, (t.slot j).state.record = some q ∧ r.outputNos = q.outputNos := by
  rw [hs j] at h
  split at h
  · exact hx r h
  · exact ⟨j, r, h, rfl⟩

theorem records_ended {t : State} {i : SlotNo} {r : Permit} (ending : Option Closure)
    (hr : (t.slot i).state.record = some r) (q : Permit) (h : ((t.slot i).ended r ending).state.record = some q) :
    ∃ j q', (t.slot j).state.record = some q' ∧ q.outputNos = q'.outputNos := by
  rcases record_ended (t.slot i) r ending with e | e
  · rw [e] at h; cases h; exact ⟨i, r, hr, rfl⟩
  · rw [e] at h; cases h

theorem startQuiet_members (x : Group) : x.startQuiet.members = x.members := by
  simp only [Group.startQuiet]; split <;> rfl

/-- The quiet timers after some outputs have left HELD: one has risen only where a member has left (R52). -/
theorem startQuiet_quiet {s : State} {left : OutputNo → Bool} {g : GroupNo}
    (h : ∀ o, left o = true → inSet (s.group g).members o = false) : (s.startQuiet left).group g = s.group g := by
  rw [State.startQuiet_group, if_neg]
  simp only [List.any_eq_true, Bool.and_eq_true, not_exists, not_and]
  exact fun o _ hl => by simp [h o hl]

theorem startQuiet_group_members (s : State) (left : OutputNo → Bool) (g : GroupNo) :
    ((s.startQuiet left).group g).members = (s.group g).members := by
  rw [State.startQuiet_group]
  split
  · exact startQuiet_members _
  · rfl

/-- The outputs of `left`, which were HELD, have left HELD, and the groups have responded (R51, R52). -/
theorem exclusionLaw_departed {t u : State} {left : OutputNo → Bool} (ht : t.exclusionLaw)
    (hg : ∀ g, u.group g = (t.startQuiet left).group g) (hl : ∀ o, left o = true → t.heldNow o)
    (hh : ∀ o, u.heldNow o → t.heldNow o ∧ left o = false)
    (hr : ∀ i r, (u.slot i).state.record = some r → ∃ j q, (t.slot j).state.record = some q ∧ r.outputNos = q.outputNos) :
    u.exclusionLaw := by
  refine exclusionLaw_of_leave ht (fun g => by rw [hg, startQuiet_group_members]) (fun o h => (hh o h).1) (fun g o ho h => ?_) hr
  obtain ⟨held, stays⟩ := hh o h
  rw [hg, startQuiet_quiet]
  intro o' hl'
  by_contra hc
  have := ((exclusionLaw_iff t).1 ht).1 g o o' ho (by simpa using hc) held (hl o' hl')
  rw [← this, stays] at hl'
  cases hl'

theorem exclusionLaw_failOutput {t : State} (o : OutputNo) (ht : t.exclusionLaw) : (t.failOutput o).exclusionLaw := by
  refine exclusionLaw_departed (left := fun x => decide (x = o) && (t.channel o).state.isHeld) ht (fun g => rfl)
    (fun x hx => ?_) (fun x hx => ?_) fun i r h => ⟨i, r, h, rfl⟩
  · simp only [Bool.and_eq_true, decide_eq_true_eq] at hx
    exact hx.1 ▸ hx.2
  · simp only [State.heldNow, failOutput_channel] at hx
    split at hx
    case isTrue => rw [fail_state] at hx; cases hx
    case isFalse h => exact ⟨hx, by simp [h]⟩

theorem exclusionLaw_endLive {t : State} {i : SlotNo} {r : Permit} (ending : Option Closure) (ht : t.exclusionLaw)
    (hr : (t.slot i).state.record = some r) : ((t.enterEnd i ending).letGo (t.holds i)).exclusionLaw := by
  have hgroups : ∀ g, (t.enterEnd i ending).group g = t.group g := fun g => by
    simp only [State.group, (enterEnd_rest ending hr).2.2.1]
  refine exclusionLaw_departed (left := t.holds i) ht (fun g => ?_) (fun o ho => ?_) (fun o ho => ?_)
    (records_one (enterEnd_slot ending hr) (records_ended ending hr))
  · rw [State.letGo_group, State.startQuiet_group, hgroups]
  · obtain ⟨b, e⟩ := (heldBy_iff _ i).1 ho
    rw [State.heldNow, e]; rfl
  · simp only [State.heldNow, State.letGo_channel, enterEnd_channel ending hr] at ho
    split at ho
    case isTrue => simp [ChannelState.isHeld] at ho
    case isFalse h => exact ⟨ho, by simpa using h⟩

/-- Which outputs are HELD after a grant. -/
theorem enterLive_heldNow {t : State} (j : SlotNo) (r : Permit) (o : OutputNo) (h : (t.enterLive j r).heldNow o) :
    o ∈ r.outputNos ∨ t.heldNow o := by
  rw [State.heldNow, enterLive_channel, takeOutputs_channel] at h
  split at h
  case h_1 e he => exact .inl (List.mem_map.2 ⟨e, List.mem_of_find?_eq_some he, by simpa using List.find?_some he⟩)
  case h_2 => exact .inr h

theorem exclusionLaw_enterLive {t : State} {j : SlotNo} {r : Permit} {ahead : List SlotNo} (ht : t.exclusionLaw)
    (hn : t.selfConflict r.outputNos = false) (hc : t.claimTest r.outputNos ahead = none) : (t.enterLive j r).exclusionLaw := by
  rw [exclusionLaw_iff] at ht ⊢
  obtain ⟨one, quiet, clear⟩ := ht
  have hgroup : ∀ g, (t.enterLive j r).group g = t.group g := State.enterLive_group t j r
  obtain ⟨hout, -, -⟩ := claimTest_none.1 hc
  -- a listed output has no other member of its groups HELD
  have alone : ∀ o ∈ r.outputNos, ∀ g o', inSet (t.group g).members o = true → inSet (t.group g).members o' = true →
      t.heldNow o' → o' = o := by
    intro o ho g o' hg hg' ho'
    by_contra hne
    have := (hout o ho).2.1
    simp only [State.groupHeld, List.any_eq_false, Bool.and_eq_true, List.any_eq_true, decide_eq_true_eq, not_and, not_exists] at this
    exact this g (mem_allGroups g) hg o' (mem_allOutputs o') ⟨hne, hg'⟩ ho'
  refine ⟨fun g o o' hg hg' ho ho' => ?_, fun g o hg ho => ?_, fun i q hq => ?_⟩
  · rw [hgroup] at hg hg'
    rcases enterLive_heldNow j r o ho with hl | hl <;> rcases enterLive_heldNow j r o' ho' with hl' | hl'
    · exact eq_of_selfConflict hn hl hl' hg hg'
    · exact (alone o hl g o' hg hg' hl').symm
    · exact alone o' hl' g o hg' hg hl
    · exact one g o o' hg hg' hl hl'
  · rw [hgroup] at hg ⊢
    rcases enterLive_heldNow j r o ho with hl | hl
    · have := (hout o hl).2.2.1
      simp only [State.groupQuiet, List.any_eq_false, Bool.and_eq_true, decide_eq_true_eq, not_and] at this
      have := this g (mem_allGroups g) hg
      omega
    · exact quiet g o hg hl
  · rw [selfConflict_congr fun g => by rw [hgroup]]
    rw [State.enterLive_slot] at hq
    split at hq
    · cases hq; exact hn
    · exact clear i q hq

/-- One slot has changed, which lists what it listed before, and nothing else that the law speaks of. -/
theorem exclusionLaw_one {t u : State} {i : SlotNo} {x : Slot} {r : Permit} (ht : t.exclusionLaw)
    (hr : (t.slot i).state.record = some r) (hg : ∀ g, u.group g = t.group g) (hc : ∀ o, u.heldNow o → t.heldNow o)
    (hs : ∀ j, u.slot j = if j = i then x else t.slot j)
    (hx : ∀ q, x.state.record = some q → q.outputNos = r.outputNos) : u.exclusionLaw :=
  exclusionLaw_of_same ht hg hc (records_one hs fun q hq => ⟨i, r, hr, hx q hq⟩)

/-- A record of a claim that has passed check 6 of R25 is entered in a slot. -/
theorem exclusionLaw_enter {t u : State} {i : SlotNo} {x : Slot} {r : Permit} (ht : t.exclusionLaw)
    (hn : t.selfConflict r.outputNos = false) (hg : ∀ g, u.group g = t.group g) (hc : ∀ o, u.heldNow o → t.heldNow o)
    (hs : ∀ j, u.slot j = if j = i then x else t.slot j) (hx : x.state.record = some r) : u.exclusionLaw := by
  rw [exclusionLaw_iff] at ht ⊢
  obtain ⟨one, quiet, clear⟩ := ht
  refine ⟨fun g o o' ho ho' h h' => ?_, fun g o ho h => ?_, fun j q hq => ?_⟩
  · rw [hg] at ho ho'
    exact one g o o' ho ho' (hc o h) (hc o' h')
  · rw [hg] at ho ⊢
    exact quiet g o ho (hc o h)
  · rw [selfConflict_congr fun g => congrArg Group.members (hg g)]
    rw [hs j] at hq
    split at hq
    · rw [hx] at hq; cases hq; exact hn
    · exact clear j q hq

/-- With every slot FREE and no output HELD, the law holds whatever the groups are. -/
theorem exclusionLaw_empty {u : State} (hs : ∀ i, (u.slot i).state = .free) (hc : ∀ o, (u.channel o).state.isHeld = false) :
    u.exclusionLaw := by
  rw [exclusionLaw_iff]
  refine ⟨fun g o o' _ _ h _ => ?_, fun g o _ h => ?_, fun i r h => ?_⟩
  · rw [State.heldNow, hc] at h; cases h
  · rw [State.heldNow, hc] at h; cases h
  · rw [hs i] at h; cases h

/-- The laws on SETUP, on mutual exclusion and on quiet time together. -/
def State.exclusiveLaw (s : State) : Prop := s.setupLaw ∧ s.exclusionLaw

theorem exclusiveLaw_eventParts : EventParts State.exclusiveLaw where
  noted t p n ht hn :=
    ⟨setupLaw_eventParts.noted t p n ht.1 hn, exclusionLaw_of_same ht.2 (fun _ => rfl) (fun _ => id) fun i r h => ⟨i, r, h, rfl⟩⟩
  recounted t i st ht h := by
    obtain ⟨r, hr⟩ := h.hasRecord
    exact ⟨setupLaw_eventParts.recounted t i st ht.1 h,
      exclusionLaw_one ht.2 hr (fun _ => rfl) (fun _ => id) (State.countSlot_slot t i st) fun q hq => by
        rw [h.record, hr] at hq; cases hq; rfl⟩
  phased t i r run run' pat ph ht h hl :=
    ⟨setupLaw_eventParts.phased t i r run run' pat ph ht.1 h hl,
      exclusionLaw_one (r := r) ht.2 (by rw [h]; rfl) (fun _ => State.handPhase_group _ i ph _)
        (fun o ho => by rwa [State.heldNow, enterPhase_channel, handPhase_state] at ho) (enterPhase_slot t i _ run' ph)
        fun q hq => by cases hq; rfl⟩
  quieted t g n ht hn := ⟨setupLaw_eventParts.quieted t g n ht.1 hn,
    exclusionLaw_of_leave ht.2 (fun g' => by rw [State.setGroup_group]; split <;> simp_all) (fun _ => id)
      (fun g' _ _ _ => by rw [State.setGroup_group]; split <;> simp_all) fun i r h => ⟨i, r, h, rfl⟩⟩
  supervised t o n sup ht h hs := ⟨setupLaw_eventParts.supervised t o n sup ht.1 h hs,
    exclusionLaw_of_same ht.2 (fun _ => rfl)
      (fun o' h' => by rw [State.heldNow, State.setChannel_channel] at h'; split at h' <;> simp_all [State.heldNow])
      fun i r h => ⟨i, r, h, rfl⟩⟩
  failed t o ht h := ⟨setupLaw_eventParts.failed t o ht.1 h, exclusionLaw_failOutput o ht.2⟩
  granted t j r ahead ht hr hs hc := ⟨setupLaw_eventParts.granted t j r ahead ht.1 hr hs hc,
    exclusionLaw_enterLive ht.2 (((exclusionLaw_iff t).1 ht.2).2.2 j r hr) hc⟩
  queued t j r d ht h hw := ⟨setupLaw_eventParts.queued t j r d ht.1 h hw,
    exclusionLaw_one (r := r) ht.2 (by rw [h]; rfl) (fun _ => rfl) (fun _ => id) (State.enterWaiting_slot t j r)
      fun q hq => by cases hq; rfl⟩
  started t j r a ht ha h := ⟨setupLaw_eventParts.started t j r a ht.1 ha h,
    exclusionLaw_one (r := r) ht.2 (by rw [h]; rfl) (fun _ => rfl) (fun _ => id) (State.setSlotState_slot t j _)
      fun q hq => by cases hq; rfl⟩
  ended t i r ending ht hr hl hw := ⟨setupLaw_eventParts.ended t i r ending ht.1 hr hl hw,
    exclusionLaw_of_same ht.2 (fun g => by simp only [State.group, (enterEnd_rest ending hr).2.2.1])
      (fun o ho => by rwa [State.heldNow, enterEnd_channel ending hr] at ho)
      (records_one (enterEnd_slot ending hr) (records_ended ending hr))⟩
  endWaiting t i r w ending ht h := by
    have hr : (t.slot i).state.record = some r := by rw [h]; rfl
    exact ⟨setupLaw_eventParts.endWaiting t i r w ending ht.1 h,
      exclusionLaw_of_same ht.2
        (fun g => by simp only [State.group, (enterEnd_rest (s := t.leaveQueue i) ending hr).2.2.1]; rfl)
        (fun o ho => by rwa [State.heldNow, enterEnd_channel (t := t.leaveQueue i) ending hr] at ho)
        (records_one (leaveQueue_enterEnd_slot ending hr) (records_ended ending hr))⟩
  endLive t i r run ending ht h := ⟨setupLaw_eventParts.endLive t i r run ending ht.1 h,
    exclusionLaw_endLive (r := r) ending ht.2 (by rw [h]; rfl)⟩
  endFailed t o i b r run ht hc h := ⟨setupLaw_eventParts.endFailed t o i b r run ht.1 hc h,
    exclusionLaw_endLive (t := t.failOutput o) (r := r) _ (exclusionLaw_failOutput o ht.2) (by rw [failOutput_slot, h]; rfl)⟩

theorem exclusiveLaw_of_setup {t u : State} (ht : t.exclusiveLaw) (hm : t.mode = .setup) (hs : ∀ i, u.slot i = t.slot i)
    (hc : ∀ o, (u.channel o).state = (t.channel o).state) : u.exclusionLaw :=
  exclusionLaw_empty (fun i => by rw [hs]; exact (ht.1.2 hm).1 i) fun o => by rw [hc]; exact (ht.1.2 hm).2 o

theorem exclusiveLaw_stepBase : StepBase State.exclusiveLaw State.exclusiveLaw where
  reset t epoch cause := ⟨setupLaw_stepBase.reset t epoch cause,
    exclusionLaw_empty (fun i => by rw [resetBlocks_slot]) fun o => by rw [resetBlocks_channel, (reset_channel o).1]; rfl⟩
  restarted t ht := ⟨setupLaw_stepBase.restarted t ht.1,
    exclusionLaw_empty (fun i => by rw [restart_slot]) (restart_not_held t)⟩
  moved t m ht hm := ⟨setupLaw_stepBase.moved t m ht.1 hm, ht.2⟩
  ticked t feedback trips ht := ⟨setupLaw_stepBase.ticked t feedback trips ht.1,
    exclusionLaw_of_leave ht.2 (fun g => by rw [tickAll_group]; rfl) (fun o ho => by rwa [State.heldNow, tickAll_channel] at ho)
      (fun g _ _ _ => by rw [tickAll_group]; exact countDown_le _)
      fun i r h => ⟨i, r, by rwa [tickAll_slot, record_tick] at h, rfl⟩⟩
  output t o pol settle ahead ht hm hs := ⟨setupLaw_stepBase.output t o pol settle ahead ht.1 hm hs,
    exclusiveLaw_of_setup ht hm (fun _ => rfl) fun o' => by
      rw [State.setChannel_channel]; split <;> simp_all [Channel.configure]⟩
  grouped t g members dead ht hm hd := ⟨setupLaw_stepBase.grouped t g members dead ht.1 hm hd,
    exclusiveLaw_of_setup ht hm (fun _ => rfl) fun _ => rfl⟩
  unfaulted t o ht h := ⟨setupLaw_stepBase.unfaulted t o ht.1 h,
    exclusionLaw_of_same ht.2 (fun _ => rfl)
      (fun o' h' => by
        rw [State.heldNow, State.setChannel_channel] at h'
        split at h'
        · cases h'
        · exact h') fun i r h => ⟨i, r, h, rfl⟩⟩

theorem exclusiveLaw_parts : StepParts State.exclusiveLaw State.exclusiveLaw where
  toEventParts := exclusiveLaw_eventParts
  toActBase := exclusiveLaw_stepBase.toActBase
  toLinkBase := exclusiveLaw_stepBase.toLinkBase
  claimed t i r ht h ha hc := ⟨setupLaw_parts.claimed t i r ht.1 h ha hc, exclusionLaw_enterLive ht.2 ha.noConflict hc⟩
  joined t i r ht h ha hw := ⟨setupLaw_parts.joined t i r ht.1 h ha hw,
    exclusionLaw_enter ht.2 ha.noConflict (fun _ => rfl) (fun _ => id) (State.enterWaiting_slot t i r) rfl⟩
  armed t i r part ht h ha := ⟨setupLaw_parts.armed t i r part ht.1 h ha,
    exclusionLaw_enter ht.2 ha.noConflict (fun _ => rfl) (fun _ => id) (State.setSlotState_slot t i _) rfl⟩

/-- Settles O55: a grant needs a list without self-conflict, and no other member of its groups HELD and no quiet time there; a
group's members change in SETUP alone, where nothing is HELD; and the quiet time starts when the one HELD member leaves. -/
theorem exclusionLawKept : Obligations.ExclusionLawKept :=
  fun _ _ hs he h => (exclusiveLaw_parts.plainLaw.step ⟨hs, he⟩ h).2

end Sys2Proof.Machine
end

section
/-! PROOFS. The trip half of the law on forced-off outputs (R113, R134). -/

set_option Elab.async false

namespace Sys2Proof.Machine

/-- Both lines force the same outputs off. -/
def TripLine.forcesAs (x y : TripLine) : Prop := x.enabled = y.enabled ∧ x.latched = y.latched ∧ x.map = y.map

theorem underTrip_congr {s t : State} (h : ∀ l, (t.line l).forcesAs (s.line l)) (o : OutputNo) : t.underTrip o = s.underTrip o := by
  simp only [State.underTrip]
  congr 1
  funext l
  obtain ⟨he, hl, hm⟩ := h l
  rw [he, hl, hm]

/-- The law while the filtered assertion of line `l` closes its holders: an output under a set latch may still be HELD, if it is
in the map of line `l` and its holder is not among the slots `done` (R132). -/
def State.tripBut (l : LineNo) (done : SlotNo → Prop) (s : State) : Prop :=
  ∀ o i b, (s.channel o).state = .held i b → s.underTrip o = true → inSet (s.line l).map o = true ∧ ¬ done i

/-- With every slot done, it is the law itself. -/
theorem tripLaw_iff (s : State) (l : LineNo) : s.tripLaw ↔ s.tripBut l fun _ => True := by
  refine ⟨fun h o i b e hu => ?_, fun h o hu => ?_⟩
  · have := h o hu
    rw [e] at this; cases this
  · cases hc : (s.channel o).state with
    | held i b => exact absurd trivial (h o i b hc hu).2
    | _ => rfl

/-- Every line forces the same outputs off, and no output has another holder. -/
theorem tripBut_of_same {l : LineNo} {done : SlotNo → Prop} {t u : State} (ht : t.tripBut l done)
    (hl : ∀ l, (u.line l).forcesAs (t.line l))
    (hh : ∀ o i b, (u.channel o).state = .held i b → (t.channel o).state = .held i b) : u.tripBut l done := by
  intro o i b e hu
  rw [underTrip_congr hl] at hu
  rw [(hl l).2.2]
  exact ht o i b (hh o i b e) hu

theorem TripLine.forcesAs_rfl (x : TripLine) : x.forcesAs x := ⟨rfl, rfl, rfl⟩

/-- A grant takes no output that a set latch maps (R28). -/
theorem tripBut_enterLive {l : LineNo} {done : SlotNo → Prop} {t : State} {j : SlotNo} {r : Permit} {ahead : List SlotNo}
    (ht : t.tripBut l done) (hc : t.claimTest r.outputNos ahead = none) : (t.enterLive j r).tripBut l done := by
  intro o i b e hu
  rw [underTrip_congr (s := t) fun l => by rw [State.enterLive_line]; exact TripLine.forcesAs_rfl _] at hu
  rw [State.enterLive_line]
  rw [enterLive_channel, takeOutputs_channel] at e
  split at e
  case h_1 en he =>
    have ho : o ∈ r.outputNos := List.mem_map.2 ⟨en, List.mem_of_find?_eq_some he, by simpa using List.find?_some he⟩
    rw [((claimTest_none.1 hc).1 o ho).2.2.2] at hu
    cases hu
  case h_2 => exact ht o i b e hu

theorem endLive_line {t : State} {i : SlotNo} {r : Permit} (ending : Option Closure) (hr : (t.slot i).state.record = some r)
    (left : OutputNo → Bool) (l : LineNo) : ((t.enterEnd i ending).letGo left).line l = t.line l := by
  obtain ⟨-, -, -, -, -, -, -, hlines, -⟩ := (settingsKept_iff _ _).1 (enterEnd_rest ending hr).1
  rw [State.letGo_line]
  simp only [State.line, hlines]

theorem takeSample_forcesAs (sample : Electrical) (x : TripLine) : (x.takeSample sample).forcesAs x := by
  rw [TripLine.takeSample]
  split
  · split
    · split <;> exact ⟨rfl, rfl, rfl⟩
    · exact ⟨rfl, rfl, rfl⟩
  · exact TripLine.forcesAs_rfl x

theorem setLine_forcesAs {t : State} {l : LineNo} {x : TripLine} (h : x.forcesAs (t.line l)) (l' : LineNo) :
    ((t.setLine l x).line l').forcesAs (t.line l') := by
  rw [State.setLine_line]
  split
  case isTrue e => exact e ▸ h
  case isFalse => exact TripLine.forcesAs_rfl _

/-- The laws that the closures of a filtered assertion keep. -/
def State.tripping (l : LineNo) (done : SlotNo → Prop) (s : State) : Prop := s.setupLaw ∧ s.holdingLaw ∧ s.tripBut l done

theorem tripping_eventParts (l : LineNo) (done : SlotNo → Prop) : EventParts (State.tripping l done) where
  noted t p n ht hn := ⟨setupLaw_eventParts.noted t p n ht.1 hn, holdingLaw_eventParts.noted t p n ht.2.1 hn, ht.2.2⟩
  recounted t i st ht h :=
    ⟨setupLaw_eventParts.recounted t i st ht.1 h, holdingLaw_eventParts.recounted t i st ht.2.1 h, ht.2.2⟩
  phased t i r run run' pat ph ht h hl :=
    ⟨setupLaw_eventParts.phased t i r run run' pat ph ht.1 h hl, holdingLaw_eventParts.phased t i r run run' pat ph ht.2.1 h hl,
      tripBut_of_same ht.2.2 (fun l => by rw [State.enterPhase, State.handPhase_line]; exact TripLine.forcesAs_rfl _)
        fun o k b e => by rwa [enterPhase_channel, handPhase_state] at e⟩
  supervised t o n sup ht h hs :=
    ⟨setupLaw_eventParts.supervised t o n sup ht.1 h hs, holdingLaw_eventParts.supervised t o n sup ht.2.1 h hs,
      tripBut_of_same ht.2.2 (fun _ => TripLine.forcesAs_rfl _) fun o' k b e => by
        rw [State.setChannel_channel] at e; split at e <;> simp_all⟩
  failed t o ht h := ⟨setupLaw_eventParts.failed t o ht.1 h, holdingLaw_eventParts.failed t o ht.2.1 h,
    tripBut_of_same ht.2.2 (fun _ => TripLine.forcesAs_rfl _) fun o' k b e => by
      rw [failOutput_channel] at e
      split at e
      · rw [fail_state] at e; cases e
      · exact e⟩
  sampled t l' sample ht :=
    ⟨setupLaw_eventParts.sampled t l' sample ht.1, holdingLaw_eventParts.sampled t l' sample ht.2.1,
      tripBut_of_same ht.2.2 (setLine_forcesAs (takeSample_forcesAs sample _)) fun _ _ _ => id⟩
  granted t j r ahead ht hr hs hc :=
    ⟨setupLaw_eventParts.granted t j r ahead ht.1 hr hs hc, holdingLaw_eventParts.granted t j r ahead ht.2.1 hr hs hc,
      tripBut_enterLive ht.2.2 hc⟩
  queued t j r d ht h hw := ⟨setupLaw_eventParts.queued t j r d ht.1 h hw, holdingLaw_eventParts.queued t j r d ht.2.1 h hw, ht.2.2⟩
  started t j r a ht ha h :=
    ⟨setupLaw_eventParts.started t j r a ht.1 ha h, holdingLaw_eventParts.started t j r a ht.2.1 ha h, ht.2.2⟩
  ended t i r ending ht hr hl hw :=
    ⟨setupLaw_eventParts.ended t i r ending ht.1 hr hl hw, holdingLaw_eventParts.ended t i r ending ht.2.1 hr hl hw,
      tripBut_of_same ht.2.2 (fun l => by
          rw [← State.letGo_line _ (fun _ => false) l, endLive_line ending hr]; exact TripLine.forcesAs_rfl _)
        fun o k b e => by rwa [enterEnd_channel ending hr] at e⟩
  endWaiting t i r w ending ht h := by
    have hr : ((t.leaveQueue i).slot i).state.record = some r := by rw [State.leaveQueue_slot, h]; rfl
    exact ⟨setupLaw_eventParts.endWaiting t i r w ending ht.1 h, holdingLaw_eventParts.endWaiting t i r w ending ht.2.1 h,
      tripBut_of_same (t := t.leaveQueue i) ht.2.2 (fun l => by
          rw [← State.letGo_line _ (fun _ => false) l, endLive_line ending hr]; exact TripLine.forcesAs_rfl _)
        fun o k b e => by rwa [enterEnd_channel ending hr] at e⟩
  endLive t i r run ending ht h := by
    have hr : (t.slot i).state.record = some r := by rw [h]; rfl
    exact ⟨setupLaw_eventParts.endLive t i r run ending ht.1 h, holdingLaw_eventParts.endLive t i r run ending ht.2.1 h,
      tripBut_of_same ht.2.2 (fun l => by rw [endLive_line ending hr]; exact TripLine.forcesAs_rfl _)
        fun o k b e => ((endLive_held ending hr o k b).1 e).1⟩
  endFailed t o i b r run ht hc h := by
    have hr : ((t.failOutput o).slot i).state.record = some r := by rw [failOutput_slot, h]; rfl
    refine ⟨setupLaw_eventParts.endFailed t o i b r run ht.1 hc h, holdingLaw_eventParts.endFailed t o i b r run ht.2.1 hc h,
      tripBut_of_same ht.2.2 (fun l => by rw [endLive_line _ hr]; exact TripLine.forcesAs_rfl _) fun o' k b' e => ?_⟩
    have := ((endLive_held (t := t.failOutput o) _ hr o' k b').1 e).1
    rw [failOutput_channel] at this
    split at this
    · rw [fail_state] at this; cases this
    · exact this

theorem tripping_exitLive {l : LineNo} {done : SlotNo → Prop} {t : State} (i : SlotNo) (ending : Option Closure)
    (ht : t.tripping l done) : (t.exitLive i ending).tripping l done := by
  cases h : (t.slot i).state with
  | live r run => exact (tripping_eventParts l done).exitLive t i r run ending ht h
  | _ => simp only [State.exitLive, h]; exact ht

/-- The holder of a mapped output is LIVE, and holds nothing after its exit (R11, R132). -/
theorem tripClose_done {l : LineNo} {t : State} (i : SlotNo) (ht : t.tripping l fun _ => False) :
    (if t.holdsMapped i (t.line l).map then t.exitLive i (some (.tripped l)) else t).tripping l fun j => j = i := by
  split
  case isTrue hm =>
    obtain ⟨hset, hhold, hbut⟩ := tripping_exitLive i (some (.tripped l)) ht
    refine ⟨hset, hhold, fun o k b e hu => ⟨(hbut o k b e hu).1, ?_⟩⟩
    rintro rfl
    -- an output that it holds is listed by a LIVE permit
    obtain ⟨o', -, ho'⟩ := List.any_eq_true.1 hm
    obtain ⟨-, hheld⟩ := Bool.and_eq_true_iff.1 ho'
    obtain ⟨b', hc⟩ := (heldBy_iff _ k).1 hheld
    have hd := (ht.2.1.1 o' k b').1 hc
    cases hs : (t.slot k).state with
    | live r run =>
      obtain ⟨-, hdep, -⟩ := exitLive_spec (some (.tripped l)) hs
      have := hdep.2.2.1 o
      rw [State.holds, (heldBy_iff _ k).2 ⟨b, e⟩] at this
      cases this
    | _ => rw [hs] at hd; cases hd
  case isFalse hm =>
    refine ⟨ht.1, ht.2.1, fun o k b e hu => ⟨(ht.2.2 o k b e hu).1, ?_⟩⟩
    rintro rfl
    have hmap := (ht.2.2 o k b e hu).1
    exact hm (List.any_eq_true.2 ⟨o, mem_allOutputs o, by simp [hmap, State.holds, (heldBy_iff _ k).2 ⟨b, e⟩]⟩)

/-- The laws on SETUP, on holding and on trips together. -/
def State.trippedLaw (s : State) : Prop := s.setupLaw ∧ s.holdingLaw ∧ s.tripLaw

theorem trippedLaw_iff (s : State) (l : LineNo) : s.trippedLaw ↔ s.tripping l fun _ => True :=
  and_congr_right' (and_congr_right' (tripLaw_iff s l))

/-- After the latch is set, an output that is still HELD under a set latch is one in the map of that line. -/
theorem tripping_latched {t : State} (l : LineNo) (ht : t.trippedLaw) :
    (t.setLine l { t.line l with latched := true }).tripping l fun _ => False := by
  obtain ⟨hset, hhold, htrip⟩ := ht
  refine ⟨hset, hhold, fun o i b e hu => ⟨?_, not_false⟩⟩
  obtain ⟨l', hen, hla, hmap⟩ := underTrip_iff.1 hu
  by_cases h : l' = l
  · subst h; exact hmap
  · rw [State.setLine_line, if_neg h] at hen hla hmap
    have := htrip o (underTrip_iff.2 ⟨l', hen, hla, hmap⟩)
    have e' : (t.channel o).state = .held i b := e
    rw [e'] at this
    cases this

theorem trippedLaw_asserted (t : State) (l : LineNo) (ht : t.trippedLaw) (_ : (t.line l).enabled = true) :
    (t.assertTrip l).trippedLaw := by
  obtain ⟨-, each⟩ := foldl_each (P := State.tripping l fun _ => False) (Q := fun i => State.tripping l fun j => j = i)
    (f := fun t i => if t.holdsMapped i (t.line l).map then t.exitLive i (some (.tripped l)) else t)
    (fun u i hu => ⟨by split; exacts [tripping_exitLive i _ hu, hu], tripClose_done i hu,
      fun c hc => by split; exacts [tripping_exitLive i _ hc, hc]⟩) allSlots _ (tripping_latched l ht)
  rw [trippedLaw_iff _ l]
  have both : ∀ u : State, (u.tripping l fun _ => True) → (u.postBoth (.trip l)).tripping l fun _ => True := fun u hu =>
    (tripping_eventParts l _).noted _ _ _ ((tripping_eventParts l _).noted _ _ _ hu (.inl rfl)) (.inl rfl)
  refine both _ ⟨(each 0 (mem_allSlots 0)).1, (each 0 (mem_allSlots 0)).2.1, fun o i b e hu => ?_⟩
  exact absurd rfl ((each i (mem_allSlots i)).2.2 o i b e hu).2

theorem trippedLaw_eventParts : EventParts State.trippedLaw := by
  have : State.trippedLaw = State.tripping 0 fun _ => True := funext fun s => propext (trippedLaw_iff s 0)
  rw [this]
  exact tripping_eventParts 0 _

theorem tripLaw_not_held {u : State} (h : ∀ o, (u.channel o).state.isHeld = false) : u.tripLaw := fun o _ => h o

/-- Fewer outputs are under a set latch, and none has come to be HELD. -/
theorem tripLaw_of_fewer {t u : State} (ht : t.tripLaw) (hu : ∀ o, u.underTrip o = true → t.underTrip o = true)
    (hh : ∀ o, (t.channel o).state.isHeld = false → (u.channel o).state.isHeld = false) : u.tripLaw :=
  fun o h => hh o (ht o (hu o h))

theorem tick_forcesAs (sample : Electrical) (x : TripLine) : (x.tick sample).forcesAs x := by
  rw [TripLine.tick]
  split
  · exact TripLine.forcesAs_rfl x
  · exact takeSample_forcesAs sample x

theorem tickAll_line (s : State) (feedback : BitVec 16) (trips : BitVec 4) (l : LineNo) :
    (s.tickAll feedback trips).line l = (s.line l).tick (sampledLevel trips l.val) := get_ofFn_fin _ l

theorem trippedLaw_stepBase : StepBase State.trippedLaw State.trippedLaw where
  reset t epoch cause := ⟨setupLaw_stepBase.reset t epoch cause, holdingLaw_stepBase.reset t epoch cause,
    tripLaw_not_held fun o => by rw [resetBlocks_channel, (reset_channel o).1]; rfl⟩
  restarted t ht := ⟨setupLaw_stepBase.restarted t ht.1, holdingLaw_stepBase.restarted t ht.2.1,
    tripLaw_not_held (restart_not_held t)⟩
  moved t m ht hm := ⟨setupLaw_stepBase.moved t m ht.1 hm, ht.2⟩
  ticked t feedback trips ht := ⟨setupLaw_stepBase.ticked t feedback trips ht.1, holdingLaw_stepBase.ticked t feedback trips ht.2.1,
    tripLaw_of_fewer ht.2.2
      (fun o h => by rwa [underTrip_congr (s := t) fun l => by rw [tickAll_line]; exact tick_forcesAs _ _] at h)
      fun o h => by rw [tickAll_channel]; exact h⟩
  output t o pol settle ahead ht hm hs :=
    ⟨setupLaw_stepBase.output t o pol settle ahead ht.1 hm hs, holdingLaw_stepBase.output t o pol settle ahead ht.2.1 hm hs,
      tripLaw_of_fewer ht.2.2 (fun _ => id) fun o' h => by
        rw [State.setChannel_channel]; split <;> simp_all [Channel.configure]⟩
  line t l enable level len map ht hm h1 h2 :=
    ⟨setupLaw_stepBase.line t l enable level len map ht.1 hm h1 h2, holdingLaw_stepBase.line t l enable level len map ht.2.1 hm h1 h2,
      tripLaw_not_held (ht.1.2 hm).2⟩
  unlatched t l ht h :=
    ⟨setupLaw_stepBase.unlatched t l ht.1 h, holdingLaw_stepBase.unlatched t l ht.2.1 h,
      tripLaw_of_fewer ht.2.2 (fun o hu => by
        obtain ⟨l', hen, hla, hmap⟩ := underTrip_iff.1 hu
        rw [State.setLine_line] at hen hla hmap
        split at hla
        · cases hla
        case isFalse hl => rw [if_neg hl] at hen hmap; exact underTrip_iff.2 ⟨l', hen, hla, hmap⟩) fun _ => id⟩
  unfaulted t o ht h := ⟨setupLaw_stepBase.unfaulted t o ht.1 h, holdingLaw_stepBase.unfaulted t o ht.2.1 h,
    tripLaw_of_fewer ht.2.2 (fun _ => id) fun o' h' => by
      rw [State.setChannel_channel]; split <;> simp_all [ChannelState.isHeld]⟩

theorem trippedLaw_parts : StepParts State.trippedLaw State.trippedLaw where
  toEventParts := trippedLaw_eventParts
  toActBase := trippedLaw_stepBase.toActBase
  toLinkBase := trippedLaw_stepBase.toLinkBase
  claimed t i r ht h ha hc := ⟨setupLaw_parts.claimed t i r ht.1 h ha hc, holdingLaw_parts.claimed t i r ht.2.1 h ha hc,
    (tripLaw_iff _ 0).2 (tripBut_enterLive ((tripLaw_iff _ 0).1 ht.2.2) hc)⟩
  joined t i r ht h ha hw := ⟨setupLaw_parts.joined t i r ht.1 h ha hw, holdingLaw_parts.joined t i r ht.2.1 h ha hw, ht.2.2⟩
  armed t i r part ht h ha := ⟨setupLaw_parts.armed t i r part ht.1 h ha, holdingLaw_parts.armed t i r part ht.2.1 h ha, ht.2.2⟩

/-- Settles O56: a grant takes no output under a set latch, a latch is set by a filtered assertion alone, which closes every
holder of its map, and a line is configured in SETUP alone, where nothing is HELD. -/
theorem tripLawKept : Obligations.TripLawKept :=
  fun _ _ hs hh ht h =>
    ((trippedLaw_parts.stepLaw (trippedLaw_eventParts.eventLaw trippedLaw_asserted)).step ⟨hs, hh, ht⟩ h).2.2

end Sys2Proof.Machine
end

section
/-! PROOFS. The ranges of the time base, the groups, the channels and the trip lines (R46, R112, R117, R129, R161). -/

set_option Elab.async false

namespace Sys2Proof.Machine

/-! ## Channels -/

/-- Supervision that starts afresh on a channel which is not FAULTED. -/
theorem supervised_fresh {c : Channel} (hs : c.settleTime ≤ 255) (hf : c.state ≠ .faulted)
    (h : c.supervision = freshSupervision c.settleTime) : c.supervised := by
  refine ⟨hs, ?_⟩
  rw [h, freshSupervision]
  by_cases h0 : c.settleTime = 0
  · rw [if_pos h0]; exact ⟨hf, h0⟩
  · rw [if_neg h0]; exact ⟨hf, by omega, Nat.le_refl _⟩

/-- FAULTED exactly in SUSPENDED (R117, R121). -/
theorem faulted_iff_of_supervised {c : Channel} (h : c.supervised) : c.state = .faulted ↔ c.supervision = .suspended := by
  obtain ⟨-, hsup⟩ := h
  split at hsup <;> simp_all

/-- A state other than FAULTED in place of one other than FAULTED. -/
theorem supervised_state {c : Channel} (h : c.supervised) (hf : c.state ≠ .faulted) {st : ChannelState} (hst : st ≠ .faulted) :
    ({ c with state := st } : Channel).supervised := by
  obtain ⟨hs, hsup⟩ := h
  refine ⟨hs, ?_⟩
  split at hsup <;> simp_all

theorem supervised_hand {c : Channel} (h : c.supervised) (lvl : Level) : (c.hand lvl).supervised := by
  rw [Channel.hand]
  split
  · exact h
  · obtain ⟨hs, hsup⟩ := h
    split at hsup
    · exact ⟨hs, by simp_all⟩
    · exact supervised_fresh hs hsup.1 (by simp_all)
    · exact supervised_fresh hs hsup.1 (by simp_all)
    · exact ⟨hs, by simp_all⟩

theorem supervised_take {c : Channel} (h : c.supervised) (hf : c.state ≠ .faulted) (i : SlotNo) (b : Bool) :
    (c.take i b).supervised := supervised_hand (supervised_state h hf (by simp)) _

theorem supervised_letGo {c : Channel} (h : c.supervised) (hf : c.state ≠ .faulted) : c.letGo.supervised :=
  supervised_hand (supervised_state h hf (by simp)) _

theorem supervised_handPhase {c : Channel} (h : c.supervised) (i : SlotNo) (ph : Phase) : (c.handPhase i ph).supervised := by
  rw [Channel.handPhase]
  split
  · split
    · exact supervised_hand h _
    · exact h
  · exact h
  · exact h

theorem supervised_fail {c : Channel} (h : c.supervised) : c.fail.supervised := ⟨h.1, rfl⟩

theorem countDown_pos {n : Nat} (h : 1 ≤ n) : 1 ≤ countDown n := by
  simp only [countDown]; split <;> omega

theorem supervised_tick {c : Channel} (h : c.supervised) (sample : Electrical) : (c.tick sample).supervised := by
  obtain ⟨hs, hsup⟩ := h
  cases hc : c.supervision with
  | settling n =>
    simp only [hc] at hsup
    exact ⟨hs, by simpa only [Channel.tick, hc] using
      ⟨hsup.1, countDown_pos hsup.2.1, (countDown_le n).trans hsup.2.2⟩⟩
  | watching =>
    simp only [hc] at hsup
    by_cases hm : levelOfInput c.polarity sample = c.expected
    · exact ⟨hs, by simpa only [Channel.tick, hc, hm, if_true] using hsup⟩
    · exact supervised_fresh hs hsup.1 (by simp only [Channel.tick, hc, if_neg hm])
  | unsupervised | suspended =>
    simp only [hc] at hsup
    exact ⟨hs, by simpa only [Channel.tick, hc] using hsup⟩

theorem supervised_configure {c : Channel} (h : c.supervised) (pol : Polarity) {settle : Nat} (hs : settle ≤ 255) (ahead : Bool) :
    (c.configure pol settle ahead).supervised := by
  by_cases hf : c.state = .faulted
  · refine ⟨hs, ?_⟩
    simp only [Channel.configure, hf, if_true, (faulted_iff_of_supervised h).1 hf]
  · exact supervised_fresh hs hf (by simp only [Channel.configure, if_neg hf])

/-! ## Groups and trip lines -/

/-- The dead time and the quiet time of a group stand in their range (R46). -/
def Group.ranged (x : Group) : Prop := x.deadTime ≤ 4095 ∧ x.quietRemaining ≤ 4095

theorem ranged_startQuiet {x : Group} (h : x.ranged) : x.startQuiet.ranged := by
  rw [Group.startQuiet]
  split
  · exact ⟨h.1, h.1⟩
  · exact h

theorem ranged_after_startQuiet {s : State} {g : GroupNo} (h : (s.group g).ranged) (left : OutputNo → Bool) :
    ((s.startQuiet left).group g).ranged := by
  rw [State.startQuiet_group]
  split
  · exact ranged_startQuiet h
  · exact h

theorem filtered_takeSample {x : TripLine} (h : x.filtered) (sample : Electrical) : (x.takeSample sample).filtered := by
  obtain ⟨h1, h2, h3, h4⟩ := h
  rw [TripLine.takeSample]
  split
  case isTrue he =>
    have off (hd : x.enabled = false) : False := by rw [he] at hd; cases hd
    split
    · split
      · exact ⟨h1, h2, by show x.filterCount + 1 ≤ x.filterLength; omega, fun hd => (off hd).elim⟩
      · exact ⟨h1, h2, h3, h4⟩
    · exact ⟨h1, h2, Nat.zero_le _, fun hd => (off hd).elim⟩
  case isFalse => exact ⟨h1, h2, h3, h4⟩

theorem filtered_latch {x : TripLine} (h : x.filtered) (he : x.enabled = true) (b : Bool) :
    ({ x with latched := b } : TripLine).filtered :=
  ⟨h.1, h.2.1, h.2.2.1, fun hd => by
    have hd' : x.enabled = false := hd
    rw [he] at hd'; cases hd'⟩

theorem filtered_configure {x : TripLine} (h : x.filtered) (enable : Bool) (level : Electrical) {len : Nat} (map : OutputSet)
    (h1 : 1 ≤ len) (h2 : len ≤ 15) : (x.configure enable level len map).filtered := by
  refine ⟨h1, h2, ?_, ?_⟩
  · show (if _ then x.filterCount else 0) ≤ len
    split
    case isTrue hc => obtain ⟨-, -, -, rfl⟩ := hc; exact h.2.2.1
    case isFalse => exact Nat.zero_le _
  · rintro (rfl : enable = false)
    simp [TripLine.configure]

theorem filtered_tick {x : TripLine} (h : x.filtered) (sample : Electrical) : (x.tick sample).filtered := by
  rw [TripLine.tick]
  split
  · exact h
  · exact filtered_takeSample h sample

/-! ## The law -/

/-- The ranges of the groups, the channels and the trip lines. -/
def State.blocksRanged (s : State) : Prop :=
  (∀ g, (s.group g).ranged) ∧ (∀ o, (s.channel o).supervised) ∧ ∀ l, (s.line l).filtered

/-- The range of the time base (R161). -/
def State.timeRanged (s : State) : Prop := 10 ≤ s.tickDivider ∧ s.tickDivider ≤ 65535 ∧ s.dividerCount < s.tickDivider

def State.rangedLaw (s : State) : Prop := s.timeRanged ∧ s.blocksRanged

theorem rangesLaw_iff (s : State) : s.rangesLaw ↔ s.rangedLaw := by
  simp only [State.rangesLaw, State.rangedLaw, State.timeRanged, State.blocksRanged, Group.ranged, and_assoc]

theorem timeRanged_of_settingsKept {t u : State} (ht : t.timeRanged) (h : t.settingsKept u) : u.timeRanged := by
  obtain ⟨-, -, -, -, -, hdiv, hcount, -⟩ := (settingsKept_iff t u).1 h
  rw [State.timeRanged, hdiv, hcount]
  exact ht

theorem timeRanged_letGo {t : State} {left : OutputNo → Bool} (ht : t.timeRanged) : (t.letGo left).timeRanged := by
  simpa only [State.timeRanged, State.letGo_tickDivider, State.letGo_dividerCount] using ht

theorem supervised_enterLive {t : State} {outs : List OutputNo} {ahead : List SlotNo} {r : Permit} (j : SlotNo)
    (ho : outs = r.outputNos) (hc : t.claimTest outs ahead = none) (h : ∀ o, (t.channel o).supervised) (o : OutputNo) :
    ((t.enterLive j r).channel o).supervised := by
  rw [enterLive_channel, takeOutputs_channel]
  split
  case h_1 e he =>
    have hmem : o ∈ outs := ho ▸ List.mem_map.2 ⟨e, List.mem_of_find?_eq_some he, by simpa using List.find?_some he⟩
    exact supervised_take (h o) (by rw [((claimTest_none.1 hc).1 o hmem).1]; simp) j e.invert
  case h_2 => exact h o

theorem blocksRanged_enterLive {t : State} {ahead : List SlotNo} {r : Permit} (j : SlotNo) (ht : t.blocksRanged)
    (hc : t.claimTest r.outputNos ahead = none) : (t.enterLive j r).blocksRanged := by
  obtain ⟨hg, ho, hl⟩ := ht
  exact ⟨fun g => by rw [State.enterLive_group]; exact hg g, supervised_enterLive j rfl hc ho, fun l => by
    rw [State.enterLive_line]; exact hl l⟩

theorem blocksRanged_failOutput {t : State} (o : OutputNo) (ht : t.blocksRanged) : (t.failOutput o).blocksRanged := by
  obtain ⟨hg, ho, hl⟩ := ht
  refine ⟨fun g => ranged_after_startQuiet (s := t.setChannel o (t.channel o).fail) (hg g) _, fun o' => ?_, hl⟩
  rw [failOutput_channel]
  split
  · exact supervised_fail (ho o)
  · exact ho o'

theorem enterEnd_blocks {t : State} {i : SlotNo} {r : Permit} (ending : Option Closure)
    (hr : (t.slot i).state.record = some r) :
    (∀ g, (t.enterEnd i ending).group g = t.group g) ∧ (∀ o, (t.enterEnd i ending).channel o = t.channel o)
      ∧ ∀ l, (t.enterEnd i ending).line l = t.line l := by
  obtain ⟨-, -, -, -, -, -, -, hlines, -⟩ := (settingsKept_iff _ _).1 (enterEnd_rest ending hr).1
  exact ⟨fun g => by simp only [State.group, (enterEnd_rest ending hr).2.2.1], enterEnd_channel ending hr,
    fun l => by simp only [State.line, hlines]⟩

theorem blocksRanged_enterEnd {t : State} {i : SlotNo} {r : Permit} (ending : Option Closure) (ht : t.blocksRanged)
    (hr : (t.slot i).state.record = some r) : (t.enterEnd i ending).blocksRanged := by
  obtain ⟨eg, eo, el⟩ := enterEnd_blocks ending hr
  obtain ⟨hg, ho, hl⟩ := ht
  exact ⟨fun g => by rw [eg]; exact hg g, fun o => by rw [eo]; exact ho o, fun l => by rw [el]; exact hl l⟩

theorem blocksRanged_letGo {t : State} {left : OutputNo → Bool} (ht : t.blocksRanged)
    (hl : ∀ o, left o = true → (t.channel o).state.isHeld = true) : (t.letGo left).blocksRanged := by
  obtain ⟨hg, ho, hlines⟩ := ht
  refine ⟨fun g => ?_, fun o => ?_, fun l => by rw [State.letGo_line]; exact hlines l⟩
  · rw [State.letGo_group]
    split
    · exact ranged_startQuiet (hg g)
    · exact hg g
  · rw [State.letGo_channel]
    split
    case isTrue h => exact supervised_letGo (ho o) fun e => by have := hl o h; rw [e] at this; cases this
    case isFalse => exact ho o

theorem blocksRanged_endLive {t : State} {i : SlotNo} {r : Permit} (ending : Option Closure) (ht : t.blocksRanged)
    (hr : (t.slot i).state.record = some r) : ((t.enterEnd i ending).letGo (t.holds i)).blocksRanged := by
  refine blocksRanged_letGo (blocksRanged_enterEnd ending ht hr) fun o h => ?_
  obtain ⟨b, e⟩ := (heldBy_iff _ i).1 h
  rw [enterEnd_channel ending hr, e]; rfl

theorem blocksRanged_channel {t : State} {o : OutputNo} {c : Channel} (ht : t.blocksRanged) (hc : c.supervised) :
    (t.setChannel o c).blocksRanged := by
  obtain ⟨hg, ho, hl⟩ := ht
  refine ⟨hg, fun o' => ?_, hl⟩
  rw [State.setChannel_channel]
  split
  · exact hc
  · exact ho o'

theorem blocksRanged_line {t : State} {l : LineNo} {x : TripLine} (ht : t.blocksRanged) (hx : x.filtered) :
    (t.setLine l x).blocksRanged := by
  obtain ⟨hg, ho, hl⟩ := ht
  refine ⟨hg, ho, fun l' => ?_⟩
  rw [State.setLine_line]
  split
  · exact hx
  · exact hl l'

theorem blocksRanged_group {t : State} {g : GroupNo} {x : Group} (ht : t.blocksRanged) (hx : x.ranged) :
    (t.setGroup g x).blocksRanged := by
  obtain ⟨hg, ho, hl⟩ := ht
  refine ⟨fun g' => ?_, ho, hl⟩
  rw [State.setGroup_group]
  split
  · exact hx
  · exact hg g'

/-- A settle time that falls, or ends with a match (R117, R118). -/
theorem supervised_count {c : Channel} {n : Nat} {sup : Supervision} (h : c.supervised) (hn : c.supervision = .settling n)
    (hs : (2 ≤ n ∧ sup = .settling (n - 1)) ∨ sup = .watching) : ({ c with supervision := sup } : Channel).supervised := by
  obtain ⟨hset, hsup⟩ := h
  rw [hn] at hsup
  obtain ⟨hf, h1, h2⟩ := hsup
  rcases hs with ⟨hn2, rfl⟩ | rfl
  · exact ⟨hset, hf, show 1 ≤ n - 1 by omega, show n - 1 ≤ c.settleTime by omega⟩
  · exact ⟨hset, hf, show 0 < c.settleTime by omega⟩

theorem rangedLaw_eventParts : EventParts State.rangedLaw where
  noted t p n ht _ := ⟨timeRanged_of_settingsKept ht.1 (settingsKept_post t p n), ht.2⟩
  phased t i r run run' pat ph ht _ _ := by
    obtain ⟨htime, hg, ho, hl⟩ := ht
    refine ⟨?_, fun g => ?_, fun o => ?_, fun l => ?_⟩
    · simpa only [State.timeRanged, State.enterPhase, State.handPhase_tickDivider, State.handPhase_dividerCount,
        State.countSlot_tickDivider, State.countSlot_dividerCount] using htime
    · rw [State.enterPhase, State.handPhase_group]; exact hg g
    · rw [enterPhase_channel]; exact supervised_handPhase (ho o) i ph
    · rw [State.enterPhase, State.handPhase_line]; exact hl l
  quieted t g n ht hn := ⟨ht.1, blocksRanged_group ht.2 ⟨(ht.2.1 g).1, hn.trans (ht.2.1 g).2⟩⟩
  supervised t o n sup ht hn hs := ⟨ht.1, blocksRanged_channel ht.2 (supervised_count (ht.2.2.1 o) hn hs)⟩
  failed t o ht _ := ⟨ht.1, blocksRanged_failOutput o ht.2⟩
  sampled t l sample ht := ⟨ht.1, blocksRanged_line ht.2 (filtered_takeSample (ht.2.2.2 l) sample)⟩
  granted t j r ahead ht _ _ hc := ⟨by
    simpa only [State.timeRanged, State.enterLive_tickDivider, State.enterLive_dividerCount] using ht.1,
    blocksRanged_enterLive j ht.2 hc⟩
  ended t i r ending ht hr _ _ :=
    ⟨timeRanged_of_settingsKept ht.1 (enterEnd_rest ending hr).1, blocksRanged_enterEnd ending ht.2 hr⟩
  endWaiting t i r w ending ht h := by
    have hr : ((t.leaveQueue i).slot i).state.record = some r := by rw [State.leaveQueue_slot, h]; rfl
    exact ⟨timeRanged_of_settingsKept (t := t.leaveQueue i) ht.1 (enterEnd_rest ending hr).1,
      blocksRanged_enterEnd (t := t.leaveQueue i) ending ht.2 hr⟩
  endLive t i r run ending ht h := by
    have hr : (t.slot i).state.record = some r := by rw [h]; rfl
    exact ⟨timeRanged_letGo (timeRanged_of_settingsKept ht.1 (enterEnd_rest ending hr).1), blocksRanged_endLive ending ht.2 hr⟩
  endFailed t o i b r run ht _ h := by
    have hr : ((t.failOutput o).slot i).state.record = some r := by rw [failOutput_slot, h]; rfl
    exact ⟨timeRanged_letGo (timeRanged_of_settingsKept (t := t.failOutput o) ht.1 (enterEnd_rest _ hr).1),
      blocksRanged_endLive _ (blocksRanged_failOutput o ht.2) hr⟩

theorem restart_ranged {t : State} (ht : t.blocksRanged) : t.restart.blocksRanged :=
  (blocksRanged_letGo (left := fun o => (t.channel o).state.isHeld) ht fun _ => id :)

theorem reset_blocksRanged : State.reset.blocksRanged := by
  refine ⟨fun g => ?_, fun o => ?_, fun l => ?_⟩
  · rw [State.group, get_eq_getElem]
    simp [State.reset, Group.ranged]
  · rw [State.channel, get_eq_getElem]
    simp [State.reset, resetChannel, Channel.supervised]
  · rw [State.line, get_eq_getElem]
    simp [State.reset, resetTripLine, TripLine.filtered]

theorem reset_timeRanged : State.reset.timeRanged :=
  ⟨Nat.le_of_ble_eq_true rfl, Nat.le_of_ble_eq_true rfl, Nat.le_of_ble_eq_true rfl⟩

theorem rangedLaw_stepBase : StepBase State.rangedLaw State.rangedLaw where
  reset t epoch cause := ⟨reset_timeRanged, reset_blocksRanged⟩
  restarted t ht := ⟨ht.1, restart_ranged ht.2⟩
  ticked t feedback trips ht := by
    obtain ⟨⟨h1, h2, -⟩, hg, ho, hl⟩ := ht
    refine ⟨⟨h1, h2, (show 0 < t.tickDivider by omega)⟩, fun g => ?_, fun o => ?_, fun l => ?_⟩
    · rw [tickAll_group]; exact ⟨(hg g).1, (countDown_le _).trans (hg g).2⟩
    · rw [tickAll_channel]; exact supervised_tick (ho o) _
    · rw [tickAll_line]; exact filtered_tick (hl l) _
  counted t ht h := ⟨⟨ht.1.1, ht.1.2.1, h⟩, ht.2⟩
  divided t n ht h1 h2 := ⟨⟨h1, h2, (show 0 < n by omega)⟩, ht.2⟩
  output t o pol settle ahead ht _ hs := ⟨ht.1, blocksRanged_channel ht.2 (supervised_configure (ht.2.2.1 o) pol hs ahead)⟩
  grouped t g members dead ht _ hd := ⟨ht.1, blocksRanged_group ht.2 ⟨hd, (ht.2.1 g).2⟩⟩
  line t l enable level len map ht _ h1 h2 :=
    ⟨ht.1, blocksRanged_line ht.2 (filtered_configure (ht.2.2.2 l) enable level map h1 h2)⟩
  unlatched t l ht he := ⟨ht.1, blocksRanged_line ht.2 (filtered_latch (ht.2.2.2 l) he false)⟩
  unfaulted t o ht _ := ⟨ht.1, blocksRanged_channel ht.2 (supervised_fresh (ht.2.2.1 o).1 (by simp) rfl)⟩

theorem rangedLaw_parts : StepParts State.rangedLaw State.rangedLaw where
  toEventParts := rangedLaw_eventParts
  toActBase := rangedLaw_stepBase.toActBase
  toLinkBase := rangedLaw_stepBase.toLinkBase
  claimed t i r ht h ha hc := ⟨by
    simpa only [State.timeRanged, State.enterLive_tickDivider, State.enterLive_dividerCount] using ht.1,
    blocksRanged_enterLive i ht.2 hc⟩

/-- Settles O60: CONFIGURE lets in no value out of range, and the counts stand between 0 and the values that they start from. -/
theorem rangesKept : Obligations.RangesKept := by
  intro s t hs h
  rw [rangesLaw_iff] at hs ⊢
  have latched (u : State) (l : LineNo) (hu : u.rangedLaw) (he : (u.line l).enabled = true) :
      (u.setLine l { u.line l with latched := true }).rangedLaw :=
    ⟨hu.1, blocksRanged_line hu.2 (filtered_latch (hu.2.2.2 l) he true)⟩
  exact (rangedLaw_parts.plainLaw latched).step hs h

end Sys2Proof.Machine
end

section
/-! PROOFS. The laws on notices (R142, R143, R145). -/

set_option Elab.async false

namespace Sys2Proof.Machine

/-! ## One set -/

/-- A set in the order of R145, with counts in their range, kinds of the mask, and permit entries that name what `N` holds of. -/
def NoticeUnit.lawful (N : Handle → Prop) (u : NoticeUnit) : Prop :=
  Ordered u.entries ∧ (∀ e ∈ u.entries, 1 ≤ e.count ∧ e.count ≤ 15 ∧ maskHas u.mask e.notice.kind = true)
    ∧ ∀ e ∈ u.entries, ∀ h ∈ e.notice.permit, N h

/-- The permit of handle `h` stands, and port `p` owns it. -/
def State.names (s : State) (p : Port) (h : Handle) : Prop := s.handle h.slot = h ∧ (s.slot h.slot).state.ownedBy p = true

theorem nodup_of_ordered {es : List NoticeEntry} (h : Ordered es) : (es.map NoticeEntry.notice).Nodup := by
  refine List.pairwise_map.2 (h.imp fun {a b} hab e => ?_)
  rw [e] at hab
  exact absurd hab (Nat.lt_irrefl _)

theorem noticeLaw_iff (s : State) : s.noticeLaw ↔ ∀ p, (s.notices.get p).lawful (s.names p) :=
  forall_congr' fun _ => ⟨fun ⟨ho, _, hc, hn⟩ => ⟨ho, hc, hn⟩, fun ⟨ho, hc, hn⟩ => ⟨ho, nodup_of_ordered ho, hc, hn⟩⟩

/-- The entries of a set after a post. -/
theorem insertNotice_entry {n : Notice} {es : List NoticeEntry} (hc : ∀ e ∈ es, 1 ≤ e.count ∧ e.count ≤ 15) {e : NoticeEntry}
    (he : e ∈ insertNotice n es) : e ∈ es ∨ e.notice = n ∧ 1 ≤ e.count ∧ e.count ≤ 15 := by
  induction es with
  | nil =>
    rw [insertNotice, List.mem_singleton] at he
    subst he
    exact .inr ⟨rfl, Nat.le_refl _, Nat.le_of_ble_eq_true rfl⟩
  | cons x es ih =>
    have hx := hc x (by simp)
    simp only [insertNotice] at he
    split at he
    case isTrue hn =>
      rcases List.mem_cons.1 he with rfl | he
      · exact .inr ⟨hn, by dsimp only; split <;> omega, by dsimp only; split <;> omega⟩
      · exact .inl (by simp [he])
    case isFalse =>
      split at he
      · rcases List.mem_cons.1 he with rfl | he
        · exact .inr ⟨rfl, Nat.le_refl _, Nat.le_of_ble_eq_true rfl⟩
        · exact .inl he
      · rcases List.mem_cons.1 he with rfl | he
        · exact .inl (by simp)
        · exact (ih (fun e he => hc e (by simp [he])) he).imp_left fun h => by simp [h]

theorem lawful_post {N : Handle → Prop} {u : NoticeUnit} {n : Notice} (hu : u.lawful N) (hn : ∀ h ∈ n.permit, N h) :
    (u.post n).lawful N := by
  obtain ⟨ho, hc, hp⟩ := hu
  rw [NoticeUnit.post]
  split
  case isTrue hm =>
    have entry {e : NoticeEntry} (he : e ∈ insertNotice n u.entries) :
        e ∈ u.entries ∨ e.notice = n ∧ 1 ≤ e.count ∧ e.count ≤ 15 :=
      insertNotice_entry (fun e h => ⟨(hc e h).1, (hc e h).2.1⟩) he
    refine ⟨ordered_insertNotice n ho, fun e he => ?_, fun e he => ?_⟩
    · rcases entry he with h | ⟨rfl, h1, h2⟩
      · exact hc e h
      · exact ⟨h1, h2, hm⟩
    · rcases entry he with h | ⟨rfl, -, -⟩
      · exact hp e h
      · exact hn
  case isFalse => exact ⟨ho, hc, hp⟩

theorem lawful_mono {N N' : Handle → Prop} {u : NoticeUnit} (hu : u.lawful N)
    (h : ∀ e ∈ u.entries, ∀ k ∈ e.notice.permit, N k → N' k) : u.lawful N' :=
  ⟨hu.1, hu.2.1, fun e he k hk => h e he k hk (hu.2.2 e he k hk)⟩

/-- Entries are taken out, under a mask that still collects the kinds of those that stay. -/
theorem lawful_thinned {N : Handle → Prop} {u v : NoticeUnit} (hu : u.lawful N) (hs : v.entries.Sublist u.entries)
    (hm : v.mask = u.mask ∨ ∀ e ∈ v.entries, maskHas v.mask e.notice.kind = true) : v.lawful N := by
  obtain ⟨ho, hc, hp⟩ := hu
  refine ⟨ho.sublist hs, fun e he => ?_, fun e he => hp e (hs.subset he)⟩
  obtain ⟨h1, h2, h3⟩ := hc e (hs.subset he)
  refine ⟨h1, h2, ?_⟩
  rcases hm with hm | hm
  · rw [hm]; exact h3
  · exact hm e he

/-! ## The law -/

/-- The sets are the same, and what they name still stands. -/
theorem noticeLaw_of_names {t u : State} (ht : t.noticeLaw) (hn : ∀ p, u.notices.get p = t.notices.get p)
    (h : ∀ p k, t.names p k → u.names p k) : u.noticeLaw := by
  rw [noticeLaw_iff] at ht ⊢
  intro p
  rw [hn]
  exact lawful_mono (ht p) fun e _ k _ => h p k

theorem names_of_slots {t u : State} (he : u.epoch = t.epoch)
    (hs : ∀ j, (u.slot j).generation = (t.slot j).generation ∧ ∀ p, (t.slot j).state.ownedBy p = true →
      (u.slot j).state.ownedBy p = true) (p : Port) (k : Handle) (h : t.names p k) : u.names p k := by
  obtain ⟨hk, ho⟩ := h
  obtain ⟨hg, hown⟩ := hs k.slot
  exact ⟨by rw [State.handle, he, hg]; exact hk, hown p ho⟩

/-- One slot has changed, which keeps its name, and its owner if it had one. -/
theorem names_one {t u : State} {i : SlotNo} {st : SlotState} (he : u.epoch = t.epoch)
    (hs : ∀ j, u.slot j = if j = i then { t.slot i with state := st } else t.slot j)
    (ho : ∀ p, (t.slot i).state.ownedBy p = true → st.ownedBy p = true) (p : Port) (k : Handle) (h : t.names p k) :
    u.names p k := by
  refine names_of_slots he (fun j => ?_) p k h
  rw [hs j]
  split
  case isTrue e => subst e; exact ⟨rfl, ho⟩
  case isFalse => exact ⟨rfl, fun _ => id⟩

theorem noticeLaw_one {t u : State} {i : SlotNo} {st : SlotState} (ht : t.noticeLaw) (hn : u.notices = t.notices)
    (he : u.epoch = t.epoch) (hs : ∀ j, u.slot j = if j = i then { t.slot i with state := st } else t.slot j)
    (ho : ∀ p, (t.slot i).state.ownedBy p = true → st.ownedBy p = true) : u.noticeLaw :=
  noticeLaw_of_names ht (fun p => by rw [hn]) (names_one he hs ho)

theorem noticeLaw_set {t : State} (p : Port) (u : NoticeUnit) (ht : t.noticeLaw) (hu : u.lawful (t.names p)) :
    (t.setNotices p u).noticeLaw := by
  rw [noticeLaw_iff] at ht ⊢
  intro q
  rw [State.setNotices_notices, PerPort.get_set]
  split
  case isTrue h => exact h ▸ hu
  case isFalse => exact ht q

theorem noticeLaw_post {t : State} (p : Port) (n : Notice) (ht : t.noticeLaw) (hn : ∀ h ∈ n.permit, t.names p h) :
    (t.post p n).noticeLaw :=
  noticeLaw_set p _ ht (lawful_post ((noticeLaw_iff t).1 ht p) hn)

theorem names_handle {t : State} {p : Port} {j : SlotNo} (h : (t.slot j).state.ownedBy p = true) : t.names p (t.handle j) :=
  ⟨rfl, h⟩

theorem ownedBy_iff {x : SlotState} {r : Permit} (h : x.record = some r) (p : Port) : x.ownedBy p = true ↔ r.owner = p := by
  simp [SlotState.ownedBy, h]

theorem noticeLaw_enterClosed {t : State} {i : SlotNo} {r : Permit} (c : Closure) (ht : t.noticeLaw)
    (hr : (t.slot i).state.record = some r) : (t.enterClosed i c).noticeLaw := by
  rw [enterClosed_eq c hr]
  refine noticeLaw_post _ _ (noticeLaw_one ht rfl rfl (State.setSlotState_slot t i _)
    fun p => ownedBy_of_record (y := .closed r c) rfl (.inl hr) p) ?_
  rintro h ⟨⟩
  exact names_one (t := t) (u := t.setSlotState i (.closed r c)) rfl (State.setSlotState_slot t i (.closed r c))
    (fun p => ownedBy_of_record (y := .closed r c) rfl (.inl hr) p) _ _ (names_handle ((ownedBy_iff hr _).2 rfl))

theorem slot_of_permit {n : Notice} {k : Handle} (h : k ∈ n.permit) : n.slot = some k.slot := by
  cases n with
  | trip | fault => cases h
  | closed | granted | completed => cases h; rfl

/-- A slot is freed: the entries that named it leave its owner's set, and the other port's set named it in none (R14). -/
theorem noticeLaw_enterFree {t : State} {i : SlotNo} {r : Permit} (ht : t.noticeLaw)
    (hr : (t.slot i).state.record = some r) : (t.enterFree i).noticeLaw := by
  rw [enterFree_eq hr]
  set x : Slot := { generation := (t.slot i).generation + 1, state := .free }
  set v := t.setSlot i x
  have names (p : Port) (k : Handle) (hk : k.slot ≠ i) (h : t.names p k) : v.names p k := by
    have hs : v.slot k.slot = t.slot k.slot := (State.setSlot_slot t i x k.slot).trans (if_neg hk)
    exact ⟨by rw [State.handle, hs]; exact h.1, by rw [hs]; exact h.2⟩
  rw [noticeLaw_iff] at ht ⊢
  intro p
  rw [State.setNotices_notices, PerPort.get_set]
  split
  case isTrue hp =>
    have thin : ((t.notices.get r.owner).dropSlot i).lawful (t.names r.owner) :=
      lawful_thinned (ht r.owner) List.filter_sublist (.inl rfl)
    refine lawful_mono thin fun e he k hk => hp ▸ names r.owner k ?_
    rintro rfl
    have hkept := (List.mem_filter.1 he).2
    rw [slot_of_permit hk] at hkept
    simp at hkept
  case isFalse hp =>
    refine lawful_mono (ht p) fun e _ k _ h => names p k ?_ h
    rintro rfl
    exact hp ((ownedBy_iff hr p).1 h.2).symm

theorem noticeLaw_enterEnd {t : State} {i : SlotNo} {r : Permit} (ending : Option Closure) (ht : t.noticeLaw)
    (hr : (t.slot i).state.record = some r) : (t.enterEnd i ending).noticeLaw := by
  cases ending with
  | none => exact noticeLaw_enterFree ht hr
  | some c => exact noticeLaw_enterClosed c ht hr

/-- What a set names does not hang on the rest of the part. -/
theorem noticeLaw_congr {t u : State} (ht : t.noticeLaw) (hn : u.notices = t.notices) (he : u.epoch = t.epoch)
    (hs : u.slots = t.slots) : u.noticeLaw :=
  noticeLaw_of_names ht (fun p => by rw [hn]) (names_of_slots he fun j => by
    simp only [State.slot, hs]; exact ⟨trivial, fun _ => id⟩)

theorem noticeLaw_failOutput {t : State} (o : OutputNo) (ht : t.noticeLaw) : (t.failOutput o).noticeLaw := by
  have quiet : ((t.setChannel o (t.channel o).fail).startQuiet fun x =>
      decide (x = o) && (t.channel o).state.isHeld).noticeLaw := noticeLaw_congr ht (by simp) (by simp) (by simp)
  exact noticeLaw_post _ _ (noticeLaw_post _ _ quiet fun h hh => by cases hh) fun h hh => by cases hh

theorem free_not_owned {x : SlotState} (h : x = .free) (y : SlotState) (p : Port) (ho : x.ownedBy p = true) :
    y.ownedBy p = true := by
  subst h; cases ho

theorem noticeLaw_eventParts : EventParts State.noticeLaw where
  noted t p n ht hn := by
    refine noticeLaw_post p n ht fun h hh => ?_
    rcases hn with hn | ⟨j, hn, ho⟩
    · rw [hn] at hh; cases hh
    · rw [hn] at hh; cases hh; exact names_handle ho
  recounted t i st ht h := noticeLaw_one ht rfl rfl (State.countSlot_slot t i st) fun p ho =>
    ownedBy_congr h.record.symm p ▸ ho
  phased t i r run run' pat ph ht h _ :=
    noticeLaw_one ht (by rw [State.enterPhase, State.handPhase_notices]; rfl) (by rw [State.enterPhase, State.handPhase_epoch]; rfl)
      (enterPhase_slot t i _ run' ph) fun p ho => by rw [h] at ho; exact ho
  supervised t o n sup ht _ _ := noticeLaw_congr ht rfl rfl rfl
  failed t o ht _ := noticeLaw_failOutput o ht
  granted t j r ahead ht hr _ _ :=
    noticeLaw_one ht (State.enterLive_notices t j r) (State.enterLive_epoch t j r) (State.enterLive_slot t j r)
      fun p => ownedBy_of_record (r := r) (y := .live r (newRun r)) rfl (.inl hr) p
  queued t j r d ht h _ := noticeLaw_one ht rfl rfl (State.enterWaiting_slot t j r) fun p ho => by rw [h] at ho; exact ho
  started t j r a ht _ h := noticeLaw_one ht rfl rfl (State.setSlotState_slot t j _) fun p ho => by rw [h] at ho; exact ho
  ended t i r ending ht hr _ _ := noticeLaw_enterEnd ending ht hr
  endWaiting t i r w ending ht h :=
    noticeLaw_enterEnd (r := r) ending (noticeLaw_congr (u := t.leaveQueue i) ht rfl rfl rfl)
      (by rw [State.leaveQueue_slot, h]; rfl)
  endLive t i r run ending ht h :=
    noticeLaw_congr (noticeLaw_enterEnd (r := r) ending ht (by rw [h]; rfl)) (by simp) (by simp) (by simp)
  endFailed t o i b r run ht _ h :=
    noticeLaw_congr (noticeLaw_enterEnd (r := r) (some (.fault o)) (noticeLaw_failOutput o ht) (by rw [failOutput_slot, h]; rfl)) (by simp)
      (by simp) (by simp)

/-- Empty sets name nothing. -/
theorem noticeLaw_empty {u : State} (h : ∀ p, (u.notices.get p).entries = []) : u.noticeLaw := by
  rw [noticeLaw_iff]
  intro p
  refine ⟨?_, ?_, ?_⟩ <;> rw [h p]
  · exact List.Pairwise.nil
  · simp
  · simp

theorem noticeLaw_stepBase : StepBase State.noticeLaw State.noticeLaw where
  reset t epoch cause := noticeLaw_empty fun p => by cases p <;> rfl
  restarted t _ := noticeLaw_empty fun p => by cases p <;> rfl
  ticked t feedback trips ht := noticeLaw_of_names ht (fun _ => rfl) (names_of_slots rfl fun j => by
    rw [tickAll_slot]
    exact ⟨rfl, fun p ho => ownedBy_congr (record_tick _).symm p ▸ ho⟩)
  output t o pol settle ahead ht _ _ := noticeLaw_congr ht rfl rfl rfl
  unfaulted t o ht _ := noticeLaw_congr ht rfl rfl rfl
  thinned t p u ht hs hm := noticeLaw_set p u ht (lawful_thinned ((noticeLaw_iff t).1 ht p) hs hm)

theorem noticeLaw_parts : StepParts State.noticeLaw State.noticeLaw where
  toEventParts := noticeLaw_eventParts
  toActBase := noticeLaw_stepBase.toActBase
  toLinkBase := noticeLaw_stepBase.toLinkBase
  claimed t i r ht h _ _ :=
    noticeLaw_one ht (State.enterLive_notices t i r) (State.enterLive_epoch t i r) (State.enterLive_slot t i r)
      (free_not_owned h _)
  joined t i r ht h _ _ := noticeLaw_one ht rfl rfl (State.enterWaiting_slot t i r) (free_not_owned h _)
  armed t i _ _ ht h _ := noticeLaw_one ht rfl rfl (State.setSlotState_slot t i _) (free_not_owned h _)

/-- Settles O58: a post finds its place in the order and its permit by its current name, and a slot that is freed takes its entries
with it. -/
theorem noticeLawKept : Obligations.NoticeLawKept :=
  fun _ _ hs h => noticeLaw_parts.plainLaw.step hs h

end Sys2Proof.Machine
end

section
/-! PROOFS. The law on chains (R99). -/

set_option Elab.async false

namespace Sys2Proof.Machine

/-! ## Anchors, slot by slot -/

/-- The part of a slot in which it can be the anchor that record `r` awaits this event of (R99). -/
def SlotState.anchorFor (x : SlotState) (r : Permit) (ev : AwaitedEvent) : Prop :=
  match x with
  | .waiting q _ => q.anchors r
  | .armed q _ => q.anchors r
  | .live q _ => q.anchors r ∧ ev = .ending
  | .free => False
  | .closed _ _ => False

/-- The chain depth of a slot's record stands in its range (R99). -/
def SlotState.depthOk (x : SlotState) : Prop := ∀ r, x.record = some r → 1 ≤ r.chainDepth ∧ r.chainDepth ≤ 4

theorem anchorStands_iff (s : State) (j : SlotNo) : s.anchorStands j ↔
    ∀ r, (s.slot j).state = .armed r .awaitingEvent → ∃ a, r.anchor = some a ∧ s.handle a.handle.slot = a.handle
      ∧ (s.slot a.handle.slot).state.anchorFor r a.event := by
  cases hj : (s.slot j).state with
  | armed r part =>
    cases part with
    | awaitingEvent =>
      cases ha : r.anchor with
      | none => simp [State.anchorStands, hj, ha]
      | some a =>
        cases hk : (s.slot a.handle.slot).state <;> simp [State.anchorStands, hj, ha, hk, SlotState.anchorFor]
    | delaying d => simp [State.anchorStands, hj]
  | _ => simp [State.anchorStands, hj]

/-- The law on chains, but that a permit in one of the slots `granted` may be LIVE with its GRANT event still to be given. -/
def State.chainedBut (granted : List SlotNo) (s : State) : Prop :=
  (∀ i, (s.slot i).state.depthOk)
    ∧ ∀ j r, (s.slot j).state = .armed r .awaitingEvent → ∃ a, r.anchor = some a ∧ s.handle a.handle.slot = a.handle
        ∧ ((s.slot a.handle.slot).state.anchorFor r a.event
          ∨ a.event = .grant ∧ a.handle.slot ∈ granted
            ∧ ∃ q, (s.slot a.handle.slot).state.record = some q ∧ q.anchors r)

theorem chainLaw_iff (s : State) : s.chainLaw ↔ s.chainedBut [] := by
  refine and_congr (forall_congr' fun i => ?_) (forall_congr' fun j => ?_)
  · simp [SlotState.depthOk]
  · rw [anchorStands_iff]
    simp

/-- Slot state `y` can take the place of `x`: it awaits no event that `x` does not, and is an anchor for what `x` is. -/
def SlotState.standsFor (y x : SlotState) : Prop :=
  (∀ r, y = .armed r .awaitingEvent → x = .armed r .awaitingEvent)
    ∧ (∀ r ev, x.anchorFor r ev → y.anchorFor r ev) ∧ (x.depthOk → y.depthOk)

theorem SlotState.standsFor_rfl (x : SlotState) : x.standsFor x := ⟨fun _ => id, fun _ _ => id, id⟩

/-- Slots have changed to states that can take the places of those before. -/
theorem chainLaw_of_slots {t u : State} (ht : t.chainLaw) (he : u.epoch = t.epoch)
    (hs : ∀ j r ev, (t.slot j).state.anchorFor r ev → (u.slot j).generation = (t.slot j).generation)
    (hk : ∀ j, (u.slot j).state.standsFor (t.slot j).state) : u.chainLaw := by
  rw [chainLaw_iff] at ht ⊢
  obtain ⟨depth, anchors⟩ := ht
  refine ⟨fun i => (hk i).2.2 (depth i), fun j r hj => ?_⟩
  obtain ⟨a, ha, hname, hstands⟩ := anchors j r ((hk j).1 r hj)
  have hstands : (t.slot a.handle.slot).state.anchorFor r a.event := by simpa using hstands
  refine ⟨a, ha, ?_, .inl ((hk _).2.1 r _ hstands)⟩
  rw [State.handle, he, hs _ _ _ hstands]
  exact hname

theorem chainLaw_one {t u : State} {i : SlotNo} {st : SlotState} (ht : t.chainLaw) (he : u.epoch = t.epoch)
    (hs : ∀ j, u.slot j = if j = i then { t.slot i with state := st } else t.slot j)
    (hk : st.standsFor (t.slot i).state) : u.chainLaw := by
  refine chainLaw_of_slots ht he (fun j _ _ _ => ?_) fun j => ?_ <;> rw [hs j] <;> split
  case refine_1.isTrue h => rw [h]
  case refine_1.isFalse => rfl
  case refine_2.isTrue h => rw [h]; exact hk
  case refine_2.isFalse => exact SlotState.standsFor_rfl _

theorem chainLaw_congr {t u : State} (ht : t.chainLaw) (he : u.epoch = t.epoch) (hs : ∀ j, u.slot j = t.slot j) : u.chainLaw :=
  chainLaw_of_slots ht he (fun j _ _ _ => by rw [hs]) fun j => by rw [hs]; exact SlotState.standsFor_rfl _

theorem depthOk_of_record {x y : SlotState} (h : y.record = x.record) (hx : x.depthOk) : y.depthOk := fun r hr => hx r (h ▸ hr)

theorem SlotState.Recounted.standsFor {x y : SlotState} (h : x.Recounted y) : y.standsFor x := by
  refine ⟨fun r e => ?_, fun r ev hx => ?_, depthOk_of_record h.record⟩
  · cases h <;> cases e
  · cases h <;> exact hx

/-- A slot that no permit stands in is given a part that awaits no event. -/
theorem standsFor_of_no_anchor {x y : SlotState} (hx : ∀ r ev, ¬ x.anchorFor r ev)
    (hy : ∀ r, y ≠ .armed r .awaitingEvent) (hd : x.depthOk → y.depthOk) : y.standsFor x :=
  ⟨fun r e => absurd e (hy r), fun r ev h => absurd h (hx r ev), hd⟩

/-! ## Chain events -/

/-- A record stays an anchor's: after the chain events of a walk, a WAITING or ARMED permit that has not closed, or has gone LIVE
where GRANT is not awaited, is the anchor that it was. -/
theorem anchorFor_of_record {x : SlotState} {q r : Permit} {ev : AwaitedEvent} (hr : x.record = some q) (hq : q.anchors r)
    (hc : ∀ q c, x ≠ .closed q c) (hl : x.isLive = true → ev = .ending) : x.anchorFor r ev := by
  cases x with
  | free => cases hr
  | closed q c => exact absurd rfl (hc q c)
  | waiting | armed => cases hr; exact hq
  | live => cases hr; exact ⟨hq, hl rfl⟩

/-- What a slot that is an anchor for this event shows. -/
theorem record_of_anchorFor {x : SlotState} {r : Permit} {ev : AwaitedEvent} (h : x.anchorFor r ev) :
    ∃ q, x.record = some q ∧ q.anchors r ∧ (∀ q c, x ≠ .closed q c) ∧ (x.isLive = true → ev = .ending) := by
  cases x with
  | free | closed => exact h.elim
  | waiting q _ | armed q _ => exact ⟨q, rfl, h, by simp, by simp [SlotState.isLive]⟩
  | live q _ => exact ⟨q, rfl, h.1, by simp, fun _ => h.2⟩

/-- Every GRANT event that stood to be given has been given, so the law holds again (R100). -/
theorem chainLaw_of_run {v t : State} {granted : List SlotNo} (hv : v.chainedBut granted)
    (hrun : ChainRun v granted (fun _ => False) t) : t.chainLaw := by
  obtain ⟨depth, anchors⟩ := hv
  have hev := hrun.evolves
  rw [chainLaw_iff]
  refine ⟨fun i => depthOk_of_record (hev.slots i).2.1 (depth i), fun j r hj => ?_⟩
  have hjv := hrun.noMore j r hj
  obtain ⟨a, ha, hname, hstands⟩ := anchors j r (hjv ▸ hj)
  have notGiven (hg : a.event = .grant) : ¬ v.givesGrant t granted a.handle.slot := fun h =>
    hrun.given j r a _ hj ha hname.symm hg h
  have hstands : (v.slot a.handle.slot).state.anchorFor r a.event := by
    refine hstands.resolve_right ?_
    rintro ⟨hg, hmem, -⟩
    exact notGiven hg (.inl hmem)
  obtain ⟨q, hq, hqr, hnc, hl⟩ := record_of_anchorFor hstands
  refine ⟨a, ha, (hev.handle _).trans hname, .inl (anchorFor_of_record ((hev.slots _).2.1.trans hq) hqr ?_ fun hlive => ?_)⟩
  · intro q' c hc
    obtain ⟨q'', c', hc'⟩ := hrun.lost j r a _ hj ha hname.symm ⟨q', c, hc⟩
    exact hnc _ _ hc'
  · cases hevent : a.event with
    | ending => rfl
    | grant =>
      refine absurd (Or.inr ⟨?_, hlive⟩) (notGiven hevent)
      rw [Bool.eq_false_iff]
      intro h
      rw [hl h] at hevent
      cases hevent

/-- After a walk, the permits that it has granted are LIVE with their GRANT events still to be given (R36, R38). -/
theorem chainedBut_walkQueue {s : State} (hs : s.chainLaw) : s.walkQueue.part.chainedBut s.walkQueue.granted := by
  have walk : s.walkQueue.part.epoch = s.epoch ∧ ∀ j, s.walkQueue.part.slot j = s.slot j
      ∨ j ∈ s.walkQueue.granted ∧ ∃ r w, (s.slot j).state = .waiting r w
        ∧ s.walkQueue.part.slot j = { s.slot j with state := .live r (newRun r) } := by
    refine foldl_keeps (P := fun acc : ScanState => acc.part.epoch = s.epoch ∧ ∀ j, acc.part.slot j = s.slot j
      ∨ j ∈ acc.granted ∧ ∃ r w, (s.slot j).state = .waiting r w
        ∧ acc.part.slot j = { s.slot j with state := .live r (newRun r) }) (fun acc i hacc => ?_) _ _ ⟨rfl, fun _ => .inl rfl⟩
    obtain ⟨he, hj⟩ := hacc
    simp only [scanEntry]
    split
    case h_1 r w hw =>
      split
      · refine ⟨by simpa using he, fun j => ?_⟩
        rw [State.post_slot, State.enterLive_slot]
        split
        case isTrue hji =>
          subst hji
          rcases hj j with e | ⟨-, r', w', -, e⟩
          · rw [e] at hw ⊢
            exact .inr ⟨by simp, r, w, hw, rfl⟩
          · rw [e] at hw; cases hw
        case isFalse => exact (hj j).imp_right fun ⟨h1, h2⟩ => ⟨by simp [h1], h2⟩
      · exact ⟨he, hj⟩
    all_goals exact ⟨he, hj⟩
  obtain ⟨he, hslots⟩ := walk
  obtain ⟨depth, anchors⟩ := (chainLaw_iff s).1 hs
  generalize s.walkQueue = walked at he hslots ⊢
  have record (j : SlotNo) : (walked.part.slot j).state.record = (s.slot j).state.record := by
    rcases hslots j with e | ⟨-, r, w, h, e⟩
    · rw [e]
    · rw [e, h]; rfl
  have generation (j : SlotNo) : (walked.part.slot j).generation = (s.slot j).generation := by
    rcases hslots j with e | ⟨-, r, w, h, e⟩ <;> rw [e]
  refine ⟨fun i => depthOk_of_record (record i) (depth i), fun j r hj => ?_⟩
  have hjs : (s.slot j).state = .armed r .awaitingEvent := by
    rcases hslots j with e | ⟨-, r', w, h, e⟩
    · rw [← e]; exact hj
    · rw [e] at hj; cases hj
  obtain ⟨a, ha, hname, hstands⟩ := anchors j r hjs
  have hstands : (s.slot a.handle.slot).state.anchorFor r a.event := by simpa using hstands
  obtain ⟨q, hq, hqr, hnc, hl⟩ := record_of_anchorFor hstands
  refine ⟨a, ha, by rw [State.handle, he, generation]; exact hname, ?_⟩
  rcases hslots a.handle.slot with e | ⟨hg, r', w, h, e⟩
  · exact .inl (by rw [e]; exact hstands)
  · cases hevent : a.event with
    | grant => exact .inr ⟨rfl, hg, q, (record _).trans hq, hqr⟩
    | ending => exact .inl (anchorFor_of_record ((record _).trans hq) hqr (by rw [e]; simp) fun _ => rfl)

/-- All that follows a walk (R38, R102). -/
theorem chainLaw_afterWalk {v : State} {granted zeros : List SlotNo} (b : Bool) (hv : v.chainedBut granted)
    (hz : ∀ j ∈ zeros, ∃ r d, (v.slot j).state = .armed r (.delaying d)) :
    (if b then (v.endDelays zeros).grantEvents granted else (v.grantEvents granted).endDelays zeros).chainLaw := by
  have start : ChainRun v granted (fun k => False ∨ k ∈ granted) v := by
    simpa using chainRun_start v granted
  refine chainLaw_of_run hv ?_
  split
  · exact grantEvents_chainRun _ (fun _ => id) (endDelays_chainRun zeros hz start)
  · exact endDelays_chainRun zeros hz (grantEvents_chainRun _ (fun _ => id) start)

/-- The free choices play no part (log entry 3). -/
theorem chainedBut_choices {u v : State} {n : Nat} {granted : List SlotNo} (hu : u.chainedBut granted)
    (hv : v = u ∨ v = { u with choices := n }) : v.chainedBut granted ∧ ∀ j, v.slot j = u.slot j := by
  rcases hv with rfl | rfl
  · exact ⟨hu, fun _ => rfl⟩
  · exact ⟨hu, fun _ => rfl⟩

/-- A scan, with the claim tests of the delay-0 END dependents of a departure (R11, R36). -/
theorem chainLaw_scanDeparture {s : State} {zeros : List SlotNo} (hs : s.chainLaw)
    (hz : ∀ j ∈ zeros, ∃ r d, (s.slot j).state = .armed r (.delaying d)) : (s.scanDeparture zeros).chainLaw := by
  obtain ⟨v, b, hv, e⟩ := scanDeparture_eq zeros s
  obtain ⟨hbut, hslot⟩ := chainedBut_choices (chainedBut_walkQueue hs) hv
  rw [e]
  refine chainLaw_afterWalk b hbut fun j hj => ?_
  obtain ⟨r, d, h⟩ := hz j hj
  exact ⟨r, d, by rw [hslot, walkQueue_slot (by rw [h]; rfl)]; exact h⟩

theorem chainLaw_scan {s : State} (hs : s.chainLaw) : s.scan.chainLaw := by
  have : s.scan = s.scanDeparture [] := rfl
  rw [this]
  exact chainLaw_scanDeparture hs (by simp)

end Sys2Proof.Machine
end

section
/-! PROOFS. The law on chains, kept by the departures, the claim tests and the claims (R13, R97 to R105). -/

set_option Elab.async false

namespace Sys2Proof.Machine

theorem enterEnd_epoch {t : State} {i : SlotNo} {r : Permit} (ending : Option Closure)
    (hr : (t.slot i).state.record = some r) : (t.enterEnd i ending).epoch = t.epoch := by
  obtain ⟨-, -, -, -, he, -⟩ := (settingsKept_iff _ _).1 (enterEnd_rest ending hr).1
  exact he

theorem depthOk_ended {x : Slot} {r : Permit} (ending : Option Closure) (hr : x.state.record = some r)
    (hx : x.state.depthOk) : (x.ended r ending).state.depthOk := by
  rcases record_ended x r ending with e | e
  · exact depthOk_of_record (e.trans hr.symm) hx
  · rw [e]; exact fun _ h => nomatch h

theorem not_awaiting_ended (x : Slot) (r q : Permit) (ending : Option Closure) :
    (x.ended r ending).state ≠ .armed q .awaitingEvent := by
  rcases ended_state x r ending with e | ⟨c, e⟩ <;> (rw [e]; simp)

/-! ## Departures -/

/-- A permit that is not LIVE ends, and every permit whose chain of anchors leads to it with it: the anchors of the others stand
(R13, R105). -/
theorem chainLaw_endAnchor {s : State} {i : SlotNo} {r : Permit} (ending : Option Closure) (hs : s.chainLaw)
    (hr : (s.slot i).state.record = some r) (hl : (s.slot i).state.isLive = false) :
    ((s.loseAnchor i).enterEnd i ending).chainLaw := by
  have hr' : ((s.loseAnchor i).slot i).state.record = some r := by rw [loseAnchor_self]; exact hr
  obtain ⟨depth, anchors⟩ := (chainLaw_iff s).1 hs
  have hev := loseAnchor_evolves i s hl
  have hslot := enterEnd_slot ending hr'
  have hepoch : ((s.loseAnchor i).enterEnd i ending).epoch = s.epoch :=
    (enterEnd_epoch ending hr').trans (loseAnchor_lostSince i s).1
  -- a permit that awaits an event after it is one that the loss has not reached
  have waits (j : SlotNo) (q : Permit) (hj : (((s.loseAnchor i).enterEnd i ending).slot j).state = .armed q .awaitingEvent) :
      j ≠ i ∧ ¬ Relation.TransGen s.awaitsPermit j i := by
    rw [hslot] at hj
    split at hj
    case isTrue => exact absurd hj (not_awaiting_ended _ r q ending)
    case isFalse hji =>
      refine ⟨hji, fun hc => ?_⟩
      obtain ⟨q', a, h1, h2⟩ := awaitsPermit_awaiting hc
      rw [loseAnchor_closes hji hc h1 h2] at hj
      cases hj
  rw [chainLaw_iff]
  refine ⟨fun j => ?_, fun j q hj => ?_⟩
  · rw [hslot]
    split
    · exact depthOk_ended ending hr' (depthOk_of_record (hev.slots i).2.1 (depth i))
    · exact depthOk_of_record (hev.slots j).2.1 (depth j)
  · obtain ⟨hji, hfar⟩ := waits j q hj
    rw [hslot, if_neg hji, loseAnchor_frame hfar] at hj
    obtain ⟨a, ha, hname, hstands⟩ := anchors j q hj
    have hawaits : s.awaitsPermit j a.handle.slot := ⟨q, a, hj, ha, hname.symm⟩
    have hk : a.handle.slot ≠ i := fun e => hfar (.single (e ▸ hawaits))
    have hkept : ((s.loseAnchor i).enterEnd i ending).slot a.handle.slot = s.slot a.handle.slot := by
      rw [hslot, if_neg hk, loseAnchor_frame fun hc => hfar (.head hawaits hc)]
    refine ⟨a, ha, ?_, ?_⟩
    · rw [State.handle, hepoch, hkept]; exact hname
    · rw [hkept]; exact hstands

/-- The LIVE permit of slot `i` has ended and its END event has been given: none awaited another event of it (R99, R101). -/
theorem chainLaw_endEvent {s : State} {i : SlotNo} {r : Permit} {run : RunPart} (ending : Option Closure)
    (left : OutputNo → Bool) (hs : s.chainLaw) (h : (s.slot i).state = .live r run) :
    (((s.enterEnd i ending).letGo left).endEvent (s.handle i)).chainLaw := by
  have hr : (s.slot i).state.record = some r := by rw [h]; rfl
  set u := (s.enterEnd i ending).letGo left with hu
  have hslot : ∀ j, u.slot j = if j = i then (s.slot i).ended r ending else s.slot j := fun j => by
    rw [hu, State.letGo_slot]; exact enterEnd_slot ending hr j
  have hev := endEvent_evolves (s.handle i) u
  have hepoch : (u.endEvent (s.handle i)).epoch = s.epoch := by
    obtain ⟨-, -, -, -, he, -⟩ := (settingsKept_iff _ _).1 hev.settings
    rw [he, hu, State.letGo_epoch, enterEnd_epoch ending hr]
  obtain ⟨depth, anchors⟩ := (chainLaw_iff s).1 hs
  have depthU (j : SlotNo) : (u.slot j).state.depthOk := by
    rw [hslot]
    split
    · exact depthOk_ended ending hr (depth i)
    · exact depth j
  rw [chainLaw_iff]
  refine ⟨fun j => depthOk_of_record (hev.slots j).2.1 (depthU j), fun j q hj => ?_⟩
  -- it does not await the END that has been given
  have hju : u.slot j = (u.endEvent (s.handle i)).slot j ∧ u.awaits j (s.handle i) .ending = false := by
    have hslot' := endEvent_slot u (s.handle i) j
    rw [hslot'] at hj
    split at hj
    case isTrue hw =>
      obtain ⟨q', a, h1, h2, -⟩ := (awaits_iff u j _ .ending).1 hw
      rw [startDelay_eq h1 h2] at hj
      simp [State.setSlotState] at hj
    case isFalse hw => exact ⟨by rw [hslot', if_neg hw], by simpa using hw⟩
  obtain ⟨hju, hnot⟩ := hju
  rw [← hju] at hj
  have hji : j ≠ i := by
    rintro rfl
    rw [hslot, if_pos rfl] at hj
    exact not_awaiting_ended _ r q ending hj
  have hjs : (s.slot j).state = .armed q .awaitingEvent := by rw [← hj, hslot, if_neg hji]
  obtain ⟨a, ha, hname, hstands⟩ := anchors j q hjs
  have hstands : (s.slot a.handle.slot).state.anchorFor q a.event := by simpa using hstands
  have hk : a.handle.slot ≠ i := by
    intro e
    rw [e, h] at hstands
    rw [Bool.eq_false_iff, ne_eq, awaits_iff] at hnot
    exact hnot ⟨q, a, hj, ha, by rw [← hname, e], hstands.2⟩
  have hku : u.slot a.handle.slot = s.slot a.handle.slot := by rw [hslot, if_neg hk]
  refine ⟨a, ha, ?_, .inl ?_⟩
  · rw [State.handle, hepoch, (hev.slots _).1, hku]; exact hname
  · -- an anchor that awaited that END is in DELAYING now
    rw [endEvent_slot]
    split
    case isTrue hw =>
      obtain ⟨q', a', h1, h2, -⟩ := (awaits_iff u _ _ .ending).1 hw
      rw [startDelay_eq h1 h2]
      rw [hku] at h1
      rw [h1] at hstands
      simpa [State.setSlotState, SlotState.anchorFor] using hstands
    case isFalse => rw [hku]; exact hstands

/-- The dependents whose claim tests follow an END event at once are in DELAYING (R102). -/
theorem endsAtOnce_delaying (u : State) (h : Handle) :
    ∀ j ∈ u.endsAtOnce h, ∃ r d, ((u.endEvent h).slot j).state = .armed r (.delaying d) := by
  intro j hj
  have hw : u.awaits j h .ending = true := by
    have := (List.mem_filter.1 hj).2
    simp only [Bool.and_eq_true] at this
    exact this.1
  obtain ⟨r, a, h1, h2, -⟩ := (awaits_iff u j h .ending).1 hw
  exact ⟨r, a.delay, by rw [endEvent_slot, if_pos hw, startDelay_eq h1 h2]; simp [State.setSlotState]⟩

theorem chainLaw_exitLive (t : State) (i : SlotNo) (r : Permit) (run : RunPart) (ending : Option Closure) (ht : t.chainLaw)
    (h : (t.slot i).state = .live r run) : (t.exitLive i ending).chainLaw := by
  simp only [State.exitLive, h]
  exact chainLaw_scanDeparture (chainLaw_endEvent ending _ ht h) (endsAtOnce_delaying _ _)

theorem chainLaw_exitWaiting (t : State) (i : SlotNo) (r : Permit) (w : Nat) (ending : Option Closure) (ht : t.chainLaw)
    (h : (t.slot i).state = .waiting r w) : (t.exitWaiting i ending).chainLaw :=
  chainLaw_scan (chainLaw_endAnchor (s := t.leaveQueue i) (r := r) ending (chainLaw_congr ht rfl fun _ => rfl)
    (by rw [State.leaveQueue_slot, h]; rfl) (by rw [State.leaveQueue_slot, h]; rfl))

theorem chainLaw_exitArmed (t : State) (i : SlotNo) (r : Permit) (part : ArmedPart) (ending : Option Closure) (ht : t.chainLaw)
    (h : (t.slot i).state = .armed r part) : (t.exitArmed i ending).chainLaw :=
  chainLaw_endAnchor (r := r) ending ht (by rw [h]; rfl) (by rw [h]; rfl)

/-- The claim test at a delay end (R104). -/
theorem chainLaw_endDelay (t : State) (j : SlotNo) (r : Permit) (d : Nat) (ht : t.chainLaw)
    (h : (t.slot j).state = .armed r (.delaying d)) : (t.endDelay j).chainLaw := by
  simp only [State.endDelay, delayEndWith, h]
  split
  case h_1 hc =>
    -- the permit is LIVE with its GRANT still to be given
    have hgrant : (t.enterLive j r).post r.owner (.granted (t.handle j)) |>.chainedBut [j] := by
      obtain ⟨depth, anchors⟩ := (chainLaw_iff t).1 ht
      have hrec : ∀ k, (((t.enterLive j r).post r.owner (.granted (t.handle j))).slot k).state.record = (t.slot k).state.record
          ∧ (((t.enterLive j r).post r.owner (.granted (t.handle j))).slot k).generation = (t.slot k).generation := fun k => by
        rw [State.post_slot, State.enterLive_slot]
        split
        case isTrue e => subst e; rw [h]; exact ⟨rfl, rfl⟩
        case isFalse => exact ⟨rfl, rfl⟩
      refine ⟨fun k => depthOk_of_record (hrec k).1 (depth k), fun k q hk => ?_⟩
      rw [State.post_slot, State.enterLive_slot] at hk
      split at hk
      case isTrue => cases hk
      case isFalse hkj =>
        obtain ⟨a, ha, hname, hstands⟩ := anchors k q hk
        have hstands : (t.slot a.handle.slot).state.anchorFor q a.event := by simpa using hstands
        refine ⟨a, ha, ?_, ?_⟩
        · rw [State.handle, (hrec _).2, State.post_epoch, State.enterLive_epoch]; exact hname
        · obtain ⟨q', hq', hqr, -, -⟩ := record_of_anchorFor hstands
          by_cases e : a.handle.slot = j
          · cases hevent : a.event with
            | grant => exact .inr ⟨rfl, by simp [e], q', by rw [(hrec _).1]; exact hq', hqr⟩
            | ending =>
              refine .inl (anchorFor_of_record (by rw [(hrec _).1]; exact hq') hqr ?_ fun _ => rfl)
              rw [e, State.post_slot, State.enterLive_slot, if_pos rfl]
              simp
          · rw [State.post_slot, State.enterLive_slot, if_neg e]
            exact .inl hstands
    have hrun := grantEvents_chainRun (X := fun _ => False) [j] (fun _ => id)
      (by simpa using chainRun_start ((t.enterLive j r).post r.owner (.granted (t.handle j))) [j])
    have := chainLaw_of_run hgrant hrun
    have hh : ((t.enterLive j r).post r.owner (.granted (t.handle j))).handle j = t.handle j := by
      simp [State.handle, enterLive_slot]
    simpa [State.grantEvents, State.grantEvent, hh] using this
  case h_2 reason hc =>
    split
    · exact chainLaw_one ht rfl (State.enterWaiting_slot t j r)
        ⟨fun q e => by (cases e), fun q ev hq => by rw [h] at hq; exact hq, depthOk_of_record (by rw [h]; rfl)⟩
    · exact chainLaw_endAnchor (r := r) (some (.blocked reason)) ht (by rw [h]; rfl) (by rw [h]; rfl)

end Sys2Proof.Machine
end

section
/-! PROOFS. The law on chains, kept by every step (R99). -/

set_option Elab.async false

namespace Sys2Proof.Machine

theorem chainLaw_failOutput {t : State} (o : OutputNo) (ht : t.chainLaw) : (t.failOutput o).chainLaw :=
  chainLaw_congr ht rfl fun _ => rfl

theorem chainLaw_eventBase : EventBase State.chainLaw where
  settled t due choices _ ht := chainLaw_congr ht rfl fun _ => rfl
  noted t p n ht _ := chainLaw_congr ht rfl fun _ => rfl
  recounted t i st ht h := chainLaw_one ht rfl (State.countSlot_slot t i st) h.standsFor
  phased t i r run run' pat ph ht h _ := by
    refine chainLaw_one ht (State.handPhase_epoch _ i ph) (enterPhase_slot t i _ run' ph) ⟨fun q e => by (cases e), fun q ev hq => ?_, fun hd q hq => ?_⟩
    · rw [h] at hq; exact hq
    · cases hq; exact hd r (by rw [h]; rfl)
  quieted t g n ht _ := chainLaw_congr ht rfl fun _ => rfl
  supervised t o n sup ht _ _ := chainLaw_congr ht rfl fun _ => rfl
  failed t o ht _ := chainLaw_failOutput o ht
  sampled t l sample ht := chainLaw_congr ht rfl fun _ => rfl

theorem chainLaw_eventLaw : EventLaw State.chainLaw where
  toEventBase := chainLaw_eventBase
  scan _ := chainLaw_scan
  exitLive := chainLaw_exitLive
  exitWaiting := chainLaw_exitWaiting
  endDelay := chainLaw_endDelay
  failedHeld t o i _ r run ht _ h := chainLaw_exitLive (t.failOutput o) i r run _ (chainLaw_failOutput o ht) h
  asserted := chainLaw_eventBase.asserted chainLaw_exitLive fun _ _ ht _ => chainLaw_congr ht rfl fun _ => rfl

theorem chainLaw_empty {u : State} (h : ∀ i, (u.slot i).state = .free) : u.chainLaw := by
  rw [chainLaw_iff]
  refine ⟨fun i r hr => ?_, fun j r hj => ?_⟩
  · rw [h i] at hr; cases hr
  · rw [h j] at hj; cases hj

theorem chainLaw_stepBase : StepBase State.chainLaw State.chainLaw where
  before t _ _ _ _ _ ht := chainLaw_congr ht rfl fun _ => rfl
  linked t _ _ _ _ _ ht := chainLaw_congr ht rfl fun _ => rfl
  reset t epoch cause := chainLaw_empty fun i => by rw [resetBlocks_slot]
  restarted t _ := chainLaw_empty fun i => by rw [restart_slot]
  moved t m ht _ := chainLaw_congr ht rfl fun _ => rfl
  ticked t feedback trips ht := by
    refine chainLaw_of_slots ht rfl (fun j _ _ _ => by rw [tickAll_slot]) fun j => ?_
    rw [tickAll_slot]
    rcases tick_recounted (t.slot j).state with e | h
    · rw [e]; exact SlotState.standsFor_rfl _
    · exact h.standsFor
  counted t ht _ := chainLaw_congr ht rfl fun _ => rfl
  divided t _ ht _ _ := chainLaw_congr ht rfl fun _ => rfl
  reserved t _ ht := chainLaw_congr ht rfl fun _ => rfl
  quotas t _ _ ht _ _ := chainLaw_congr ht rfl fun _ => rfl
  output t _ _ _ _ ht _ _ := chainLaw_congr ht rfl fun _ => rfl
  grouped t _ _ _ ht _ _ := chainLaw_congr ht rfl fun _ => rfl
  line t _ _ _ _ _ ht _ _ _ := chainLaw_congr ht rfl fun _ => rfl
  unlatched t _ ht _ := chainLaw_congr ht rfl fun _ => rfl
  unfaulted t _ ht _ := chainLaw_congr ht rfl fun _ => rfl
  thinned t _ _ ht _ _ := chainLaw_congr ht rfl fun _ => rfl

/-! ## Claims -/

/-- A FREE slot is given a record that awaits no event (R98). -/
theorem chainLaw_enter {t u : State} {i : SlotNo} {st : SlotState} {r : Permit} (ht : t.chainLaw) (he : u.epoch = t.epoch)
    (hs : ∀ j, u.slot j = if j = i then { t.slot i with state := st } else t.slot j) (hf : (t.slot i).state = .free)
    (hr : st.record = some r) (hw : ∀ q, st ≠ .armed q .awaitingEvent) (hd : 1 ≤ r.chainDepth ∧ r.chainDepth ≤ 4) : u.chainLaw :=
  chainLaw_one ht he hs (standsFor_of_no_anchor (fun q ev h => by rw [hf] at h; exact h) hw
    fun _ q hq => by rw [hr] at hq; cases hq; exact hd)

/-- What the checks of R97 let through: the anchor stands, the claimant owns it, and its chain is not at its full depth. -/
theorem record_of_anchorRefusal {t : State} {p : Port} {h : Handle} (hn : t.anchorRefusal p h = none) :
    ∃ q, (t.slot h.slot).state.record = some q ∧ (∀ q c, (t.slot h.slot).state ≠ .closed q c) ∧ t.handle h.slot = h
      ∧ q.owner = p ∧ q.chainDepth < 4 := by
  have checks {q : Permit} (hq : (if t.handle h.slot ≠ h ∨ q.owner ≠ p then some Status.badAnchor
      else if 4 ≤ q.chainDepth then some .chainDepth else none) = none) :
      t.handle h.slot = h ∧ q.owner = p ∧ q.chainDepth < 4 := by
    split at hq
    · cases hq
    · split at hq
      · cases hq
      case isFalse h1 h2 =>
        rw [not_or, not_not, not_not] at h1
        exact ⟨h1.1, h1.2, by omega⟩
  simp only [State.anchorRefusal] at hn
  split at hn
  case h_1 | h_2 => cases hn
  all_goals
    rename_i e
    rw [e]
    exact ⟨_, rfl, by simp, checks hn⟩

/-- A chained claim that awaits its event: its anchor stands, LIVE only where END is awaited (R97, R98). -/
theorem chainLaw_awaiting {t : State} {i : SlotNo} {r : Permit} {a : Anchor} (ht : t.chainLaw)
    (hf : (t.slot i).state = .free) (ha : r.anchor = some a) (hn : t.anchorRefusal r.owner a.handle = none)
    (hd : r.chainDepth = t.depthAt a.handle + 1)
    (hg : ¬ (a.event = .grant ∧ (t.slot a.handle.slot).state.isLive = true)) :
    (t.setSlotState i (.armed r .awaitingEvent)).chainLaw := by
  obtain ⟨q, hq, hnc, hname, hown, hdepth⟩ := record_of_anchorRefusal hn
  have hdr : r.chainDepth = q.chainDepth + 1 := by rw [hd, State.depthAt, hq]
  have hki : a.handle.slot ≠ i := by
    intro e; rw [e, hf] at hq; cases hq
  obtain ⟨depth, anchors⟩ := (chainLaw_iff t).1 ht
  have hslot := State.setSlotState_slot t i (.armed r .awaitingEvent)
  have other (k : SlotNo) (hk : k ≠ i) : (t.setSlotState i (.armed r .awaitingEvent)).slot k = t.slot k := by rw [hslot, if_neg hk]
  rw [chainLaw_iff]
  refine ⟨fun k => ?_, fun j q' hj => ?_⟩
  · rw [hslot]
    split
    · rintro q' ⟨⟩
      have := depth a.handle.slot q hq
      omega
    · exact depth k
  · by_cases hji : j = i
    · subst hji
      rw [hslot, if_pos rfl] at hj
      cases hj
      refine ⟨a, ha, by rw [State.handle, other _ hki]; exact hname, .inl ?_⟩
      rw [other _ hki]
      refine anchorFor_of_record hq ⟨hown, hdr⟩ hnc fun hl => ?_
      cases hevent : a.event with
      | ending => rfl
      | grant => exact absurd ⟨hevent, hl⟩ hg
    · rw [other j hji] at hj
      obtain ⟨a', ha', hname', hstands⟩ := anchors j q' hj
      have hstands : (t.slot a'.handle.slot).state.anchorFor q' a'.event := by simpa using hstands
      have hk : a'.handle.slot ≠ i := by
        intro e; rw [e, hf] at hstands; exact hstands
      exact ⟨a', ha', by rw [State.handle, other _ hk]; exact hname', .inl (by rw [other _ hk]; exact hstands)⟩

theorem chainLaw_chained (t : State) (i : SlotNo) (r : Permit) (a : Anchor) (ht : t.chainLaw) (hf : (t.slot i).state = .free)
    (ha : r.anchor = some a) (hn : t.anchorRefusal r.owner a.handle = none) (hd : r.chainDepth = t.depthAt a.handle + 1) :
    (t.armClaim i r a).state.chainLaw := by
  obtain ⟨q, hq, -, -, -, hdepth⟩ := record_of_anchorRefusal hn
  have hdr : 1 ≤ r.chainDepth ∧ r.chainDepth ≤ 4 := by
    rw [hd, State.depthAt, hq]
    simp only
    omega
  have delaying : (t.setSlotState i (.armed r (.delaying a.delay))).chainLaw :=
    chainLaw_enter ht rfl (State.setSlotState_slot t i _) hf (r := r) rfl (by simp) hdr
  simp only [State.armClaim]
  split
  · split
    · exact chainLaw_endDelay _ i r a.delay delaying (by simp)
    · exact delaying
  case isFalse hg => exact chainLaw_awaiting ht hf ha hn hd hg

theorem chainLaw_stepLaw : StepLaw State.chainLaw State.chainLaw where
  toEventLaw := chainLaw_eventLaw
  toActBase := chainLaw_stepBase.toActBase
  toLinkBase := chainLaw_stepBase.toLinkBase
  exitArmed := chainLaw_exitArmed
  freed t i r c ht h := by
    have hr : (t.slot i).state.record = some r := by rw [h]; rfl
    refine chainLaw_of_slots ht (enterEnd_epoch none hr) (fun j q ev hq => ?_) fun j => ?_ <;>
      rw [show t.enterFree i = t.enterEnd i none from rfl, enterEnd_slot none hr] <;> split
    case refine_1.isTrue e => rw [e, h] at hq; exact hq.elim
    case refine_1.isFalse => rfl
    case refine_2.isTrue e =>
      rw [e, h]
      exact standsFor_of_no_anchor (fun q ev hq => hq) (by simp [Slot.ended]) fun _ q hq => by simp [Slot.ended, SlotState.record] at hq
    case refine_2.isFalse => exact SlotState.standsFor_rfl _
  direct t i r ht hf _ _ hd := by
    have hdr : 1 ≤ r.chainDepth ∧ r.chainDepth ≤ 4 := by omega
    simp only [State.directClaim]
    split
    · exact chainLaw_enter ht (State.enterLive_epoch t i r) (State.enterLive_slot t i r) hf (r := r) rfl (by simp) hdr
    · split
      · exact chainLaw_enter ht rfl (State.enterWaiting_slot t i r) hf (r := r) rfl (by simp) hdr
      · exact ht
  chained t i r a ht hf _ ha hn hd := chainLaw_chained t i r a ht hf ha hn hd

/-- Settles O59: a permit that ceases to be an anchor gives its event or loses its dependents, and each GRANT event that a scan or
a claim test brings about has been given by its end (R13, R100, R101). -/
theorem chainLawKept : Obligations.ChainLawKept :=
  fun _ _ hs h => chainLaw_stepLaw.step hs h

end Sys2Proof.Machine
end

section
/-! PROOFS. The ports: the law on their queues, and the one answer to each request (R170, R171, R172). -/

set_option Elab.async false

namespace Sys2Proof.Machine

/-! ## No command but RESTART writes the ports -/

theorem portsKept_trans {s t u : State} (h : s.portsKept t) (h' : t.portsKept u) : s.portsKept u :=
  ⟨h'.1.trans h.1, h'.2.trans h.2⟩

theorem portsKept_actParts (s : State) : ActParts s.portsKept s.portsKept where
  granted t j r _ ht _ _ _ := portsKept_trans ht ⟨State.enterLive_ports t j r, State.enterLive_lastServed t j r⟩
  claimed t i r ht _ _ _ := portsKept_trans ht ⟨State.enterLive_ports t i r, State.enterLive_lastServed t i r⟩
  ended t i r ending ht hr _ _ := portsKept_trans ht (enterEnd_rest ending hr).2.1
  endWaiting t i r w ending ht h :=
    portsKept_trans ht (enterEnd_rest (s := t.leaveQueue i) (r := r) ending (by rw [State.leaveQueue_slot, h]; rfl)).2.1
  endLive t i r run ending ht h := portsKept_trans ht (enterEnd_rest (r := r) ending (by rw [h]; rfl)).2.1
  endFailed t o i b r run ht _ h :=
    portsKept_trans ht (enterEnd_rest (s := t.failOutput o) (r := r) _ (by rw [failOutput_slot, h]; rfl)).2.1

/-- What a command leaves, before it is answered, has the ports as they were (R172). -/
theorem act_quiet {c : Command} (hc : c ≠ .restart) (p : Port) (params : List Byte) (t : State) : (c.act p params t).quiet t :=
  (portsKept_actParts t).plainActLaw.act hc p params t ⟨rfl, rfl⟩

/-! ## The law on port queues -/

/-- Both queues of a port are within their length (R170). -/
def LinkPort.bounded (x : LinkPort) : Prop := x.mailbox.length ≤ 4 ∧ x.responses.length ≤ 4

theorem portsLaw_setPort {s : State} {p : Port} {x : LinkPort} (hs : s.portsLaw) (hx : x.bounded) : (s.setPort p x).portsLaw := by
  intro q
  show ((s.ports.set p x).get q).bounded
  rw [PerPort.get_set]
  split
  · exact hx
  · exact hs q

theorem bounded_endTransaction {x : LinkPort} (hx : x.bounded) (t : Transaction) : (x.endTransaction t).bounded := by
  obtain ⟨hm, hr⟩ := hx
  have hr' : (if t.delivered then x.responses.tail else x.responses).length ≤ 4 := by
    split
    · rw [List.length_tail]; omega
    · exact hr
  simp only [LinkPort.endTransaction, judged]
  split
  case h_4 r _ =>
    split
    case isTrue h => exact ⟨by simpa using h, hr'⟩
    case isFalse => exact ⟨hm, hr'⟩
  all_goals exact ⟨hm, hr'⟩

/-- The ports after the tick's events are as before them. -/
theorem tickFinished_ports (s : State) : s.tickFinished.ports = s.ports :=
  ((portsKept_actParts s).plainActLaw.toEventLaw.tickFinished s ⟨rfl, rfl⟩).1

theorem takeEvent_ports (e : TickEvent) (s : State) : (s.takeEvent e).ports = s.ports :=
  ((portsKept_actParts s).plainActLaw.toEventLaw.takeEvent e s ⟨rfl, rfl⟩).1

theorem portsLaw_congr {s t : State} (hs : s.portsLaw) (h : t.ports = s.ports) : t.portsLaw := by
  rw [State.portsLaw, h]; exact hs

/-- The ports that a command leaves before its answer: as the request taken left them, or emptied by RESTART (R163). -/
theorem carryOut_ports (c : Command) (p : Port) (params : List Byte) (t : State) :
    (carryOut c c.act p params t).state.ports = t.ports
      ∨ (carryOut c c.act p params t).state.ports = { t.ports with control := t.ports.control.flush } := by
  refine carryOut_keeps (P := fun u => u.ports = t.ports ∨ u.ports = { t.ports with control := t.ports.control.flush })
    (.inl rfl) ?_
  by_cases hc : c = .restart
  · subst hc; exact .inr rfl
  · exact .inl (act_quiet hc p params t).1

/-- An engine's turn: the port served had room for a response, and RESTART makes more (R170, R171). -/
theorem portsLaw_exec_row {c : Command} {s t : State} (hs : s.portsLaw) (h : exec c.row s = .next t) : t.portsLaw := by
  rcases exec_row_cases h with rfl | ⟨p, r, hr, -, rfl⟩
  · exact hs
  · obtain ⟨-, -, -, hroom⟩ := nextRequest_some hr
    -- the queues before the answer, with room in the one of the port served
    have taken : ∀ q, ((s.takeRequest p).ports.get q).bounded
        ∧ (q = p → ((s.takeRequest p).ports.get q).responses.length < 4) := by
      intro q
      rw [State.takeRequest_ports, PerPort.get_set]
      split
      case isTrue e =>
        subst e
        exact ⟨⟨by have := (hs q).1; rw [List.length_tail]; omega, (hs q).2⟩, fun _ => hroom⟩
      case isFalse e => exact ⟨hs q, fun h => absurd h e⟩
    have left : ∀ q, ((carryOut c c.act p r.params (s.takeRequest p)).state.ports.get q).bounded
        ∧ (q = p → ((carryOut c c.act p r.params (s.takeRequest p)).state.ports.get q).responses.length < 4) := by
      intro q
      rcases carryOut_ports c p r.params (s.takeRequest p) with e | e
      · rw [e]; exact taken q
      · rw [e]
        cases q with
        | control => exact ⟨⟨by simp [PerPort.get, LinkPort.flush], by simp [PerPort.get, LinkPort.flush]⟩,
            fun _ => by simp [PerPort.get, LinkPort.flush]⟩
        | supervisor => exact taken .supervisor
    refine portsLaw_setPort (fun q => (left q).1) ⟨(left p).1.1, ?_⟩
    have := (left p).2 rfl
    simp only [List.length_append, List.length_singleton]
    omega

/-- The rows that are not the engine's. -/
theorem portsLaw_exec (c : Instr) {s t : State} (hs : s.portsLaw) (h : exec c s = .next t) : t.portsLaw := by
  have empty (epoch : BitVec 4) (cause : ResetCause) (u : State) : (State.resetBlocks epoch cause u).portsLaw := by
    intro q
    cases q <;> exact ⟨Nat.zero_le _, Nat.zero_le _⟩
  have event (e : TickEvent) {u : State} (hu : u.portsLaw) : (u.takeEvent e).portsLaw := portsLaw_congr hu (takeEvent_ports e u)
  have row {k : Command} (hk : commandOfRow c = some k) : t.portsLaw := by
    rw [row_of_command hk] at h
    exact portsLaw_exec_row hs h
  cases c with
  | powerOn | powerLoss => cases h; exact empty _ _ _
  | resetRelease => cases h; exact hs
  | rstnReset n =>
    simp only [exec, execRstnReset] at h
    split at h
    · cases h; exact hs
    · split at h
      · cases h; exact hs
      · split at h
        · cases h; exact empty _ _ _
        · cases h; exact hs
  | transactionStart p =>
    simp only [exec, execTransactionStart] at h
    split at h
    · cases h; exact hs
    · split at h <;> (cases h; exact portsLaw_setPort hs (hs p))
  | transactionEnd p =>
    simp only [exec, execTransactionEnd] at h
    split at h
    · cases h; exact portsLaw_setPort hs (bounded_endTransaction (hs p) _)
    · cases h; exact portsLaw_setPort hs (hs p)
  | completeByteShifted p data =>
    simp only [exec, execCompleteByteShifted] at h
    split at h
    · cases h; exact portsLaw_setPort hs (hs p)
    · cases h; exact hs
  | tick feedback trips =>
    simp only [exec, execTick] at h
    split at h
    · cases h; exact portsLaw_congr hs (tickFinished_ports s)
    · cases h; exact hs
  | refclkPeriod =>
    simp only [exec, execRefclkPeriod] at h
    split at h
    · cases h; exact portsLaw_congr hs (tickFinished_ports s)
    · cases h; exact hs
  | leaseExpiry i | waitTimeout i | delayEnd i | quietEnd g | settleEnd o => cases h; exact event _ hs
  | filteredAssertion l => cases h; exact event _ (event _ hs)
  | onPhaseEnd i | cycleBoundary i =>
    simp only [exec, execOnPhaseEnd, execCycleBoundary] at h
    split at h
    · cases h; exact event _ hs
    · cases h; exact hs
  | _ => exact row rfl

/-- Settles O50: a request joins a mailbox below 4 alone, and the engine serves a port with room for a response alone (R169,
R171). -/
theorem portsLawKept : Obligations.PortsLawKept := by
  intro s t hs h
  simp only [step] at h
  split at h
  · cases h; exact hs
  case h_2 rest _ => exact portsLaw_exec (s := { s with pending := rest }) _ hs h

/-- Settles O11: no command but RESTART writes the ports, and RESTART, which the Control Port may not send, writes that port alone
(R163, R171, R172). -/
theorem engineAnswersEachRequestOnce : Obligations.EngineAnswersEachRequestOnce := by
  unfold Obligations.EngineAnswersEachRequestOnce
  intro s p r hr
  obtain ⟨-, -, hmail, -⟩ := nextRequest_some hr
  set c := commandOf r with hc
  set y := carryOut c c.act p r.params (s.takeRequest p) with hy
  -- the port served, before its answer
  have port : y.state.ports.get p = (s.takeRequest p).ports.get p := by
    by_cases hrestart : c = .restart
    · cases p with
      | supervisor =>
        rcases carryOut_ports c .supervisor r.params (s.takeRequest .supervisor) with e | e
        · rw [hy, e]
        · rw [hy, e]; rfl
      | control => rw [hy, carryOut, hrestart]; rfl
    · exact congrArg (PerPort.get · p) (carryOut_keeps (P := fun u => u.ports = (s.takeRequest p).ports) rfl
        (act_quiet hrestart p r.params _).1)
  have served : y.state.lastServed = p := by
    refine carryOut_keeps (P := fun u => u.lastServed = p) rfl ?_
    by_cases hrestart : c = .restart
    · rw [hrestart]
      show (s.takeRequest p).restart.lastServed = p
      rw [State.restart]
      exact State.letGo_lastServed _ fun o => ((s.takeRequest p).channel o).state.isHeld
    · exact (act_quiet hrestart p r.params _).2
  refine ⟨State.respond p r.tag y, { tag := r.tag, status := y.status, payload := y.payload }, ?_, rfl, served, ?_⟩
  · rw [exec_row_eq, engineStep_next _ hr rfl]
  · have answered : (State.respond p r.tag y).ports.get p =
        { (s.takeRequest p).ports.get p with
          responses := ((s.takeRequest p).ports.get p).responses ++ [{ tag := r.tag, status := y.status, payload := y.payload }] } := by
      rw [State.respond, ← port]
      exact PerPort.get_set_same _ _ _
    rw [answered, State.takeRequest_ports, PerPort.get_set_same]
    exact ⟨hmail, rfl, rfl, rfl⟩

end Sys2Proof.Machine
end

section
/-! PROOFS. Steps, resets, transactions and the arbiter of the engine (chapters 10 and 11). -/

set_option Elab.async false

namespace Sys2Proof.Machine

/-- Settles O1: by the definition of a step. -/
theorem stepRunsFrontCommand : Obligations.StepRunsFrontCommand := fun _ _ _ => rfl

/-! ## Resets -/

/-- Every kind is in the mask after a reset (R150). -/
theorem maskHas_reset (k : NoticeKind) : maskHas resetNotices.mask k = true := by
  cases k <;> decide

/-- A reset of the whole part brings every block to its power-on state (R22). -/
theorem resetBlocks_defaults (epoch : BitVec 4) (cause : ResetCause) (s : State) :
    (State.resetBlocks epoch cause s).defaults := by
  have slot (i : SlotNo) := resetBlocks_slot s epoch cause i
  have channel (o : OutputNo) : (State.resetBlocks epoch cause s).channel o = resetChannel := by
    show (Vector.replicate 16 _).get o = _
    rw [get_eq_getElem, Vector.getElem_replicate]
  refine ⟨rfl, rfl, rfl, fun i => by rw [slot]; exact ⟨rfl, rfl⟩, fun p => ?_, rfl, fun g => ?_, fun o => ?_, fun l => ?_,
    rfl, rfl, rfl, fun p => ?_, fun p => ?_, rfl, rfl⟩
  · exact List.countP_eq_zero.2 fun i _ => by rw [slot]; simp [SlotState.ownedBy, SlotState.record]
  · show (Vector.replicate 8 _).get g = _
    rw [get_eq_getElem, Vector.getElem_replicate]
  · rw [State.outputLine, channel]
    exact ⟨rfl, rfl, rfl, rfl, rfl, rfl, rfl⟩
  · show (Vector.replicate 4 _).get l = _
    rw [get_eq_getElem, Vector.getElem_replicate]
    rfl
  · cases p <;> exact ⟨rfl, maskHas_reset, rfl, rfl, rfl⟩
  · cases p <;> exact ⟨rfl, rfl, rfl, rfl, rfl⟩

/-- Settles O5: both rows are a reset of every block, with the supply set. -/
theorem supplyEventsResetEveryBlock : Obligations.SupplyEventsResetEveryBlock := by
  intro s
  exact ⟨⟨_, rfl, resetBlocks_defaults _ _ _, rfl, rfl, rfl, Bool.true_and _, rfl, rfl⟩,
    ⟨_, rfl, resetBlocks_defaults _ _ _, rfl, rfl, rfl, Bool.false_and _, rfl, rfl⟩⟩

/-- Settles O6: by the branches of RSTN_RESET. -/
theorem pinResetRaisesEpochOnce : Obligations.PinResetRaisesEpochOnce := by
  intro n s
  refine ⟨fun hn => ?_, fun hn hl => ?_, fun hn hl hp => ?_, ⟨_, rfl, rfl, Bool.and_true _⟩⟩
  · simp only [exec, execRstnReset, if_pos hn]
  · simp only [exec, execRstnReset, if_neg (Nat.not_lt.2 hn), hl, if_true]
  · refine ⟨State.resetBlocks (s.epoch + 1) .pin { s with rstnLow := true }, ?_, resetBlocks_defaults _ _ _, ?_, rfl, ?_, hp, rfl⟩
    · simp only [exec, execRstnReset, if_neg (Nat.not_lt.2 hn), hl, hp, if_true, Bool.false_eq_true, if_false]
    · exact BitVec.toNat_add _ _
    · exact Bool.and_false _

theorem nextRequest_none_of_not_working {s : State} (h : s.working = false) : s.nextRequest = none := by
  simp [State.nextRequest, State.servedPort, h]

/-- The engine's row where it takes no request (log entry 1). -/
theorem exec_row_idle {s : State} (h : s.nextRequest = none) (c : Command) : exec c.row s = .next s := by
  rw [exec_row_eq, engineStep, h]

theorem get_setPort_other (s : State) (p : Port) (x : LinkPort) :
    (s.setPort p x).ports.get (otherPort p) = s.ports.get (otherPort p) := PerPort.get_set_other _ p x

theorem get_setPort_same (s : State) (p : Port) (x : LinkPort) : (s.setPort p x).ports.get p = x := PerPort.get_set_same _ p x

/-- Settles O7: by the guards of the rows. -/
theorem resetHoldsThePartStill : Obligations.ResetHoldsThePartStill := by
  intro s hs
  refine ⟨fun _ _ => ?_, ?_, exec_row_idle (nextRequest_none_of_not_working hs), fun p => ?_⟩
  · simp only [exec, execTick, hs, Bool.false_eq_true, false_and, if_false]
  · simp only [exec, execRefclkPeriod, hs, Bool.false_eq_true, false_and, if_false]
  · cases hcs : (s.ports.get p).chipSelect with
    | true =>
      refine ⟨s, ?_, rfl, ?_, rfl⟩
      · simp only [exec, execTransactionStart, hcs, if_true]
      · rw [← hcs]
    | false =>
      refine ⟨s.setPort p { s.ports.get p with chipSelect := true }, ?_, rfl, get_setPort_same s p _, get_setPort_other s p _⟩
      simp only [exec, execTransactionStart, hcs, hs, Bool.false_eq_true, if_false]

/-! ## Transactions -/

/-- The bytes that a transaction sends are the header and the frame of the selected response (R167). -/
theorem outBytes_eq (x : Transaction) : x.outBytes = headerBytes x.header ++ x.selected.toList.flatMap responseFrame := by
  rw [Transaction.outBytes]
  cases x.selected <;> simp

theorem headerBytes_getD_zero (h : StatusHeader) (rest : List Byte) :
    some ((headerBytes h ++ rest).getD 0 0) = (headerBytes h).head? := rfl

/-- Settles O8: by the definitions of the two rows. -/
theorem transactionShiftsHeaderAndResponse : Obligations.TransactionShiftsHeaderAndResponse := by
  refine ⟨fun s p hw hcs => ?_, fun s p data x hx => ?_, fun s p data hx => ?_⟩
  · refine ⟨s.beginTransaction p, ?_, rfl, get_setPort_other s p _, ?_, ?_⟩
    · simp only [exec, execTransactionStart, hcs, hw, Bool.false_eq_true, if_false, if_true]
    · rw [State.beginTransaction, get_setPort_same, State.formHeader]
      have : (!(s.ports.get p).responses.isEmpty) = decide ((s.ports.get p).responses ≠ []) := by
        cases (s.ports.get p).responses <;> rfl
      rw [this]
    · rw [State.dataOut, State.beginTransaction, get_setPort_same, Option.map_some, Transaction.dataOut, outBytes_eq]
      exact headerBytes_getD_zero _ _
  · refine ⟨s.setPort p { s.ports.get p with transaction := some { x with received := x.received ++ [data] } }, ?_, rfl,
      get_setPort_other s p _, get_setPort_same s p _, ?_⟩
    · simp only [exec, execCompleteByteShifted, hx]
    · rw [State.dataOut, get_setPort_same, Option.map_some, Transaction.dataOut, outBytes_eq, List.length_append]
      rfl
  · simp only [exec, execCompleteByteShifted, hx]

/-- A response has been delivered where the bytes shifted cover its whole frame (R167). -/
theorem delivered_iff (x : Transaction) : x.delivered = true ↔
    x.selected.isSome ∧ (headerBytes x.header ++ x.selected.toList.flatMap responseFrame).length ≤ x.received.length := by
  simp [Transaction.delivered, outBytes_eq]

/-- The judgement of a transaction's bytes, in the order of R169. -/
theorem judgeBytes_eq (bs : List Byte) :
    judgeBytes bs =
      if bs = [] ∨ bs.head? = some 0 then .noRequest
      else if bs.length < 3 ∨ 32 < byteAt bs 2 ∨ bs.length < byteAt bs 2 + 4 then .badLength
      else if bs.getD (byteAt bs 2 + 3) 0 ≠ crc8 (bs.take (byteAt bs 2 + 3)) then .badCheck
      else .request { code := bs.getD 0 0, tag := bs.getD 1 0, params := (bs.drop 3).take (byteAt bs 2) } := by
  cases bs with
  | nil => rfl
  | cons code rest =>
    have hhead : (code :: rest = [] ∨ (code :: rest).head? = some 0) ↔ code = 0 := by simp
    rw [judgeBytes]
    simp only [hhead]
    refine if_congr Iff.rfl rfl (if_congr Iff.rfl rfl ?_)
    rw [ite_not]
    rfl

/-- Settles O9: by the cases of the judgement. -/
theorem transactionEndJudgesTheFrame : Obligations.TransactionEndJudgesTheFrame := by
  refine ⟨fun s p hx => ⟨s.setPort p { s.ports.get p with chipSelect := false }, ?_, rfl, get_setPort_other s p _,
    get_setPort_same s p _⟩, ?_⟩
  · simp only [exec, execTransactionEnd, hx]
  · rintro s p x n hx rfl
    have hexec : exec (.transactionEnd p) s = .next (s.setPort p ((s.ports.get p).endTransaction x)) := by
      simp only [exec, execTransactionEnd, hx]
    -- the port after the judgement, whatever it is
    have port (outcome : RequestOutcome) (joined : List Request)
        (h : (s.ports.get p).endTransaction x =
          { chipSelect := false
            transaction := none
            mailbox := (s.ports.get p).mailbox ++ joined
            responses := if x.delivered then (s.ports.get p).responses.tail else (s.ports.get p).responses
            outcome := outcome }) :
        (s.setPort p ((s.ports.get p).endTransaction x)).ports.get p =
          { chipSelect := false
            transaction := none
            mailbox := (s.ports.get p).mailbox ++ joined
            responses :=
              if x.selected.isSome ∧ (headerBytes x.header ++ x.selected.toList.flatMap responseFrame).length
                  ≤ x.received.length
              then (s.ports.get p).responses.tail else (s.ports.get p).responses
            outcome := outcome } := by
      rw [get_setPort_same, h]
      simp only [delivered_iff]
    have ending := judgeBytes_eq x.received
    split at ending
    case isTrue h1 =>
      refine ⟨_, .none, [], hexec, rfl, get_setPort_other s p _, port _ _ ?_, ?_⟩
      · simp only [LinkPort.endTransaction, ending, judged, List.append_nil]
      · rw [if_pos h1]; exact ⟨rfl, rfl⟩
    case isFalse h1 =>
      split at ending
      case isTrue h2 =>
        refine ⟨_, .badLength, [], hexec, rfl, get_setPort_other s p _, port _ _ ?_, ?_⟩
        · simp only [LinkPort.endTransaction, ending, judged, List.append_nil]
        · rw [if_neg h1, if_pos h2]; exact ⟨rfl, rfl⟩
      case isFalse h2 =>
        split at ending
        case isTrue h3 =>
          refine ⟨_, .badCheck, [], hexec, rfl, get_setPort_other s p _, port _ _ ?_, ?_⟩
          · simp only [LinkPort.endTransaction, ending, judged, List.append_nil]
          · rw [if_neg h1, if_neg h2, if_pos h3]; exact ⟨rfl, rfl⟩
        case isFalse h3 =>
          by_cases h4 : 4 ≤ (s.ports.get p).mailbox.length
          · refine ⟨_, .full, [], hexec, rfl, get_setPort_other s p _, port _ _ ?_, ?_⟩
            · simp only [LinkPort.endTransaction, ending, judged, List.append_nil, if_neg (Nat.not_lt.2 h4)]
            · rw [if_neg h1, if_neg h2, if_neg h3, if_pos h4]; exact ⟨rfl, rfl⟩
          · refine ⟨_, .accepted, [⟨x.received.getD 0 0, x.received.getD 1 0,
              (x.received.drop 3).take (byteAt x.received 2)⟩], hexec, rfl, get_setPort_other s p _, port _ _ ?_, ?_⟩
            · simp only [LinkPort.endTransaction, ending, judged, if_pos (Nat.lt_of_not_le h4)]
            · rw [if_neg h1, if_neg h2, if_neg h3, if_neg h4]; exact ⟨rfl, rfl⟩

/-! ## The arbiter -/

theorem qualifies_iff (s : State) (p : Port) :
    s.qualifies p = true ↔ (s.ports.get p).mailbox ≠ [] ∧ (s.ports.get p).responses.length < 4 := by
  simp [State.qualifies]

/-- The port served is the one that qualifies, and of two the one not served last (R171). -/
theorem servedPort_iff {s : State} (hw : s.working = true) (p : Port) : s.servedPort = some p ↔
    s.qualifies p = true ∧ (s.qualifies (otherPort p) = true → s.lastServed = otherPort p) := by
  simp only [State.servedPort, hw, if_true]
  cases hc : s.qualifies .control <;> cases hs : s.qualifies .supervisor <;> cases p <;> cases hl : s.lastServed <;>
    simp [otherPort, hc, hs]

/-- Settles O10: by the cases of who qualifies. -/
theorem engineAlternatesBetweenPorts : Obligations.EngineAlternatesBetweenPorts := by
  intro s q hw hq
  have hq' : ∀ p, q p ↔ s.qualifies p = true := fun p => (hq p).trans (qualifies_iff s p).symm
  refine ⟨fun p => ?_, fun p r => ?_, fun hnone c => exec_row_idle ?_ c⟩
  · rw [hq', hq']; exact servedPort_iff hw p
  · rw [State.nextRequest]
    cases hp : s.servedPort with
    | none => simp
    | some p' =>
      have head : (match (s.ports.get p').mailbox with | r :: _ => some (p', r) | [] => none) = some (p, r)
          ↔ p' = p ∧ (s.ports.get p').mailbox.head? = some r := by
        cases (s.ports.get p').mailbox <;> simp
      refine head.trans ?_
      rw [Option.some.injEq]
      exact and_congr_right fun e => by rw [e]
  · have : s.servedPort = none := by
      cases hp : s.servedPort with
      | none => rfl
      | some p => exact absurd ((hq' p).2 ((servedPort_iff hw p).1 hp).1) (hnone p)
    rw [State.nextRequest, this]

/-- Settles O49: reset is a state without held outputs, permits, requests and notices. -/
theorem resetStateIsLawful : Obligations.ResetStateIsLawful := by
  have slot (i : SlotNo) : State.reset.slot i = { generation := 0, state := .free } := resetBlocks_slot State.reset 0 .powerOn i
  have free (i : SlotNo) : (State.reset.slot i).state = .free := by rw [slot]
  have idle (o : OutputNo) : (State.reset.channel o).state.isHeld = false := by rw [(reset_channel o).1]; rfl
  refine ⟨fun p => by cases p <;> exact ⟨Nat.zero_le _, Nat.zero_le _⟩, quotaLaw_empty (Nat.le_of_ble_eq_true rfl) free, ?_,
    holdingLaw_empty free fun o => not_held_of_isHeld (idle o), driveLaw_empty fun o => ⟨idle o, (reset_channel o).2⟩,
    ⟨fun o _ => (reset_channel o).2, fun _ => ⟨free, idle⟩⟩, exclusionLaw_empty free idle, tripLaw_not_held idle,
    fun i => by rw [free]; trivial, noticeLaw_empty fun p => by cases p <;> rfl, chainLaw_empty free,
    (rangesLaw_iff _).2 ⟨reset_timeRanged, reset_blocksRanged⟩⟩
  exact ⟨List.nodup_nil, fun i => by rw [free]; exact ⟨nofun, nofun⟩⟩

end Sys2Proof.Machine
end

section
/-! PROOFS. How the engine's answer is read off a command's effect; and the commands that write one item, RENEW and RESTAGE
(R65 to R67, R87, R88, R158 to R161). -/

set_option Elab.async false

namespace Sys2Proof.Machine

/-! ## Answers -/

/-- A command that passes the checks of R172 leaves what its effect leaves, but for the ports, and is answered so. -/
theorem exec_answers {s : State} {p : Port} {r : Request} {c : Command} {u : State} {status : Status} {payload : List Byte}
    (h : s.carries p r c)
    (ha : c.act p r.params (s.takeRequest p) = { state := u, status := status, payload := payload })
    (hc : c ≠ .restart := by simp) :
    ∃ ports : PerPort LinkPort, exec c.row s = .next { u with ports := ports }
      ∧ s.answered { u with ports := ports } p r status payload := by
  have quiet := act_quiet hc p r.params (s.takeRequest p)
  refine ⟨(State.respond p r.tag { state := u, status := status, payload := payload }).ports, ?_, ?_⟩
  · rw [exec_row_eq, engineStep_carries c.act h, ha]
    rfl
  · exact respond_answered (x := { state := u, status := status, payload := payload }) (ha ▸ quiet)

/-- A command that refuses changes nothing but the ports. -/
theorem refuses {s : State} {p : Port} {r : Request} {c : Command} {status : Status} (h : s.carries p r c)
    (ha : c.act p r.params (s.takeRequest p) = refuse status (s.takeRequest p)) : s.onlyAnswers c p r status [] :=
  onlyAnswers_of_refuse c.act (exec_row_eq c s) h ha

/-- A command that answers without an effect changes nothing but the ports. -/
theorem answersOnly {s : State} {p : Port} {r : Request} {c : Command} {status : Status} {payload : List Byte}
    (h : s.carries p r c)
    (ha : c.act p r.params (s.takeRequest p) = { state := s.takeRequest p, status := status, payload := payload }) :
    s.onlyAnswers c p r status payload :=
  onlyAnswers_of_engineStep c.act (exec_row_eq c s) h ha rfl

/-! ## CONFIGURE -/

theorem inSetup_locked {k : State → Reply} {s : State} (hm : s.mode ≠ .setup) : inSetup k s = refuse .locked s := if_neg hm

theorem inSetup_setup {k : State → Reply} {s : State} (hm : s.mode = .setup) : inSetup k s = k s := if_pos hm

/-- Settles O31: a locked item passes its check in SETUP alone (R158). -/
theorem configureRefusesUnknownAndLocked : Obligations.ConfigureRefusesUnknownAndLocked := by
  refine fun s p r => ⟨fun h => refuses h rfl, fun c hc h hm => refuses h ?_⟩
  have hm' : (s.takeRequest p).mode ≠ .setup := hm
  simp only [List.mem_cons, List.not_mem_nil, or_false] at hc
  rcases hc with rfl | rfl | rfl | rfl | rfl | rfl
  · exact (inSetup_locked hm' : configureTickDividerAct p r.params (s.takeRequest p) = _)
  · exact (inSetup_locked hm' : configureOutputAct p r.params (s.takeRequest p) = _)
  · exact (inSetup_locked hm' : configureGroupAct p r.params (s.takeRequest p) = _)
  · exact (inSetup_locked hm' : configureTripAct p r.params (s.takeRequest p) = _)
  · exact inSetup_locked (k := fun t => accept { t with reserved := BitVec.ofNat 16 (wordAt r.params 1) }) hm'
  · exact (inSetup_locked hm' : configureQuotaAct p r.params (s.takeRequest p) = _)

/-- Settles O34: each item in its range is written, and each out of it is refused (R9, R160, R161). -/
theorem configureWritesTheStore : Obligations.ConfigureWritesTheStore := by
  intro s p r hm
  have hm' : (s.takeRequest p).mode = .setup := hm
  refine ⟨fun h => ⟨fun hd => refuses h ?_, fun hd => ?_⟩, fun h => ?_,
    fun h => ⟨fun hq => refuses h ?_, fun q hq => ⟨fun hbad => refuses h ?_, fun h1 h2 h3 => ?_⟩⟩⟩
  · simp only [Command.act, configureTickDividerAct, inSetup_setup hm', if_pos hd]
  · have act : configureTickDividerAct p r.params (s.takeRequest p)
        = accept { s.takeRequest p with tickDivider := wordAt r.params 1, dividerCount := 0 } := by
      simp only [configureTickDividerAct, inSetup_setup hm', if_neg (Nat.not_lt.2 hd)]
    obtain ⟨ports, he, ha⟩ := exec_answers h act
    exact ⟨_, he, ha, rfl⟩
  · obtain ⟨ports, he, ha⟩ := exec_answers h
      (inSetup_setup (k := fun t => accept { t with reserved := BitVec.ofNat 16 (wordAt r.params 1) }) hm')
    exact ⟨_, he, ha, rfl⟩
  · simp only [Command.act, configureQuotaAct, inSetup_setup hm', portOfCode_eq_none hq]
  · simp only [Command.act, configureQuotaAct, inSetup_setup hm', hq, portOfCode_portCode]
    exact if_pos hbad
  · have act : configureQuotaAct p r.params (s.takeRequest p)
        = accept { s.takeRequest p with quota := s.quota.set q (byteAt r.params 2) } := by
      simp only [configureQuotaAct, inSetup_setup hm', hq, portOfCode_portCode, takeRequest_usedCount]
      exact if_neg (not_or.2 ⟨Nat.not_lt.2 h1, not_or.2 ⟨Nat.not_lt.2 h2, Nat.not_lt.2 h3⟩⟩)
    obtain ⟨ports, he, ha⟩ := exec_answers h act
    exact ⟨_, he, ha, PerPort.get_set_same _ q _, PerPort.get_set_other _ q _, rfl⟩

/-- The bits of a NOTICE_MASK are those of the byte that sets it (R147). -/
theorem maskHas_ofNat (n : Nat) (k : NoticeKind) : maskHas (BitVec.ofNat 5 n) k = n.testBit (noticeKindCode k - 1) := by
  rw [maskHas, BitVec.getLsbD_ofNat, decide_eq_true (by cases k <;> decide), Bool.true_and]

theorem noticeKindOfCode_code (k : NoticeKind) : noticeKindOfCode (noticeKindCode k) = some k := by cases k <;> rfl

/-- Settles O35: each writes one field of one port's unit (R147, R148). -/
theorem configureNoticesInEveryMode : Obligations.ConfigureNoticesInEveryMode := by
  refine fun s p r => ⟨fun h => ⟨fun hbad => refuses h ?_, fun q hq hv => ?_⟩,
    fun h => ⟨fun hbad => refuses h ?_, fun q hq hv => ?_⟩⟩
  · simp only [Command.act, configureNoticeMaskAct]
    split
    · rfl
    case h_2 q hq => exact if_pos (hbad.resolve_left fun h1 => by rw [portOfCode_eq_none h1] at hq; cases hq)
  · have act : configureNoticeMaskAct p r.params (s.takeRequest p) = accept ((s.takeRequest p).setNotices q
        ((s.notices.get q).applyMask (BitVec.ofNat 5 (byteAt r.params 2)))) := by
      simp only [configureNoticeMaskAct, hq, portOfCode_portCode]
      exact if_neg (Nat.not_lt.2 hv)
    obtain ⟨ports, he, ha⟩ := exec_answers h act
    refine ⟨_, he, ha, fun k => ?_, ?_, ?_⟩
    all_goals simp only [State.setNotices_notices, PerPort.get_set_same, NoticeUnit.applyMask, maskHas_ofNat]
    -- the statement's filter also asks, of each entry, what holds of the whole part
    refine List.filter_congr fun e _ => ?_
    rw [Bool.eq_iff_iff, decide_eq_true_iff]
    exact (and_iff_left ⟨PerPort.get_set_other _ q _, rfl⟩).symm
  · simp only [Command.act, configureNoticePromoteAct]
    split
    · rfl
    case h_2 q hq => exact if_pos (hbad.resolve_left fun h1 => by rw [portOfCode_eq_none h1] at hq; cases hq)
  · have act : configureNoticePromoteAct p r.params (s.takeRequest p) = accept ((s.takeRequest p).setNotices q
        { s.notices.get q with promoted := noticeKindOfCode (byteAt r.params 2) }) := by
      simp only [configureNoticePromoteAct, hq, portOfCode_portCode]
      exact if_neg (Nat.not_lt.2 hv)
    obtain ⟨ports, he, ha⟩ := exec_answers h act
    refine ⟨_, he, ha, fun h0 => ?_, fun k hk => ?_, ?_, ?_, PerPort.get_set_other _ q _, rfl⟩
    all_goals simp only [State.setNotices_notices, PerPort.get_set_same]
    · rw [h0]; rfl
    · rw [hk, noticeKindOfCode_code]

/-! ## CONFIGURE of GROUP and OUTPUT -/

theorem polarityOfCode_code (pol : Polarity) : polarityOfCode (polarityCode pol) = some pol := by cases pol <;> rfl

theorem polarityOfCode_eq_none {n : Nat} (h : 1 < n) : polarityOfCode n = none := by
  match n, h with
  | n + 2, _ => rfl

/-- A level read in a polarity is the same level where the polarity is the same one, and the other where it is not (R112). -/
theorem levelOfInput_electrical (pol pol' : Polarity) (lvl : Level) :
    levelOfInput pol (electrical pol' lvl) = lvl ↔ pol = pol' := by
  cases pol <;> cases pol' <;> cases lvl <;> decide

/-- What a channel at OFF level reads after a CONFIGURE of it (R114, log entry 22). -/
theorem configured_reads {s t : State} {o : OutputNo} {pol : Polarity} {settle : Nat} (off : (s.channel o).expected = .off)
    (ht : t.channel o = (s.channel o).configure pol settle (decide (TickEvent.settle o ∈ s.due))) :
    (t.channel o).polarity = pol ∧ (t.channel o).settleTime = settle
      ∧ (t.channel o).state = (s.channel o).state ∧ (t.channel o).expected = .off
      ∧ (TickEvent.settle o ∉ s.due → (t.channel o).feedback = (s.channel o).feedback)
      ∧ (TickEvent.settle o ∈ s.due → ((t.channel o).feedback = (s.channel o).feedback ↔ pol = (s.channel o).polarity))
      ∧ t.outputLine o = electrical pol .off
      ∧ ((s.channel o).state = .idle →
          (t.channel o).supervision = if settle = 0 then .unsupervised else .settling settle)
      ∧ ((s.channel o).state = .faulted → (t.channel o).supervision = (s.channel o).supervision) := by
  rw [State.outputLine, ht]
  refine ⟨rfl, rfl, rfl, off, fun hd => ?_, fun hd => ?_, ?_, fun hi => ?_, fun hf => ?_⟩
  · simp [Channel.configure, hd]
  · simp only [Channel.configure, hd, decide_true, if_true]
    exact levelOfInput_electrical _ _ _
  · simp only [Channel.configure, off]
  · simp [Channel.configure, hi, freshSupervision]
  · simp [Channel.configure, hf]

/-- Settles O32: in SETUP an output is IDLE or FAULTED, and at its OFF level (R152). -/
theorem configureGroupAndOutput : Obligations.ConfigureGroupAndOutput := by
  refine ⟨fun s p r h hm => ⟨fun hbad => refuses h ?_, fun g hg hd => ?_⟩,
    fun s p r h hm hlaw => ⟨fun hbad => refuses h ?_, fun o pol ho hp => ?_⟩⟩ <;>
  have hm' : (s.takeRequest p).mode = .setup := hm
  · simp only [Command.act, configureGroupAct, inSetup_setup hm']
    split
    · rfl
    case h_2 g hg => exact if_pos (hbad.resolve_left fun h1 => by rw [groupOf_eq_none h1] at hg; cases hg)
  · have act : configureGroupAct p r.params (s.takeRequest p) = accept ((s.takeRequest p).setGroup g
        { s.group g with members := BitVec.ofNat 16 (wordAt r.params 2), deadTime := wordAt r.params 4 }) := by
      simp only [configureGroupAct, inSetup_setup hm', hg, groupOf_val]
      exact if_neg (Nat.not_lt.2 hd)
    obtain ⟨ports, he, ha⟩ := exec_answers h act
    exact ⟨_, he, ha, (State.setGroup_group (s.takeRequest p) g _ g).trans (if_pos rfl),
      fun g' hg' => (State.setGroup_group (s.takeRequest p) g _ g').trans (if_neg hg'), rfl⟩
  · simp only [Command.act, configureOutputAct, inSetup_setup hm']
    split
    case h_1 o pol ho hp =>
      rcases hbad with h1 | h1
      · rw [outputOf_eq_none h1] at ho; cases ho
      · rw [polarityOfCode_eq_none h1] at hp; cases hp
    all_goals rfl
  · have act : configureOutputAct p r.params (s.takeRequest p) = accept ((s.takeRequest p).setChannel o
        ((s.channel o).configure pol (byteAt r.params 3) (decide (TickEvent.settle o ∈ s.due)))) := by
      simp only [configureOutputAct, inSetup_setup hm', ho, outputOf_val, hp, polarityOfCode_code]
      rfl
    obtain ⟨ports, he, ha⟩ := exec_answers h act
    have off : (s.channel o).expected = .off := hlaw.1 o ((hlaw.2 hm).2 o)
    obtain ⟨h1, h2, h3, h4, h5, h6, h7, h8, h9⟩ := configured_reads (o := o) (pol := pol) (settle := byteAt r.params 3) off
      (t := { (s.takeRequest p).setChannel o ((s.channel o).configure pol (byteAt r.params 3)
          (decide (TickEvent.settle o ∈ s.due))) with ports := ports })
      ((State.setChannel_channel (s.takeRequest p) o _ o).trans (if_pos rfl))
    exact ⟨_, he, ha, h1, h2, h3, h4, h5, h6, h7.trans (by cases pol <;> rfl), h8, h9,
      fun o' ho' => (State.setChannel_channel (s.takeRequest p) o _ o').trans (if_neg ho'), rfl⟩

end Sys2Proof.Machine
end

section
/-! PROOFS. CONFIGURE of TRIP, and the commands that name a handle: their refusals, RENEW and RESTAGE (R6, R65 to R67, R87,
R88, R130). -/

set_option Elab.async false

namespace Sys2Proof.Machine

/-! ## CONFIGURE of TRIP -/

/-- A scan where no slot is WAITING passes every entry over (R36). -/
theorem scan_of_no_waiting {s : State} (h : ∀ i : SlotNo, (s.slot i).state = .free) : s.scan = s := by
  have walk : s.walkQueue = { part := s, waiting := [], granted := [] } := by
    unfold State.walkQueue
    induction s.waitQueue with
    | nil => rfl
    | cons i rest ih =>
      have entry : scanEntry { part := s, waiting := [], granted := [] } i = { part := s, waiting := [], granted := [] } := by
        rw [scanEntry, h i]
      rw [List.foldl_cons, entry, ih]
  rw [State.scan, walk]
  rfl

theorem activeLevelOfCode_code (e : Electrical) : activeLevelOfCode (activeLevelCode e) = some e := by cases e <;> rfl

theorem activeLevelOfCode_eq_none {n : Nat} (h : 1 < n) : activeLevelOfCode n = none := by
  match n, h with
  | n + 2, _ => rfl

/-- Settles O33: no permit waits in SETUP, so the scan of a latch cleared grants nothing (R130, R152). -/
theorem configureTripActsOnCountAndLatch : Obligations.ConfigureTripActsOnCountAndLatch := by
  intro s p r h hm hlaw
  have hm' : (s.takeRequest p).mode = .setup := hm
  refine ⟨fun hbad => refuses h ?_, fun l level hl hlevel h1 h15 => ?_⟩
  · simp only [Command.act, configureTripAct, inSetup_setup hm']
    split
    case h_1 l level hl hlevel =>
      refine if_pos ?_
      rcases hbad with hb | hb | hb
      · rw [lineOf_eq_none hb] at hl; cases hl
      · rw [activeLevelOfCode_eq_none hb] at hlevel; cases hlevel
      · exact hb
    all_goals rfl
  · have act : configureTripAct p r.params (s.takeRequest p) = accept ((s.takeRequest p).setLine l ((s.line l).configure
        (decide (byteAt r.params 2 ≠ 0)) level (byteAt r.params 4) (BitVec.ofNat 16 (wordAt r.params 5)))) := by
      simp only [configureTripAct, inSetup_setup hm', hl, lineOf_val, hlevel, activeLevelOfCode_code]
      rw [if_neg (not_or.2 ⟨Nat.ne_of_gt h1, Nat.not_lt.2 h15⟩)]
      split
      · exact congrArg accept (scan_of_no_waiting (hlaw.2 hm).1)
      · rfl
    obtain ⟨ports, he, ha⟩ := exec_answers h act
    have line : ({ (s.takeRequest p).setLine l ((s.line l).configure (decide (byteAt r.params 2 ≠ 0)) level
        (byteAt r.params 4) (BitVec.ofNat 16 (wordAt r.params 5))) with ports := ports } : State).line l
        = (s.line l).configure (decide (byteAt r.params 2 ≠ 0)) level (byteAt r.params 4)
            (BitVec.ofNat 16 (wordAt r.params 5)) := (State.setLine_line (s.takeRequest p) l _ l).trans (if_pos rfl)
    refine ⟨_, he, ha, ?_⟩
    rw [line]
    refine ⟨rfl, rfl, rfl, rfl, fun hd => ?_, fun hen hz => ?_,
      fun l' hl' => (State.setLine_line (s.takeRequest p) l _ l').trans (if_neg hl'), rfl⟩
    · rcases hd with hd | hd <;> simp [TripLine.configure, hd]
    · simp [TripLine.configure, hen, hz]

/-! ## The checks on a handle -/

/-- A handle that names a permit the sender may not use is refused NOT_OWNER (R6). -/
theorem withPermit_notOwner {s : State} {h : Handle} {mayUse : Permit → Bool} {k : Permit → Reply} {q : Permit}
    (hh : s.handle h.slot = h) (hq : (s.slot h.slot).state.record = some q) (hm : mayUse q = false) :
    withPermit s h mayUse k = refuse .notOwner s := by
  rw [withPermit_eq s h mayUse k q hh hq, hm]; rfl

/-- A handle that names a permit the sender may use lets the command go on (R6). -/
theorem withPermit_may {s : State} {h : Handle} {mayUse : Permit → Bool} {k : Permit → Reply} {q : Permit}
    (hh : s.handle h.slot = h) (hq : (s.slot h.slot).state.record = some q) (hm : mayUse q = true) :
    withPermit s h mayUse k = k q := by
  rw [withPermit_eq s h mayUse k q hh hq, hm, if_pos rfl]

theorem ownerOnly_iff {p : Port} {q : Permit} : ownerOnly p q = true ↔ q.owner = p := decide_eq_true_iff

theorem ownerOrSupervisor_iff {p : Port} {q : Permit} : ownerOrSupervisor p q = true ↔ q.owner = p ∨ p = .supervisor := by
  simp [ownerOrSupervisor]

/-- The commands that name a handle, with the owner check that R6 gives each. -/
theorem act_stale {c : Command} {p : Port} {params : List Byte} {t : State}
    (hc : c ∈ [Command.release, .renew, .restage, .retire, .query, .revoke])
    (ht : t.handle (handleAt params 0).slot ≠ handleAt params 0 ∨ (t.slot (handleAt params 0).slot).state = .free) :
    c.act p params t = refuse .stale t := by
  simp only [List.mem_cons, List.not_mem_nil, or_false] at hc
  rcases hc with rfl | rfl | rfl | rfl | rfl | rfl <;> exact withPermit_stale t _ _ _ ht

/-- RELEASE, RENEW and RESTAGE are the owner's alone (R6). -/
theorem act_notOwner {c : Command} {p : Port} {params : List Byte} {t : State} {q : Permit}
    (hc : c ∈ [Command.release, .renew, .restage]) (hh : t.handle (handleAt params 0).slot = handleAt params 0)
    (hq : (t.slot (handleAt params 0).slot).state.record = some q) (ho : q.owner ≠ p) :
    c.act p params t = refuse .notOwner t := by
  have hm : ownerOnly p q = false := decide_eq_false ho
  simp only [List.mem_cons, List.not_mem_nil, or_false] at hc
  rcases hc with rfl | rfl | rfl <;> exact withPermit_notOwner hh hq hm

/-- RETIRE and QUERY are the owner's and the Supervisor Port's (R6). -/
theorem act_notOwnerOrSupervisor {c : Command} {params : List Byte} {t : State} {q : Permit}
    (hc : c ∈ [Command.retire, .query]) (hh : t.handle (handleAt params 0).slot = handleAt params 0)
    (hq : (t.slot (handleAt params 0).slot).state.record = some q) (ho : q.owner ≠ .control) :
    c.act .control params t = refuse .notOwner t := by
  have hm : ownerOrSupervisor .control q = false := Bool.eq_false_iff.2 fun h => by
    simpa [ho] using ownerOrSupervisor_iff.1 h
  simp only [List.mem_cons, List.not_mem_nil, or_false] at hc
  rcases hc with rfl | rfl <;> exact withPermit_notOwner hh hq hm

/-- RELEASE, RENEW, RESTAGE and REVOKE refuse a CLOSED permit (R15, R19, R65, R87). -/
theorem act_closed {c : Command} {p : Port} {params : List Byte} {t : State} {q : Permit} {cause : Closure}
    (hc : c ∈ [Command.release, .renew, .restage, .revoke]) (hh : t.handle (handleAt params 0).slot = handleAt params 0)
    (hs : (t.slot (handleAt params 0).slot).state = .closed q cause) (ho : q.owner = p ∨ c = .revoke) :
    c.act p params t = refuse .wrongState t := by
  have hq : (t.slot (handleAt params 0).slot).state.record = some q := by rw [hs]; rfl
  have may (hc : c ≠ .revoke) : ownerOnly p q = true := ownerOnly_iff.2 (ho.resolve_right hc)
  simp only [List.mem_cons, List.not_mem_nil, or_false] at hc
  rcases hc with rfl | rfl | rfl | rfl
  · exact (withPermit_may hh hq (may (by decide))).trans (by simp only [hs])
  · exact (withPermit_may hh hq (may (by decide))).trans (by simp only [hs])
  · exact (withPermit_may hh hq (may (by decide))).trans (by simp only [hs])
  · exact (withPermit_may (mayUse := anyOwner) hh hq rfl).trans (by simp only [hs])

/-- RETIRE refuses a permit that is not CLOSED (R16). -/
theorem retireAct_wrongState {p : Port} {params : List Byte} {t : State} {q : Permit}
    (hh : t.handle (handleAt params 0).slot = handleAt params 0)
    (hq : (t.slot (handleAt params 0).slot).state.record = some q)
    (hs : ∀ cause, (t.slot (handleAt params 0).slot).state ≠ .closed q cause) (ho : q.owner = p ∨ p = .supervisor) :
    retireAct p params t = refuse .wrongState t := by
  refine (withPermit_may hh hq (ownerOrSupervisor_iff.2 ho)).trans ?_
  cases hst : (t.slot (handleAt params 0).slot).state with
  | free => rw [hst] at hq; cases hq
  | closed q' cause =>
    rw [hst] at hq
    cases hq
    exact absurd hst (hs cause)
  | waiting _ _ => rfl
  | armed _ _ => rfl
  | live _ _ => rfl

/-- RENEW and RESTAGE refuse a permit that is not LIVE (R65, R87). -/
theorem act_notLive {c : Command} {p : Port} {params : List Byte} {t : State} {q : Permit}
    (hc : c ∈ [Command.renew, .restage]) (hh : t.handle (handleAt params 0).slot = handleAt params 0)
    (hq : (t.slot (handleAt params 0).slot).state.record = some q)
    (hs : ∀ run, (t.slot (handleAt params 0).slot).state ≠ .live q run) (ho : q.owner = p) :
    c.act p params t = refuse .wrongState t := by
  have may : ownerOnly p q = true := ownerOnly_iff.2 ho
  simp only [List.mem_cons, List.not_mem_nil, or_false] at hc
  rcases hc with rfl | rfl <;> refine (withPermit_may hh hq may).trans ?_ <;>
  · cases hst : (t.slot (handleAt params 0).slot).state with
    | free => rw [hst] at hq; cases hq
    | live q' run =>
      rw [hst] at hq
      cases hq
      exact absurd hst (hs run)
    | waiting _ _ => rfl
    | armed _ _ => rfl
    | closed _ _ => rfl

/-- Settles O19: each command makes the checks of R6 in their order. -/
theorem handleCommandsRefuseInOrder : Obligations.HandleCommandsRefuseInOrder := by
  rintro s p r c h hcar rfl hc
  refine ⟨fun hst => refuses hcar (act_stale hc hst), fun q hh hq => ⟨fun hc ho => refuses hcar (act_notOwner hc hh hq ho),
    fun hc ho hp => ?_, fun cause hs ho hc => refuses hcar (act_closed hc hh hs ho), fun hs ho hc => ?_,
    fun hs ho hc => refuses hcar (act_notLive hc hh hq hs ho)⟩⟩
  · subst hp
    exact refuses hcar (act_notOwnerOrSupervisor hc hh hq ho)
  · subst hc
    exact refuses hcar (retireAct_wrongState hh hq hs ho)

/-! ## RENEW and RESTAGE -/

/-- RENEW of a LIVE permit by its owner (R65, R66). -/
theorem renewAct_live {p : Port} {params : List Byte} {t : State} {q : Permit} {run : RunPart}
    (hh : t.handle (handleAt params 0).slot = handleAt params 0)
    (hs : (t.slot (handleAt params 0).slot).state = .live q run) (ho : q.owner = p) :
    renewAct p params t = renewLive (handleAt params 0).slot q run t :=
  (withPermit_may hh (by rw [hs]; rfl) (ownerOnly_iff.2 ho)).trans (by simp only [hs])

/-- RESTAGE of a LIVE permit by its owner (R87, R88). -/
theorem restageAct_live {p : Port} {params : List Byte} {t : State} {q : Permit} {run : RunPart}
    (hh : t.handle (handleAt params 0).slot = handleAt params 0)
    (hs : (t.slot (handleAt params 0).slot).state = .live q run) (ho : q.owner = p) :
    restageAct p params t = restageLive (handleAt params 0).slot q run (wordAt params 2) (wordAt params 4) t :=
  (withPermit_may hh (by rw [hs]; rfl) (ownerOnly_iff.2 ho)).trans (by simp only [hs])

/-- Settles O29: by the lease remaining and the renew guard (R65, R67). -/
theorem renewSetsTheFullLease : Obligations.RenewSetsTheFullLease := by
  rintro s p r h q run hcar rfl hh hs ho
  have act : renewAct p r.params (s.takeRequest p) = renewLive (handleAt r.params 0).slot q run (s.takeRequest p) :=
    renewAct_live (t := s.takeRequest p) hh hs ho
  refine ⟨fun hn => refuses hcar (act.trans ?_), fun n g hn hg hlt => answersOnly hcar (act.trans ?_), fun n hn hg => ?_⟩
  · simp only [renewLive, hn]
  · simp [renewLive, hn, hg, guardOpen, Nat.not_le.2 hlt, optField]
  · have guard : guardOpen q.renewGuard n = true := by
      cases hq : q.renewGuard with
      | none => rfl
      | some g => exact decide_eq_true (hg g hq)
    have act' : renewAct p r.params (s.takeRequest p)
        = { state := (s.takeRequest p).countSlot (handleAt r.params 0).slot (.live q { run with leaseRemaining := some q.lease })
            status := .ok
            payload := wordOf q.lease } := by
      rw [act]; simp only [renewLive, hn, guard, if_true]
    obtain ⟨ports, he, ha⟩ := exec_answers hcar act'
    exact ⟨_, he, ha, (State.countSlot_slot (s.takeRequest p) _ _ _).trans (if_pos rfl),
      fun j hj => (State.countSlot_slot (s.takeRequest p) _ _ j).trans (if_neg hj), rfl⟩

/-- Settles O30: by the pattern, the phase and the durations (R87, R88). -/
theorem restageStagesThePair : Obligations.RestageStagesThePair := by
  rintro s p r h q run on off hcar rfl rfl rfl hh hs ho
  have act : restageAct p r.params (s.takeRequest p) = restageLive (handleAt r.params 0).slot q run (wordAt r.params 2)
      (wordAt r.params 4) (s.takeRequest p) := restageAct_live (t := s.takeRequest p) hh hs ho
  refine ⟨fun hw => refuses hcar (act.trans (if_pos ?_)), fun hpat hph => ?_⟩
  · rcases hw with hw | ⟨n, hw⟩ | hw
    · exact .inl (by rw [hw]; rfl)
    · exact .inl (by rw [hw]; rfl)
    · exact .inr hw
  · have hcyc : q.pattern.cycles = true := by
      obtain ⟨a, b, hp | ⟨k, hp⟩⟩ := hpat <;> rw [hp] <;> rfl
    have runs : ¬ (q.pattern.cycles = false ∨ run.phase = .done) := not_or.2 ⟨by rw [hcyc]; simp, hph⟩
    refine ⟨fun hz => refuses hcar (act.trans ((if_neg runs).trans (if_pos hz))), fun h1 h2 => ?_⟩
    have act' : restageAct p r.params (s.takeRequest p)
        = { state := (s.takeRequest p).countSlot (handleAt r.params 0).slot
              (.live q { run with staged := some (wordAt r.params 2, wordAt r.params 4) })
            status := if run.staged = none then .ok else .replaced
            payload := byteOf (match run.phase with | .on => 0 | .off => 1 | .done => 2)
                ++ wordOf (run.phaseRemaining.getD 0) ++ byteOf (run.cyclesRemaining.getD 0) } := by
      rw [act, restageLive, if_neg runs, if_neg (not_or.2 ⟨h1, h2⟩)]
      cases run.staged <;> cases run.phase <;> rfl
    obtain ⟨ports, he, ha⟩ := exec_answers hcar act'
    exact ⟨_, he, ha, (State.countSlot_slot (s.takeRequest p) _ _ _).trans (if_pos rfl),
      fun j hj => (State.countSlot_slot (s.takeRequest p) _ _ j).trans (if_neg hj), rfl⟩

end Sys2Proof.Machine
end

section
/-! PROOFS. The reports: READ_NOTICE, FIND, LIST and QUERY (R17, R18, R125, R145, R182 to R185). -/

set_option Elab.async false

namespace Sys2Proof.Machine

/-! ## READ_NOTICE -/

/-- The places of a kind stand together, in the order of the kinds (R145). -/
theorem place_of_kind (n : Notice) :
    (noticeKindCode n.kind - 1) * 65536 ≤ n.place ∧ n.place < noticeKindCode n.kind * 65536 := by
  have permit (h : Handle) : h.slot.val * 2048 + h.generation.toNat * 16 + h.epoch.toNat < 65536 := by
    have := h.slot.isLt
    have := h.generation.isLt
    have := h.epoch.isLt
    omega
  cases n with
  | trip l => simp only [Notice.kind, Notice.place, noticeKindCode]; omega
  | fault o => simp only [Notice.kind, Notice.place, noticeKindCode]; omega
  | closed h => have := permit h; simp only [Notice.kind, Notice.place, noticeKindCode]; omega
  | granted h => have := permit h; simp only [Notice.kind, Notice.place, noticeKindCode]; omega
  | completed h => have := permit h; simp only [Notice.kind, Notice.place, noticeKindCode]; omega

theorem place_lt_of_kind {m m' : Notice} (h : noticeKindCode m.kind < noticeKindCode m'.kind) : m.place < m'.place := by
  have h1 := (place_of_kind m).2
  have h2 := (place_of_kind m').1
  omega

/-- Within a permit kind, the notices of a lower slot stand first (R145). -/
theorem handle_place_lt {h h' : Handle} (hs : h.slot.val < h'.slot.val) :
    ∀ n : Nat, n + h.slot.val * 2048 + h.generation.toNat * 16 + h.epoch.toNat
      < n + h'.slot.val * 2048 + h'.generation.toNat * 16 + h'.epoch.toNat := by
  intro n
  have := h.generation.isLt
  have := h.epoch.isLt
  omega

/-- The first entry of an ordered list with a property has the least place of those that have it. -/
theorem find_place_le {es : List NoticeEntry} {check : NoticeEntry → Bool} {e e' : NoticeEntry} (ho : Ordered es)
    (h : es.find? check = some e) (he' : e' ∈ es) (hc : check e' = true) : e.notice.place ≤ e'.notice.place := by
  obtain ⟨_, before, after, rfl, hb⟩ := List.find?_eq_some_iff_append.1 h
  rcases List.mem_append.1 he' with he' | he'
  · exact absurd hc (by simpa using hb e' he')
  · rcases List.mem_cons.1 he' with rfl | he'
    · exact Nat.le_refl _
    · exact Nat.le_of_lt (List.rel_of_pairwise_cons (List.pairwise_append.1 ho).2.1 he')

theorem head_place_le {es : List NoticeEntry} {e e' : NoticeEntry} (ho : Ordered es) (h : es.head? = some e) (he' : e' ∈ es) :
    e.notice.place ≤ e'.notice.place := by
  cases es with
  | nil => cases h
  | cons x rest =>
    cases h
    rcases List.mem_cons.1 he' with rfl | he'
    · exact Nat.le_refl _
    · exact Nat.le_of_lt (List.rel_of_pairwise_cons ho he')

/-- READ_NOTICE selects the first entry of the promoted kind, and where there is none the first of all (R145). -/
theorem first_spec {u : NoticeUnit} (ho : Ordered u.entries) (hne : u.entries ≠ []) :
    ∃ e, u.first = some e ∧ e ∈ u.entries
      ∧ ((∃ k, u.promoted = some k ∧ e.notice.kind = k
            ∧ ∀ e' ∈ u.entries, e'.notice.kind = k → e.notice.place ≤ e'.notice.place)
          ∨ (∀ e' ∈ u.entries, u.promoted ≠ some e'.notice.kind) ∧ ∀ e' ∈ u.entries, e.notice.place ≤ e'.notice.place) := by
  obtain ⟨e, he⟩ : ∃ e, u.entries.head? = some e := ⟨_, List.head?_eq_some_head hne⟩
  have least : ∀ e' ∈ u.entries, e.notice.place ≤ e'.notice.place := fun _ => head_place_le ho he
  cases hp : u.promoted with
  | none =>
    exact ⟨e, by simp only [NoticeUnit.first, hp, he], List.mem_of_mem_head? he, .inr ⟨by simp, least⟩⟩
  | some k =>
    cases hf : u.entries.find? (fun e => decide (e.notice.kind = k)) with
    | some x =>
      refine ⟨x, by simp only [NoticeUnit.first, hp, hf], List.mem_of_find?_eq_some hf, .inl ⟨k, rfl, ?_, ?_⟩⟩
      · simpa using List.find?_some hf
      · exact fun e' he' hk => find_place_le ho hf he' (decide_eq_true hk)
    | none =>
      refine ⟨e, by simp only [NoticeUnit.first, hp, hf, he], List.mem_of_mem_head? he, .inr ⟨fun e' he' hk => ?_, least⟩⟩
      have := List.find?_eq_none.1 hf e' he'
      rw [Option.some.injEq] at hk
      simp [hk] at this

/-- Settles O28: by the order in which a set is kept (R145). -/
theorem readNoticeTakesTheFirstEntry : Obligations.ReadNoticeTakesTheFirstEntry := by
  refine ⟨fun m m' => ⟨place_lt_of_kind, ?_, ?_, ?_⟩, fun s p => ?_, fun s p r hcar hlaw => ⟨fun hnil => ?_, fun hne => ?_⟩⟩
  · rintro l l' rfl rfl h
    exact h
  · rintro o o' rfl rfl h
    simp only [Notice.place]
    omega
  · intro h h' hs hm
    rcases hm with ⟨rfl, rfl⟩ | ⟨rfl, rfl⟩ | ⟨rfl, rfl⟩ <;> exact handle_place_lt hs _
  · rw [State.attentionLine, State.attention]
    cases (s.notices.get p).entries <;> simp
  · have none : ((s.takeRequest p).notices.get p).first = none := by
      show (s.notices.get p).first = none
      rw [NoticeUnit.first, hnil]
      cases (s.notices.get p).promoted <;> rfl
    exact refuses hcar (show readNoticeAct p r.params (s.takeRequest p) = _ by simp only [readNoticeAct, none])
  · obtain ⟨ordered, nodup, -, -⟩ := hlaw p
    obtain ⟨e, hf, he, hsel⟩ := first_spec ordered hne
    have act : readNoticeAct p r.params (s.takeRequest p)
        = { state := (s.takeRequest p).setNotices p { s.notices.get p with entries := (s.notices.get p).entries.erase e }
            status := .ok
            payload := noticePayload e ((s.notices.get p).entries.erase e).length } := by
      have hf' : ((s.takeRequest p).notices.get p).first = some e := hf
      simp only [readNoticeAct, hf']
      rfl
    obtain ⟨ports, hex, ha⟩ := exec_answers hcar act
    have unit : (s.notices.set p { s.notices.get p with entries := (s.notices.get p).entries.erase e }).get p
        = { s.notices.get p with entries := (s.notices.get p).entries.erase e } := PerPort.get_set_same _ p _
    refine ⟨_, e, hex, he, hsel, ?_, fun e' => ?_, PerPort.get_set_other _ p _, ?_, rfl⟩
    all_goals simp only [State.setNotices_notices, PerPort.get_set_same]
    · rw [nodup.of_map.mem_erase_iff, and_comm]
    · exact ha

/-! ## Bits of a byte -/

/-- A flag of a byte, by its weight. -/
theorem flagBit_getLsbD (f : Byte) (k : Nat) : flagBit (f.getLsbD k) (2 ^ k) = f.toNat / 2 ^ k % 2 * 2 ^ k := by
  rw [BitVec.getLsbD, Nat.testBit_eq_decide_div_mod_eq, flagBit]
  have : f.toNat / 2 ^ k % 2 < 2 := Nat.mod_lt _ (by decide)
  split
  case isTrue h => rw [decide_eq_true_eq] at h; rw [h, Nat.one_mul]
  case isFalse h =>
    rw [decide_eq_true_eq] at h
    rw [show f.toNat / 2 ^ k % 2 = 0 by omega, Nat.zero_mul]

/-- A byte is its flags by their weights, down to bit 3, and its lower three bits. -/
theorem byte_eq_flags (f : Byte) : f.toNat = flagBit (f.getLsbD 7) 128 + flagBit (f.getLsbD 6) 64 + flagBit (f.getLsbD 5) 32
    + flagBit (f.getLsbD 4) 16 + flagBit (f.getLsbD 3) 8 + f.toNat % 8 := by
  have h7 := flagBit_getLsbD f 7
  have h6 := flagBit_getLsbD f 6
  have h5 := flagBit_getLsbD f 5
  have h4 := flagBit_getLsbD f 4
  have h3 := flagBit_getLsbD f 3
  have := f.isLt
  simp only [Nat.reducePow] at *
  omega

theorem byte_low_flags (f : Byte) : f.toNat % 8 = flagBit (f.getLsbD 2) 4 + flagBit (f.getLsbD 1) 2 + flagBit (f.getLsbD 0) 1 := by
  have h2 := flagBit_getLsbD f 2
  have h1 := flagBit_getLsbD f 1
  have h0 := flagBit_getLsbD f 0
  simp only [Nat.reducePow] at *
  omega

/-- A number that is a byte's is written as that byte. -/
theorem byteOf_eq {n : Nat} {f : Byte} (h : n = f.toNat) : byteOf n = [f] := by
  rw [h, byteOf, BitVec.ofNat_toNat, BitVec.setWidth_eq]

/-! ## FIND -/

/-- The flags of a FIND payload, as the byte with those bits (R183). -/
theorem findFlags_eq {f : Byte} {b7 b6 b5 b4 b3 b2 : Bool} (h7 : f.getLsbD 7 = b7) (h6 : f.getLsbD 6 = b6)
    (h5 : f.getLsbD 5 = b5) (h4 : f.getLsbD 4 = b4) (h3 : f.getLsbD 3 = b3) (h2 : f.getLsbD 2 = b2)
    (h1 : f.getLsbD 1 = false) (h0 : f.getLsbD 0 = false) :
    byteOf (flagBit b7 128 + flagBit b6 64 + flagBit b5 32 + flagBit b4 16 + flagBit b3 8 + flagBit b2 4) = [f] := by
  refine byteOf_eq ?_
  rw [byte_eq_flags f, byte_low_flags f, h7, h6, h5, h4, h3, h2, h1, h0]
  rfl

/-- The settle remaining that a FIND reports, 0 outside SETTLING (R183). -/
def Supervision.remaining : Supervision → Nat
  | .settling n => n
  | .unsupervised => 0
  | .watching => 0
  | .suspended => 0

/-- The payload for an output whose permit is in slot `i` (R125, R183). -/
theorem findPayload_held {s : State} {p : Port} {o : OutputNo} {i : SlotNo} {b : Bool} {q : Permit}
    (hc : (s.channel o).state = .held i b) (hq : (s.slot i).state.record = some q) :
    s.findPayload p o =
      byteOf 1
        ++ byteOf (flagBit true 128 + flagBit (decide (q.owner = p)) 64 + flagBit b 32
            + flagBit (decide ((s.channel o).expected = .on)) 16 + flagBit (decide ((s.channel o).feedback = .on)) 8
            + flagBit (s.underTrip o) 4)
        ++ byteOf (portCode q.owner) ++ wordOf (if q.owner = p then (handleWord (s.handle i)).toNat else 0)
        ++ byteOf (supervisionCode (s.channel o).supervision)
        ++ byteOf (s.channel o).supervision.remaining := by
  have holder : s.holderOwner o = some (q.owner, s.handle i) := by simp only [State.holderOwner, hc, hq]
  simp only [State.findPayload, holder, hc, ChannelState.inverted, channelStateCode, Option.isSome_some, decide_eq_true_eq]
  rfl

/-- The payload for an output that no permit holds (R125, R183). -/
theorem findPayload_free {s : State} {p : Port} {o : OutputNo} (hc : (s.channel o).state.isHeld = false) :
    s.findPayload p o =
      byteOf (channelStateCode (s.channel o).state)
        ++ (byteOf (flagBit false 128 + flagBit false 64 + flagBit false 32
            + flagBit (decide ((s.channel o).expected = .on)) 16 + flagBit (decide ((s.channel o).feedback = .on)) 8
            + flagBit (s.underTrip o) 4)
          ++ ([0, 0, 0] : List Byte))
        ++ byteOf (supervisionCode (s.channel o).supervision)
        ++ byteOf (s.channel o).supervision.remaining := by
  have holder : s.holderOwner o = none ∧ (s.channel o).state.inverted = false := by
    rw [State.holderOwner]
    cases h : (s.channel o).state with
    | held i b => rw [h] at hc; cases hc
    | idle => exact ⟨rfl, rfl⟩
    | faulted => exact ⟨rfl, rfl⟩
  simp only [State.findPayload, holder.1, holder.2, Option.isSome_none, List.append_assoc]
  rfl

/-- Settles O25: the byte of the flags is the one with the bits that the state gives (R183). -/
theorem findReportsTheChannel : Obligations.FindReportsTheChannel := by
  refine ⟨fun p => by cases p <;> rfl, fun s p r hcar => ⟨fun hbad => refuses hcar ?_,
    fun o f settle ho h4 h3 h2 h1 h0 hset => ⟨fun i b q hc hq h7 h6 h5 => ?_, fun hc h7 h6 h5 => ?_⟩⟩⟩
  · show findAct _ _ _ = _
    simp only [findAct, outputOf_eq_none hbad]
  all_goals
    subst hset
    have act : findAct p r.params (s.takeRequest p) = report (s.findPayload p o) (s.takeRequest p) := by
      simp only [findAct, ho, outputOf_val]; rfl
  · rw [findPayload_held hc hq, findFlags_eq h7 h6 h5 h4 h3 h2 h1 h0] at act
    exact answersOnly hcar act
  · rw [findPayload_free hc, findFlags_eq h7 h6 h5 h4 h3 h2 h1 h0] at act
    exact answersOnly hcar act

/-! ## LIST -/

theorem mem_listed (s : State) (who : Port) (start : Nat) (i : SlotNo) :
    i ∈ s.listed who start ↔ start ≤ i.val ∧ (s.slot i).state.ownedBy who = true := by
  simp [State.listed]

/-- The slot at which a LIST goes on (R18). -/
theorem nextSlot_spec (l : List SlotNo) :
    (l.length ≤ 16 → nextSlot l = 0xFF)
      ∧ (16 < l.length → ∃ i : SlotNo, (l.take 16).getLast? = some i ∧ nextSlot l = i.val + 1) := by
  refine ⟨fun h => if_pos h, fun h => ?_⟩
  have hne : l.take 16 ≠ [] := fun e => by
    have := congrArg List.length e
    rw [List.length_take, List.length_nil] at this
    omega
  refine ⟨_, List.getLast?_eq_some_getLast hne, ?_⟩
  rw [nextSlot, if_neg (Nat.not_le.2 h), List.getLast?_eq_some_getLast hne]

/-- The parameters of a LIST, by their number. -/
theorem params_one {params : List Byte} (h : params.length = 1) : params.tail = [] := by
  match params, h with
  | [_], _ => rfl

theorem params_two {params : List Byte} (h : params.length = 2) :
    ∃ code, params.tail = [code] ∧ code.toNat = byteAt params 1 := by
  match params, h with
  | [_, code], _ => exact ⟨code, rfl, rfl⟩

/-- LIST with no port named lists the sender's slots; with one named, that port's (R18). -/
theorem listAct_page {p who : Port} {params : List Byte} {t : State} (hs : byteAt params 0 ≤ 31)
    (hw : (params.length = 1 ∧ who = p)
      ∨ (params.length = 2 ∧ byteAt params 1 = portCode who ∧ (p = .supervisor ∨ who = .control))) :
    listAct p params t = listSlots who (byteAt params 0) t := by
  rw [listAct]
  rcases hw with ⟨h1, rfl⟩ | ⟨h2, hcode, hp⟩
  · simp only [params_one h1, if_neg (Nat.not_lt.2 hs)]
  · obtain ⟨code, htail, hc⟩ := params_two h2
    have own : ¬ (p = .control ∧ who = .supervisor) := by
      rcases hp with rfl | rfl <;> simp
    simp only [htail, hc, hcode, portOfCode_portCode, if_neg own, if_neg (Nat.not_lt.2 hs)]

/-- Settles O24: by the length of the parameters and the code in them (R18). -/
theorem listReportsSlotsInPages : Obligations.ListReportsSlotsInPages := by
  rintro s p r start hcar rfl
  refine ⟨fun who hs hw => ⟨s.listed who (byteAt r.params 0), nextSlot (s.listed who (byteAt r.params 0)), ?_, mem_listed s who _,
    (nextSlot_spec _).1, (nextSlot_spec _).2, answersOnly hcar (listAct_page hs hw)⟩, fun h2 hcode => ?_, fun hs hw => ?_,
    fun hs h2 hcode hp => ?_⟩
  · exact (List.pairwise_lt_finRange 32).filter _
  · obtain ⟨code, htail, hc⟩ := params_two h2
    refine refuses hcar ?_
    show listAct _ _ _ = _
    simp only [listAct, htail, hc, portOfCode_eq_none hcode]
  · refine refuses hcar ?_
    show listAct _ _ _ = _
    have hlen : r.params.length = 1 ∨ r.params.length = 2 := by
      simpa [lengthOk] using hcar.2.2.2.2
    rw [listAct]
    rcases hlen with h1 | h2
    · simp only [params_one h1, if_pos hs]
    · obtain ⟨code, htail, hc⟩ := params_two h2
      simp only [htail, hc]
      split
      · rfl
      case h_2 named hn =>
        have own : ¬ (p = .control ∧ named = .supervisor) := by
          rintro ⟨rfl, rfl⟩
          rcases hw with hw | hw | hw
          · omega
          · cases hw
          · rw [hw] at hn; cases hn
        rw [if_neg own, if_pos hs]
  · subst hp
    obtain ⟨code, htail, hc⟩ := params_two h2
    refine refuses hcar ?_
    show listAct _ _ _ = _
    simp only [listAct, htail, hc, hcode, portOfCode_portCode, and_self, if_true, if_neg (Nat.not_lt.2 hs)]

end Sys2Proof.Machine
end

section
/-! PROOFS. QUERY, and the formats of frames, parameters and codes (R17, R166, R168, R169, R172, R173, R178 to R181, R184,
R185). -/

set_option Elab.async false

namespace Sys2Proof.Machine

/-! ## QUERY -/

theorem optField_eq (x : Option Nat) : optField x = x.toList.flatMap wordOf := by
  cases x <;> simp [optField]

/-- An output entry of a QUERY record, by its bits (R184). -/
theorem queryEntries_eq {outputs : List OutputEntry} {entries : List Byte} (hlen : entries.length = outputs.length)
    (h : ∀ (k : Nat) (e : OutputEntry) (b : Byte), outputs[k]? = some e → entries[k]? = some b →
      b.getLsbD 7 = e.invert ∧ b.toNat % 128 = e.output.val) :
    outputs.map (fun e => BitVec.ofNat 8 (flagBit e.invert 128 + e.output.val)) = entries := by
  refine List.ext_getElem (by rw [List.length_map, hlen]) fun k h1 h2 => ?_
  rw [List.length_map] at h1
  obtain ⟨h7, h6⟩ := h k outputs[k] entries[k] (List.getElem?_eq_getElem h1) (List.getElem?_eq_getElem h2)
  have bits := flagBit_getLsbD entries[k] 7
  have := entries[k].isLt
  rw [List.getElem_map, ← h7, ← h6]
  refine (BitVec.eq_of_toNat_eq ?_)
  rw [BitVec.toNat_ofNat]
  simp only [Nat.reducePow] at *
  omega

/-- The flags of a QUERY record, as the byte with those bits (R184). -/
theorem queryFlags_eq {q : Permit} {flags : Byte} (h7 : flags.getLsbD 7 = decide (q.owner = .supervisor))
    (h6 : flags.getLsbD 6 = q.closeOnCompletion) (h5 : flags.getLsbD 5 = q.renewGuard.isSome)
    (h4 : flags.getLsbD 4 = q.anchor.isSome) (h3 : flags.getLsbD 3 = q.label.isSome)
    (hp : flags.toNat % 8 = patternCode q.pattern) : byteOf (queryFlags q) = [flags] :=
  byteOf_eq (by rw [byte_eq_flags flags, h7, h6, h5, h4, h3, hp]; rfl)

/-- The presence byte of a run part, as the byte with those bits (R185). -/
theorem presence_eq {f : Byte} {b7 b6 b5 b4 : Bool} (h7 : f.getLsbD 7 = b7) (h6 : f.getLsbD 6 = b6)
    (h5 : f.getLsbD 5 = b5) (h4 : f.getLsbD 4 = b4) (h : f.toNat % 16 = 0) :
    byteOf (flagBit b7 128 + flagBit b6 64 + flagBit b5 32 + flagBit b4 16) = [f] := by
  refine byteOf_eq ?_
  have h3 := flagBit_getLsbD f 3
  rw [byte_eq_flags f, h7, h6, h5, h4]
  simp only [Nat.reducePow] at h3
  omega

/-- The length of the part of a QUERY record that belongs to the slot's state (R185). -/
theorem queryPart_length (s : State) (i : SlotNo) : (s.queryPart i).length =
    match (s.slot i).state with
    | .free => 0
    | .waiting _ _ => 3
    | .armed _ _ => 3
    | .closed _ _ => 3
    | .live _ run =>
      2 + (if run.leaseRemaining.isSome then 2 else 0) + (if run.phaseRemaining.isSome then 2 else 0)
        + (if run.cyclesRemaining.isSome then 1 else 0) + (if run.staged.isSome then 4 else 0) := by
  rw [State.queryPart]
  cases (s.slot i).state with
  | free => rfl
  | waiting r w => rfl
  | armed r part => cases part <;> rfl
  | closed r c => rfl
  | live r run =>
    obtain ⟨lease, _, phase, cycles, staged⟩ := run
    cases lease <;> cases phase <;> cases cycles <;> cases staged <;> rfl

/-- The length of a QUERY record (R185). -/
theorem queryRecord_length (s : State) (i : SlotNo) (q : Permit) : (s.queryRecord i q).length =
    5 + q.outputs.length + 10 + (if q.renewGuard.isSome then 2 else 0) + (if q.anchor.isSome then 5 else 0)
      + (if q.label.isSome then 2 else 0) + (s.queryPart i).length := by
  simp only [State.queryRecord, List.length_append, length_wordOf, length_byteOf, List.length_map, optField_eq]
  cases q.renewGuard <;> cases q.anchor <;> cases q.label <;> simp

/-- The part of a QUERY record that belongs to the state of a LIVE slot (R185). -/
theorem queryPart_live {s : State} {i : SlotNo} {q : Permit} {run : RunPart} (h : (s.slot i).state = .live q run) :
    s.queryPart i =
      byteOf (flagBit run.leaseRemaining.isSome 128 + flagBit run.phaseRemaining.isSome 64
          + flagBit run.cyclesRemaining.isSome 32 + flagBit run.staged.isSome 16)
        ++ byteOf (phaseCode run.phase) ++ run.leaseRemaining.toList.flatMap wordOf
        ++ run.phaseRemaining.toList.flatMap wordOf ++ run.cyclesRemaining.toList.flatMap byteOf
        ++ run.staged.toList.flatMap (fun pair => wordOf pair.1 ++ wordOf pair.2) := by
  rw [State.queryPart, h]
  simp only [optField_eq]
  cases run.cyclesRemaining <;> cases run.staged <;> simp

/-- The event code of an anchor (R179). -/
theorem eventCode_eq (e : AwaitedEvent) : eventCode e = match e with | .grant => 0 | .ending => 1 := by cases e <;> rfl

/-- A QUERY record, its optional fields written as lists (R184). -/
theorem queryRecord_eq (s : State) (i : SlotNo) (q : Permit) : s.queryRecord i q =
    wordOf (handleWord (s.handle i)).toNat
      ++ byteOf (match (s.slot i).state with
          | .free => 0 | .waiting _ _ => 1 | .armed _ _ => 2 | .live _ _ => 3 | .closed _ _ => 4)
      ++ byteOf (queryFlags q) ++ byteOf q.outputs.length
      ++ q.outputs.map (fun e => BitVec.ofNat 8 (flagBit e.invert 128 + e.output.val))
      ++ wordOf q.pattern.on ++ wordOf q.pattern.off ++ byteOf q.pattern.count
      ++ wordOf q.lease ++ wordOf q.waitLimit ++ byteOf q.chainDepth ++ (q.renewGuard.toList.flatMap wordOf)
      ++ (q.anchor.toList.flatMap fun a =>
          wordOf (handleWord a.handle).toNat ++ byteOf (match a.event with | .grant => 0 | .ending => 1) ++ wordOf a.delay)
      ++ (q.label.toList.flatMap wordOf) ++ s.queryPart i := by
  have anchor : (match q.anchor with
      | some a => wordOf (handleWord a.handle).toNat ++ byteOf (eventCode a.event) ++ wordOf a.delay
      | none => []) = q.anchor.toList.flatMap fun a =>
          wordOf (handleWord a.handle).toNat ++ byteOf (match a.event with | .grant => 0 | .ending => 1) ++ wordOf a.delay := by
    cases q.anchor with
    | none => rfl
    | some a =>
      refine Eq.trans ?_ (List.flatMap_singleton _ a).symm
      exact congrArg (fun n => wordOf (handleWord a.handle).toNat ++ byteOf n ++ wordOf a.delay) (eventCode_eq a.event)
  rw [State.queryRecord, optField_eq, optField_eq, ← anchor]
  cases (s.slot i).state <;> rfl

/-- Settles O23: each field of the record is the statement's, and the part is that of the slot's state (R184, R185). -/
theorem queryReportsTheRecord : Obligations.QueryReportsTheRecord := by
  rintro s p r h q flags on off count entries part hcar rfl hh hq ho h7 h6 h5 h4 h3 hp hpat hlen hent hw ha hd hl hc
  have act : queryAct p r.params (s.takeRequest p) =
      { state := s.takeRequest p, status := .ok, payload := s.queryRecord (handleAt r.params 0).slot q } :=
    withPermit_may (s := s.takeRequest p) hh hq (ownerOrSupervisor_iff.2 ho)
  have hpart : s.queryPart (handleAt r.params 0).slot = part := by
    cases hst : (s.slot (handleAt r.params 0).slot).state with
    | free => rw [hst] at hq; cases hq
    | waiting q' w =>
      rw [hst] at hq; cases hq
      rw [hw w hst, State.queryPart, hst]; rfl
    | armed q' st =>
      rw [hst] at hq; cases hq
      cases st with
      | awaitingEvent => rw [ha hst, State.queryPart, hst]; rfl
      | delaying d => rw [hd d hst, State.queryPart, hst]; rfl
    | live q' run =>
      rw [hst] at hq; cases hq
      obtain ⟨presence, p7, p6, p5, p4, p0, rfl⟩ := hl run hst
      rw [queryPart_live hst, presence_eq p7 p6 p5 p4 p0]
      cases run.phase <;> rfl
    | closed q' cause =>
      rw [hst] at hq; cases hq
      rw [hc cause hst, State.queryPart, hst]
      cases cause <;> rfl
  have hflags : byteOf (queryFlags q) = [flags] := queryFlags_eq h7 h6 h5 h4 h3 (hp.trans (by cases q.pattern <;> rfl))
  obtain ⟨rfl, rfl, rfl⟩ : on = q.pattern.on ∧ off = q.pattern.off ∧ count = q.pattern.count := by
    cases hpt : q.pattern <;> rw [hpt, Prod.mk.injEq, Prod.mk.injEq] at hpat <;> exact hpat
  refine ⟨_, answersOnly hcar act, ?_, ?_⟩
  · have record := queryRecord_eq s (handleAt r.params 0).slot q
    rw [hflags, hpart, queryEntries_eq hlen hent, hh] at record
    exact record
  · have length := queryRecord_length s (handleAt r.params 0).slot q
    rw [queryPart_length] at length
    exact length

/-! ## Frames and the check byte -/

theorem crcShift_eq (x : Byte) : crcShift x = if x.getLsbD 7 then (x <<< 1) ^^^ 0x07 else x <<< 1 := by
  rw [crcShift, BitVec.msb_eq_getLsbD_last]

theorem crc8_concat (bs : List Byte) (b : Byte) : crc8 (bs ++ [b]) = crcByte (crc8 bs) b := by
  rw [crc8, List.foldl_append]; rfl

/-- A byte of the frame shifts the register eight times (R178). -/
theorem crcByte_eq (c b : Byte) :
    crcByte c b = Nat.iterate (fun x : Byte => if x.getLsbD 7 then (x <<< 1) ^^^ 0x07 else x <<< 1) 8 (c ^^^ b) := by
  simp only [crcByte, Function.iterate_succ, Function.comp_apply, Function.iterate_zero, id_eq, crcShift_eq]

theorem crcByte_self (c : Byte) : crcByte c c = 0 := by
  rw [crcByte, BitVec.xor_self]
  decide

/-- Bytes read behind other bytes. -/
theorem byteAt_append (pre rest : List Byte) (k : Nat) : byteAt (pre ++ rest) (pre.length + k) = byteAt rest k := by
  rw [byteAt, byteAt, List.getD_append_right _ _ _ _ (Nat.le_add_right _ _), Nat.add_sub_cancel_left]

/-- A request's frame is judged to be the request, whatever follows it (R168, R169). -/
theorem judgeBytes_requestFrame {r : Request} (after : List Byte) (hc : r.code ≠ 0) (hl : r.params.length ≤ 32) :
    judgeBytes (requestFrame r ++ after) = .request r := by
  obtain ⟨head, hhead⟩ : ∃ head : List Byte, head = r.code :: r.tag :: BitVec.ofNat 8 r.params.length :: r.params := ⟨_, rfl⟩
  have frame : requestFrame r ++ after = head ++ (crc8 head :: after) := by
    rw [requestFrame, ← hhead, List.append_assoc]; rfl
  have headLength : head.length = r.params.length + 3 := by rw [hhead]; rfl
  have n : byteAt (head ++ (crc8 head :: after)) 2 = r.params.length := by
    rw [hhead]
    show (BitVec.ofNat 8 r.params.length).toNat = _
    rw [BitVec.toNat_ofNat]
    exact Nat.mod_eq_of_lt (by omega)
  have check : (head ++ (crc8 head :: after)).getD (r.params.length + 3) 0 = crc8 head := by
    rw [← headLength, List.getD_append_right _ _ _ _ (Nat.le_refl _), Nat.sub_self]; rfl
  have first : (head ++ (crc8 head :: after)).head? = some r.code := by rw [hhead]; rfl
  have params : ((head ++ (crc8 head :: after)).drop 3).take r.params.length = r.params := by
    rw [hhead]
    exact List.take_left
  rw [frame, judgeBytes_eq, n, if_neg, if_neg, if_neg, params]
  · rw [hhead]; rfl
  · rw [check, ← headLength, List.take_left]; simp
  · rw [List.length_append, headLength, List.length_cons]; omega
  · rw [first, not_or]
    refine ⟨fun h => ?_, fun h => hc (Option.some.inj h)⟩
    rw [h] at first
    cases first

/-- A response frame carries the code that a table gives its status (R179). -/
theorem responseFrame_code {r : Response} {code : Byte} {table : List (Status × Byte)} (h : (r.status, code) ∈ table)
    (ht : ∀ x ∈ table, x.2 = BitVec.ofNat 8 (statusCode x.1)) :
    ∃ head : List Byte, head = r.tag :: code :: BitVec.ofNat 8 r.payload.length :: r.payload
      ∧ responseFrame r = head ++ [crc8 head] := by
  have : code = BitVec.ofNat 8 (statusCode r.status) := ht _ h
  exact ⟨_, rfl, by rw [this]; rfl⟩

/-- Settles O2: the frame is read back part by part, and the check byte is the fold of R178. -/
theorem requestFrameIsJudgedWhole : Obligations.RequestFrameIsJudgedWhole :=
  ⟨fun _ after hc hl => judgeBytes_requestFrame after hc hl, fun _ => ⟨_, rfl, rfl⟩,
    fun _ _ h => responseFrame_code h (by decide), rfl, fun bs b => (crc8_concat bs b).trans (crcByte_eq _ b),
    fun bs => (crc8_concat bs _).trans (crcByte_self _)⟩

end Sys2Proof.Machine
end

section
/-! PROOFS. The CLAIM parameters and the codes; the three checks on every request (R166, R172, R173, R179 to R181). -/

set_option Elab.async false

namespace Sys2Proof.Machine

/-! ## Handles -/

/-- The layout of a handle, by its weights (R179). -/
theorem handleWord_toNat (h : Handle) :
    (handleWord h).toNat = h.epoch.toNat * 4096 + h.generation.toNat * 32 + h.slot.val := by
  have := h.slot.isLt
  rw [handleWord, toNat_append_eq_mul_add, toNat_append_eq_mul_add, BitVec.toNat_ofNat]
  omega

/-- A 16-bit field names the handle that it lays out (R179). -/
theorem handleWord_handleOfWord (w : Word16) : handleWord (handleOfWord w) = w := by
  refine BitVec.eq_of_toNat_eq ?_
  have := w.isLt
  rw [handleWord_toNat]
  simp only [handleOfWord, BitVec.extractLsb'_toNat, Nat.shiftRight_eq_div_pow]
  omega

/-! ## The CLAIM parameters -/

/-- The flags byte of a CLAIM, read back (section 12.4). -/
theorem claimFlags_bits {f : ClaimFields} (hk : f.kind < 8) :
    (claimFlags f).toNat % 8 = f.kind ∧ (claimFlags f).getLsbD 4 = f.label.isSome
      ∧ (claimFlags f).getLsbD 5 = f.anchor.isSome ∧ (claimFlags f).getLsbD 6 = f.renewGuard.isSome
      ∧ (claimFlags f).getLsbD 7 = f.closeOnCompletion := by
  simp only [claimFlags, BitVec.getLsbD_ofNat, BitVec.toNat_ofNat, Nat.testBit_eq_decide_div_mod_eq]
  cases f.label.isSome <;> cases f.anchor.isSome <;> cases f.renewGuard.isSome <;> cases f.closeOnCompletion <;>
    simp only [if_true, Bool.false_eq_true, if_false, decide_eq_true_eq, decide_eq_false_iff_not, Bool.and_eq_true,
      Bool.and_eq_false_imp] <;> omega

/-- An output entry is read back (R181). -/
theorem readEntry_entryByte {e : Nat × Bool} (h : e.1 < 128) : readEntry (entryByte e) = e := by
  obtain ⟨n, b⟩ := e
  have toNat : (entryByte (n, b)).toNat = n + if b then 128 else 0 := by
    rw [entryByte, BitVec.toNat_ofNat]
    exact Nat.mod_eq_of_lt (by split <;> simp only at h ⊢ <;> omega)
  rw [readEntry, BitVec.getLsbD, Nat.testBit_eq_decide_div_mod_eq, toNat, Prod.mk.injEq]
  simp only at h
  cases b <;> simp <;> omega

theorem map_readEntry {es : List (Nat × Bool)} (h : ∀ e ∈ es, e.1 < 128) : (es.map entryByte).map readEntry = es := by
  rw [List.map_map]
  exact (List.map_congr_left fun e he => readEntry_entryByte (h e he)).trans (List.map_id es)

theorem wordAt_append (pre rest : List Byte) (k : Nat) : wordAt (pre ++ rest) (pre.length + k) = wordAt rest k := by
  rw [wordAt, wordAt, byteAt_append, Nat.add_assoc, byteAt_append]

theorem byteAt_byteOf {n : Nat} (h : n < 256) (rest : List Byte) : byteAt (byteOf n ++ rest) 0 = n := by
  show (BitVec.ofNat 8 n).toNat = n
  rw [BitVec.toNat_ofNat]
  exact Nat.mod_eq_of_lt h

theorem handleAt_handleWord (h : Handle) (rest : List Byte) : handleAt (wordOf (handleWord h).toNat ++ rest) 0 = h := by
  rw [handleAt, wordAt_wordOf (handleWord h).isLt, BitVec.ofNat_toNat, BitVec.setWidth_eq, handleOfWord_handleWord]

/-- The optional fields of a CLAIM. -/
def ClaimFields.optBytes (f : ClaimFields) : List Byte :=
  optField f.renewGuard ++ (anchorBytes f.anchor ++ optField f.label)

/-- The fields of a CLAIM behind its output entries. -/
def ClaimFields.tailBytes (f : ClaimFields) : List Byte :=
  wordOf f.on ++ wordOf f.off ++ byteOf f.count ++ wordOf f.lease ++ wordOf f.waitLimit ++ f.optBytes

/-- The CLAIM parameters are two bytes, the entries and the fields behind them (section 12.4). -/
theorem claimParams_eq (f : ClaimFields) : claimParams f =
    (claimFlags f :: BitVec.ofNat 8 f.entries.length :: f.entries.map entryByte) ++ f.tailBytes := by
  simp only [claimParams, ClaimFields.tailBytes, ClaimFields.optBytes, List.cons_append, List.append_assoc]

/-- What the fixed fields behind the entries read back (section 12.4). -/
theorem tailBytes_fixed {f : ClaimFields} (hon : f.on < 65536) (hoff : f.off < 65536) (hcount : f.count < 256)
    (hlease : f.lease < 65536) (hwait : f.waitLimit < 65536) :
    wordAt f.tailBytes 0 = f.on ∧ wordAt f.tailBytes 2 = f.off ∧ byteAt f.tailBytes 4 = f.count
      ∧ wordAt f.tailBytes 5 = f.lease ∧ wordAt f.tailBytes 7 = f.waitLimit :=
  ⟨wordAt_wordOf hon (wordOf f.off ++ byteOf f.count ++ wordOf f.lease ++ wordOf f.waitLimit ++ f.optBytes),
    wordAt_wordOf hoff (byteOf f.count ++ wordOf f.lease ++ wordOf f.waitLimit ++ f.optBytes),
    byteAt_byteOf hcount (wordOf f.lease ++ wordOf f.waitLimit ++ f.optBytes),
    wordAt_wordOf hlease (wordOf f.waitLimit ++ f.optBytes), wordAt_wordOf hwait f.optBytes⟩

/-- The optional fields start behind the nine fixed bytes. -/
theorem tailBytes_opt (f : ClaimFields) (k : Nat) :
    wordAt f.tailBytes (9 + k) = wordAt f.optBytes k ∧ byteAt f.tailBytes (9 + k) = byteAt f.optBytes k :=
  ⟨wordAt_append (wordOf f.on ++ wordOf f.off ++ byteOf f.count ++ wordOf f.lease ++ wordOf f.waitLimit) _ k,
    byteAt_append (wordOf f.on ++ wordOf f.off ++ byteOf f.count ++ wordOf f.lease ++ wordOf f.waitLimit) _ k⟩

theorem length_optField (x : Option Nat) : (optField x).length = if x.isSome then 2 else 0 := by cases x <;> rfl

theorem length_anchorBytes (x : Option (Handle × Nat × Nat)) : (anchorBytes x).length = if x.isSome then 5 else 0 := by
  cases x <;> rfl

/-- What the optional fields read back, each behind those that are present before it (section 12.4). -/
theorem optBytes_fields {f : ClaimFields} (hg : ∀ g ∈ f.renewGuard, g < 65536)
    (ha : ∀ a ∈ f.anchor, a.2.1 < 256 ∧ a.2.2 < 65536) (hl : ∀ l ∈ f.label, l < 65536) :
    (∀ g ∈ f.renewGuard, wordAt f.optBytes 0 = g)
      ∧ (∀ a ∈ f.anchor, handleAt f.optBytes (if f.renewGuard.isSome then 2 else 0) = a.1
          ∧ byteAt f.optBytes ((if f.renewGuard.isSome then 2 else 0) + 2) = a.2.1
          ∧ wordAt f.optBytes ((if f.renewGuard.isSome then 2 else 0) + 3) = a.2.2)
      ∧ ∀ l ∈ f.label,
          wordAt f.optBytes ((if f.renewGuard.isSome then 2 else 0) + if f.anchor.isSome then 5 else 0) = l := by
  rw [← length_optField, ← length_anchorBytes]
  have behind (k : Nat) := wordAt_append (optField f.renewGuard) (anchorBytes f.anchor ++ optField f.label) k
  have behind' (k : Nat) := byteAt_append (optField f.renewGuard) (anchorBytes f.anchor ++ optField f.label) k
  refine ⟨fun g h => ?_, fun a h => ⟨?_, ?_, ?_⟩, fun l h => ?_⟩
  · rw [ClaimFields.optBytes, Option.mem_def.1 h]
    exact wordAt_wordOf (hg g h) _
  · have := behind 0
    rw [Nat.add_zero] at this
    rw [handleAt, ClaimFields.optBytes, this, Option.mem_def.1 h]
    exact handleAt_handleWord a.1 (byteOf a.2.1 ++ wordOf a.2.2 ++ optField f.label)
  · rw [ClaimFields.optBytes, behind', Option.mem_def.1 h]
    exact byteAt_byteOf (ha a h).1 (wordOf a.2.2 ++ optField f.label)
  · rw [ClaimFields.optBytes, behind, Option.mem_def.1 h]
    exact wordAt_wordOf (ha a h).2 (optField f.label)
  · rw [ClaimFields.optBytes, behind, ← Nat.add_zero (anchorBytes f.anchor).length, wordAt_append, Option.mem_def.1 h]
    exact (congrArg (fun bs => wordAt bs 0) (List.append_nil _).symm).trans (wordAt_wordOf (hl l h) [])

/-- The parameters written are read back (R180, R181). -/
theorem readClaim_claimParams {f : ClaimFields} (hk : f.kind < 8) (hn : f.entries.length < 256)
    (he : ∀ e ∈ f.entries, e.1 < 128) (hon : f.on < 65536) (hoff : f.off < 65536) (hcount : f.count < 256)
    (hlease : f.lease < 65536) (hwait : f.waitLimit < 65536) (hg : ∀ g ∈ f.renewGuard, g < 65536)
    (ha : ∀ a ∈ f.anchor, a.2.1 < 256 ∧ a.2.2 < 65536) (hl : ∀ l ∈ f.label, l < 65536) :
    readClaim (claimParams f) = f ∧ claimLength (claimParams f) = (claimParams f).length := by
  obtain ⟨kind, label, anchor, guard, close⟩ := claimFlags_bits hk
  obtain ⟨on, off, count, lease, wait⟩ := tailBytes_fixed hon hoff hcount hlease hwait
  obtain ⟨optGuard, optAnchor, optLabel⟩ := optBytes_fields hg ha hl
  have params := claimParams_eq f
  have hguard : claimHasGuard (claimParams f) = f.renewGuard.isSome := guard
  have hanchor : claimHasAnchor (claimParams f) = f.anchor.isSome := anchor
  have hlabel : claimHasLabel (claimParams f) = f.label.isSome := label
  have n : byteAt (claimParams f) 1 = f.entries.length := by
    show (BitVec.ofNat 8 f.entries.length).toNat = _
    rw [BitVec.toNat_ofNat]
    exact Nat.mod_eq_of_lt hn
  have pre : (claimFlags f :: BitVec.ofNat 8 f.entries.length :: f.entries.map entryByte).length = 2 + f.entries.length := by
    rw [List.length_cons, List.length_cons, List.length_map]; omega
  have word (k : Nat) : wordAt (claimParams f) (2 + f.entries.length + k) = wordAt f.tailBytes k := by
    rw [params, ← pre, wordAt_append]
  have byte (k : Nat) : byteAt (claimParams f) (2 + f.entries.length + k) = byteAt f.tailBytes k := by
    rw [params, ← pre, byteAt_append]
  have entries : (((claimParams f).drop 2).take f.entries.length).map readEntry = f.entries := by
    rw [params]
    show ((f.entries.map entryByte ++ f.tailBytes).take _).map readEntry = _
    rw [List.take_left' (List.length_map _), map_readEntry he]
  constructor
  · have guardBack : (if f.renewGuard.isSome then some (wordAt (claimParams f) (2 + f.entries.length + 9)) else none)
        = f.renewGuard := by
      rw [word, (tailBytes_opt f 0).1]
      cases h : f.renewGuard with
      | none => rfl
      | some g => rw [optGuard g h]; rfl
    have anchorBack : (if f.anchor.isSome then
        some (handleAt (claimParams f) (2 + f.entries.length + 9 + if f.renewGuard.isSome then 2 else 0),
          byteAt (claimParams f) (2 + f.entries.length + 9 + (if f.renewGuard.isSome then 2 else 0) + 2),
          wordAt (claimParams f) (2 + f.entries.length + 9 + (if f.renewGuard.isSome then 2 else 0) + 3)) else none)
        = f.anchor := by
      simp only [handleAt, Nat.add_assoc (2 + f.entries.length), word, byte, Nat.add_assoc 9, (tailBytes_opt f _).1,
        (tailBytes_opt f _).2]
      cases h : f.anchor with
      | none => rfl
      | some a =>
        obtain ⟨h1, h2, h3⟩ := optAnchor a h
        rw [handleAt] at h1
        rw [h1, h2, h3]; rfl
    have labelBack : (if f.label.isSome then
        some (wordAt (claimParams f) (2 + f.entries.length + 9 + (if f.renewGuard.isSome then 2 else 0)
          + if f.anchor.isSome then 5 else 0)) else none) = f.label := by
      simp only [Nat.add_assoc (2 + f.entries.length), word, Nat.add_assoc 9, (tailBytes_opt f _).1]
      cases h : f.label with
      | none => rfl
      | some l => rw [optLabel l h]; rfl
    simp only [readClaim, hguard, hanchor, hlabel, n, entries, guardBack, anchorBack, labelBack]
    rw [← Nat.add_zero (2 + f.entries.length)]
    simp only [Nat.add_assoc (2 + f.entries.length), Nat.zero_add, word, byte, on, off, count, lease, wait]
    exact (ClaimFields.mk.injEq ..).mpr ⟨kind, close, rfl, rfl, rfl, rfl, rfl, rfl, rfl, rfl, rfl⟩
  · rw [claimLength, n, hguard, hanchor, hlabel, params, List.length_append, pre, ClaimFields.tailBytes,
      ClaimFields.optBytes]
    simp only [List.length_append, length_wordOf, length_byteOf, length_optField, length_anchorBytes]
    omega

/-- Settles O3: the fields lie behind one another at the positions where they are read. -/
theorem claimParametersRoundTrip : Obligations.ClaimParametersRoundTrip := by
  refine ⟨fun f hk hn he hon hoff hcount hlease hwait hg ha hl => readClaim_claimParams hk hn he hon hoff hcount hlease hwait hg ha hl,
    fun n bs hn => ⟨wordAt_wordOf hn bs, rfl, ?_⟩, fun h => ⟨handleWord_toNat h, handleOfWord_handleWord h⟩,
    handleWord_handleOfWord, rfl, rfl, rfl, rfl, rfl, rfl, rfl, rfl, rfl, fun _ _ _ _ => rfl, fun _ _ _ _ _ => rfl,
    fun _ _ _ => rfl, fun _ _ => rfl, fun _ => rfl⟩
  show (BitVec.ofNat 8 (n / 256)).toNat = _
  rw [BitVec.toNat_ofNat]
  exact Nat.mod_eq_of_lt (by omega)

/-! ## The checks on every request -/

/-- A request refused before its command changes nothing but the ports (R172). -/
theorem onlyAnswers_of_carryOut {s : State} {p : Port} {r : Request} {c : Command} {status : Status}
    (h : s.nextRequest = some (p, r)) (hc : commandOf r = c)
    (ha : carryOut c c.act p r.params (s.takeRequest p) = refuse status (s.takeRequest p)) :
    s.onlyAnswers c p r status [] := by
  refine ⟨State.respond p r.tag (refuse status (s.takeRequest p)), ?_, respond_answered ⟨rfl, rfl⟩, rfl⟩
  rw [exec_row_eq, engineStep_next c.act h hc, ha]

theorem configureOf_ne_unknown (params : List Byte) : configureOf params ≠ .unknown := by
  unfold configureOf
  split
  · simp
  · split <;> simp

/-- A code that is none of the part's makes the request UNKNOWN_COMMAND (R172, R180). -/
theorem commandOf_unknown_iff (r : Request) : commandOf r = .unknown ↔
    r.code.toNat ∉ [0x01, 0x10, 0x11, 0x12, 0x13, 0x14, 0x15, 0x16, 0x17, 0x18, 0x19,
      0x20, 0x21, 0x22, 0x23, 0x24, 0x25, 0x26, 0x27, 0x28, 0x29] := by
  unfold commandOf
  split
  case h_14 h => simp [h, configureOf_ne_unknown]
  case h_22 => simp_all
  all_goals simp_all

/-- The code of each command but CONFIGURE (R180). -/
theorem commandOf_code {r : Request} {c : Command} (h : (c, r.code.toNat) ∈
    [(Command.nop, 0x01), (.claim, 0x10), (.release, 0x11), (.retire, 0x12), (.renew, 0x13), (.restage, 0x14),
      (.query, 0x15), (.list, 0x16), (.find, 0x17), (.readNotice, 0x18), (.deviceStatus, 0x19), (.revoke, 0x20),
      (.purge, 0x21), (.readConfig, 0x23), (.enterRun, 0x24), (.hold, 0x25), (.resume, 0x26), (.restart, 0x27),
      (.clearTrip, 0x28), (.clearFault, 0x29)]) : commandOf r = c := by
  simp only [List.mem_cons, Prod.mk.injEq, List.not_mem_nil, or_false] at h
  rcases h with ⟨rfl, h⟩ | ⟨rfl, h⟩ | ⟨rfl, h⟩ | ⟨rfl, h⟩ | ⟨rfl, h⟩ | ⟨rfl, h⟩ | ⟨rfl, h⟩ | ⟨rfl, h⟩ | ⟨rfl, h⟩ | ⟨rfl, h⟩ |
    ⟨rfl, h⟩ | ⟨rfl, h⟩ | ⟨rfl, h⟩ | ⟨rfl, h⟩ | ⟨rfl, h⟩ | ⟨rfl, h⟩ | ⟨rfl, h⟩ | ⟨rfl, h⟩ | ⟨rfl, h⟩ | ⟨rfl, h⟩ <;>
    simp only [commandOf, h]

/-- A request of code 0x22 is the CONFIGURE that its first parameter names (R158, R180). -/
theorem commandOf_configure {r : Request} (h : r.code = 0x22) : commandOf r = configureOf r.params := by
  simp only [commandOf, h, show (0x22 : Byte).toNat = 0x22 from rfl]

/-- The item code of each CONFIGURE (R180). -/
theorem configureOf_item {params : List Byte} {c : Command} (hne : params ≠ []) (h : (c, byteAt params 0) ∈
    [(Command.configureTickDivider, 1), (.configureOutput, 2), (.configureGroup, 3), (.configureTrip, 4),
      (.configureReserved, 5), (.configureQuota, 6), (.configureNoticeMask, 7), (.configureNoticePromote, 8)]) :
    configureOf params = c := by
  obtain ⟨item, rest, rfl⟩ := List.exists_cons_of_ne_nil hne
  have item : byteAt (item :: rest) 0 = item.toNat := rfl
  simp only [List.mem_cons, Prod.mk.injEq, List.not_mem_nil, or_false, item] at h
  rcases h with ⟨rfl, h⟩ | ⟨rfl, h⟩ | ⟨rfl, h⟩ | ⟨rfl, h⟩ | ⟨rfl, h⟩ | ⟨rfl, h⟩ | ⟨rfl, h⟩ | ⟨rfl, h⟩ <;>
    simp only [configureOf, h]

/-- A CONFIGURE without an item code, or with one that is no item's (R158, log entry 8). -/
theorem configureOf_unknownItem {params : List Byte} (h : params = [] ∨ byteAt params 0 = 0 ∨ 8 < byteAt params 0) :
    configureOf params = .configureUnknownItem := by
  cases params with
  | nil => rfl
  | cons item rest =>
    have range : item.toNat = 0 ∨ 8 < item.toNat := h.resolve_left (by simp)
    rw [configureOf]
    split
    case h_9 => rfl
    all_goals omega

/-- The parameter length of each command that has a fixed one (R180). -/
theorem lengthOk_fixed {c : Command} {n : Nat} (ps : List Byte) (h : (c, n) ∈
    [(Command.nop, 0), (.release, 2), (.retire, 2), (.renew, 2), (.restage, 6), (.query, 2), (.find, 1),
      (.readNotice, 0), (.deviceStatus, 0), (.revoke, 2), (.purge, 1), (.configureTickDivider, 3),
      (.configureOutput, 4), (.configureGroup, 6), (.configureTrip, 7), (.configureReserved, 3),
      (.configureQuota, 3), (.configureNoticeMask, 3), (.configureNoticePromote, 3), (.enterRun, 0), (.hold, 0),
      (.resume, 0), (.restart, 0), (.clearTrip, 1), (.clearFault, 1)]) : lengthOk c ps = true ↔ ps.length = n := by
  have eq : lengthOk c ps = (ps.length == n) := by
    simp only [List.mem_cons, Prod.mk.injEq, List.not_mem_nil, or_false] at h
    rcases h with ⟨rfl, rfl⟩ | ⟨rfl, rfl⟩ | ⟨rfl, rfl⟩ | ⟨rfl, rfl⟩ | ⟨rfl, rfl⟩ | ⟨rfl, rfl⟩ | ⟨rfl, rfl⟩ | ⟨rfl, rfl⟩ |
      ⟨rfl, rfl⟩ | ⟨rfl, rfl⟩ | ⟨rfl, rfl⟩ | ⟨rfl, rfl⟩ | ⟨rfl, rfl⟩ | ⟨rfl, rfl⟩ | ⟨rfl, rfl⟩ | ⟨rfl, rfl⟩ | ⟨rfl, rfl⟩ |
      ⟨rfl, rfl⟩ | ⟨rfl, rfl⟩ | ⟨rfl, rfl⟩ | ⟨rfl, rfl⟩ | ⟨rfl, rfl⟩ | ⟨rfl, rfl⟩ | ⟨rfl, rfl⟩ | ⟨rfl, rfl⟩ <;> rfl
  rw [eq, beq_iff_eq]

/-- The length of a CLAIM is the one that its flags and count give (R181). -/
theorem lengthOk_claim (flags n : Byte) (ps : List Byte) : lengthOk .claim (flags :: n :: ps) = true ↔
    ps.length + 2 ≤ 32
      ∧ ps.length + 2 = 11 + n.toNat + (if flags.getLsbD 6 then 2 else 0) + (if flags.getLsbD 5 then 5 else 0)
          + (if flags.getLsbD 4 then 2 else 0) := by
  have length : claimLength (flags :: n :: ps) = 11 + n.toNat + (if flags.getLsbD 6 then 2 else 0)
      + (if flags.getLsbD 5 then 5 else 0) + (if flags.getLsbD 4 then 2 else 0) := rfl
  simp only [lengthOk, length, List.length_cons, Bool.and_eq_true, decide_eq_true_eq, beq_iff_eq]
  omega

/-- The length of a READ_CONFIG is the one that its item gives; an unknown item has none (R181). -/
theorem lengthOk_readConfig (item : Byte) (ps : List Byte) : lengthOk .readConfig (item :: ps) = true ↔
    (item.toNat = 1 ∨ item.toNat = 5 → ps.length = 0) ∧ (item.toNat ∈ [2, 3, 4, 6, 7, 8] → ps.length = 1) := by
  simp only [lengthOk, readConfigLengthOk, List.length_cons, List.mem_cons, List.not_mem_nil, or_false]
  generalize item.toNat = k
  split
  case isTrue hk =>
    obtain ⟨h1, h8⟩ := hk
    interval_cases k <;> simp [itemHasIndex]
  case isFalse hk =>
    refine iff_of_true rfl ⟨fun h => ?_, fun h => ?_⟩ <;> omega

/-- Settles O12: by the checks in their order, and by the tables of codes and lengths. -/
theorem engineRefusesBeforeTheCommand : Obligations.EngineRefusesBeforeTheCommand := by
  refine ⟨fun s p r h => ⟨fun hc => onlyAnswers_of_carryOut h hc rfl, fun c hc hk hp => onlyAnswers_of_carryOut h hc ?_,
      fun c hc hk hp hl => onlyAnswers_of_carryOut h hc ?_⟩, commandOf_unknown_iff,
    fun c hc => ⟨rfl, ?_⟩, fun r c h => commandOf_code h,
    fun r h => ⟨fun c hne hc => (commandOf_configure h).trans (configureOf_item hne hc),
      fun hbad => (commandOf_configure h).trans (configureOf_unknownItem hbad)⟩,
    fun c n ps h => lengthOk_fixed ps h, lengthOk_claim, fun ps h => ?_, fun ps => ?_, fun ps => ?_, rfl, lengthOk_readConfig⟩
  · rw [carryOut, if_neg hk, hp]; rfl
  · rw [carryOut, if_neg hk, hp, hl]; rfl
  · cases c <;> simp [permitted, controlMaySend]
  · simp [lengthOk, Nat.not_le.2 h]
  · simp [lengthOk]
  · cases ps <;> simp [lengthOk]

end Sys2Proof.Machine
end

section
/-! PROOFS. The predicates of a scan and of a departure do not see the ports and what is due; HOLD, RESUME, the clearing
commands, QUIET_END and the scan (R36 to R39, R54, R124, R137, R155, R156). -/

set_option Elab.async false

namespace Sys2Proof.Machine

/-! ## States that differ in their ports and in what is due -/

/-- The second part is the first one, but for its ports, the port served last and what is due. -/
def State.like (s t : State) : Prop :=
  ∃ (ports : PerPort LinkPort) (lastServed : Port) (due : List TickEvent),
    t = { s with ports := ports, lastServed := lastServed, due := due }

theorem like_refl (s : State) : s.like s := ⟨_, _, _, rfl⟩

/-- What taking a request and answering it do to the rest of the part: nothing. -/
theorem takeRequest_like (s : State) (p : Port) : (s.takeRequest p).like s := ⟨_, _, _, rfl⟩

theorem ports_like (s : State) (ports : PerPort LinkPort) : s.like { s with ports := ports } := ⟨_, _, _, rfl⟩

/-- The work of an event starts without the event due, and ends with what is still due (R21). -/
theorem takeEvent_like {e : TickEvent} {s : State} (h : e ∈ s.due) :
    (State.tickWork e { s with due := s.due.erase e }).like (s.takeEvent e) := by
  obtain ⟨due, eq⟩ := takeEvent_of_due h
  exact ⟨_, _, due, eq⟩

theorem erased_like (s : State) (e : TickEvent) : State.like { s with due := s.due.erase e } s := ⟨_, _, _, rfl⟩

/-- An event leaves the ports alone. -/
theorem takeEvent_portsKept (e : TickEvent) (s : State) : s.portsKept (s.takeEvent e) :=
  (portsKept_actParts s).plainActLaw.toEventLaw.takeEvent e s ⟨rfl, rfl⟩

section
variable {s t s' t' : State}

theorem State.like.settingsKept (hs : s.like s') (ht : t.like t') (h : s.settingsKept t) : s'.settingsKept t' := by
  obtain ⟨_, _, _, rfl⟩ := hs
  obtain ⟨_, _, _, rfl⟩ := ht
  rw [settingsKept_iff] at h ⊢
  exact h

theorem State.like.onlyGranted (hs : s.like s') (ht : t.like t') (h : s.onlyGranted t) : s'.onlyGranted t' := by
  obtain ⟨_, _, _, rfl⟩ := hs
  obtain ⟨_, _, _, rfl⟩ := ht
  exact h

theorem State.like.othersKept (hs : s.like s') (ht : t.like t') {i : SlotNo} (h : s.othersKept t i) : s'.othersKept t' i := by
  obtain ⟨_, _, _, rfl⟩ := hs
  obtain ⟨_, _, _, rfl⟩ := ht
  exact h

theorem State.like.channelsKept (hs : s.like s') (ht : t.like t') {left : OutputNo → Bool} (h : s.channelsKept t left) :
    s'.channelsKept t' left := by
  obtain ⟨_, _, _, rfl⟩ := hs
  obtain ⟨_, _, _, rfl⟩ := ht
  exact h

theorem State.like.groupsQuieted (hs : s.like s') (ht : t.like t') {left : OutputNo → Bool} (h : s.groupsQuieted t left) :
    s'.groupsQuieted t' left := by
  obtain ⟨_, _, _, rfl⟩ := hs
  obtain ⟨_, _, _, rfl⟩ := ht
  exact h

theorem State.like.noticesAfter (hs : s.like s') (ht : t.like t') {A D : Port → Notice → Prop} (h : s.noticesAfter t A D) :
    s'.noticesAfter t' A D := by
  obtain ⟨_, _, _, rfl⟩ := hs
  obtain ⟨_, _, _, rfl⟩ := ht
  exact h

theorem State.like.noticesFollow (hs : s.like s') (ht : t.like t') {both : Notice → Prop} (h : s.noticesFollow t both) :
    s'.noticesFollow t' both := by
  obtain ⟨_, _, _, rfl⟩ := hs
  obtain ⟨_, _, _, rfl⟩ := ht
  exact h

theorem State.like.noticed (ht : t.like t') {p : Port} {n : Notice} (h : t.noticed p n) : t'.noticed p n := by
  obtain ⟨_, _, _, rfl⟩ := ht
  exact h

theorem State.like.endsDelivered (hs : s.like s') (ht : t.like t') {i : SlotNo} (h : s.endsDelivered t i) :
    s'.endsDelivered t' i := by
  obtain ⟨_, _, _, rfl⟩ := hs
  obtain ⟨_, _, _, rfl⟩ := ht
  exact h

theorem State.like.dependentsLost (hs : s.like s') (ht : t.like t') {i : SlotNo} (h : s.dependentsLost t i) :
    s'.dependentsLost t' i := by
  obtain ⟨_, _, _, rfl⟩ := hs
  obtain ⟨_, _, _, rfl⟩ := ht
  exact h

theorem State.like.anchorLost (hs : s.like s') (ht : t.like t') {i : SlotNo} (h : s.anchorLost t i) : s'.anchorLost t' i := by
  obtain ⟨_, _, _, rfl⟩ := hs
  obtain ⟨_, _, _, rfl⟩ := ht
  exact h

theorem State.like.grown (hs : s.like s') (ht : t.like t') (h : s.grown t) : s'.grown t' := by
  obtain ⟨granted, groups, settings, queue⟩ := h
  have settings' := hs.settingsKept ht settings
  have granted' := hs.onlyGranted ht granted
  obtain ⟨_, _, _, rfl⟩ := hs
  obtain ⟨_, _, _, rfl⟩ := ht
  exact ⟨granted', groups, settings', queue⟩

theorem State.like.testOutcome (ht : t.like t') {w : State} {j : SlotNo} {r : Permit} (h : w.testOutcome t j r) :
    w.testOutcome t' j r := by
  obtain ⟨_, _, _, rfl⟩ := ht
  exact h

theorem State.like.chainTested (ht : t.like t') {j : SlotNo} {r : Permit} (h : s.chainTested t j r) :
    s.chainTested t' j r := by
  obtain ⟨w, before, after, outcome⟩ := h
  exact ⟨w, before, (like_refl w).grown ht after, ht.testOutcome outcome⟩

theorem State.like.chainsRun (ht : t.like t') {granted : List SlotNo} {tested : SlotNo → Prop}
    (h : s.chainsRun t granted tested) : s.chainsRun t' granted tested := by
  obtain ⟨grants, losses, awaiting, delays, others, grown, noticed, queue, follow⟩ := h
  have grown' := (like_refl s).grown ht grown
  have tested' {j : SlotNo} {r : Permit} (h : s.chainTested t j r) := ht.chainTested h
  obtain ⟨_, _, _, rfl⟩ := ht
  exact ⟨fun i j r a hd hg => ⟨(grants i j r a hd hg).1, fun h0 => tested' ((grants i j r a hd hg).2 h0)⟩, losses, awaiting,
    fun j r d hj => ⟨fun hT => tested' ((delays j r d hj).1 hT), (delays j r d hj).2⟩, others, grown', noticed, queue, follow⟩

theorem State.like.scannedWith (hs : s.like s') (ht : t.like t') {tested : SlotNo → Prop} (h : s.scannedWith t tested) :
    s'.scannedWith t' tested := by
  obtain ⟨u, v, granted, hu, walked, run, follow⟩ := h
  have run' := ht.chainsRun run
  have follow' := hs.noticesFollow ht follow
  obtain ⟨_, _, _, rfl⟩ := hs
  exact ⟨u, v, granted, hu, walked, run', follow'⟩

theorem State.like.scanned (hs : s.like s') (ht : t.like t') (h : s.scanned t) : s'.scanned t' := hs.scannedWith ht h

theorem State.like.leftLive (hs : s.like s') {i : SlotNo} {fault : Option OutputNo} (h : s.leftLive t i fault) :
    s'.leftLive t i fault := by
  obtain ⟨slots, channels, groups, queue, settings, follow⟩ := h
  have settings' := hs.settingsKept (like_refl t) settings
  obtain ⟨_, _, _, rfl⟩ := hs
  exact ⟨slots, channels, groups, queue, settings', follow⟩

theorem State.like.exited (hs : s.like s') (ht : t.like t') {i : SlotNo} {fault : Option OutputNo} (h : s.exited t i fault) :
    s'.exited t' i fault := by
  obtain ⟨u, left, slot, scanned, follow⟩ := h
  have scanned' := (like_refl u).scannedWith ht scanned
  have left' := hs.leftLive left
  have follow' := hs.noticesFollow ht follow
  obtain ⟨_, _, _, rfl⟩ := hs
  obtain ⟨_, _, _, rfl⟩ := ht
  exact ⟨u, left', slot, scanned', follow'⟩

theorem State.like.departed (hs : s.like s') (ht : t.like t') {i : SlotNo} (h : s.departed t i) : s'.departed t' i := by
  obtain ⟨others, channels, holds, groups, settings, exited⟩ := h
  have settings' := hs.settingsKept ht settings
  have exited' := hs.exited ht exited
  obtain ⟨_, _, _, rfl⟩ := hs
  obtain ⟨_, _, _, rfl⟩ := ht
  exact ⟨others, channels, holds, groups, settings', exited'⟩

theorem State.like.leftQueue (hs : s.like s') (ht : t.like t') {i : SlotNo} (h : s.leftQueue t i) : s'.leftQueue t' i := by
  obtain ⟨⟨u, lost, slot, settings, scanned⟩, follow⟩ := h
  have lost' := hs.anchorLost (like_refl u) lost
  have settings' := hs.settingsKept (like_refl u) settings
  have scanned' := (like_refl u).scanned ht scanned
  have follow' := hs.noticesFollow ht follow
  obtain ⟨_, _, _, rfl⟩ := ht
  exact ⟨⟨u, lost', slot, settings', scanned'⟩, follow'⟩

theorem State.like.grantedTo (hs : s.like s') (ht : t.like t') {i : SlotNo} {r : Permit} (h : s.grantedTo t i r) :
    s'.grantedTo t' i r := by
  obtain ⟨slots, queue, channels, groups, settings, rest⟩ := h
  have settings' := hs.settingsKept ht settings
  obtain ⟨_, _, _, rfl⟩ := hs
  obtain ⟨_, _, _, rfl⟩ := ht
  exact ⟨slots, queue, channels, groups, settings', rest⟩

end

/-- What is due after a command does not depend on its answer. -/
theorem keepsDue_answered {s u : State} {p : Port} (h : (s.takeRequest p).keepsDue u) (ports : PerPort LinkPort) :
    s.keepsDue { u with ports := ports } := h

/-! ## Scans -/

/-- Settles O48: by the laws of the walk and of the GRANT events that follow it (R36, R38, R39). -/
theorem scanGrantsInOrderAndNotInHold : Obligations.ScanGrantsInOrderAndNotInHold := by
  refine ⟨fun s hm => ?_, fun s => ⟨scan_scanned s, (scan_evolves s).onlyGranted, s.walkQueue.part, s.walkQueue.granted,
    walkQueue_walked s, rfl, grantEvents_chainsRun _ _ (walkQueue_granted s)⟩⟩
  obtain ⟨part, granted⟩ := walkQueue_hold hm
  rw [State.scan, part, granted]
  rfl

/-- What a command that ends in a scan of `u` leaves, as its answer shows it (R36 to R38). -/
theorem scanned_answer {s u : State} {p : Port} (ports : PerPort LinkPort) (hu : u.slots = (s.takeRequest p).slots)
    (hd : u.due = (s.takeRequest p).due) :
    u.settingsKept { u.scan with ports := ports } ∧ ({ u.scan with ports := ports } : State).groups = u.groups
      ∧ u.onlyGranted { u.scan with ports := ports } ∧ s.keepsDue { u.scan with ports := ports }
      ∧ u.scanned { u.scan with ports := ports } := by
  have after : u.scan.like { u.scan with ports := ports } := ports_like _ _
  have evolves := scan_evolves u
  refine ⟨(like_refl u).settingsKept after evolves.settings, evolves.groups, (like_refl u).onlyGranted after evolves.onlyGranted,
    ?_, (like_refl u).scanned after (scan_scanned u)⟩
  exact keepsDue_congr (scan_keepsDue u) hd.symm rfl (fun j => by rw [State.slot, State.slot, hu]; rfl) fun _ => rfl

/-- Settles O37: RESUME is a scan in RUN (R155, R156). -/
theorem holdAndResumeMoveTheMode : Obligations.HoldAndResumeMoveTheMode := by
  refine fun s p r => ⟨fun h => ⟨fun hm => refuses h ?_, fun hm => ?_⟩, fun h => ⟨fun hm => refuses h ?_, fun hm => ?_⟩⟩
  · show holdAct p r.params (s.takeRequest p) = _
    have hm' : (s.takeRequest p).mode ≠ .run := hm
    rw [holdAct]
    split
    case h_1 h => exact absurd h hm'
    all_goals rfl
  · have hm' : (s.takeRequest p).mode = .run := hm
    have act : holdAct p r.params (s.takeRequest p) = accept { s.takeRequest p with mode := .hold } := by
      simp only [holdAct, hm']
    obtain ⟨ports, he, ha⟩ := exec_answers h act
    exact ⟨_, he, ha, rfl⟩
  · show resumeAct p r.params (s.takeRequest p) = _
    have hm' : (s.takeRequest p).mode ≠ .hold := hm
    rw [resumeAct]
    split
    case h_1 h => exact absurd h hm'
    all_goals rfl
  · have hm' : (s.takeRequest p).mode = .hold := hm
    have act : resumeAct p r.params (s.takeRequest p) = accept (State.scan { s.takeRequest p with mode := .run }) := by
      simp only [resumeAct, hm']
    obtain ⟨ports, he, ha⟩ := exec_answers h act
    obtain ⟨settings, groups, granted, due, scanned⟩ :=
      scanned_answer (s := s) (p := p) (u := { s.takeRequest p with mode := .run }) ports rfl rfl
    have before : State.like { s.takeRequest p with mode := .run } { s with mode := .run } := ⟨_, _, _, rfl⟩
    have after := like_refl ({ State.scan { s.takeRequest p with mode := .run } with ports := ports } : State)
    have settings' := before.settingsKept after settings
    obtain ⟨-, -, mode, -⟩ := (settingsKept_iff _ _).1 settings'
    exact ⟨_, he, ha, mode, settings', groups, before.onlyGranted after granted, due, before.scanned after scanned⟩

/-! ## The clearing commands -/

/-- A CLEAR_TRIP that its checks let through clears the latch, and a scan follows (R137). -/
theorem clearTripAct_clears {p : Port} {params : List Byte} {t : State} {l : LineNo} (hl : byteAt params 0 = l.val)
    (he : (t.line l).enabled = true) (hlatch : (t.line l).latched = true)
    (hc : (t.line l).filterCount < (t.line l).filterLength) :
    clearTripAct p params t = accept (t.setLine l { t.line l with latched := false }).scan := by
  simp only [clearTripAct, hl, lineOf_val, he, hlatch]
  rw [if_neg (by simp), if_neg (Nat.not_le.2 hc)]

/-- A CLEAR_FAULT that its checks let through makes the output IDLE, and a scan follows (R124). -/
theorem clearFaultAct_clears {p : Port} {params : List Byte} {t : State} {o : OutputNo} (ho : byteAt params 0 = o.val)
    (hf : (t.channel o).state = .faulted) (hfb : (t.channel o).feedback = .off) :
    clearFaultAct p params t = accept (t.setChannel o { t.channel o with
      state := .idle, expected := .off, supervision := freshSupervision (t.channel o).settleTime }).scan := by
  simp only [clearFaultAct, ho, outputOf_val]
  rw [if_neg (by simp [hf]), if_neg (by simp [hfb])]

/-- Settles O39: by the checks in their order, and by the laws of the scan (R124, R137). -/
theorem clearTripAndClearFault : Obligations.ClearTripAndClearFault := by
  refine ⟨fun s p r h => ⟨fun hbad => refuses h ?_, fun l hl => ⟨fun hw => refuses h ?_,
      fun hen hla => ⟨fun hc => refuses h ?_, fun hc => ?_⟩⟩⟩,
    fun s p r h => ⟨fun hbad => refuses h ?_, fun o ho => ⟨fun hw => refuses h ?_,
      fun hf => ⟨fun hfb => refuses h ?_, fun hfb => ?_⟩⟩⟩⟩
  · simp only [Command.act, clearTripAct, lineOf_eq_none hbad]
  · simp only [Command.act, clearTripAct, hl, lineOf_val]
    exact if_pos hw
  · simp only [Command.act, clearTripAct, hl, lineOf_val]
    have hw : ¬ ((s.line l).enabled = false ∨ (s.line l).latched = false) := by simp [hen, hla]
    exact (if_neg hw).trans (if_pos hc)
  · obtain ⟨ports, he, ha⟩ := exec_answers h (clearTripAct_clears (p := p) (t := s.takeRequest p) hl hen hla hc)
    obtain ⟨u, hu⟩ : ∃ u : State, u = (s.takeRequest p).setLine l { (s.takeRequest p).line l with latched := false } := ⟨_, rfl⟩
    rw [← hu] at he ha
    obtain ⟨settings, groups, granted, due, scanned⟩ :=
      scanned_answer (s := s) (p := p) (u := u) ports (by rw [hu]; rfl) (by rw [hu]; rfl)
    obtain ⟨-, -, -, -, -, -, -, lines, -⟩ := (settingsKept_iff _ _).1 settings
    have before : u.like { s with tripLines := ({ u.scan with ports := ports } : State).tripLines } := by
      rw [lines, hu]; exact ⟨_, _, _, rfl⟩
    have after := like_refl ({ u.scan with ports := ports } : State)
    have line (l' : LineNo) : ({ u.scan with ports := ports } : State).line l' = u.line l' :=
      congrArg (fun v => v.get l') lines
    refine ⟨_, he, ha, ?_, fun l' hl' => ?_, before.settingsKept after settings, ?_, ?_, due, before.scanned after scanned⟩
    · rw [line, hu, State.setLine_line, if_pos rfl]; rfl
    · rw [line, hu, State.setLine_line, if_neg hl']; rfl
    · exact groups.trans (by rw [hu]; rfl)
    · exact before.onlyGranted after granted
  · simp only [Command.act, clearFaultAct, outputOf_eq_none hbad]
  · simp only [Command.act, clearFaultAct, ho, outputOf_val]
    exact if_pos hw
  · simp only [Command.act, clearFaultAct, ho, outputOf_val]
    exact (if_neg (not_not.2 hf)).trans (if_pos hfb)
  · obtain ⟨ports, he, ha⟩ := exec_answers h (clearFaultAct_clears (p := p) (t := s.takeRequest p) ho hf hfb)
    obtain ⟨c, hc⟩ : ∃ c : Channel, c = { s.channel o with
      state := .idle, expected := .off, supervision := freshSupervision (s.channel o).settleTime } := ⟨_, rfl⟩
    obtain ⟨settings, groups, granted, due, scanned⟩ :=
      scanned_answer (s := s) (p := p) (u := (s.takeRequest p).setChannel o c) ports rfl rfl
    have before : State.like ((s.takeRequest p).setChannel o c) (s.setChannel o c) := ⟨_, _, _, rfl⟩
    have after := like_refl ({ State.scan ((s.takeRequest p).setChannel o c) with ports := ports } : State)
    have act : exec .clearFault s = .next { State.scan ((s.takeRequest p).setChannel o c) with ports := ports } := by
      rw [hc]; exact he
    refine ⟨_, s.setChannel o c, act, by rw [hc]; exact ha, rfl, ?_, fun o' ho' => ?_, before.settingsKept after settings, groups,
      before.onlyGranted after granted, due, before.scanned after scanned⟩
    · rw [State.setChannel_channel, if_pos rfl, hc]; rfl
    · rw [State.setChannel_channel, if_neg ho']

/-! ## QUIET_END -/

theorem exec_event_quiet (g : GroupNo) (s : State) : exec (.quietEnd g) s = .next (s.takeEvent (.quiet g)) := rfl

/-- The groups after one of them is written. -/
theorem setGroup_groups {s t : State} {g : GroupNo} {x : Group} (h : t.groups = (s.setGroup g x).groups) :
    t.group g = x ∧ ∀ g' : GroupNo, g' ≠ g → t.group g' = s.group g' := by
  have group (g' : GroupNo) : t.group g' = (s.setGroup g x).group g' := congrArg (fun v => v.get g') h
  exact ⟨by rw [group, State.setGroup_group, if_pos rfl], fun g' hg' => by rw [group, State.setGroup_group, if_neg hg']⟩

/-- Settles O45: by the quiet remaining (R53, R54). -/
theorem quietEndScansTheQueue : Obligations.QuietEndScansTheQueue := by
  refine ⟨fun s g hdue hq => ?_, fun s g hdue hq => ?_⟩
  · have work : State.tickWork (.quiet g) { s with due := s.due.erase (.quiet g) }
        = ({ s with due := s.due.erase (.quiet g) } : State).setGroup g
            { s.group g with quietRemaining := (s.group g).quietRemaining - 1 } :=
      if_neg (Nat.not_le.2 hq)
    have like := takeEvent_like hdue
    rw [work] at like
    have leaves := takeEvent_leavesDue hdue
    have kept := takeEvent_portsKept (.quiet g) s
    refine ⟨_, exec_event_quiet g s, ?_⟩
    generalize s.takeEvent (.quiet g) = t at like leaves kept
    obtain ⟨ports, served, due, rfl⟩ := like
    obtain ⟨rfl, rfl⟩ : ports = s.ports ∧ served = s.lastServed := kept
    obtain ⟨same, others⟩ := setGroup_groups (s := s) (g := g)
      (x := { s.group g with quietRemaining := (s.group g).quietRemaining - 1 }) rfl
    exact ⟨same, others, rfl, leaves⟩
  · obtain ⟨u, hu⟩ : ∃ u : State, u = ({ s with due := s.due.erase (.quiet g) } : State).setGroup g
        { s.group g with quietRemaining := 0 } := ⟨_, rfl⟩
    have work : State.tickWork (.quiet g) { s with due := s.due.erase (.quiet g) } = u.scan := by
      rw [hu]
      exact if_pos (Nat.le_of_eq hq)
    have like := takeEvent_like hdue
    rw [work] at like
    have evolves := scan_evolves u
    have groups : (s.takeEvent (.quiet g)).groups = (s.setGroup g { s.group g with quietRemaining := 0 }).groups := by
      obtain ⟨_, _, _, eq⟩ := like
      rw [eq]
      exact evolves.groups.trans (by rw [hu]; rfl)
    obtain ⟨same, others⟩ := setGroup_groups groups
    have before : u.like { s with groups := (s.takeEvent (.quiet g)).groups } := by
      rw [groups, hu]; exact ⟨_, _, _, rfl⟩
    have settings := before.settingsKept like evolves.settings
    exact ⟨_, exec_event_quiet g s, same, others, (settingsKept_iff _ _).2 ((settingsKept_iff _ _).1 settings),
      takeEvent_portsKept _ s, before.onlyGranted like evolves.onlyGranted, before.scanned like (scan_scanned u),
      takeEvent_leavesDue hdue⟩

end Sys2Proof.Machine
end

section
/-! PROOFS. The commands that free slots: RETIRE, PURGE (R16, R20) and RESTART (R163). -/

set_option Elab.async false

namespace Sys2Proof.Machine

/-! ## CLOSED slots freed -/

/-- `t` is `s` with the CLOSED slots `gone` of a port freed: the generation of each raised, its notices out of the port's set,
and nothing else changed (R7, R14). -/
structure State.freedOf (s t : State) (owner : Port) (gone : List SlotNo) : Prop where
  slot : ∀ i : SlotNo, t.slot i =
    if i ∈ gone then { generation := (s.slot i).generation + 1, state := .free } else s.slot i
  entries : ∀ e : NoticeEntry, e ∈ (t.notices.get owner).entries ↔
    e ∈ (s.notices.get owner).entries ∧ ∀ i ∈ e.notice.slot, i ∉ gone
  unit : t.notices.get owner = { s.notices.get owner with entries := (t.notices.get owner).entries }
  other : t.notices.get (otherPort owner) = s.notices.get (otherPort owner)
  rest : t = { s with slots := t.slots, notices := t.notices, due := t.due }

theorem closedOf_iff {s : State} {owner : Port} {i : SlotNo} :
    s.closedOf owner i = true ↔ ∃ (q : Permit) (c : Closure), (s.slot i).state = .closed q c ∧ q.owner = owner := by
  unfold State.closedOf
  cases h : (s.slot i).state <;> simp

theorem enterFree_freedOf {s : State} {owner : Port} {i : SlotNo} {q : Permit} (hq : (s.slot i).state.record = some q)
    (ho : q.owner = owner) : s.freedOf (s.enterFree i) owner [i] := by
  subst ho
  have eq := enterFree_eq hq
  generalize s.enterFree i = t at eq
  subst eq
  refine ⟨fun j => ?_, fun e => ?_, ?_, ?_, rfl⟩
  · simp only [State.setNotices_slot, State.setSlot_slot, List.mem_singleton]
    by_cases h : j = i <;> simp [h]
  · simp only [State.setNotices_notices, PerPort.get_set_same, NoticeUnit.dropSlot, List.mem_filter, decide_eq_true_eq,
      List.mem_singleton]
    cases e.notice.slot <;> simp
  · simp [NoticeUnit.dropSlot]
  · simp

theorem State.freedOf.trans {s t u : State} {owner : Port} {i : SlotNo} {gone : List SlotNo} (h : s.freedOf t owner [i])
    (k : t.freedOf u owner gone) (hi : i ∉ gone) : s.freedOf u owner (i :: gone) := by
  refine ⟨fun j => ?_, fun e => ?_, ?_, k.other.trans h.other, ?_⟩
  · rw [k.slot j, h.slot j]
    by_cases hj : j = i
    · simp [hj, hi]
    · simp [hj]
  · rw [k.entries e, h.entries e]
    simp only [List.mem_cons, List.not_mem_nil, or_false, not_or]
    exact ⟨fun ⟨⟨he, h1⟩, h2⟩ => ⟨he, fun j hj => ⟨h1 j hj, h2 j hj⟩⟩,
      fun ⟨he, h12⟩ => ⟨⟨he, fun j hj => (h12 j hj).1⟩, fun j hj => (h12 j hj).2⟩⟩
  · have unit := k.unit
    rw [h.unit] at unit
    exact unit
  · have rest := k.rest
    rw [h.rest] at rest
    exact rest

theorem enterFree_all_freedOf (owner : Port) (gone : List SlotNo) (s : State) (hn : gone.Nodup)
    (hc : ∀ i ∈ gone, s.closedOf owner i = true) : s.freedOf (gone.foldl (fun t i => t.enterFree i) s) owner gone := by
  induction gone generalizing s with
  | nil => exact ⟨fun i => by simp, fun e => by simp, rfl, rfl, rfl⟩
  | cons i rest ih =>
    obtain ⟨hi, hrest⟩ := List.nodup_cons.1 hn
    obtain ⟨q, c, hq, ho⟩ := closedOf_iff.1 (hc i List.mem_cons_self)
    have first : s.freedOf (s.enterFree i) owner [i] := enterFree_freedOf (by rw [hq]; rfl) ho
    refine first.trans (ih (s.enterFree i) hrest fun j hj => ?_) hi
    have hji : j ∉ [i] := fun h => hi (List.mem_singleton.1 h ▸ hj)
    have same := first.slot j
    rw [if_neg hji] at same
    have old := hc j (List.mem_cons_of_mem _ hj)
    rw [closedOf_iff] at old ⊢
    rw [same]
    exact old

theorem purgeSlots_freedOf (owner : Port) (s : State) :
    s.freedOf (s.purgeSlots owner) owner (allSlots.filter (s.closedOf owner)) :=
  enterFree_all_freedOf owner _ s ((List.nodup_finRange 32).filter _) fun _ hi => (List.mem_filter.1 hi).2

theorem retireAct_closed {p : Port} {params : List Byte} {s : State} {h : Handle} {q : Permit} {cause : Closure}
    (hh : h = handleAt params 0) (hn : s.handle h.slot = h) (hs : (s.slot h.slot).state = .closed q cause)
    (ho : q.owner = p ∨ p = .supervisor) : retireAct p params s = accept (s.enterFree h.slot) := by
  subst hh
  unfold retireAct
  rw [withPermit_may hn (by rw [hs]; rfl) (ownerOrSupervisor_iff.2 ho), hs]

/-- Settles O22: one freed slot for RETIRE, and the CLOSED slots of the port for PURGE (R16, R20). -/
theorem retireAndPurgeFreeClosedSlots : Obligations.RetireAndPurgeFreeClosedSlots := by
  refine ⟨fun s p r h q cause hc hh hn hs ho => ?_, fun s p r hc => ⟨fun hbad => ?_, fun owner howner => ?_⟩⟩
  · obtain ⟨ports, he, ha⟩ := exec_answers hc (retireAct_closed (s := s.takeRequest p) hh hn hs ho)
    have hr : ((s.takeRequest p).slot h.slot).state.record = some q :=
      (congrArg SlotState.record hs : (s.slot h.slot).state.record = _)
    have eq := enterFree_eq hr
    have freed := enterFree_freedOf hr rfl
    have keeps := keepsDue_answered (enterFree_keepsDue (s.takeRequest p) h.slot) ports
    generalize (s.takeRequest p).enterFree h.slot = u at he ha eq freed keeps
    subst eq
    refine ⟨_, he, ha, ?_, fun j hj => ?_, ?_, freed.other, keeps, rfl⟩
    · exact (freed.slot h.slot).trans (if_pos (List.mem_singleton.2 rfl))
    · exact (freed.slot j).trans (if_neg fun hm => hj (List.mem_singleton.1 hm))
    · exact PerPort.get_set_same _ _ _
  · refine refuses hc ?_
    show purgeAct p r.params _ = _
    simp only [purgeAct, portOfCode_eq_none hbad]
  · have act : purgeAct p r.params (s.takeRequest p)
        = { state := (s.takeRequest p).purgeSlots owner, status := .ok
            payload := byteOf (allSlots.countP ((s.takeRequest p).closedOf owner)) } := by
      simp only [purgeAct, howner, portOfCode_portCode]
    obtain ⟨ports, he, ha⟩ := exec_answers hc act
    have freed := purgeSlots_freedOf owner (s.takeRequest p)
    have keeps := keepsDue_answered (purgeSlots_keepsDue owner (s.takeRequest p)) ports
    have gone (i : SlotNo) : i ∈ allSlots.filter ((s.takeRequest p).closedOf owner) ↔ s.closedOf owner i = true := by
      rw [List.mem_filter]
      exact ⟨And.right, fun h => ⟨mem_allSlots i, h⟩⟩
    refine ⟨_, he, ha, fun i => ?_, fun e => ?_, freed.unit, freed.other, keeps, ?_⟩
    · exact (freed.slot i).trans (if_congr (gone i) rfl rfl)
    · refine (freed.entries e).trans (and_congr_right fun _ => forall₂_congr fun i _ => ?_)
      rw [gone, Bool.not_eq_true]
    · have rest := freed.rest
      generalize (s.takeRequest p).purgeSlots owner = u at rest
      rw [rest]
      rfl

/-! ## RESTART -/

/-- The groups of the outputs that leave HELD start their quiet time (R52). -/
theorem letGo_groupsQuieted (s : State) (left : OutputNo → Bool) : s.groupsQuieted (s.letGo left) left := by
  intro g
  have any : allOutputs.any (fun o => left o && inSet (s.group g).members o) = true
      ↔ ∃ o : OutputNo, left o = true ∧ inSet (s.group g).members o = true := by simp
  rw [State.letGo_group, Group.startQuiet]
  by_cases h : ∃ o : OutputNo, left o = true ∧ inSet (s.group g).members o = true
  · rw [if_pos (any.2 h)]
    simp only [h, true_and]
  · rw [if_neg (fun ha => h (any.1 ha)), if_neg (fun hc => h hc.1)]

theorem noSlot_iff (x : TickEvent) :
    x.noSlot = true ↔ ∀ i : SlotNo, x ≠ .lease i ∧ x ≠ .wait i ∧ x ≠ .phase i ∧ x ≠ .delay i := by
  cases x <;> simp [TickEvent.noSlot]

/-- Settles O38: by the steps of RESTART, one block after the other (R163). -/
theorem restartFreesEverySlot : Obligations.RestartFreesEverySlot := by
  intro s p r h
  have hp : p = .supervisor := by
    obtain ⟨-, -, -, hp, -⟩ := h
    cases p with
    | control => simp [permitted, controlMaySend] at hp
    | supervisor => rfl
  subst hp
  have act : exec .restart s = .next (State.respond .supervisor r.tag
      { state := (s.takeRequest .supervisor).restart, status := .ok, payload := byteOf (s.epoch + 1).toNat }) :=
    engineStep_carries restartAct h
  refine ⟨rfl, _, act, ?_, rfl, rfl, fun i => ?_, fun q => ?_, rfl, fun o => ?_, fun g => ?_, fun q => ?_, rfl, rfl,
    fun x => ?_, rfl⟩
  · exact BitVec.toNat_add _ _
  · exact restart_slot (s.takeRequest .supervisor) i
  · refine List.countP_eq_zero.2 fun i _ => ?_
    have free := restart_slot (s.takeRequest .supervisor) i
    show ¬ ((s.takeRequest .supervisor).restart.slot i).state.ownedBy q = true
    rw [free]
    simp [SlotState.ownedBy, SlotState.record]
  · exact (restart_channel (s.takeRequest .supervisor) o).trans (by rw [channel_letGo_eq_driven]; rfl)
  · exact letGo_groupsQuieted s (fun o => (s.channel o).state.isHeld) g
  · cases q <;> exact ⟨rfl, rfl⟩
  · rw [← noSlot_iff]
    exact List.mem_filter

end Sys2Proof.Machine
end

section
/-! PROOFS. CLAIM: the validity checks in their order (R25), and the outcomes of a direct claim (R30 to R32). -/

set_option Elab.async false

namespace Sys2Proof.Machine

/-! ## The checks on the fields -/

theorem listOk_iff {f : ClaimFields} :
    f.listOk = true ↔ f.entries.length ≠ 0 ∧ ¬ 8 < f.entries.length ∧ (¬ ∃ e ∈ f.entries, 15 < e.1)
      ∧ (f.entries.map Prod.fst).Nodup := by
  have range : (∀ e ∈ f.entries, e.1 < 16) ↔ ¬ ∃ e ∈ f.entries, 15 < e.1 :=
    ⟨fun h ⟨e, he, hlt⟩ => Nat.not_le.2 hlt (Nat.le_of_lt_succ (h e he)),
      fun h e he => Nat.lt_succ_of_le (Nat.not_lt.1 fun hlt => h ⟨e, he, hlt⟩)⟩
  simp only [ClaimFields.listOk, Bool.and_eq_true, decide_eq_true_eq, List.all_eq_true, range, and_assoc,
    Nat.one_le_iff_ne_zero, Nat.not_lt]

theorem valuesOk_iff {f : ClaimFields} :
    f.valuesOk = true ↔ ¬ 3 < f.kind ∧ ¬ (f.kind ≠ 0 ∧ f.on = 0) ∧ ¬ (2 ≤ f.kind ∧ f.off = 0)
      ∧ ¬ (f.kind = 3 ∧ f.count = 0) ∧ ¬ ∃ a ∈ f.anchor, 1 < a.2.1 := by
  have on : (f.kind = 0 ∨ f.on ≠ 0) ↔ ¬ (f.kind ≠ 0 ∧ f.on = 0) := by tauto
  have off : (f.kind ≤ 1 ∨ f.off ≠ 0) ↔ ¬ (2 ≤ f.kind ∧ f.off = 0) := by omega
  have count : (f.kind ≠ 3 ∨ f.count ≠ 0) ↔ ¬ (f.kind = 3 ∧ f.count = 0) := by tauto
  rw [← on, ← off, ← count, ClaimFields.valuesOk]
  cases f.anchor <;> simp [and_assoc]

theorem invertOk_iff {f : ClaimFields} : f.invertOk = true ↔ ¬ (f.kind ≤ 1 ∧ ∃ e ∈ f.entries, e.2 = true) := by
  have entries : (∀ e ∈ f.entries, e.2 = false) ↔ ¬ ∃ e ∈ f.entries, e.2 = true := by simp
  rw [not_and_or, ← entries, Nat.not_le]
  simp only [ClaimFields.invertOk, Bool.or_eq_true, decide_eq_true_eq, List.all_eq_true, Bool.not_eq_true']
  rfl

theorem leaseOk_iff {p : Port} {f : ClaimFields} : f.leaseOk p = true ↔ ¬ (f.lease = 0 ∧ p = .control) := by
  cases p <;> simp [ClaimFields.leaseOk]

theorem guardOk_iff {f : ClaimFields} : f.guardOk = true ↔ ¬ ∃ g ∈ f.renewGuard, g = 0 ∨ f.lease < g := by
  unfold ClaimFields.guardOk
  cases f.renewGuard <;> simp [Nat.one_le_iff_ne_zero]

/-- Checks 1 to 5 of R25 pass together exactly where none of the faults of R26 stands. -/
theorem checksOk_iff {p : Port} {f : ClaimFields} :
    (f.listOk = true ∧ f.valuesOk = true ∧ f.invertOk = true ∧ f.leaseOk p = true ∧ f.guardOk = true)
      ↔ ¬ f.malformed p := by
  rw [listOk_iff, valuesOk_iff, invertOk_iff, leaseOk_iff, guardOk_iff]
  simp only [ClaimFields.malformed, not_or, not_not, and_assoc, ne_eq]

theorem claimRefusal_malformed {s : State} {p : Port} {f : ClaimFields} (h : f.malformed p) :
    s.claimRefusal p f = some .badParam := by
  have fails : ¬ (f.listOk = true ∧ f.valuesOk = true ∧ f.invertOk = true ∧ f.leaseOk p = true ∧ f.guardOk = true) :=
    fun ok => checksOk_iff.1 ok h
  unfold State.claimRefusal
  split_ifs with h1 h2 h3 h4 h5
  any_goals rfl
  all_goals
    exact absurd ⟨by simpa using h1, by simpa using h2, by simpa using h3, by simpa using h4, by simpa using h5⟩ fails

/-- Checks 6 to 9 of R25, in their order. -/
theorem claimRefusal_wellFormed {s : State} {p : Port} {f : ClaimFields} (h : ¬ f.malformed p) :
    s.claimRefusal p f =
      if s.selfConflict (f.outputs.map OutputEntry.output) then some .selfConflict
      else if p = .control ∧ (f.outputs.any fun e => inSet s.reserved e.output) = true then some .reserved
      else if s.mode = .setup then some .notRunning
      else if s.quota.get p ≤ s.usedCount p then some .noSlot
      else none := by
  obtain ⟨h1, h2, h3, h4, h5⟩ := checksOk_iff.2 h
  simp [State.claimRefusal, h1, h2, h3, h4, h5]

/-- Of outputs named once each, two are members of a group exactly where the group counts two of them (R49). -/
theorem selfConflict_iff {s : State} {outs : List OutputNo} (hn : outs.Nodup) :
    s.selfConflict outs = true ↔ s.conflicting outs := by
  simp only [State.selfConflict, List.any_eq_true, mem_allGroups, true_and, decide_eq_true_eq, State.conflicting,
    List.countP_eq_length_filter]
  refine exists_congr fun g => ⟨fun h => ?_, fun ⟨a, ha, b, hb, hab, hga, hgb⟩ => ?_⟩
  · have nodup := hn.filter (inSet (s.group g).members)
    have mem (x : OutputNo) (hx : x ∈ outs.filter (inSet (s.group g).members)) := List.mem_filter.1 hx
    match hl : outs.filter (inSet (s.group g).members), h with
    | a :: b :: rest, _ =>
      rw [hl] at mem nodup
      obtain ⟨ha, hga⟩ := mem a (by simp)
      obtain ⟨hb, hgb⟩ := mem b (by simp)
      exact ⟨a, ha, b, hb, fun hab => by simp [hab] at nodup, hga, hgb⟩
  · have sub : [a, b] ⊆ outs.filter (inSet (s.group g).members) := by
      simp [ha, hb, hga, hgb]
    exact (List.Nodup.subperm (by simp [hab]) sub).length_le

/-! ## The claim as a whole -/

theorem claimAct_refused {p : Port} {params : List Byte} {s : State} {f : ClaimFields} {st : Status} (hf : f = readClaim params)
    (h : s.claimRefusal p f = some st) : claimAct p params s = refuse st s := by
  subst hf
  simp only [claimAct, h]

theorem lowestFree_of_isLowestFree {s : State} {i : SlotNo} (h : s.isLowestFree i) : s.lowestFree = some i := by
  obtain ⟨free, lowest⟩ := h
  refine List.find?_eq_some_iff_getElem.2 ⟨by rw [free]; rfl, i.val, by simp [allSlots], by simp [allSlots], fun j hj => ?_⟩
  have notFree := lowest ⟨j, hj.trans i.isLt⟩ hj
  have get : allSlots[j]'(by simp [allSlots]; omega) = ⟨j, hj.trans i.isLt⟩ := by simp [allSlots]
  rw [get]
  generalize (s.slot ⟨j, hj.trans i.isLt⟩).state = x at notFree
  cases x <;> simp_all [SlotState.isFree, SlotState.record]

theorem exists_lowestFree {s : State} (h : ∃ i : SlotNo, (s.slot i).state = .free) : ∃ i : SlotNo, s.lowestFree = some i := by
  obtain ⟨i, hi⟩ := h
  refine Option.isSome_iff_exists.1 (List.find?_isSome.2 ⟨i, mem_allSlots i, ?_⟩)
  rw [hi]
  rfl

theorem claimAct_direct {p : Port} {params : List Byte} {s : State} {f : ClaimFields} {i : SlotNo} (hf : f = readClaim params)
    (h : s.claimRefusal p f = none) (hi : s.isLowestFree i) (ha : f.anchorField = none) :
    claimAct p params s = s.directClaim i (f.permit p 1) := by
  subst hf
  simp only [claimAct, h, lowestFree_of_isLowestFree hi, ha]

theorem claimAct_badAnchor {p : Port} {params : List Byte} {s : State} {f : ClaimFields} {a : Anchor} {st : Status}
    (hf : f = readClaim params) (h : s.claimRefusal p f = none) (hi : ∃ i : SlotNo, (s.slot i).state = .free)
    (ha : f.anchorField = some a) (hr : s.anchorRefusal p a.handle = some st) : claimAct p params s = refuse st s := by
  subst hf
  obtain ⟨i, hi⟩ := exists_lowestFree hi
  simp only [claimAct, h, hi, ha, hr]

theorem claimAct_armed {p : Port} {params : List Byte} {s : State} {f : ClaimFields} {i : SlotNo} {a : Anchor}
    (hf : f = readClaim params) (h : s.claimRefusal p f = none) (hi : s.isLowestFree i)
    (ha : f.anchorField = some a) (hr : s.anchorRefusal p a.handle = none) :
    claimAct p params s = s.armClaim i (f.permit p (s.depthAt a.handle + 1)) a := by
  subst hf
  simp only [claimAct, h, lowestFree_of_isLowestFree hi, ha, hr]

theorem anchorField_of_valuesOk {f : ClaimFields} {h : Handle} {event delay : Nat} (hv : f.valuesOk = true)
    (ha : f.anchor = some (h, event, delay)) : ∃ ev : AwaitedEvent, f.anchorField = some ⟨h, ev, delay⟩ := by
  have he : ¬ 1 < event := fun hlt => (valuesOk_iff.1 hv).2.2.2.2 ⟨_, ha, hlt⟩
  rcases (by omega : event = 0 ∨ event = 1) with rfl | rfl
  · exact ⟨.grant, by simp [ClaimFields.anchorField, ha, eventOfCode]⟩
  · exact ⟨.ending, by simp [ClaimFields.anchorField, ha, eventOfCode]⟩

/-- BAD_ANCHOR for a handle that names no standing permit of the claiming port (R97). -/
theorem anchorRefusal_badAnchor {s : State} {p : Port} {h : Handle}
    (hb : s.handle h.slot ≠ h ∨ (s.slot h.slot).state.ownedBy p = false
      ∨ ∃ (q : Permit) (c : Closure), (s.slot h.slot).state = .closed q c) : s.anchorRefusal p h = some .badAnchor := by
  unfold State.anchorRefusal
  cases hs : (s.slot h.slot).state <;> simp_all [SlotState.ownedBy, SlotState.record]

/-- CHAIN_DEPTH for an anchor of depth 4 (R97). -/
theorem anchorRefusal_chainDepth {s : State} {p : Port} {h : Handle} {q : Permit} (hn : s.handle h.slot = h)
    (hq : (s.slot h.slot).state.record = some q) (ho : q.owner = p) (hc : ∀ c : Closure, (s.slot h.slot).state ≠ .closed q c)
    (hd : 4 ≤ q.chainDepth) : s.anchorRefusal p h = some .chainDepth := by
  unfold State.anchorRefusal
  cases hs : (s.slot h.slot).state <;> simp_all [SlotState.record]

/-- Settles O14: by the checks in their order (R25). -/
theorem claimRefusedByFirstFailingCheck : Obligations.ClaimRefusedByFirstFailingCheck := by
  intro s p r f outs hc hf houts
  subst houts
  have refused {st : Status} (h : s.claimRefusal p f = some st) : s.onlyAnswers .claim p r st [] :=
    refuses hc (claimAct_refused (s := s.takeRequest p) hf h)
  refine ⟨fun hm => refused (claimRefusal_malformed hm), fun hm hx => ?_, fun hm hx => ⟨fun hp ⟨o, ho, hr⟩ => ?_, fun hres => ?_⟩⟩
  all_goals
    have nodup := outputs_nodup_of_listOk (checksOk_iff.2 hm).1
    have checks := claimRefusal_wellFormed (s := s) hm
    have conflict := selfConflict_iff (s := s) nodup
  · exact refused (checks.trans (if_pos (conflict.2 hx)))
  · rw [if_neg (mt conflict.1 hx)] at checks
    obtain ⟨e, he, rfl⟩ := List.mem_map.1 ho
    exact refused (checks.trans (if_pos ⟨hp, List.any_eq_true.2 ⟨e, he, hr⟩⟩))
  · rw [if_neg (mt conflict.1 hx), if_neg] at checks
    · refine ⟨fun hs => refused (checks.trans (if_pos hs)), fun hs hq => ?_, fun hs hq hi h event delay ha => ?_⟩
      · exact refused (checks.trans ((if_neg hs).trans (if_pos hq)))
      · have passes : s.claimRefusal p f = none := checks.trans ((if_neg hs).trans (if_neg (Nat.not_le.2 hq)))
        obtain ⟨ev, hev⟩ := anchorField_of_valuesOk (checksOk_iff.2 hm).2.1 ha
        exact ⟨fun hb => refuses hc (claimAct_badAnchor (s := s.takeRequest p) hf passes hi hev (anchorRefusal_badAnchor hb)),
          fun q hn hq ho hcl hd => refuses hc (claimAct_badAnchor (s := s.takeRequest p) hf passes hi hev
            (anchorRefusal_chainDepth hn hq ho hcl hd))⟩
    · rintro ⟨hp, hany⟩
      obtain ⟨e, he, hr⟩ := List.any_eq_true.1 hany
      exact absurd hr (by simp [hres hp e.output (List.mem_map.2 ⟨e, he, rfl⟩)])

/-! ## The outcomes of a direct claim -/

theorem anchorField_none {f : ClaimFields} (h : f.anchor = none) : f.anchorField = none := by
  simp [ClaimFields.anchorField, h]

theorem checksOk_of_claimRefusal {s : State} {p : Port} {f : ClaimFields} (h : s.claimRefusal p f = none) : ¬ f.malformed p :=
  fun hm => by rw [claimRefusal_malformed hm] at h; cases h

/-- The run part of a claim's record, read off the fields (R10, R60, R77). -/
theorem newRun_permit {p : Port} {f : ClaimFields} {depth : Nat} (hk : f.kind ≤ 3) :
    newRun (f.permit p depth) =
      { leaseRemaining := if f.lease = 0 then none else some f.lease
        phase := .on
        phaseRemaining := if f.kind = 0 then none else some f.on
        cyclesRemaining := if f.kind = 3 then some f.count else none
        staged := none } := by
  match hf : f.kind, hk with
  | 0, _ | 1, _ | 2, _ | 3, _ => simp [newRun, ClaimFields.pattern, hf, Pattern.phaseTime, ClaimFields.permit]

/-- What becomes of each output when the outputs of a list that names none twice become HELD (R115). -/
theorem enterLive_outputs {s : State} {i : SlotNo} {r : Permit} (hn : r.outputNos.Nodup) :
    (∀ e ∈ r.outputs, (s.enterLive i r).channel e.output
        = (s.channel e.output).driven (.held i e.invert) (onLevel e.invert))
      ∧ ∀ o : OutputNo, (∀ e ∈ r.outputs, e.output ≠ o) → (s.enterLive i r).channel o = s.channel o := by
  refine ⟨fun e he => ?_, fun o ho => ?_⟩
  · have found : r.outputs.find? (fun e' => decide (e'.output = e.output)) = some e := by
      cases hf : r.outputs.find? (fun e' => decide (e'.output = e.output)) with
      | none => exact absurd (List.find?_eq_none.1 hf e he) (by simp)
      | some e' =>
        have same : e'.output = e.output := by simpa using List.find?_some hf
        rw [List.inj_on_of_nodup_map hn (List.mem_of_find?_eq_some hf) he same]
    have channel := State.enterLive_channel s i r e.output
    rw [found] at channel
    exact channel.trans (take_eq_driven _ _ _)
  · have none : r.outputs.find? (fun e => decide (e.output = o)) = none :=
      List.find?_eq_none.2 fun e he => by simpa using ho e he
    have channel := State.enterLive_channel s i r o
    rw [none] at channel
    exact channel

theorem leaveQueue_of_not_mem {s : State} {i : SlotNo} (h : i ∉ s.waitQueue) : (s.leaveQueue i).waitQueue = s.waitQueue :=
  List.filter_eq_self.2 fun j hj => by simpa using fun e : j = i => h (e ▸ hj)

theorem not_queued_of_free {s : State} {i : SlotNo} (hq : s.queueLaw) (hi : (s.slot i).state = .free) : i ∉ s.waitQueue :=
  fun hm => by simpa [hi, SlotState.isWaiting] using (hq.2 i).1 hm

theorem directClaim_clear {s : State} {i : SlotNo} {r : Permit} (h : s.claimTest r.outputNos s.waitQueue = none) :
    s.directClaim i r = { state := s.enterLive i r, status := .granted, payload := handleBytes (s.handle i) } := by
  simp only [State.directClaim, h]

/-- Settles O16: the claim enters LIVE, and takes its outputs (R30). -/
theorem clearClaimIsGranted : Obligations.ClearClaimIsGranted := by
  intro s p r f i hc hf hq hr ha hi ht
  have admits := admits_of_claimRefusal hr 1
  have act := (claimAct_direct (s := s.takeRequest p) hf hr hi (anchorField_none ha)).trans
    (directClaim_clear (i := i) (r := f.permit p 1) ht)
  obtain ⟨ports, he, han⟩ := exec_answers hc act
  obtain ⟨held, kept⟩ := enterLive_outputs (s := s.takeRequest p) (i := i) admits.nodup
  have keeps := directClaim_keepsDue (s := s.takeRequest p) hi.1 (f.permit p 1)
  rw [directClaim_clear ht] at keeps
  have queue : ((s.takeRequest p).enterLive i (f.permit p 1)).waitQueue = s.waitQueue :=
    leaveQueue_of_not_mem (s := s.takeRequest p) (not_queued_of_free hq hi.1)
  have slot := State.enterLive_slot (s.takeRequest p) i (f.permit p 1)
  refine ⟨_, he, han, (slot i).trans ?_, fun j hj => (slot j).trans (if_neg hj), held, kept, keepsDue_answered keeps ports, ?_⟩
  · have fields : ¬ 3 < f.kind := (valuesOk_iff.1 (checksOk_iff.2 (checksOk_of_claimRefusal hr)).2.1).1
    rw [if_pos rfl, newRun_permit (Nat.not_lt.1 fields)]
    have record : f.permit p 1 = { owner := p, outputs := f.outputs, pattern := f.pattern
                                   closeOnCompletion := f.closeOnCompletion, lease := f.lease, renewGuard := f.renewGuard
                                   waitLimit := f.waitLimit, anchor := none, chainDepth := 1, label := f.label } := by
      rw [ClaimFields.permit, anchorField_none ha]
    rw [record]
    rfl
  · have rest : (s.takeRequest p).enterLive i (f.permit p 1)
        = { s.takeRequest p with
            slots := ((s.takeRequest p).enterLive i (f.permit p 1)).slots
            waitQueue := ((s.takeRequest p).enterLive i (f.permit p 1)).waitQueue
            channels := ((s.takeRequest p).enterLive i (f.permit p 1)).channels
            due := ((s.takeRequest p).enterLive i (f.permit p 1)).due } := rfl
    generalize (s.takeRequest p).enterLive i (f.permit p 1) = u at queue rest
    rw [rest, queue]
    rfl

theorem directClaim_blocked {s : State} {i : SlotNo} {r : Permit} {reason : BlockReason}
    (h : s.claimTest r.outputNos s.waitQueue = some reason) (hw : r.waitLimit = 0) :
    s.directClaim i r = { state := s, status := .blocked, payload := byteOf (blockReasonCode reason) } := by
  simp only [State.directClaim, h, hw, Nat.lt_irrefl, if_false]

theorem directClaim_queued {s : State} {i : SlotNo} {r : Permit} {reason : BlockReason}
    (h : s.claimTest r.outputNos s.waitQueue = some reason) (hw : 0 < r.waitLimit) :
    s.directClaim i r = { state := s.enterWaiting i r, status := .queued
                          payload := handleBytes (s.handle i) ++ byteOf (blockReasonCode reason)
                            ++ byteOf (s.enterWaiting i r).waitQueue.length } := by
  have length : (s.enterWaiting i r).waitQueue.length = s.waitQueue.length + 1 := List.length_append
  simp only [State.directClaim, h, hw, if_true, length]

/-- Settles O17: by the wait limit (R31, R32). -/
theorem blockedClaimWaitsOrLeavesNoTrace : Obligations.BlockedClaimWaitsOrLeavesNoTrace := by
  intro s p r f i reason hc hf hr ha hi ht
  have act := claimAct_direct (s := s.takeRequest p) hf hr hi (anchorField_none ha)
  refine ⟨fun hw => answersOnly hc (act.trans (directClaim_blocked ht hw)), fun hw => ?_⟩
  have queued := directClaim_queued (s := s.takeRequest p) (i := i) (r := f.permit p 1) ht hw
  obtain ⟨ports, he, han⟩ := exec_answers hc (act.trans queued)
  have keeps := directClaim_keepsDue (s := s.takeRequest p) hi.1 (f.permit p 1)
  rw [queued] at keeps
  have slot := State.enterWaiting_slot (s.takeRequest p) i (f.permit p 1)
  have same := (slot i).trans (if_pos rfl)
  have generation : (((s.takeRequest p).enterWaiting i (f.permit p 1)).slot i).generation = (s.slot i).generation :=
    (congrArg Slot.generation same :)
  have state : (((s.takeRequest p).enterWaiting i (f.permit p 1)).slot i).state = .waiting (f.permit p 1) f.waitLimit :=
    (congrArg Slot.state same :)
  exact ⟨_, he, han, generation, state, fun j hj => (slot j).trans (if_neg hj), rfl, keepsDue_answered keeps ports, rfl⟩

end Sys2Proof.Machine
end

section
/-! PROOFS. The end of a permit by a command or by a timer, said once for its three states; RELEASE, REVOKE (R15, R19),
LEASE_EXPIRY and WAIT_TIMEOUT (R35, R62). -/

set_option Elab.async false

namespace Sys2Proof.Machine

/-! ## What a cascade keeps of a slot that has ended -/

/-- A slot that is neither WAITING nor ARMED does not come into the queue (R34). -/
theorem outOfQueue_cascade (W : Prop) (i : SlotNo) :
    Cascade W (fun _ => True) (fun _ => True) (fun t => (t.slot i).state.settled = true ∧ i ∉ t.waitQueue) where
  lost t j r a ht _ _ hj := by
    have hij : i ≠ j := fun e => by simp [e, hj, SlotState.settled] at ht
    simpa [State.setSlotState_slot, hij] using ht
  started t j r a ht _ _ hj := by
    have hij : i ≠ j := fun e => by simp [e, hj, SlotState.settled] at ht
    simpa [State.setSlotState_slot, hij] using ht
  granted t j r ahead ht hj _ := by
    have hij : i ≠ j := fun e => by
      obtain ⟨-, w, hw⟩ | ⟨-, d, hd⟩ := hj
      · simp [e, hw, SlotState.settled] at ht
      · simp [e, hd, SlotState.settled] at ht
    obtain ⟨hs, hq⟩ := ht
    refine ⟨?_, fun hm => hq (List.mem_filter.1 hm).1⟩
    rw [State.post_slot, State.enterLive_slot, if_neg hij]
    exact hs
  queued t j r d ht hj _ _ := by
    have hij : i ≠ j := fun e => by simp [e, hj, SlotState.settled] at ht
    obtain ⟨hs, hq⟩ := ht
    refine ⟨by rw [State.enterWaiting_slot, if_neg hij]; exact hs, fun hm => ?_⟩
    rcases List.mem_append.1 hm with hm | hm
    · exact hq hm
    · exact hij (List.mem_singleton.1 hm)
  blocked t j r d reason ht hj _ := by
    have hij : i ≠ j := fun e => by simp [e, hj, SlotState.settled] at ht
    simpa [State.setSlotState_slot, hij] using ht
  chosen _ ht := ht
  awaiting _ _ _ _ _ := trivial
  gives _ _ _ _ := trivial

/-- No entry of port `p` names slot `i`, which is FREE. -/
def State.unnamed (t : State) (i : SlotNo) (p : Port) : Prop :=
  (t.slot i).state = .free ∧ ∀ e ∈ (t.notices.get p).entries, e.notice.slot ≠ some i

theorem unnamed_post {t : State} {i : SlotNo} {p q : Port} {n : Notice} (h : t.unnamed i p) (hn : n.slot ≠ some i) :
    (t.post q n).unnamed i p := by
  obtain ⟨hf, hs⟩ := h
  refine ⟨hf, fun e he hi => ?_⟩
  simp only [State.post_notices, PerPort.get_set] at he
  split at he
  · rename_i hp
    subst hp
    rw [NoticeUnit.post] at he
    split at he
    · rcases mem_insertNotice.1 ⟨e, he, rfl⟩ with hn' | ⟨e', he', hn'⟩
      · exact hn (hn' ▸ hi)
      · exact hs e' he' (hn' ▸ hi)
    · exact hs e he hi
  · exact hs e he hi

theorem unnamed_setSlotState {t : State} {i j : SlotNo} {p : Port} {x : SlotState} (h : t.unnamed i p) (hij : i ≠ j) :
    (t.setSlotState j x).unnamed i p :=
  ⟨by rw [State.setSlotState_slot, if_neg hij]; exact h.1, h.2⟩

/-- No chain event and no grant posts a notice of a FREE slot (R12, R38). -/
theorem unnamed_cascade (W : Prop) (i : SlotNo) (p : Port) :
    Cascade W (fun _ => True) (fun _ => True) (fun t => t.unnamed i p) where
  lost t j r a ht _ _ hj := by
    have hij : i ≠ j := fun e => by simp [State.unnamed, e, hj] at ht
    exact unnamed_post (unnamed_setSlotState ht hij) fun e => hij (Option.some.inj e).symm
  started t j r a ht _ _ hj := unnamed_setSlotState ht fun e => by simp [State.unnamed, e, hj] at ht
  granted t j r ahead ht hj _ := by
    have hij : i ≠ j := fun e => by
      obtain ⟨-, w, hw⟩ | ⟨-, d, hd⟩ := hj
      · simp [State.unnamed, e, hw] at ht
      · simp [State.unnamed, e, hd] at ht
    refine unnamed_post (t := t.enterLive j r) ⟨?_, ht.2⟩ fun e => hij (Option.some.inj e).symm
    rw [State.enterLive_slot, if_neg hij]
    exact ht.1
  queued t j r d ht hj _ _ := by
    have hij : i ≠ j := fun e => by simp [State.unnamed, e, hj] at ht
    exact ⟨by rw [State.enterWaiting_slot, if_neg hij]; exact ht.1, ht.2⟩
  blocked t j r d reason ht hj _ := by
    have hij : i ≠ j := fun e => by simp [State.unnamed, e, hj] at ht
    exact unnamed_post (unnamed_setSlotState ht hij) fun e => hij (Option.some.inj e).symm
  chosen _ ht := ht
  awaiting _ _ _ _ _ := trivial
  gives _ _ _ _ := trivial

/-! ## The end of a permit -/

/-- The permit of slot `i`, with record `q`, has ended: CLOSED with a cause, or FREE; and what its state gives beside (R11 to
R15). -/
structure State.permitEnded (s t : State) (i : SlotNo) (q : Permit) (ending : Option Closure) : Prop where
  slot : t.slot i = (s.slot i).ended q ending
  noticed : ending.isSome = true → t.noticed q.owner (.closed (s.handle i))
  unnamed : ending = none → ∀ e ∈ (t.notices.get q.owner).entries, e.notice.slot ≠ some i
  notices : s.noticesFollow t fun _ => False
  others : s.othersKept t i
  settings : s.settingsKept t
  fromLive : ∀ run : RunPart, (s.slot i).state = .live q run → s.departed t i ∧ s.endsDelivered t i
  fromWaiting : ∀ w : Nat, (s.slot i).state = .waiting q w →
    i ∉ t.waitQueue ∧ s.dependentsLost t i ∧ s.channelsKept t (fun _ => false) ∧ t.groups = s.groups ∧ s.leftQueue t i
  fromArmed : ∀ part : ArmedPart, (s.slot i).state = .armed q part → t.waitQueue = s.waitQueue ∧ s.anchorLost t i

theorem State.like.slot {s t : State} (h : s.like t) (i : SlotNo) : t.slot i = s.slot i := by
  obtain ⟨_, _, _, rfl⟩ := h
  rfl

theorem State.like.handle {s t : State} (h : s.like t) (i : SlotNo) : t.handle i = s.handle i := by
  obtain ⟨_, _, _, rfl⟩ := h
  rfl

theorem State.like.notices {s t : State} (h : s.like t) : t.notices = s.notices := by
  obtain ⟨_, _, _, rfl⟩ := h
  rfl

theorem State.like.waitQueue {s t : State} (h : s.like t) : t.waitQueue = s.waitQueue := by
  obtain ⟨_, _, _, rfl⟩ := h
  rfl

theorem State.like.groups {s t : State} (h : s.like t) : t.groups = s.groups := by
  obtain ⟨_, _, _, rfl⟩ := h
  rfl

theorem State.like.permitEnded {s s' t t' : State} {i : SlotNo} {q : Permit} {ending : Option Closure} (hs : s.like s')
    (ht : t.like t') (h : s.permitEnded t i q ending) : s'.permitEnded t' i q ending where
  slot := by rw [ht.slot, hs.slot]; exact h.slot
  noticed e := by rw [hs.handle]; exact ht.noticed (h.noticed e)
  unnamed e := by rw [ht.notices]; exact h.unnamed e
  notices := hs.noticesFollow ht h.notices
  others := hs.othersKept ht h.others
  settings := hs.settingsKept ht h.settings
  fromLive run e := by
    obtain ⟨departed, ends⟩ := h.fromLive run ((hs.slot i) ▸ e)
    exact ⟨hs.departed ht departed, hs.endsDelivered ht ends⟩
  fromWaiting w e := by
    obtain ⟨queue, lost, channels, groups, left⟩ := h.fromWaiting w ((hs.slot i) ▸ e)
    refine ⟨by rw [ht.waitQueue]; exact queue, hs.dependentsLost ht lost, hs.channelsKept ht channels, ?_, hs.leftQueue ht left⟩
    rw [ht.groups, hs.groups, groups]
  fromArmed part e := by
    obtain ⟨queue, lost⟩ := h.fromArmed part ((hs.slot i) ▸ e)
    exact ⟨by rw [ht.waitQueue, hs.waitQueue, queue], hs.anchorLost ht lost⟩

theorem noFault_eq : (fun n : Notice => ∃ o : OutputNo, none = some o ∧ n = .fault o) = fun _ => False := by
  funext n
  simp

/-- From LIVE (R11). -/
theorem exitLive_permitEnded {s : State} {i : SlotNo} {q : Permit} {run : RunPart} (ending : Option Closure)
    (h : (s.slot i).state = .live q run) : s.permitEnded (s.exitLive i ending) i q ending := by
  obtain ⟨slot, departed, ends, -, noticed⟩ := exitLive_spec ending h
  have both := departed
  obtain ⟨others, -, -, -, settings, u, -, -, -, notices⟩ := both
  refine ⟨slot, noticed, fun he => ?_, noFault_eq ▸ notices, others, settings, fun _ _ => ⟨departed, ends⟩,
    (fun w e => by rw [h] at e; cases e), (fun part e => by rw [h] at e; cases e)⟩
  have hr : (s.slot i).state.record = some q := by rw [h]; rfl
  have entered : (s.enterEnd i ending).unnamed i q.owner := by
    refine ⟨?_, (enterEnd_notices ending hr).2 he⟩
    rw [enterEnd_slot ending hr, if_pos rfl, he]
    rfl
  have released : ((s.enterEnd i ending).letGo (s.holds i)).unnamed i q.owner := by
    simpa only [State.unnamed, State.letGo_slot, State.letGo_notices] using entered
  have after := scanDeparture_keeps (unnamed_cascade True i q.owner) (((s.enterEnd i ending).letGo (s.holds i)).endsAtOnce
      (s.handle i)) _ (endEvent_keeps (unnamed_cascade True i q.owner) (s.handle i) _ released trivial)
      (fun _ _ => trivial) fun _ _ _ _ => trivial
  simp only [State.exitLive, h]
  exact after.2

/-- From WAITING (R13, R35). -/
theorem exitWaiting_permitEnded {s : State} {i : SlotNo} {q : Permit} {w : Nat} (ending : Option Closure)
    (h : (s.slot i).state = .waiting q w) : s.permitEnded (s.exitWaiting i ending) i q ending := by
  have hr : ((s.leaveQueue i).slot i).state.record = some q := by rw [State.leaveQueue_slot, h]; rfl
  have hl : ((s.leaveQueue i).slot i).state.isLive = false := by rw [State.leaveQueue_slot, h]; rfl
  obtain ⟨slot, others, settings, -, groups, channels, queue, lost, -, noticed, unnamed, -⟩ :=
    loseAnchor_enterEnd_spec ending hr hl
  have record (j : SlotNo) (hj : j ≠ i) : ((((s.leaveQueue i).loseAnchor i).enterEnd i ending).slot j).state.record
      = (s.slot j).state.record := by
    have chain := loseAnchor_evolves i (s.leaveQueue i) hl
    rw [enterEnd_slot ending ((chain.slots i).2.1.trans hr), if_neg hj, (chain.slots j).2.1, State.leaveQueue_slot]
  have left : s.leftQueue (s.exitWaiting i ending) i := exitWaiting_leftQueue ending h
  rw [State.exitWaiting] at left ⊢
  generalize ((s.leaveQueue i).loseAnchor i).enterEnd i ending = u at *
  have ended : (u.slot i).state.settled = true := by
    rw [slot]
    cases ending <;> rfl
  have evolves := scan_evolves u
  have stays (j : SlotNo) (hj : (u.slot j).state.settled = true) : u.scan.slot j = u.slot j := (evolves.slots j).2.2 hj
  have out : i ∉ u.scan.waitQueue := by
    refine (scan_keeps (outOfQueue_cascade True i) u ⟨ended, ?_⟩ fun _ _ _ _ => trivial).2
    rw [queue]
    exact fun hm => by simpa using (List.mem_filter.1 hm).2
  refine ⟨(stays i ended).trans slot, fun e => ?_, fun e => ?_, left.2, fun j hj => ?_, ?_, (fun run e => by rw [h] at e; cases e),
    fun _ _ => ⟨out, fun j r a hj hpath hs ha => ?_, fun o => ?_, evolves.groups.trans groups, left⟩,
    (fun part e => by rw [h] at e; cases e)⟩
  · exact scan_keeps (noticed_cascade True _ _) u (noticed e) fun _ _ _ _ => trivial
  · refine (scan_keeps (unnamed_cascade True i q.owner) u ⟨?_, unnamed e⟩ fun _ _ _ _ => trivial).2
    rw [slot, e]
    rfl
  · obtain ⟨gen, own, same⟩ := others j hj
    obtain ⟨gen', own', same'⟩ := evolves.others j
    refine ⟨gen'.trans gen, fun p => (own' p).trans (own p), fun hset => ?_⟩
    have hu := same hset
    rw [State.leaveQueue_slot] at hu
    rw [same' (by rw [hu]; exact hset), hu]
  · exact settingsKept_trans (settingsKept_trans ((settingsKept_iff _ _).2 (by simp)) settings) evolves.settings
  · have closed := lost j r a hj hpath hs ha
    rw [stays j (by rw [closed]; rfl), closed]
    rfl
  · have channel : u.channel o = s.channel o := congrArg (fun v => v.get o) channels
    have kept := evolves.channels o
    rw [channel] at kept
    rcases kept with kept | ⟨idle, j, r, e, hset, hrec, hlive, hmem, ho, hch⟩
    · exact .inl kept
    · by_cases hji : j = i
      · subst hji
        rw [ended] at hset
        cases hset
      · refine .inr ⟨idle, j, r, e, Bool.eq_false_iff.2 fun hs => ?_, (record j hji).symm.trans hrec, hlive, hmem, ho, hch⟩
        have same := (others j hji).2.2 hs
        rw [State.leaveQueue_slot] at same
        rw [same, hs] at hset
        cases hset

/-- From ARMED (R13). -/
theorem exitArmed_permitEnded {s : State} {i : SlotNo} {q : Permit} {part : ArmedPart} (ending : Option Closure)
    (h : (s.slot i).state = .armed q part) : s.permitEnded (s.exitArmed i ending) i q ending := by
  obtain ⟨slot, others, settings, -, -, -, queue, -, -, noticed, unnamed, notices⟩ :=
    loseAnchor_enterEnd_spec ending (r := q) (by rw [h]; rfl) (by rw [h]; rfl)
  exact ⟨slot, noticed, unnamed, notices (by rw [h]; rfl), others, settings, (fun run e => by rw [h] at e; cases e),
    (fun w e => by rw [h] at e; cases e), fun _ _ => ⟨queue, exitArmed_anchorLost ending h⟩⟩

/-- The end of a WAITING, ARMED or LIVE permit by a command (R15, R19). -/
theorem endPermit_permitEnded {s : State} {i : SlotNo} {q : Permit} (ending : Option Closure)
    (hq : (s.slot i).state.record = some q) (hc : ∀ cause : Closure, (s.slot i).state ≠ .closed q cause) :
    s.permitEnded (s.endPermit i ending) i q ending := by
  unfold State.endPermit
  cases hs : (s.slot i).state with
  | free => rw [hs] at hq; cases hq
  | waiting r w =>
    rw [hs] at hq
    cases hq
    exact exitWaiting_permitEnded ending hs
  | armed r part =>
    rw [hs] at hq
    cases hq
    exact exitArmed_permitEnded ending hs
  | live r run =>
    rw [hs] at hq
    cases hq
    exact exitLive_permitEnded ending hs
  | closed r c =>
    rw [hs] at hq
    cases hq
    exact absurd hs (hc c)

/-! ## RELEASE and REVOKE -/

section
variable {s : State} {p : Port} {params : List Byte} {h : Handle} {q : Permit}

theorem releaseAct_ends (hh : h = handleAt params 0) (hn : s.handle h.slot = h) (hq : (s.slot h.slot).state.record = some q)
    (ho : q.owner = p) (hc : ∀ cause : Closure, (s.slot h.slot).state ≠ .closed q cause) :
    releaseAct p params s = accept (s.endPermit h.slot none) := by
  subst hh
  refine (withPermit_may hn hq (ownerOnly_iff.2 ho)).trans ?_
  cases hs : (s.slot (handleAt params 0).slot).state with
  | free => rw [hs] at hq; cases hq
  | closed r c => rw [hs] at hq; cases hq; exact absurd hs (hc c)
  | waiting r w | armed r part | live r run => rfl

theorem revokeAct_ends (hh : h = handleAt params 0) (hn : s.handle h.slot = h) (hq : (s.slot h.slot).state.record = some q)
    (hc : ∀ cause : Closure, (s.slot h.slot).state ≠ .closed q cause) :
    revokeAct p params s = accept (s.endPermit h.slot (some .revoked)) := by
  subst hh
  refine (withPermit_may (mayUse := anyOwner) hn hq rfl).trans ?_
  cases hs : (s.slot (handleAt params 0).slot).state with
  | free => rw [hs] at hq; cases hq
  | closed r c => rw [hs] at hq; cases hq; exact absurd hs (hc c)
  | waiting r w | armed r part | live r run => rfl

end

/-- A command that ends a permit: its answer, what has ended, and what stays due (R15, R19). -/
theorem endPermit_answers {s : State} {p : Port} {r : Request} {c : Command} {h : Handle} {q : Permit}
    {ending : Option Closure} (hc : s.carries p r c) (hr : c ≠ .restart) (hq : (s.slot h.slot).state.record = some q)
    (hn : ∀ cause : Closure, (s.slot h.slot).state ≠ .closed q cause)
    (act : c.act p r.params (s.takeRequest p) = accept ((s.takeRequest p).endPermit h.slot ending)) :
    ∃ t : State, exec c.row s = .next t ∧ s.answered t p r .ok [] ∧ s.permitEnded t h.slot q ending ∧ s.keepsDue t := by
  obtain ⟨ports, he, ha⟩ := exec_answers hc act hr
  have ended := endPermit_permitEnded (s := s.takeRequest p) ending hq hn
  exact ⟨_, he, ha, (takeRequest_like s p).permitEnded (ports_like _ ports) ended,
    keepsDue_answered (endPermit_keepsDue h.slot ending _) ports⟩

/-- Settles O20: by the end of the permit in each of its three states (R15). -/
theorem releaseFreesThePermit : Obligations.ReleaseFreesThePermit := by
  intro s p r h q hc hh hn hq ho hcl
  obtain ⟨t, he, ha, ended, due⟩ := endPermit_answers hc (by simp) hq hcl
    (releaseAct_ends (s := s.takeRequest p) hh hn hq ho hcl)
  exact ⟨t, he, ha, ended.slot, ho ▸ ended.unnamed rfl, ended.notices, ended.others, ended.settings, due, ended.fromLive,
    ended.fromWaiting, ended.fromArmed⟩

/-- Settles O21: by the end of the permit in each of its three states (R19). -/
theorem revokeClosesThePermit : Obligations.RevokeClosesThePermit := by
  intro s p r h q hc hh hn hq hcl
  obtain ⟨t, he, ha, ended, due⟩ := endPermit_answers hc (by simp) hq hcl
    (revokeAct_ends (p := p) (s := s.takeRequest p) hh hn hq hcl)
  exact ⟨t, he, ha, ended.slot, hn ▸ ended.noticed rfl, ended.notices, ended.others, ended.settings, due, ended.fromLive,
    ended.fromWaiting, ended.fromArmed⟩

/-! ## LEASE_EXPIRY and WAIT_TIMEOUT -/

/-- An event whose work ends a permit. -/
theorem takeEvent_permitEnded {s u : State} {e : TickEvent} {i : SlotNo} {q : Permit} {ending : Option Closure}
    (hd : e ∈ s.due) (work : State.tickWork e { s with due := s.due.erase e } = u)
    (h : State.permitEnded { s with due := s.due.erase e } u i q ending) : s.permitEnded (s.takeEvent e) i q ending :=
  (erased_like s e).permitEnded (takeEvent_like hd) (work ▸ h)

/-- An event whose work counts the part of a slot on. -/
theorem takeEvent_countSlot {s : State} {e : TickEvent} {i : SlotNo} {x : SlotState} (hd : e ∈ s.due)
    (h : State.tickWork e { s with due := s.due.erase e } = State.countSlot i x { s with due := s.due.erase e }) :
    (s.takeEvent e).slot i = { s.slot i with state := x }
      ∧ (∀ j : SlotNo, j ≠ i → (s.takeEvent e).slot j = s.slot j)
      ∧ s.takeEvent e = { s with slots := (s.takeEvent e).slots, due := (s.takeEvent e).due } := by
  obtain ⟨due, eq⟩ := takeEvent_of_due hd
  rw [h] at eq
  have slot := State.countSlot_slot { s with due := s.due.erase e } i x
  rw [eq]
  exact ⟨(slot i).trans (if_pos rfl), fun j hj => (slot j).trans (if_neg hj), rfl⟩

section
variable {s : State} {i : SlotNo} {q : Permit} {run : RunPart} {n : Nat}

theorem leaseTick_expires (hs : (s.slot i).state = .live q run) (hl : run.leaseRemaining = some n) (hn : n ≤ 1) :
    s.leaseTick i = s.exitLive i (some .expired) := by
  simp only [State.leaseTick, hs, hl, if_pos hn]

theorem leaseTick_counts (hs : (s.slot i).state = .live q run) (hl : run.leaseRemaining = some n) (hn : 2 ≤ n) :
    s.leaseTick i = s.countSlot i (.live q { run with leaseRemaining := some (n - 1) }) := by
  simp only [State.leaseTick, hs, hl, if_neg (Nat.not_le.2 hn)]

theorem waitTick_expires (hs : (s.slot i).state = .waiting q n) (hn : n ≤ 1) :
    s.waitTick i = s.exitWaiting i (some .waitTimeout) := by
  simp only [State.waitTick, hs, if_pos hn]

end

/-- Settles O41: by the timers (R35, R62). -/
theorem leaseAndWaitRunOut : Obligations.LeaseAndWaitRunOut := by
  refine ⟨fun s i q run n hd hs hl hn => ?_, fun s i q run n hd hs hl hn => ?_, fun s i q w hd hs hw => ?_⟩
  · have ended := takeEvent_permitEnded hd (leaseTick_expires hs hl hn) (exitLive_permitEnded _ hs)
    obtain ⟨departed, ends⟩ := ended.fromLive run hs
    exact ⟨_, rfl, ended.slot, departed, ends, ended.noticed rfl, takeEvent_portsKept _ s, takeEvent_leavesDue hd⟩
  · obtain ⟨same, others, rest⟩ := takeEvent_countSlot hd (leaseTick_counts hs hl hn)
    exact ⟨_, rfl, same, others, rest, takeEvent_leavesDue hd⟩
  · have ended := takeEvent_permitEnded hd (waitTick_expires hs hw) (exitWaiting_permitEnded _ hs)
    obtain ⟨queue, lost, channels, groups, left⟩ := ended.fromWaiting w hs
    exact ⟨_, rfl, ended.slot, queue, lost, ended.others, channels, groups, ended.noticed rfl, ended.settings,
      takeEvent_portsKept _ s, left, takeEvent_leavesDue hd⟩

end Sys2Proof.Machine
end

section
/-! PROOFS. The claim test of a delay end: DELAY_END (R103 to R105) and the chained CLAIM (R33, R97 to R99, R102). -/

set_option Elab.async false

namespace Sys2Proof.Machine

/-! ## The outcomes of a delay end -/

section
variable {s : State} {j : SlotNo} {q : Permit} {d : Nat}

theorem endDelay_queued {reason : BlockReason} (hj : (s.slot j).state = .armed q (.delaying d))
    (hc : s.claimTest q.outputNos s.waitQueue = some reason) (hw : 0 < q.waitLimit) : s.endDelay j = s.enterWaiting j q := by
  simp only [State.endDelay, delayEndWith, hj, hc, if_pos hw]

theorem endDelay_blocked {reason : BlockReason} (hj : (s.slot j).state = .armed q (.delaying d))
    (hc : s.claimTest q.outputNos s.waitQueue = some reason) (hw : q.waitLimit = 0) :
    s.endDelay j = s.exitArmed j (some (.blocked reason)) := by
  simp only [State.endDelay, delayEndWith, hj, hc, hw, Nat.lt_irrefl, if_false]
  rfl

/-- The part with the claim of slot `j` granted, before the GRANT event. -/
def State.grantTo (s : State) (j : SlotNo) (q : Permit) : State := (s.enterLive j q).post q.owner (.granted (s.handle j))

theorem endDelay_clear (hj : (s.slot j).state = .armed q (.delaying d)) (hc : s.claimTest q.outputNos s.waitQueue = none) :
    s.endDelay j = (s.grantTo j q).grantEvent j := by
  simp only [State.endDelay, delayEndWith, hj, hc, State.grantEvent, State.grantTo]
  have handle : ((s.enterLive j q).post q.owner (.granted (s.handle j))).handle j = s.handle j := by
    rw [State.handle, State.post_slot, State.enterLive_slot, if_pos rfl]
    rfl
  rw [handle]

/-- What a queued claim changes (R31, R34). -/
theorem enterWaiting_rest (s : State) (j : SlotNo) (q : Permit) :
    s.enterWaiting j q = { s with slots := (s.enterWaiting j q).slots, waitQueue := s.waitQueue ++ [j]
                                  due := (s.enterWaiting j q).due } := rfl

end

/-- The permit of slot `j`, in DELAYING with record `q`, has made the claim test of its delay end (R104). -/
structure State.delayEnded (s t : State) (j : SlotNo) (q : Permit) : Prop where
  generation : (t.slot j).generation = (s.slot j).generation
  others : s.othersKept t j
  settings : s.settingsKept t
  groups : t.groups = s.groups
  channels : s.channelsKept t (fun _ => false)
  notices : s.noticesFollow t fun _ => False
  clear : s.claimTest q.outputNos s.waitQueue = none →
    (t.slot j).state = .live q (newRun q) ∧ t.noticed q.owner (.granted (s.handle j))
      ∧ ∃ v : State, s.grantedTo v j q ∧ v.chainsRun t [j] (fun _ => False)
  blocked : ∀ reason : BlockReason, s.claimTest q.outputNos s.waitQueue = some reason →
    t.channels = s.channels
      ∧ (0 < q.waitLimit → (t.slot j).state = .waiting q q.waitLimit ∧ t.waitQueue = s.waitQueue ++ [j]
          ∧ t.notices = s.notices ∧ ∀ k : SlotNo, k ≠ j → t.slot k = s.slot k)
      ∧ (q.waitLimit = 0 → (t.slot j).state = .closed q (.blocked reason) ∧ t.waitQueue = s.waitQueue
          ∧ t.noticed q.owner (.closed (s.handle j)) ∧ s.anchorLost t j)

theorem endDelay_delayEnded {s : State} {j : SlotNo} {q : Permit} {d : Nat} (hj : (s.slot j).state = .armed q (.delaying d)) :
    s.delayEnded (s.endDelay j) j q := by
  have evolves := endDelay_evolves j s
  obtain ⟨clear, blocked⟩ := delayEndWith_outcome 32 hj
  refine ⟨(evolves.slots j).1, fun k _ => evolves.others k, evolves.settings, evolves.groups, evolves.onlyGranted.2,
    endDelay_noticesFollow j s, fun hc => ?_, fun reason hc => ⟨?_, fun hw => ?_, fun hw => ?_⟩⟩
  · obtain ⟨v, granted, run⟩ := endDelay_granted hj hc
    have both := granted
    obtain ⟨-, -, -, -, -, noticed, -⟩ := both
    have more := run
    obtain ⟨-, -, -, -, -, -, noticedOn, -⟩ := more
    exact ⟨(clear hc).1, noticedOn _ _ noticed, v, granted, run⟩
  · rcases Nat.eq_zero_or_pos q.waitLimit with hw | hw
    · have ended := exitArmed_permitEnded (some (.blocked reason)) hj
      obtain ⟨-, -, -, channels, -⟩ := (ended.fromArmed _ hj).2
      rw [endDelay_blocked hj hc hw]
      exact channels
    · rw [endDelay_queued hj hc hw]
      rfl
  · refine ⟨(blocked reason hc).1 hw, ?_⟩
    rw [endDelay_queued hj hc hw]
    exact ⟨rfl, rfl, fun k hk => (State.enterWaiting_slot s j q k).trans (if_neg hk)⟩
  · have ended := exitArmed_permitEnded (some (.blocked reason)) hj
    obtain ⟨queue, lost⟩ := ended.fromArmed _ hj
    refine ⟨(blocked reason hc).2 hw, ?_⟩
    rw [endDelay_blocked hj hc hw]
    exact ⟨queue, ended.noticed rfl, lost⟩

theorem State.like.channels {s t : State} (h : s.like t) : t.channels = s.channels := by
  obtain ⟨_, _, _, rfl⟩ := h
  rfl

theorem State.like.claimTest {s t : State} (h : s.like t) (outs : List OutputNo) (ahead : List SlotNo) :
    t.claimTest outs ahead = s.claimTest outs ahead := by
  obtain ⟨_, _, _, rfl⟩ := h
  rfl

theorem State.like.delayEnded {s s' t t' : State} {j : SlotNo} {q : Permit} (hs : s.like s') (ht : t.like t')
    (h : s.delayEnded t j q) : s'.delayEnded t' j q where
  generation := by rw [ht.slot, hs.slot]; exact h.generation
  others := hs.othersKept ht h.others
  settings := hs.settingsKept ht h.settings
  groups := by rw [ht.groups, hs.groups]; exact h.groups
  channels := hs.channelsKept ht h.channels
  notices := hs.noticesFollow ht h.notices
  clear hc := by
    rw [hs.claimTest, hs.waitQueue] at hc
    obtain ⟨live, noticed, v, granted, run⟩ := h.clear hc
    rw [ht.slot, hs.handle]
    exact ⟨live, ht.noticed noticed, v, hs.grantedTo (like_refl v) granted, ht.chainsRun run⟩
  blocked reason hc := by
    rw [hs.claimTest, hs.waitQueue] at hc
    obtain ⟨channels, queued, closed⟩ := h.blocked reason hc
    simp only [ht.slot, hs.slot, ht.waitQueue, hs.waitQueue, ht.notices, hs.notices, ht.channels, hs.channels, hs.handle]
    refine ⟨channels, queued, fun hw => ?_⟩
    obtain ⟨state, queue, noticed, lost⟩ := closed hw
    exact ⟨state, queue, ht.noticed noticed, hs.anchorLost ht lost⟩

theorem delayTick_ends {s : State} {j : SlotNo} {q : Permit} {d : Nat} (hj : (s.slot j).state = .armed q (.delaying d))
    (hd : d ≤ 1) : s.delayTick j = s.endDelay j := by
  simp only [State.delayTick, hj, if_pos hd]

/-- Settles O44: by the outcome of the claim test (R104). -/
theorem delayEndMakesTheClaimTest : Obligations.DelayEndMakesTheClaimTest := by
  intro s j q d hdue hj hd
  have work : State.tickWork (.delay j) { s with due := s.due.erase (.delay j) }
      = State.endDelay j { s with due := s.due.erase (.delay j) } := delayTick_ends hj hd
  have ended : s.delayEnded (s.takeEvent (.delay j)) j q :=
    (erased_like s _).delayEnded (work ▸ takeEvent_like hdue) (endDelay_delayEnded hj)
  exact ⟨_, rfl, ended.generation, ended.others, ended.settings, takeEvent_portsKept _ s, ended.groups, ended.channels,
    takeEvent_leavesDue hdue, ended.notices, ended.clear, ended.blocked⟩

/-! ## A permit that enters ARMED from FREE -/

section
variable {s t : State} {i : SlotNo} {r : Permit} {part : ArmedPart}

theorem setSlotState_handle (s : State) (i : SlotNo) (x : SlotState) (j : SlotNo) : (s.setSlotState i x).handle j = s.handle j := by
  simp only [State.handle, State.setSlotState_slot]
  split
  · rename_i h
    rw [h]
    rfl
  · rfl

/-- The claim test looks at the slots of the entries ahead alone (R28). -/
theorem setSlotState_claimTest (x : SlotState) (outs : List OutputNo) {ahead : List SlotNo} (hi : i ∉ ahead) :
    (s.setSlotState i x).claimTest outs ahead = s.claimTest outs ahead := by
  have same : (ahead.any fun j => (s.setSlotState i x).contend outs ((s.setSlotState i x).outputsOf j))
      = ahead.any fun j => s.contend outs (s.outputsOf j) := by
    rw [Bool.eq_iff_iff, List.any_eq_true, List.any_eq_true]
    refine exists_congr fun j => and_congr_right fun hj => ?_
    have outputs : (s.setSlotState i x).outputsOf j = s.outputsOf j := by
      simp only [State.outputsOf, State.setSlotState_slot, if_neg fun e : j = i => hi (e ▸ hj)]
    rw [outputs]
    rfl
  have unfolded : (s.setSlotState i x).claimTest outs ahead
      = if outs.any (fun o => (s.channel o).state.isHeld) then some .held
        else if outs.any s.groupHeld then some .group
        else if outs.any s.groupQuiet then some .quiet
        else if outs.any s.underTrip then some .trip
        else if outs.any (fun o => decide ((s.channel o).state = .faulted)) then some .fault
        else if s.mode = .hold then some .hold
        else if ahead.any (fun j => (s.setSlotState i x).contend outs ((s.setSlotState i x).outputsOf j)) then some .queueAhead
        else none := rfl
  rw [unfolded, same]
  rfl

/-- Where slot `i` was FREE, it was no permit's to post for or to drop (R12, R14). -/
theorem noticesFollow_fromFree {both : Notice → Prop} (hf : (s.slot i).state = .free) (ht : (t.slot i).state ≠ .free)
    (h : (s.setSlotState i (.armed r part)).noticesFollow t both) : s.noticesFollow t both := by
  refine noticesAfter_congr h rfl rfl (fun p n => or_congr_right ?_) fun p n => ?_
  · refine exists_congr fun j => exists_congr fun q => and_congr_right fun _ => ?_
    rw [setSlotState_handle, State.setSlotState_slot]
    by_cases hj : j = i
    · subst hj
      simp [hf, SlotState.isLive]
    · simp [hj]
  · refine exists_congr fun j => ?_
    rw [State.setSlotState_slot]
    by_cases hj : j = i
    · subst hj
      simp [ht]
    · simp [hj]

/-- A permit that counts a delay awaits nothing, as little as a FREE slot does. -/
theorem setSlotState_awaitsPermit {d : Nat} (hf : (s.slot i).state = .free) :
    (s.setSlotState i (.armed r (.delaying d))).awaitsPermit = s.awaitsPermit := by
  funext j k
  simp only [State.awaitsPermit, setSlotState_handle, State.setSlotState_slot]
  by_cases hj : j = i
  · subst hj
    simp [hf]
  · simp [hj]

theorem anchorLost_fromFree {d : Nat} (hf : (s.slot i).state = .free) (ht : (t.slot i).state ≠ .free)
    (h : (s.setSlotState i (.armed r (.delaying d))).anchorLost t i) : s.anchorLost t i := by
  obtain ⟨lost, notices, others, channels, groups, queue⟩ := h
  have slot (j : SlotNo) (hj : j ≠ i) : (s.setSlotState i (.armed r (.delaying d))).slot j = s.slot j := by
    rw [State.setSlotState_slot, if_neg hj]
  refine ⟨fun j q a hj hpath hs ha => ?_, noticesFollow_fromFree hf ht notices, fun j hj hpath => ?_, channels, groups, ?_⟩
  · have closed := lost j q a hj (setSlotState_awaitsPermit hf ▸ hpath) (by rw [slot j hj]; exact hs) ha
    rw [slot j hj] at closed
    exact closed
  · rw [← slot j hj]
    exact others j hj (setSlotState_awaitsPermit (r := r) (d := d) hf ▸ hpath)
  · rw [queue]
    simp [hf, SlotState.isWaiting]

theorem grantedTo_fromFree {q : Permit} (h : (s.setSlotState i (.armed r part)).grantedTo t i q) : s.grantedTo t i q := by
  obtain ⟨slots, queue, outputs, groups, settings, noticed, other, after⟩ := h
  refine ⟨fun j => ?_, queue, outputs, groups, (settingsKept_iff _ _).2 ((settingsKept_iff _ _).1 settings), ?_, other, ?_⟩
  · rw [slots j, State.setSlotState_slot, State.setSlotState_slot, if_pos rfl]
    split <;> rfl
  · rw [setSlotState_handle] at noticed
    exact noticed
  · rw [setSlotState_handle] at after
    exact after

/-- Where the law on chains holds, no permit awaits an event of a FREE slot's permit (R99). -/
theorem not_awaits_free (hl : s.chainLaw) (hf : (s.slot i).state = .free) (j : SlotNo) : ¬ s.awaitsPermit j i := by
  rintro ⟨q, a, hj, ha, hh⟩
  have stands := hl.2 j
  rw [State.anchorStands, hj] at stands
  have slot : a.handle.slot = i := by rw [hh]; rfl
  simp [ha, slot, hf] at stands

end

/-! ## The chained CLAIM -/

/-- Slot `i` has come to hold `x`, and the outputs, the queue, the notices and the other slots are as they were. -/
def State.onlyEntered (s t : State) (i : SlotNo) (x : SlotState) : Prop :=
  (t.slot i).state = x ∧ t.channels = s.channels ∧ t.waitQueue = s.waitQueue ∧ t.notices = s.notices
    ∧ ∀ j : SlotNo, j ≠ i → t.slot j = s.slot j

/-- A chained claim with record `new` and anchor field `a` has been accepted in slot `i` (R33, R98, R102). -/
structure State.chainArmed (s t : State) (i : SlotNo) (new : Permit) (a : Anchor) : Prop where
  generation : (t.slot i).generation = (s.slot i).generation
  others : s.othersKept t i
  settings : s.settingsKept t
  groups : t.groups = s.groups
  awaiting : a.event = .ending ∨ (s.slot a.handle.slot).state.isLive = false → s.onlyEntered t i (.armed new .awaitingEvent)
  delaying : a.event = .grant → (s.slot a.handle.slot).state.isLive = true → 0 < a.delay →
    s.onlyEntered t i (.armed new (.delaying a.delay))
  clear : a.event = .grant → (s.slot a.handle.slot).state.isLive = true → a.delay = 0 →
    s.claimTest new.outputNos s.waitQueue = none →
      ∃ v : State, s.grantedTo v i new ∧ v.chainsRun t [i] (fun _ => False)
        ∧ (s.chainLaw → t.slots = v.slots ∧ t.channels = v.channels ∧ t.waitQueue = v.waitQueue ∧ t.notices = v.notices)
  blocked : a.event = .grant → (s.slot a.handle.slot).state.isLive = true → a.delay = 0 → ∀ reason : BlockReason,
    s.claimTest new.outputNos s.waitQueue = some reason →
      t.channels = s.channels
        ∧ (0 < new.waitLimit → (t.slot i).state = .waiting new new.waitLimit ∧ t.waitQueue = s.waitQueue ++ [i]
            ∧ t.notices = s.notices ∧ ∀ j : SlotNo, j ≠ i → t.slot j = s.slot j)
        ∧ (new.waitLimit = 0 → (t.slot i).state = .closed new (.blocked reason) ∧ t.waitQueue = s.waitQueue
            ∧ t.noticed new.owner (.closed (s.handle i)) ∧ s.anchorLost t i
            ∧ (s.chainLaw → ∀ j : SlotNo, j ≠ i → t.slot j = s.slot j))

theorem setSlotState_onlyEntered (s : State) (i : SlotNo) (x : SlotState) : s.onlyEntered (s.setSlotState i x) i x :=
  ⟨by rw [State.setSlotState_slot_same], rfl, rfl, rfl, fun j hj => by rw [State.setSlotState_slot, if_neg hj]⟩

theorem setSlotState_settingsKept (s : State) (i : SlotNo) (x : SlotState) : s.settingsKept (s.setSlotState i x) :=
  ⟨rfl, fun _ => ⟨rfl, rfl⟩⟩

/-- Where no permit awaits its GRANT, a grant gives no event (R100). -/
theorem giveGrant_of_not_awaited {s : State} {h : Handle} (hn : ∀ j : SlotNo, s.awaits j h .grant = false) (n : Nat) :
    giveGrant n h s = s := by
  cases n with
  | zero => rfl
  | succ n => exact foldl_keeps (P := fun t => t = s) (fun t j ht => by rw [ht, if_neg (by simp [hn j])]) allSlots s rfl

section
variable {s : State} {i : SlotNo} {new : Permit} {a : Anchor}

theorem armClaim_plain {x : SlotState} (hu : (s.armClaim i new a).state = s.setSlotState i x)
    (hx : ¬ (a.event = .grant ∧ (s.slot a.handle.slot).state.isLive = true) ∧ x = .armed new .awaitingEvent
      ∨ (a.event = .grant ∧ (s.slot a.handle.slot).state.isLive = true) ∧ 0 < a.delay ∧ x = .armed new (.delaying a.delay)) :
    s.chainArmed (s.armClaim i new a).state i new a := by
  have entered := setSlotState_onlyEntered s i x
  have settings := setSlotState_settingsKept s i x
  rw [hu]
  have others (j : SlotNo) (hj : j ≠ i) := entered.2.2.2.2 j hj
  refine ⟨by rw [State.setSlotState_slot_same], fun j hj => by rw [others j hj]; exact ⟨rfl, fun _ => rfl, fun _ => rfl⟩,
    settings, rfl, fun h => ?_, fun hg hl hd => ?_, fun hg hl hd => ?_, fun hg hl hd => ?_⟩
  · rcases hx with ⟨-, rfl⟩ | ⟨⟨hg, hl⟩, -⟩
    · exact entered
    · rcases h with h | h
      · rw [hg] at h; cases h
      · rw [hl] at h; cases h
  · rcases hx with ⟨hn, -⟩ | ⟨-, -, rfl⟩
    · exact absurd ⟨hg, hl⟩ hn
    · exact entered
  all_goals
    rcases hx with ⟨hn, -⟩ | ⟨-, hpos, -⟩
    · exact absurd ⟨hg, hl⟩ hn
    · omega

/-- The claim test within the command (R102). -/
theorem armClaim_tested (hf : (s.slot i).state = .free) (hi : i ∉ s.waitQueue)
    (hg : a.event = .grant) (hl : (s.slot a.handle.slot).state.isLive = true) (hd : a.delay = 0) :
    s.chainArmed ((s.setSlotState i (.armed new (.delaying 0))).endDelay i) i new a := by
  have hj : ((s.setSlotState i (.armed new (.delaying 0))).slot i).state = .armed new (.delaying 0) := by
    rw [State.setSlotState_slot_same]
  have slot (j : SlotNo) (hj : j ≠ i) : (s.setSlotState i (.armed new (.delaying 0))).slot j = s.slot j := by
    rw [State.setSlotState_slot, if_neg hj]
  have ended := endDelay_delayEnded hj
  have test := setSlotState_claimTest (s := s) (.armed new (.delaying 0)) new.outputNos hi
  refine ⟨?_, fun j hne => ?_, settingsKept_trans (setSlotState_settingsKept s i _) ended.settings, ended.groups, fun h => ?_,
    fun _ _ h => absurd hd (Nat.pos_iff_ne_zero.1 h), fun _ _ _ hc => ?_, fun _ _ _ reason hc => ?_⟩
  · rw [ended.generation, State.setSlotState_slot_same]
  · have others := ended.others j hne
    rw [slot j hne] at others
    exact others
  · rcases h with h | h
    · rw [hg] at h; cases h
    · rw [hl] at h; cases h
  · have clear := endDelay_clear hj (test.trans hc)
    have granted : (s.setSlotState i (.armed new (.delaying 0))).grantedTo
        ((s.setSlotState i (.armed new (.delaying 0))).grantTo i new) i new := grant_grantedTo
    have run := grantEvents_chainsRun ((s.setSlotState i (.armed new (.delaying 0))).grantTo i new) [i] fun k hk => by
      rw [List.mem_singleton.1 hk, granted.1 i, if_pos rfl]
      rfl
    rw [State.grantEvents, List.foldl_cons, List.foldl_nil] at run
    refine ⟨_, grantedTo_fromFree granted, clear ▸ run, fun law => ?_⟩
    have same : ((s.setSlotState i (.armed new (.delaying 0))).grantTo i new).grantEvent i
        = (s.setSlotState i (.armed new (.delaying 0))).grantTo i new := by
      refine giveGrant_of_not_awaited (fun j => Bool.eq_false_iff.2 fun hw => ?_) 32
      obtain ⟨q, b, hs, hb, hh, -⟩ := (awaits_iff _ _ _ _).1 hw
      have slots := granted.1 j
      by_cases hji : j = i
      · rw [if_pos hji] at slots
        rw [slots] at hs
        cases hs
      · rw [if_neg hji, slot j hji] at slots
        refine not_awaits_free law hf j ⟨q, b, slots ▸ hs, hb, hh.trans ?_⟩
        have epoch : ((s.setSlotState i (.armed new (.delaying 0))).grantTo i new).epoch = s.epoch := rfl
        simp only [State.handle, epoch, granted.1 i, if_pos, State.setSlotState_slot_same]
    rw [clear, same]
    exact ⟨rfl, rfl, rfl, rfl⟩
  · obtain ⟨channels, queued, closed⟩ := ended.blocked reason (test.trans hc)
    refine ⟨channels, fun hw => ?_, fun hw => ?_⟩
    · obtain ⟨state, queue, notices, others⟩ := queued hw
      exact ⟨state, queue, notices, fun j hne => (others j hne).trans (slot j hne)⟩
    · obtain ⟨state, queue, noticed, lost⟩ := closed hw
      have lost := anchorLost_fromFree hf (by rw [state]; simp) lost
      rw [setSlotState_handle] at noticed
      have both := lost
      obtain ⟨-, -, others, -⟩ := both
      refine ⟨state, queue, noticed, lost, fun law j hne => others j hne fun hpath => ?_⟩
      obtain ⟨k, -, hk⟩ := (Relation.TransGen.tail'_iff).1 hpath
      exact not_awaits_free law hf k hk

theorem armClaim_chainArmed (hf : (s.slot i).state = .free) (hi : i ∉ s.waitQueue) :
    s.chainArmed (s.armClaim i new a).state i new a := by
  by_cases h : a.event = .grant ∧ (s.slot a.handle.slot).state.isLive = true
  · by_cases hd : a.delay = 0
    · have state : (s.armClaim i new a).state = (s.setSlotState i (.armed new (.delaying a.delay))).endDelay i :=
        (if_pos h).trans (if_pos hd)
      rw [state, hd]
      exact armClaim_tested hf hi h.1 h.2 hd
    · exact armClaim_plain ((if_pos h).trans (if_neg hd)) (.inr ⟨h, Nat.pos_of_ne_zero hd, rfl⟩)
  · exact armClaim_plain (if_neg h) (.inl ⟨h, rfl⟩)

end

theorem State.like.chainLaw {s t : State} (h : s.like t) : t.chainLaw ↔ s.chainLaw := by
  obtain ⟨_, _, _, rfl⟩ := h
  rfl

theorem State.like.onlyEntered {s s' t t' : State} {i : SlotNo} {x : SlotState} (hs : s.like s') (ht : t.like t')
    (h : s.onlyEntered t i x) : s'.onlyEntered t' i x := by
  obtain ⟨_, _, _, rfl⟩ := hs
  obtain ⟨_, _, _, rfl⟩ := ht
  exact h

theorem State.like.chainArmed {s s' t t' : State} {i : SlotNo} {new : Permit} {a : Anchor} (hs : s.like s') (ht : t.like t')
    (h : s.chainArmed t i new a) : s'.chainArmed t' i new a where
  generation := by rw [ht.slot, hs.slot]; exact h.generation
  others := hs.othersKept ht h.others
  settings := hs.settingsKept ht h.settings
  groups := by rw [ht.groups, hs.groups]; exact h.groups
  awaiting hw := hs.onlyEntered ht (h.awaiting ((hs.slot a.handle.slot) ▸ hw))
  delaying hg hl hd := hs.onlyEntered ht (h.delaying hg ((hs.slot a.handle.slot) ▸ hl) hd)
  clear hg hl hd hc := by
    rw [hs.claimTest, hs.waitQueue] at hc
    obtain ⟨v, granted, run, same⟩ := h.clear hg ((hs.slot a.handle.slot) ▸ hl) hd hc
    refine ⟨v, hs.grantedTo (like_refl v) granted, ht.chainsRun run, fun law => ?_⟩
    obtain ⟨slots, channels, queue, notices⟩ := same (hs.chainLaw.1 law)
    obtain ⟨_, _, _, rfl⟩ := ht
    exact ⟨slots, channels, queue, notices⟩
  blocked hg hl hd reason hc := by
    rw [hs.claimTest, hs.waitQueue] at hc
    obtain ⟨channels, queued, closed⟩ := h.blocked hg ((hs.slot a.handle.slot) ▸ hl) hd reason hc
    simp only [ht.slot, hs.slot, ht.waitQueue, hs.waitQueue, ht.notices, hs.notices, ht.channels, hs.channels, hs.handle]
    refine ⟨channels, queued, fun hw => ?_⟩
    obtain ⟨state, queue, noticed, lost, rest⟩ := closed hw
    exact ⟨state, queue, ht.noticed noticed, hs.anchorLost ht lost, fun law => rest (hs.chainLaw.1 law)⟩

/-- Settles O18: by the event awaited, the anchor's state and the delay (R33, R98, R102). -/
theorem chainedClaimIsArmed : Obligations.ChainedClaimIsArmed := by
  intro s p r f i a q new hc hf hq hr ha hi har hrec hnew
  have depth : (s.takeRequest p).depthAt a.handle = q.chainDepth := by
    have hrec' : ((s.takeRequest p).slot a.handle.slot).state.record = some q := hrec
    simp only [State.depthAt, hrec']
  have act := claimAct_armed (s := s.takeRequest p) hf hr hi ha har
  rw [depth, ← hnew] at act
  obtain ⟨ports, he, han⟩ := exec_answers hc act
  have armed := (takeRequest_like s p).chainArmed (ports_like _ ports)
    (armClaim_chainArmed (s := s.takeRequest p) (new := new) (a := a) hi.1 (not_queued_of_free hq hi.1))
  have keeps := keepsDue_answered (armClaim_keepsDue (s := s.takeRequest p) hi.1 new a) ports
  subst hnew
  exact ⟨_, he, han, armed.generation, armed.others, armed.settings, armed.groups, keeps, armed.awaiting,
    fun hg hl => ⟨armed.delaying hg hl, fun hd => ⟨armed.clear hg hl hd, armed.blocked hg hl hd⟩⟩⟩

end Sys2Proof.Machine
end

section
/-! PROOFS. The phases of a pattern: ON_PHASE_END and CYCLE_BOUNDARY (R76 to R89). -/

set_option Elab.async false

namespace Sys2Proof.Machine

/-! ## Entering a phase -/

/-- Slot `i` has come to hold `x`, and its outputs have taken their levels of a phase (R83). -/
structure State.phaseEntered (s t : State) (i : SlotNo) (x : SlotState) (ph : Phase) : Prop where
  generation : (t.slot i).generation = (s.slot i).generation
  state : (t.slot i).state = x
  others : ∀ j : SlotNo, j ≠ i → t.slot j = s.slot j
  held : ∀ (o : OutputNo) (b : Bool), (s.channel o).state = .held i b →
    t.channel o = (s.channel o).driven (.held i b) (driveLevel ph b)
  notHeld : ∀ o : OutputNo, s.holds i o = false → t.channel o = s.channel o

theorem enterPhase_phaseEntered (s : State) (i : SlotNo) (r : Permit) (run : RunPart) (ph : Phase) :
    s.phaseEntered (s.enterPhase i r run ph) i
      (.live r { run with phase := ph, phaseRemaining := r.pattern.phaseTime ph }) ph where
  generation := by rw [enterPhase_slot, if_pos rfl]
  state := by rw [enterPhase_slot, if_pos rfl]
  others j hj := by rw [enterPhase_slot, if_neg hj]
  held o b h := by rw [enterPhase_channel, handPhase_eq_driven h]
  notHeld o h := by rw [enterPhase_channel, handPhase_other h]

theorem State.like.phaseEntered {s s' t t' : State} {i : SlotNo} {x : SlotState} {ph : Phase} (hs : s.like s') (ht : t.like t')
    (h : s.phaseEntered t i x ph) : s'.phaseEntered t' i x ph := by
  obtain ⟨_, _, _, rfl⟩ := hs
  obtain ⟨_, _, _, rfl⟩ := ht
  obtain ⟨generation, state, others, held, notHeld⟩ := h
  exact ⟨generation, state, others, held, notHeld⟩

section
variable {s : State} {e : TickEvent} {i : SlotNo} {r : Permit} {run : RunPart}

/-- An event whose work enters a phase. -/
theorem takeEvent_enterPhase {ph : Phase} (hd : e ∈ s.due)
    (work : State.tickWork e { s with due := s.due.erase e } = State.enterPhase i r run ph { s with due := s.due.erase e }) :
    s.phaseEntered (s.takeEvent e) i (.live r { run with phase := ph, phaseRemaining := r.pattern.phaseTime ph }) ph
      ∧ s.takeEvent e = { s with slots := (s.takeEvent e).slots, channels := (s.takeEvent e).channels
                                 due := (s.takeEvent e).due } := by
  have like := takeEvent_like hd
  rw [work] at like
  refine ⟨(erased_like s e).phaseEntered like (enterPhase_phaseEntered _ i r run ph), ?_⟩
  obtain ⟨ports, hp⟩ := takeEvent_portsKept e s
  obtain ⟨_, _, _, eq⟩ := like
  generalize s.takeEvent e = t at *
  subst eq
  obtain ⟨rfl, rfl⟩ : _ = s.ports ∧ _ = s.lastServed := ⟨ports, hp⟩
  rfl

/-- The permit of slot `i` has reached DONE and stays LIVE, with one post to its owner (R85, R86). -/
structure State.stayedDone (s t : State) (i : SlotNo) (r : Permit) (run : RunPart) : Prop where
  entered : s.phaseEntered t i (.live r { run with phase := .done, phaseRemaining := none, staged := none }) .done
  noticed : t.noticed r.owner (.completed (s.handle i))
  settings : s.settingsKept t
  groups : t.groups = s.groups
  notices : s.noticesAfter t (fun p n => p = r.owner ∧ n = .completed (s.handle i)) (fun _ _ => False)
  queue : t.waitQueue = s.waitQueue

theorem reachDone_stays (h : r.closeOnCompletion = false) : s.stayedDone (s.reachDone i r run) i r run := by
  have entered := enterPhase_phaseEntered s i r { run with staged := none } .done
  have done : s.reachDone i r run
      = (s.enterPhase i r { run with staged := none } .done).post r.owner (.completed (s.handle i)) :=
    if_neg (by simp [h])
  rw [done]
  exact ⟨⟨entered.generation, entered.state, entered.others, entered.held, entered.notHeld⟩, post_noticed _ _ _,
    settingsKept_trans ((settingsKept_iff _ _).2 (by simp [State.enterPhase])) (settingsKept_post _ _ _), by simp [State.enterPhase],
    noticesAfter_congr (post_noticesAfter _ _ _) (by simp [State.enterPhase]) rfl (fun _ _ => Iff.rfl) fun _ _ => Iff.rfl,
    by simp [State.enterPhase]⟩

theorem reachDone_closes (h : r.closeOnCompletion = true) : s.reachDone i r run = s.exitLive i (some .completed) := if_pos h

theorem State.like.stayedDone {s' t t' : State} (hs : s.like s') (ht : t.like t') (h : s.stayedDone t i r run) :
    s'.stayedDone t' i r run where
  entered := hs.phaseEntered ht h.entered
  noticed := by rw [hs.handle]; exact ht.noticed h.noticed
  settings := hs.settingsKept ht h.settings
  groups := by rw [ht.groups, hs.groups]; exact h.groups
  notices := by rw [hs.handle]; exact hs.noticesAfter ht h.notices
  queue := by rw [ht.waitQueue, hs.waitQueue]; exact h.queue

/-- An event whose work brings a permit to DONE: what each of the two completions leaves (R84 to R86). -/
theorem takeEvent_reachDone {run' : RunPart} (hd : e ∈ s.due) (hs : (s.slot i).state = .live r run)
    (work : State.tickWork e { s with due := s.due.erase e } = State.reachDone i r run' { s with due := s.due.erase e }) :
    (r.closeOnCompletion = false → s.stayedDone (s.takeEvent e) i r run')
      ∧ (r.closeOnCompletion = true → (s.takeEvent e).slot i = { generation := (s.slot i).generation, state := .closed r .completed }
          ∧ s.departed (s.takeEvent e) i ∧ s.endsDelivered (s.takeEvent e) i
          ∧ (s.takeEvent e).noticed r.owner (.closed (s.handle i))) := by
  refine ⟨fun h => ?_, fun h => ?_⟩
  · exact (erased_like s e).stayedDone (work ▸ takeEvent_like hd) (reachDone_stays h)
  · have ended := takeEvent_permitEnded hd (work.trans (reachDone_closes h)) (exitLive_permitEnded _ hs)
    obtain ⟨departed, ends⟩ := ended.fromLive run hs
    exact ⟨ended.slot, departed, ends, ended.noticed rfl⟩

end

/-! ## ON_PHASE_END -/

section
variable {s : State} {i : SlotNo} {q : Permit} {run : RunPart} {n : Nat}

theorem phaseTick_on (hs : (s.slot i).state = .live q run) (hp : run.phase = .on) (hr : run.phaseRemaining = some n)
    (hn : n ≤ 1) : s.phaseTick i = s.endOn i q run := by
  simp only [State.phaseTick, hs, hr, if_pos hn, hp]

theorem phaseTick_off (hs : (s.slot i).state = .live q run) (hp : run.phase = .off) (hr : run.phaseRemaining = some n)
    (hn : n ≤ 1) : s.phaseTick i = s.boundary i q run := by
  simp only [State.phaseTick, hs, hr, if_pos hn, hp]

theorem endOn_off {off : Nat} (h : ∃ on : Nat, q.pattern = .cycle on off ∨ ∃ k : Nat, q.pattern = .burst on off k) :
    s.endOn i q run = s.enterPhase i q run .off ∧ q.pattern.phaseTime .off = some off := by
  obtain ⟨on, h | ⟨k, h⟩⟩ := h
  · exact ⟨by simp only [State.endOn, h], by simp only [h, Pattern.phaseTime]⟩
  · exact ⟨by simp only [State.endOn, h], by simp only [h, Pattern.phaseTime]⟩

theorem endOn_pulse {on : Nat} (h : q.pattern = .pulse on) : s.endOn i q run = s.reachDone i q run := by
  simp only [State.endOn, h]

end

theorem exec_onPhaseEnd {s : State} {i : SlotNo} {q : Permit} {run : RunPart} (hs : (s.slot i).state = .live q run)
    (hp : run.phase = .on) : exec (.onPhaseEnd i) s = .next (s.takeEvent (.phase i)) :=
  if_pos (by rw [hs]; exact decide_eq_true hp)

theorem exec_cycleBoundary {s : State} {i : SlotNo} {q : Permit} {run : RunPart} (hs : (s.slot i).state = .live q run)
    (hp : run.phase = .off) : exec (.cycleBoundary i) s = .next (s.takeEvent (.phase i)) :=
  if_pos (by rw [hs]; exact decide_eq_true hp)

theorem driveLevel_off (b : Bool) : driveLevel .off b = if b then .on else .off := by cases b <;> rfl

theorem driveLevel_on (b : Bool) : driveLevel .on b = if b then .off else .on := by cases b <;> rfl

/-- Settles O42: by the pattern of the permit (R79, R80, R84). -/
theorem onPhaseEndMovesThePattern : Obligations.OnPhaseEndMovesThePattern := by
  intro s i q run n hd hs hp hr hn
  have tick := phaseTick_on (s := { s with due := s.due.erase (.phase i) }) hs hp hr hn
  refine ⟨_, exec_onPhaseEnd hs hp, takeEvent_portsKept _ s, takeEvent_leavesDue hd, fun off hpat => ?_, fun on hpat => ?_⟩
  · obtain ⟨entered, rest⟩ := takeEvent_enterPhase hd (tick.trans (endOn_off hpat).1)
    refine ⟨entered.generation, ?_, entered.others, fun o b h => ?_, entered.notHeld, rest⟩
    · rw [entered.state, (endOn_off (s := s) (i := i) (run := run) hpat).2]
    · rw [entered.held o b h, driveLevel_off]
  · obtain ⟨stays, closes⟩ := takeEvent_reachDone hd hs (tick.trans (endOn_pulse hpat))
    refine ⟨fun hc => ?_, closes⟩
    have done := stays hc
    exact ⟨done.entered.generation, done.entered.state, done.entered.others, done.entered.held, done.entered.notHeld,
      done.noticed, done.settings, done.groups, done.notices, done.queue⟩

/-! ## CYCLE_BOUNDARY -/

section
variable {s : State} {i : SlotNo} {q : Permit} {run : RunPart} {on off : Nat}

/-- A new cycle begins under the pair that is staged, or under the pattern's own one (R82, R89). -/
theorem newCycle_enters (hpair : (on, off) = run.staged.getD (q.pattern.on, q.pattern.off))
    (hpat : (∃ a b : Nat, q.pattern = .cycle a b) ∨ ∃ a b k : Nat, q.pattern = .burst a b k) :
    ∃ pat : Pattern, s.newCycle i q run = s.enterPhase i { q with pattern := pat } { run with staged := none } .on
      ∧ pat.phaseTime .on = some on ∧ ((∃ a b : Nat, q.pattern = .cycle a b) → pat = .cycle on off)
      ∧ ∀ a b k : Nat, q.pattern = .burst a b k → pat = .burst on off k := by
  refine ⟨q.pattern.withPair on off, ?_, ?_, ?_, ?_⟩
  · cases hst : run.staged with
    | some pair =>
      rw [hst, Option.getD_some] at hpair
      simp only [State.newCycle, hst, ← hpair]
    | none =>
      rw [hst, Option.getD_none, Prod.mk.injEq] at hpair
      obtain ⟨rfl, rfl⟩ := hpair
      have same : q.pattern.withPair q.pattern.on q.pattern.off = q.pattern := by
        obtain ⟨a, b, h⟩ | ⟨a, b, k, h⟩ := hpat <;> simp [h, Pattern.withPair, Pattern.on, Pattern.off]
      simp only [State.newCycle, hst, same]
      rw [← hst]
  · obtain ⟨a, b, h⟩ | ⟨a, b, k, h⟩ := hpat <;> simp [h, Pattern.withPair, Pattern.phaseTime]
  · rintro ⟨a, b, h⟩
    simp [h, Pattern.withPair]
  · rintro a b k h
    simp [h, Pattern.withPair]

theorem boundary_cycle (h : run.cyclesRemaining = none) : s.boundary i q run = s.newCycle i q run := by
  simp only [State.boundary, h]

theorem boundary_next {c : Nat} (h : run.cyclesRemaining = some c) (hc : ¬ c ≤ 1) :
    s.boundary i q run = s.newCycle i q { run with cyclesRemaining := some (c - 1) } := by
  simp only [State.boundary, h, if_neg hc]

theorem boundary_last {c : Nat} (h : run.cyclesRemaining = some c) (hc : c ≤ 1) :
    s.boundary i q run = s.reachDone i q { run with cyclesRemaining := some 0 } := by
  simp only [State.boundary, h, if_pos hc]

end

/-- Settles O43: by the cycles that remain (R82, R84). -/
theorem cycleBoundaryStartsTheNextCycle : Obligations.CycleBoundaryStartsTheNextCycle := by
  intro s i q run n on off cycles hd hs hp hr hn hpair hcycles
  have hpat : (∃ a b : Nat, q.pattern = .cycle a b) ∨ ∃ a b k : Nat, q.pattern = .burst a b k :=
    hcycles.imp (fun h => h.1) fun h => h.1
  have tick := phaseTick_off (s := { s with due := s.due.erase (.phase i) }) hs hp hr hn
  refine ⟨_, exec_cycleBoundary hs hp, takeEvent_portsKept _ s, takeEvent_leavesDue hd, fun hgo => ?_, fun hlast => ?_⟩
  · have next : State.boundary i q run { s with due := s.due.erase (.phase i) }
        = State.newCycle i q { run with cyclesRemaining := cycles } { s with due := s.due.erase (.phase i) } := by
      obtain ⟨-, hnone, rfl⟩ | ⟨-, c, hc, rfl⟩ := hcycles
      · rw [boundary_cycle hnone, ← hnone]
      · exact boundary_next hc fun hle => hgo (by rw [Nat.sub_eq_zero_of_le hle])
    obtain ⟨pat, enters, time, cycle, burst⟩ := newCycle_enters (s := { s with due := s.due.erase (.phase i) }) (i := i)
      (run := { run with cyclesRemaining := cycles }) hpair hpat
    obtain ⟨entered, rest⟩ := takeEvent_enterPhase hd (tick.trans (next.trans enters))
    refine ⟨entered.generation, ⟨pat, ?_, cycle, burst⟩, entered.others, fun o b h => ?_, entered.notHeld, rest⟩
    · rw [entered.state, time]
    · rw [entered.held o b h, driveLevel_on]
  · obtain ⟨-, -, hnone⟩ | ⟨-, c, hc, hcount⟩ := hcycles
    · rw [hnone] at hlast; cases hlast
    · have hle : c ≤ 1 := by
        rw [hcount, Option.some.injEq] at hlast
        exact Nat.sub_eq_zero_iff_le.1 hlast
      obtain ⟨stays, closes⟩ := takeEvent_reachDone hd hs (tick.trans (boundary_last hc hle))
      refine ⟨fun hcl => ?_, closes⟩
      have done := stays hcl
      exact ⟨done.entered.generation, done.entered.state, done.entered.others, done.entered.held, done.entered.notHeld,
        done.noticed, done.settings, done.groups, done.notices, done.queue⟩

end Sys2Proof.Machine
end

section
/-! PROOFS. SETTLE_END: the comparison, and an output declared FAULTED (R118, R121, R122). -/

set_option Elab.async false

namespace Sys2Proof.Machine

/-! ## An output declared FAULTED -/

/-- Groups that have started their quiet time for some outputs, and then for others, have started it for all of them (R52). -/
theorem groupsQuieted_trans {s u t : State} {left left' both : OutputNo → Bool} (h : s.groupsQuieted u left)
    (h' : u.groupsQuieted t left') (hb : ∀ o : OutputNo, both o = true ↔ left o = true ∨ left' o = true) :
    s.groupsQuieted t both := by
  intro g
  have members : (u.group g).members = (s.group g).members ∧ (u.group g).deadTime = (s.group g).deadTime := by
    rw [h g]
    split <;> exact ⟨rfl, rfl⟩
  have some : (∃ o : OutputNo, both o = true ∧ inSet (s.group g).members o = true)
      ↔ (∃ o : OutputNo, left o = true ∧ inSet (s.group g).members o = true)
        ∨ ∃ o : OutputNo, left' o = true ∧ inSet (s.group g).members o = true := by
    simp only [hb, or_and_right, exists_or]
  rw [h' g, members.1, members.2, h g]
  simp only [some]
  by_cases first : ∃ o : OutputNo, left o = true ∧ inSet (s.group g).members o = true
  · by_cases lt : (s.group g).quietRemaining < (s.group g).deadTime <;> simp [first, lt]
  · simp [first]

theorem groupsQuieted_none {s t : State} {left : OutputNo → Bool} (h : s.groupsQuieted t left) (hn : ∀ o, left o = false) :
    t.groups = s.groups := by
  refine ext_get fun g => (h g).trans (if_neg ?_)
  rintro ⟨⟨o, ho, -⟩, -⟩
  rw [hn o] at ho
  cases ho

section
variable (s : State) (o : OutputNo)

theorem failOutput_groupsQuieted :
    s.groupsQuieted (s.failOutput o) (fun x => decide (x = o) && (s.channel o).state.isHeld) := by
  intro g
  have group : (s.failOutput o).group g
      = (s.letGo fun x => decide (x = o) && (s.channel o).state.isHeld).group g := by
    rw [State.failOutput, State.postBoth_group, State.startQuiet_group, State.letGo_group, State.setChannel_group]
  rw [group]
  exact letGo_groupsQuieted s _ g

/-- What an output declared FAULTED changes: channels, groups and notices (R121). -/
theorem failOutput_eq : ∃ (channels : Vector Channel 16) (groups : Vector Group 8) (notices : PerPort NoticeUnit),
    s.failOutput o = { s with channels := channels, groups := groups, notices := notices } :=
  ⟨(s.failOutput o).channels, (s.failOutput o).groups, (s.failOutput o).notices, rfl⟩

theorem failOutput_settingsKept : s.settingsKept (s.failOutput o) :=
  settingsKept_trans ((settingsKept_iff _ _).2 (by simp))
    (settingsKept_trans (settingsKept_post ((s.setChannel o (s.channel o).fail).startQuiet _) _ _) (settingsKept_post _ _ _))

theorem failOutput_noticesAfter : s.noticesAfter (s.failOutput o) (fun _ n => n = .fault o) (fun _ _ => False) :=
  noticesAfter_congr (postBoth_noticesAfter ((s.setChannel o (s.channel o).fail).startQuiet _) (.fault o)) (by simp) rfl
    (fun _ _ => Iff.rfl) fun _ _ => Iff.rfl

theorem failOutput_noticed (p : Port) : (s.failOutput o).noticed p (.fault o) := by
  cases p with
  | control => exact noticed_post (post_noticed _ .control _) .supervisor _
  | supervisor => exact post_noticed _ .supervisor _

/-- The notices of an output declared FAULTED, as the notice sets follow the slots. -/
theorem failOutput_noticesFollow : s.noticesFollow (s.failOutput o) fun n => ∃ x, some o = some x ∧ n = .fault x := by
  refine noticesAfter_congr (failOutput_noticesAfter s o) rfl rfl (fun p n => ?_) fun p n => ?_
  · constructor
    · rintro (⟨x, hx, hn⟩ | ⟨j, r, -, ⟨run, hl, hs, -⟩ | ⟨c, hc, hs, -⟩⟩)
      · rw [hn, Option.some.inj hx]
      · rw [failOutput_slot] at hs
        rw [hs] at hl
        cases hl
      · rw [failOutput_slot] at hs
        exact absurd hs (hc r c)
    · exact fun hn => .inl ⟨o, rfl, hn⟩
  · refine iff_of_false ?_ id
    rintro ⟨j, hown, hf, -⟩
    rw [failOutput_slot] at hf
    simp [SlotState.ownedBy, hf, SlotState.record] at hown

end

/-! ## The exit of a LIVE holder -/

theorem exitLive_of_not_live {s : State} {i : SlotNo} (h : (s.slot i).state.isLive = false) (ending : Option Closure) :
    s.exitLive i ending = s := by
  unfold State.exitLive
  cases hs : (s.slot i).state with
  | live r run => rw [hs] at h; cases h
  | free | waiting r w | armed r part | closed r c => rfl

/-- The exit from LIVE to CLOSED takes no notice from a set (R12). -/
theorem exitLive_noticed {s : State} {p : Port} {n : Notice} (h : s.noticed p n) (i : SlotNo) (c : Closure) :
    (s.exitLive i (some c)).noticed p n := by
  cases hs : (s.slot i).state with
  | live r run =>
    have entered : (s.enterEnd i (some c)).noticed p n := by
      rw [State.enterEnd, enterClosed_eq (r := r) c (by rw [hs]; rfl)]
      exact noticed_post (s := s.setSlotState i _) h _ _
    have released : ((s.enterEnd i (some c)).letGo (s.holds i)).noticed p n := by
      simpa only [State.noticed, State.letGo_notices] using entered
    simp only [State.exitLive, hs]
    exact scanDeparture_keeps (noticed_cascade True p n) _ _
      (endEvent_keeps (noticed_cascade True p n) (s.handle i) _ released trivial) (fun _ _ => trivial) fun _ _ _ _ => trivial
  | free | waiting r w | armed r part | closed r c =>
    rw [exitLive_of_not_live (by rw [hs]; rfl)]
    exact h

/-- Output `o` has been declared FAULTED while slot `i`'s permit, with record `q`, held it (R121, R122). -/
structure State.holderFaulted (s t : State) (i : SlotNo) (q : Permit) (o : OutputNo) : Prop where
  slot : t.slot i = { generation := (s.slot i).generation, state := .closed q (.fault o) }
  noticed : t.noticed q.owner (.closed (s.handle i))
  others : s.othersKept t i
  ends : s.endsDelivered t i
  groups : s.groupsQuieted t (s.holds i)
  exited : s.exited t i (some o)
  channels : ∀ o' : OutputNo, o' ≠ o →
    s.keptOrGranted t o' (if s.holds i o' then (s.channel o').driven .idle .off else s.channel o')

section
variable {s : State} {o : OutputNo} {i : SlotNo} {b : Bool} {q : Permit} {run : RunPart}

theorem failOutput_holds (i : SlotNo) (o' : OutputNo) : (s.failOutput o).holds i o' = (!decide (o' = o) && s.holds i o') := by
  simp only [State.holds, failOutput_channel]
  by_cases h : o' = o
  · simp [h, Channel.fail, ChannelState.heldBy]
  · simp [h]

theorem holds_failed (h : (s.channel o).state = .held i b) (o' : OutputNo) :
    s.holds i o' = true ↔ (decide (o' = o) && (s.channel o).state.isHeld) = true ∨ (s.failOutput o).holds i o' = true := by
  rw [failOutput_holds]
  by_cases ho : o' = o
  · subst ho
    simp [State.holds, h, ChannelState.heldBy, ChannelState.isHeld]
  · simp [ho]

/-- The release of the outputs of the holder, the faulted one among them (R11, R121). -/
theorem leftLive_failed {u : State} (h : (s.channel o).state = .held i b) (hu : (s.failOutput o).leftLive u i none)
    (hn : s.noticesFollow u fun n => ∃ x, some o = some x ∧ n = .fault x) : s.leftLive u i (some o) := by
  have held := failOutput_holds (s := s) (o := o) i
  have channel := failOutput_channel o s
  have quiet := failOutput_groupsQuieted s o
  have kept := failOutput_settingsKept s o
  have both := holds_failed h
  obtain ⟨_, _, _, eq⟩ := failOutput_eq s o
  generalize s.failOutput o = f at *
  obtain ⟨slots, channels, groups, queue, settings, -⟩ := hu
  refine ⟨by subst eq; exact slots, fun o' => ?_, groupsQuieted_trans quiet groups both, by subst eq; exact queue,
    settingsKept_trans kept settings, hn⟩
  rw [channels o', if_neg (by simp), held, channel]
  by_cases ho : o' = o
  · subst ho
    simp [Channel.fail, Channel.faulted]
  · simp [ho, Ne.symm ho]

/-- The notices over the whole of a fault: where the slots of `u` are those of `s`, what follows goes on from there. -/
theorem noticesFollow_failed {t : State} (h : (s.failOutput o).noticesFollow t fun _ => False) :
    s.noticesFollow t fun n => ∃ x, some o = some x ∧ n = .fault x := by
  have first := failOutput_noticesFollow s o
  have masks (p : Port) := ((failOutput_settingsKept s o).2 p).1
  obtain ⟨_, _, _, eq⟩ := failOutput_eq s o
  generalize s.failOutput o = f at *
  refine noticesFollow_trans_of_slots first h masks (by rintro n ⟨x, -, rfl⟩; rfl) fun j => .inr ?_
  subst eq
  exact ⟨rfl, rfl, Iff.rfl, id, fun _ _ => rfl⟩

theorem exitLive_holderFaulted (h : (s.channel o).state = .held i b) (hl : (s.slot i).state = .live q run) :
    s.holderFaulted ((s.failOutput o).exitLive i (some (.fault o))) i q o := by
  have notices {t : State} := noticesFollow_failed (s := s) (o := o) (t := t)
  have left {u : State} := leftLive_failed (u := u) h
  have held := failOutput_holds (s := s) (o := o) i
  have channel := failOutput_channel o s
  have quiet := failOutput_groupsQuieted s o
  have both := holds_failed h
  obtain ⟨_, _, _, eq⟩ := failOutput_eq s o
  generalize s.failOutput o = f at *
  obtain ⟨slot, departed, ends, -, noticed⟩ := exitLive_spec (s := f) (some (.fault o)) (by subst eq; exact hl)
  generalize f.exitLive i (some (.fault o)) = t at *
  obtain ⟨others, channels, -, groups, -, u, before, same, scanned, after⟩ := departed
  have release := before
  obtain ⟨-, -, -, -, -, first⟩ := release
  have exited : s.exited t i (some o) := by
    refine ⟨u, left before (notices (noFault_eq ▸ first)), same, ?_, notices (noFault_eq ▸ after)⟩
    subst eq
    exact scanned
  refine ⟨by subst eq; exact slot, by subst eq; exact noticed rfl, by subst eq; exact others, by subst eq; exact ends,
    groupsQuieted_trans quiet groups both, exited, fun o' ho => ?_⟩
  have kept := channels o'
  rw [held, channel] at kept
  simp only [ho, decide_false, Bool.not_false, Bool.true_and, if_false] at kept
  subst eq
  exact kept

end

/-! ## SETTLE_END -/

/-- Output `o` has been declared FAULTED (R121, R122). -/
structure State.faultDeclared (s t : State) (o : OutputNo) : Prop where
  channel : t.channel o = (s.channel o).faulted
  noticed : ∀ p : Port, t.noticed p (.fault o)
  settings : s.settingsKept t
  posted : s.noticesOrdered → ∀ p : Port, s.postedOnce t p (.fault o)
  notHeld : (s.channel o).state.isHeld = false →
    s.noticesAfter t (fun _ n => n = .fault o) (fun _ _ => False)
      ∧ (∀ o' : OutputNo, o' ≠ o → t.channel o' = s.channel o') ∧ t.slots = s.slots ∧ t.groups = s.groups
      ∧ t.waitQueue = s.waitQueue
  held : ∀ (i : SlotNo) (b : Bool) (q : Permit) (run : RunPart), (s.channel o).state = .held i b →
    (s.slot i).state = .live q run → s.holderFaulted t i q o

theorem failOutput_faulted (s : State) (o : OutputNo) : (s.failOutput o).channel o = (s.channel o).faulted := by
  rw [failOutput_channel, if_pos rfl]
  rfl

/-- An output that no LIVE permit holds (R121). -/
theorem failOutput_faultDeclared {s : State} {o : OutputNo}
    (hn : ∀ (i : SlotNo) (b : Bool) (q : Permit) (run : RunPart), (s.channel o).state = .held i b →
      (s.slot i).state ≠ .live q run) : s.faultDeclared (s.failOutput o) o where
  channel := failOutput_faulted s o
  noticed := failOutput_noticed s o
  settings := failOutput_settingsKept s o
  posted ho p := ((failOutput_noticesAfter s o ho).2 p _).1 rfl
  notHeld h := by
    obtain ⟨_, _, _, eq⟩ := failOutput_eq s o
    exact ⟨failOutput_noticesAfter s o, fun o' ho => by rw [failOutput_channel, if_neg ho], by rw [eq],
      groupsQuieted_none (failOutput_groupsQuieted s o) (by simp [h]), by rw [eq]⟩
  held i b q run h hl := absurd hl (hn i b q run h)

theorem declareFault_faultDeclared (s : State) (o : OutputNo) : s.faultDeclared (s.declareFault o) o := by
  cases hc : (s.channel o).state with
  | idle =>
    have eq : s.declareFault o = s.failOutput o := by rw [declareFault_eq, hc]
    rw [eq]
    exact failOutput_faultDeclared fun i b q run h => by rw [hc] at h; cases h
  | faulted =>
    have eq : s.declareFault o = s.failOutput o := by rw [declareFault_eq, hc]
    rw [eq]
    exact failOutput_faultDeclared fun i b q run h => by rw [hc] at h; cases h
  | held i b =>
    have eq : s.declareFault o = (s.failOutput o).exitLive i (some (.fault o)) := by rw [declareFault_eq, hc]
    rw [eq]
    by_cases hl : ∃ (q : Permit) (run : RunPart), (s.slot i).state = .live q run
    · obtain ⟨q, run, hl⟩ := hl
      have faulted := exitLive_holderFaulted hc hl
      obtain ⟨-, departed, -, -, -⟩ := exitLive_spec (s := s.failOutput o) (some (.fault o)) hl
      obtain ⟨-, channels, -, -, settings, -⟩ := departed
      have both := faulted.exited
      obtain ⟨u, -, -, -, notices⟩ := both
      refine ⟨?_, fun p => exitLive_noticed (failOutput_noticed s o p) i _, settingsKept_trans (failOutput_settingsKept s o) settings,
        fun ho p => ((notices ho).2 p _).1 (.inl ⟨o, rfl, rfl⟩), (fun h => by rw [hc] at h; cases h), fun i' b' q' run' h hl' => ?_⟩
      · have kept := channels o
        rw [failOutput_holds, failOutput_faulted] at kept
        simp only [decide_true, Bool.not_true, Bool.false_and] at kept
        rcases kept with kept | ⟨idle, -⟩
        · exact kept
        · cases idle
      · rw [hc] at h
        cases h
        rw [hl] at hl'
        cases hl'
        exact faulted
    · have live : ((s.failOutput o).slot i).state.isLive = false := by
        rw [failOutput_slot]
        cases hs : (s.slot i).state with
        | live q run => exact absurd ⟨q, run, hs⟩ hl
        | free | waiting r w | armed r part | closed r c => rfl
      rw [exitLive_of_not_live live]
      exact failOutput_faultDeclared fun i' b' q run h hl' => by
        rw [hc] at h
        cases h
        exact hl ⟨q, run, hl'⟩

theorem State.like.holderFaulted {s s' t t' : State} {i : SlotNo} {q : Permit} {o : OutputNo} (hs : s.like s') (ht : t.like t')
    (h : s.holderFaulted t i q o) : s'.holderFaulted t' i q o where
  slot := by rw [ht.slot, hs.slot]; exact h.slot
  noticed := by rw [hs.handle]; exact ht.noticed h.noticed
  others := hs.othersKept ht h.others
  ends := hs.endsDelivered ht h.ends
  groups := by
    have groups := hs.groupsQuieted ht h.groups
    obtain ⟨_, _, _, rfl⟩ := hs
    exact groups
  exited := hs.exited ht h.exited
  channels := by
    obtain ⟨_, _, _, rfl⟩ := hs
    obtain ⟨_, _, _, rfl⟩ := ht
    exact h.channels

theorem State.like.channel {s t : State} (h : s.like t) (o : OutputNo) : t.channel o = s.channel o := by
  obtain ⟨_, _, _, rfl⟩ := h
  rfl

theorem State.like.faultDeclared {s s' t t' : State} {o : OutputNo} (hs : s.like s') (ht : t.like t') (h : s.faultDeclared t o) :
    s'.faultDeclared t' o where
  channel := by rw [ht.channel, hs.channel]; exact h.channel
  noticed p := ht.noticed (h.noticed p)
  settings := hs.settingsKept ht h.settings
  posted := by
    obtain ⟨_, _, _, rfl⟩ := hs
    obtain ⟨_, _, _, rfl⟩ := ht
    exact h.posted
  notHeld hn := by
    obtain ⟨notices, rest⟩ := h.notHeld ((hs.channel o) ▸ hn)
    refine ⟨hs.noticesAfter ht notices, ?_⟩
    obtain ⟨_, _, _, rfl⟩ := hs
    obtain ⟨_, _, _, rfl⟩ := ht
    exact rest
  held i b q run hc hl := hs.holderFaulted ht (h.held i b q run ((hs.channel o) ▸ hc) ((hs.slot i) ▸ hl))

section
variable {s : State} {o : OutputNo} {n : Nat}

theorem settleTick_counts (h : (s.channel o).supervision = .settling n) (hn : 2 ≤ n) :
    s.settleTick o = s.setChannel o { s.channel o with supervision := .settling (n - 1) } := by
  simp only [State.settleTick, h, if_neg (Nat.not_le.2 hn)]

theorem settleTick_matches (h : (s.channel o).supervision = .settling n) (hn : n ≤ 1)
    (hf : (s.channel o).feedback = (s.channel o).expected) :
    s.settleTick o = s.setChannel o { s.channel o with supervision := .watching } := by
  simp only [State.settleTick, h, if_pos hn, if_pos hf]

theorem settleTick_faults (h : (s.channel o).supervision = .settling n) (hn : n ≤ 1)
    (hf : (s.channel o).feedback ≠ (s.channel o).expected) : s.settleTick o = s.declareFault o := by
  simp only [State.settleTick, h, if_pos hn, if_neg hf]

end

/-- An event whose work writes one channel. -/
theorem takeEvent_setChannel {s : State} {e : TickEvent} {o : OutputNo} {c : Channel} (hd : e ∈ s.due)
    (work : State.tickWork e { s with due := s.due.erase e } = State.setChannel o c { s with due := s.due.erase e }) :
    (s.takeEvent e).channel o = c ∧ (∀ o' : OutputNo, o' ≠ o → (s.takeEvent e).channel o' = s.channel o')
      ∧ s.takeEvent e = { s with channels := (s.takeEvent e).channels, due := (s.takeEvent e).due } := by
  obtain ⟨due, eq⟩ := takeEvent_of_due hd
  rw [work] at eq
  have channel := State.setChannel_channel { s with due := s.due.erase e } o c
  rw [eq]
  exact ⟨(channel o).trans (if_pos rfl), fun o' ho => (channel o').trans (if_neg ho), rfl⟩

/-- Settles O46: by the settle remaining, and by the comparison (R117, R118, R121). -/
theorem settleEndComparesTheFeedback : Obligations.SettleEndComparesTheFeedback := by
  refine ⟨fun s o n hd hs hn => ?_, fun s o n hd hs hn => ⟨_, rfl, takeEvent_portsKept _ s, takeEvent_leavesDue hd, fun hf => ?_,
    fun hf => ?_⟩⟩
  · obtain ⟨same, others, rest⟩ := takeEvent_setChannel hd (settleTick_counts hs hn)
    exact ⟨_, rfl, same, others, rest, takeEvent_leavesDue hd⟩
  · exact takeEvent_setChannel hd (settleTick_matches hs hn hf)
  · have work : State.tickWork (.settle o) { s with due := s.due.erase (.settle o) }
        = State.declareFault o { s with due := s.due.erase (.settle o) } := settleTick_faults hs hn hf
    have fault : s.faultDeclared (s.takeEvent (.settle o)) o :=
      (erased_like s _).faultDeclared (work ▸ takeEvent_like hd) (declareFault_faultDeclared _ o)
    refine ⟨fault.channel, fault.noticed .control, fault.noticed .supervisor, fault.settings, fault.posted, fault.notHeld,
      fun i b q run hc hl => ?_⟩
    obtain ⟨slot, noticed, others, ends, groups, exited, channels⟩ := fault.held i b q run hc hl
    exact ⟨slot, noticed, others, ends, groups, exited, channels⟩

end Sys2Proof.Machine
end

section
/-! PROOFS. FILTERED_ASSERTION: the sample at the filter, the latch, and the closures one by one (R131 to R133). -/

set_option Elab.async false

namespace Sys2Proof.Machine

/-! ## The row -/

/-- Of the two samples that the row of a line may take, the one that is due is taken (R132). -/
theorem exec_filteredAssertion {s : State} {l : LineNo} {sample : Electrical} (hd : TickEvent.trip l sample ∈ s.due)
    (ho : ∀ x : Electrical, TickEvent.trip l x ∈ s.due → x = sample) :
    exec (.filteredAssertion l) s = .next (s.takeEvent (.trip l sample)) := by
  have row : exec (.filteredAssertion l) s = .next (State.takeEvent (.trip l .high) (s.takeEvent (.trip l .low))) := rfl
  rw [row]
  cases sample with
  | high =>
    have low : TickEvent.trip l .low ∉ s.due := fun h => by cases ho _ h
    rw [takeEvent_of_not_due low]
  | low =>
    have high : TickEvent.trip l .high ∉ (s.takeEvent (.trip l .low)).due := fun h => by
      have before := ((takeEvent_leavesDue hd _).1 h).1
      cases ho _ (List.mem_of_mem_erase before)
    rw [takeEvent_of_not_due high]

/-- An event whose work writes one trip line. -/
theorem takeEvent_setLine {s : State} {e : TickEvent} {l : LineNo} {x : TripLine} (hd : e ∈ s.due)
    (work : State.tickWork e { s with due := s.due.erase e } = State.setLine l x { s with due := s.due.erase e }) :
    (s.takeEvent e).line l = x ∧ (∀ l' : LineNo, l' ≠ l → (s.takeEvent e).line l' = s.line l')
      ∧ s.takeEvent e = { s with tripLines := (s.takeEvent e).tripLines, due := (s.takeEvent e).due } := by
  obtain ⟨due, eq⟩ := takeEvent_of_due hd
  rw [work] at eq
  have line := State.setLine_line { s with due := s.due.erase e } l x
  rw [eq]
  exact ⟨(line l).trans (if_pos rfl), fun l' hl => (line l').trans (if_neg hl), rfl⟩

theorem asserts_iff {x : TripLine} {sample : Electrical} :
    x.asserts sample = true ↔ x.enabled = true ∧ sample = x.activeLevel ∧ x.filterCount + 1 = x.filterLength := by
  simp [TripLine.asserts, and_assoc]

/-- A sample that makes no filtered assertion (R131). -/
theorem takeSample_of_not_asserts {x : TripLine} {sample : Electrical}
    (h : x.enabled = false ∨ sample ≠ x.activeLevel ∨ x.filterCount + 1 ≠ x.filterLength) :
    x.takeSample sample =
      if x.enabled = false then x
      else if sample ≠ x.activeLevel then { x with filterCount := 0 }
      else if x.filterCount + 1 < x.filterLength then { x with filterCount := x.filterCount + 1 }
      else x := by
  unfold TripLine.takeSample
  cases he : x.enabled with
  | false => simp
  | true =>
    by_cases hs : sample = x.activeLevel
    · have hc : x.filterCount + 1 ≠ x.filterLength := by simpa [he, hs] using h
      have below : x.filterCount < x.filterLength ↔ x.filterCount + 1 < x.filterLength := by omega
      simp [hs, below]
    · simp [hs]

/-! ## The closures -/

/-- The line with its count at the filter length and its latch set (R132). -/
def State.latch (l : LineNo) (s : State) : State :=
  s.setLine l { s.line l with filterCount := (s.line l).filterLength, latched := true }

/-- The closure of slot `i`, if it holds an output of the line's map (R132). -/
def State.closeTripped (l : LineNo) (t : State) (i : SlotNo) : State :=
  if t.holdsMapped i (t.line l).map then t.exitLive i (some (.tripped l)) else t

theorem tripTick_asserts {s : State} {l : LineNo} {sample : Electrical} (h : (s.line l).asserts sample = true) :
    s.tripTick l sample = (allSlots.foldl (State.closeTripped l) (s.latch l)).postBoth (.trip l) := by
  obtain ⟨he, hs, hc⟩ := asserts_iff.1 h
  have sampled : (s.line l).takeSample sample = { s.line l with filterCount := (s.line l).filterLength } := by
    rw [TripLine.takeSample, if_pos he, if_pos hs, if_pos (by omega), hc]
  have latched : (s.setLine l ((s.line l).takeSample sample)).setLine l
      { (s.setLine l ((s.line l).takeSample sample)).line l with latched := true } = s.latch l := by
    rw [State.setLine_line, if_pos rfl, sampled]
    simp only [State.latch, State.setLine, Vector.set_set]
  rw [State.tripTick, if_pos h, State.assertTrip, latched]
  rfl

theorem holdsMapped_iff {s : State} {i : SlotNo} {map : OutputSet} :
    s.holdsMapped i map = true ↔ ∃ o : OutputNo, inSet map o = true ∧ s.holds i o = true := by
  simp [State.holdsMapped]

/-- What the closures of a filtered assertion leave alone over one or more slots: settings, generations, standing notices, the
entries of other kinds; and no output under a set latch comes to be HELD (R132). -/
structure State.tripRun (u v : State) : Prop where
  settings : u.settingsKept v
  generation : ∀ i : SlotNo, (v.slot i).generation = (u.slot i).generation
  noticed : ∀ (p : Port) (n : Notice), u.noticed p n → v.noticed p n
  entries : u.noticesOrdered → v.noticesOrdered
    ∧ ∀ (p : Port) (n : Notice), n.slot = none ∨ n.kind = .completed → u.entryKept v p n
  held : ∀ o : OutputNo, u.underTrip o = true → ∀ (i : SlotNo) (b : Bool),
    (v.channel o).state = .held i b → (u.channel o).state = .held i b

theorem entryKept_trans {s u t : State} {p : Port} {n : Notice} (h : s.entryKept u p n) (h' : u.entryKept t p n) :
    s.entryKept t p n := fun e he => (h' e he).trans (h e he)

theorem underTrip_of_settings {s t : State} (h : s.settingsKept t) (o : OutputNo) : t.underTrip o = s.underTrip o := by
  obtain ⟨-, -, -, -, -, -, -, lines, -⟩ := (settingsKept_iff _ _).1 h
  simp only [State.underTrip, State.line, lines]

theorem tripRun_refl (u : State) : u.tripRun u :=
  ⟨settingsKept_refl u, fun _ => rfl, fun _ _ h => h, fun h => ⟨h, fun _ _ _ _ _ => Iff.rfl⟩, fun _ _ _ _ h => h⟩

theorem tripRun_trans {u w v : State} (h : u.tripRun w) (h' : w.tripRun v) : u.tripRun v where
  settings := settingsKept_trans h.settings h'.settings
  generation i := (h'.generation i).trans (h.generation i)
  noticed p n hn := h'.noticed p n (h.noticed p n hn)
  entries ho := by
    obtain ⟨hw, first⟩ := h.entries ho
    obtain ⟨hv, second⟩ := h'.entries hw
    exact ⟨hv, fun p n hn => entryKept_trans (first p n hn) (second p n hn)⟩
  held o ho i b hv := h.held o ho i b (h'.held o ((underTrip_of_settings h.settings o).trans ho) i b hv)

/-- Under a set latch no claim is clear, so no output comes to be HELD (R28). -/
theorem heldBefore_cascade (W : Prop) (s : State) (o : OutputNo) :
    Cascade W (fun _ => True) (fun _ => True) (fun t => t.underTrip o = true
      ∧ ∀ (i : SlotNo) (b : Bool), (t.channel o).state = .held i b → (s.channel o).state = .held i b) where
  lost _ _ _ _ ht _ _ _ := ht
  started _ _ _ _ ht _ _ _ := ht
  granted t j r ahead ht _ hc := by
    refine ⟨ht.1, fun i b h => ht.2 i b ?_⟩
    have unlisted : r.outputs.find? (fun e => decide (e.output = o)) = none := by
      refine List.find?_eq_none.2 fun e he => ?_
      have clear := ((claimTest_none.1 hc).1 e.output (List.mem_map.2 ⟨e, he, rfl⟩)).2.2.2
      simp only [decide_eq_true_eq]
      rintro rfl
      rw [ht.1] at clear
      cases clear
    rw [State.post_channel, State.enterLive_channel, unlisted] at h
    exact h
  queued _ _ _ _ ht _ _ _ := ht
  blocked _ _ _ _ _ ht _ _ := ht
  chosen _ ht := ht
  awaiting _ _ _ _ _ := trivial
  gives _ _ _ _ := trivial

section
variable {u : State} {i : SlotNo} {q : Permit} {run : RunPart} {c : Closure}

theorem exitLive_heldBefore (hs : (u.slot i).state = .live q run) {o : OutputNo} (ho : u.underTrip o = true) (k : SlotNo)
    (b : Bool) (h : ((u.exitLive i (some c)).channel o).state = .held k b) : (u.channel o).state = .held k b := by
  have hr : (u.slot i).state.record = some q := by rw [hs]; rfl
  have entered : ((u.enterEnd i (some c)).underTrip o = true)
      ∧ ∀ k b, ((u.enterEnd i (some c)).channel o).state = .held k b → (u.channel o).state = .held k b := by
    refine ⟨(underTrip_of_settings (enterEnd_rest (some c) hr).1 o).trans ho, fun k b h => ?_⟩
    rwa [enterEnd_channel (some c) hr] at h
  have released : ((u.enterEnd i (some c)).letGo (u.holds i)).underTrip o = true
      ∧ ∀ k b, (((u.enterEnd i (some c)).letGo (u.holds i)).channel o).state = .held k b → (u.channel o).state = .held k b := by
    refine ⟨by simpa only [State.underTrip, State.letGo_line] using entered.1, fun k b h => ?_⟩
    rw [State.letGo_channel] at h
    split at h
    · rw [channel_letGo_eq_driven] at h
      cases h
    · exact entered.2 k b h
  simp only [State.exitLive, hs] at h
  exact (scanDeparture_keeps (heldBefore_cascade True u o) _ _
    (endEvent_keeps (heldBefore_cascade True u o) (u.handle i) _ released trivial) (fun _ _ => trivial)
    fun _ _ _ _ => trivial).2 k b h

/-- The exit of a LIVE permit to CLOSED, as one closure of a filtered assertion. -/
theorem exitLive_tripRun (hs : (u.slot i).state = .live q run) : u.tripRun (u.exitLive i (some c)) := by
  have ended := exitLive_permitEnded (some c) hs
  have closed : ((u.exitLive i (some c)).slot i).state = .closed q c := by rw [ended.slot]; rfl
  refine ⟨ended.settings, fun j => ?_, fun p n hn => exitLive_noticed hn i c, fun ho => ?_,
    fun o ho k b h => exitLive_heldBefore hs ho k b h⟩
  · by_cases hj : j = i
    · rw [hj, ended.slot]
      rfl
    · exact (ended.others j hj).1
  · obtain ⟨hv, all⟩ := ended.notices ho
    refine ⟨hv, fun p n hn => (all p n).2.2 ?_ ?_⟩
    · rintro (h | ⟨j, r, -, ⟨-, -, -, rfl⟩ | ⟨-, -, -, rfl⟩⟩)
      · exact h
      · rcases hn with hn | hn <;> cases hn
      · rcases hn with hn | hn <;> cases hn
    · rintro ⟨j, hown, hf, -⟩
      by_cases hj : j = i
      · rw [hj, closed] at hf
        cases hf
      · rw [← (ended.others j hj).2.1 p, hf] at hown
        cases hown

/-- A slot that is neither WAITING nor ARMED holds what it held after another slot's exit (R11, R115). -/
theorem exitLive_holds_other (hs : (u.slot i).state = .live q run) {j : SlotNo} (hj : j ≠ i)
    (hset : (u.slot j).state.settled = true) (o : OutputNo) : (u.exitLive i (some c)).holds j o = u.holds j o := by
  obtain ⟨-, departed, -⟩ := exitLive_spec (some c) hs
  obtain ⟨-, channels, -⟩ := departed
  have before : (if u.holds i o then (u.channel o).driven .idle .off else u.channel o).state.heldBy j = u.holds j o := by
    by_cases h : u.holds i o = true
    · obtain ⟨b, hb⟩ := (heldBy_iff _ i).1 h
      rw [if_pos h, State.holds, hb]
      simp [ChannelState.heldBy, Ne.symm hj]
    · rw [if_neg h]
      rfl
  rcases channels o with kept | ⟨idle, k, r, e, hk, -, -, -, -, hch⟩
  · rw [State.holds, kept, before]
  · rw [← before, idle, State.holds, hch]
    have hkj : k ≠ j := fun e => by rw [e, hset] at hk; cases hk
    simp [ChannelState.heldBy, hkj]

end

/-! ## The closures one by one -/

section
variable {u : State} {l : LineNo}

theorem closeTripped_tripRun (u : State) (l : LineNo) (i : SlotNo) : u.tripRun (u.closeTripped l i) := by
  unfold State.closeTripped
  split
  · cases hs : (u.slot i).state with
    | live q run => exact exitLive_tripRun hs
    | free | waiting r w | armed r part | closed r c =>
      rw [exitLive_of_not_live (by rw [hs]; rfl)]
      exact tripRun_refl u
  · exact tripRun_refl u

theorem closeTripped_closes {i : SlotNo} {q : Permit} {run : RunPart} (hs : (u.slot i).state = .live q run)
    (hm : u.holdsMapped i (u.line l).map = true) :
    (u.closeTripped l i).slot i = { generation := (u.slot i).generation, state := .closed q (.tripped l) }
      ∧ (u.closeTripped l i).noticed q.owner (.closed (u.handle i)) ∧ ∀ o : OutputNo, (u.closeTripped l i).holds i o = false := by
  rw [State.closeTripped, if_pos hm]
  obtain ⟨slot, departed, -, -, noticed⟩ := exitLive_spec (some (.tripped l)) hs
  obtain ⟨-, -, free, -⟩ := departed
  exact ⟨slot, noticed rfl, free⟩

/-- A slot that the closure of slot `i` leaves alone. -/
theorem closeTripped_stays {i j : SlotNo} (hset : (u.slot j).state.settled = true)
    (hj : j ≠ i ∨ (u.slot j).state.isLive = false ∨ u.holdsMapped j (u.line l).map = false) :
    (u.closeTripped l i).slot j = u.slot j ∧ ∀ o : OutputNo, (u.closeTripped l i).holds j o = u.holds j o := by
  by_cases hm : u.holdsMapped i (u.line l).map = true
  · rw [State.closeTripped, if_pos hm]
    by_cases hl : (u.slot i).state.isLive = false
    · rw [exitLive_of_not_live hl]
      exact ⟨rfl, fun _ => rfl⟩
    · have hji : j ≠ i := by
        rintro rfl
        rcases hj with h | h | h
        · exact h rfl
        · exact hl h
        · rw [hm] at h; cases h
      cases hs : (u.slot i).state with
      | live q run =>
        have ended := exitLive_permitEnded (some (.tripped l)) hs
        exact ⟨(ended.others j hji).2.2 hset, exitLive_holds_other hs hji hset⟩
      | free | waiting r w | armed r part | closed r c => rw [hs] at hl; exact absurd rfl hl
  · rw [State.closeTripped, if_neg hm]
    exact ⟨rfl, fun _ => rfl⟩

theorem tripRun_line {v : State} (h : u.tripRun v) (l : LineNo) : v.line l = u.line l := by
  obtain ⟨-, -, -, -, -, -, -, lines, -⟩ := (settingsKept_iff _ _).1 h.settings
  simp only [State.line, lines]

theorem tripRun_handle {v : State} (h : u.tripRun v) (i : SlotNo) : v.handle i = u.handle i := by
  obtain ⟨-, -, -, -, epoch, -⟩ := (settingsKept_iff _ _).1 h.settings
  simp only [State.handle, epoch, h.generation i]

theorem holdsMapped_congr {v : State} {j : SlotNo} (h : u.tripRun v) (hh : ∀ o : OutputNo, v.holds j o = u.holds j o) :
    v.holdsMapped j (v.line l).map = u.holdsMapped j (u.line l).map := by
  simp only [State.holdsMapped, hh, tripRun_line h l]

theorem closeAll_tripRun (rest : List SlotNo) (u : State) : u.tripRun (rest.foldl (State.closeTripped l) u) :=
  foldl_keeps (P := u.tripRun) (fun t i ht => tripRun_trans ht (closeTripped_tripRun t l i)) rest u (tripRun_refl u)

/-- A slot that none of the closures concerns. -/
theorem closeAll_stays (rest : List SlotNo) {u : State} {j : SlotNo} (hset : (u.slot j).state.settled = true)
    (hj : j ∉ rest ∨ (u.slot j).state.isLive = false ∨ u.holdsMapped j (u.line l).map = false) :
    (rest.foldl (State.closeTripped l) u).slot j = u.slot j
      ∧ ∀ o : OutputNo, (rest.foldl (State.closeTripped l) u).holds j o = u.holds j o := by
  induction rest generalizing u with
  | nil => exact ⟨rfl, fun _ => rfl⟩
  | cons i rest ih =>
    obtain ⟨slot, holds⟩ := closeTripped_stays (i := i) hset (hj.imp_left fun h e => h (e ▸ List.mem_cons_self))
    have mapped := holdsMapped_congr (l := l) (closeTripped_tripRun u l i) holds
    obtain ⟨slot', holds'⟩ := ih (u := u.closeTripped l i) (by rw [slot]; exact hset) (by
      rw [slot, mapped]
      exact hj.imp_left fun h hm => h (List.mem_cons_of_mem _ hm))
    exact ⟨slot'.trans slot, fun o => (holds' o).trans (holds o)⟩

/-- Every LIVE holder of a mapped output is closed at its turn (R132, R133). -/
theorem closeAll_closes (rest : List SlotNo) {u : State} {j : SlotNo} {q : Permit} {run : RunPart} (hj : j ∈ rest)
    (hs : (u.slot j).state = .live q run) (hm : u.holdsMapped j (u.line l).map = true) :
    ((rest.foldl (State.closeTripped l) u).slot j).state = .closed q (.tripped l)
      ∧ (rest.foldl (State.closeTripped l) u).noticed q.owner (.closed (u.handle j))
      ∧ ∀ o : OutputNo, (rest.foldl (State.closeTripped l) u).holds j o = false := by
  induction rest generalizing u with
  | nil => cases hj
  | cons i rest ih =>
    by_cases hji : j = i
    · subst hji
      obtain ⟨slot, noticed, free⟩ := closeTripped_closes hs hm
      obtain ⟨slot', holds'⟩ := closeAll_stays rest (u := u.closeTripped l j) (l := l) (j := j) (by rw [slot]; rfl)
        (.inr (.inl (by rw [slot]; rfl)))
      exact ⟨by rw [List.foldl_cons, slot', slot], (closeAll_tripRun rest _).noticed _ _ noticed,
        fun o => (holds' o).trans (free o)⟩
    · obtain ⟨slot, holds⟩ := closeTripped_stays (i := i) (l := l) (by rw [hs]; rfl) (.inl hji)
      have run' := closeTripped_tripRun u l i
      have later := ih (u := u.closeTripped l i) ((List.mem_cons.1 hj).resolve_left hji) (by rw [slot]; exact hs)
        (by rw [holdsMapped_congr run' holds]; exact hm)
      rw [tripRun_handle run' j] at later
      exact later

/-- The closures are those of R132 and R133, in the order of the slots. -/
theorem closeAll_tripClosed (rest : List SlotNo) (u : State) : State.tripClosed l rest u (rest.foldl (State.closeTripped l) u) := by
  induction rest generalizing u with
  | nil => rfl
  | cons i rest ih =>
    refine ⟨fun q run hs hm => ?_, fun h => ?_⟩
    · have close : u.closeTripped l i = u.exitLive i (some (.tripped l)) := if_pos (holdsMapped_iff.2 hm)
      obtain ⟨slot, departed, ends, ports, noticed⟩ := exitLive_spec (some (.tripped l)) hs
      refine ⟨_, slot, departed, ends, noticed rfl, ports, ?_⟩
      rw [List.foldl_cons, close]
      exact ih _
    · have same : u.closeTripped l i = u := by
        unfold State.closeTripped
        split
        · rename_i hm
          rcases h with h | h
          · exact exitLive_of_not_live h _
          · obtain ⟨o, ho, hh⟩ := holdsMapped_iff.1 hm
            rw [h o ho] at hh
            cases hh
        · rfl
      rw [List.foldl_cons, same]
      exact ih u

end

/-! ## FILTERED_ASSERTION -/

/-- An entry that has not changed since `s` and is then posted has been posted once since `s` (R142). -/
theorem postedOnce_of_kept {s v t : State} {p : Port} {n : Notice} (h : s.entryKept v p n)
    (hm : (v.notices.get p).mask = (s.notices.get p).mask) (h' : v.postedOnce t p n) : s.postedOnce t p n := by
  obtain ⟨masked, posted⟩ := h'
  rw [hm] at masked posted
  refine ⟨fun hk => entryKept_trans h (masked hk), fun hk => ?_⟩
  obtain ⟨first, again⟩ := posted hk
  exact ⟨fun none => first fun e he hn => none e ((h e hn).1 he) hn, fun c hc => again c ((h _ rfl).2 hc)⟩

theorem postBoth_noticed (s : State) (n : Notice) (p : Port) : (s.postBoth n).noticed p n := by
  cases p with
  | control => exact noticed_post (post_noticed s .control n) .supervisor n
  | supervisor => exact post_noticed (s.post .control n) .supervisor n

theorem noticed_postBoth {s : State} {p : Port} {n : Notice} (h : s.noticed p n) (m : Notice) : (s.postBoth m).noticed p n :=
  noticed_post (noticed_post h .control m) .supervisor m

theorem settingsKept_postBoth (s : State) (n : Notice) : s.settingsKept (s.postBoth n) :=
  settingsKept_trans (settingsKept_post s .control n) (settingsKept_post (s.post .control n) .supervisor n)

theorem latch_line (l : LineNo) (s : State) (l' : LineNo) : (s.latch l).line l' =
    if l' = l then { s.line l with filterCount := (s.line l).filterLength, latched := true } else s.line l' :=
  State.setLine_line s l _ l'

theorem latch_map (l : LineNo) (s : State) : ((s.latch l).line l).map = (s.line l).map := by
  rw [latch_line, if_pos rfl]

theorem latch_underTrip {l : LineNo} {s : State} {o : OutputNo} (he : (s.line l).enabled = true)
    (ho : inSet (s.line l).map o = true) : (s.latch l).underTrip o = true :=
  List.any_eq_true.2 ⟨l, mem_allLines l, by rw [latch_line, if_pos rfl]; simp [he, ho]⟩

/-- A mapped output is HELD no more when every slot has had its turn (R132, R133). -/
theorem closeAll_frees {s : State} {l : LineNo} (he : (s.line l).enabled = true) (law : s.holdingLaw) {o : OutputNo}
    (ho : inSet (s.line l).map o = true) :
    ((allSlots.foldl (State.closeTripped l) (s.latch l)).channel o).state.isHeld = false := by
  cases hc : ((allSlots.foldl (State.closeTripped l) (s.latch l)).channel o).state with
  | idle | faulted => rfl
  | held i b =>
    have before : (s.channel o).state = .held i b :=
      (closeAll_tripRun allSlots (s.latch l)).held o (latch_underTrip he ho) i b hc
    have drives := (law.1 o i b).1 before
    cases hs : (s.slot i).state with
    | live q run =>
      have mapped : (s.latch l).holdsMapped i ((s.latch l).line l).map = true :=
        holdsMapped_iff.2 ⟨o, by rw [latch_map]; exact ho, (heldBy_iff _ i).2 ⟨b, before⟩⟩
      obtain ⟨-, -, free⟩ := closeAll_closes (u := s.latch l) allSlots (mem_allSlots i) hs mapped
      have held := free o
      rw [State.holds, hc] at held
      simp [ChannelState.heldBy] at held
    | free | waiting r w | armed r part | closed r c => rw [hs] at drives; cases drives

/-- Settles O47: by the sample where it makes no filtered assertion, and by the closures one by one where it does (R131 to
R133). -/
theorem filteredAssertionTripsTheHolders : Obligations.FilteredAssertionTripsTheHolders := by
  refine ⟨fun s l sample hd ho _ hn => ?_, fun s l sample hd ho _ he hs hc => ?_⟩
  · have notAsserts : ¬ (s.line l).asserts sample = true := fun h => by
      obtain ⟨h1, h2, h3⟩ := asserts_iff.1 h
      simp [h1, h2, h3] at hn
    have work : State.tickWork (.trip l sample) { s with due := s.due.erase (.trip l sample) }
        = State.setLine l ((s.line l).takeSample sample) { s with due := s.due.erase (.trip l sample) } := if_neg notAsserts
    obtain ⟨same, others, rest⟩ := takeEvent_setLine hd work
    exact ⟨_, exec_filteredAssertion hd ho, same.trans (takeSample_of_not_asserts hn), others, rest, takeEvent_leavesDue hd⟩
  · obtain ⟨due, eq⟩ := takeEvent_of_due hd
    have work := tripTick_asserts (s := { s with due := s.due.erase (.trip l sample) }) (asserts_iff.2 ⟨he, hs, hc⟩)
    rw [State.tickWork, work] at eq
    refine ⟨_, exec_filteredAssertion hd ho, takeEvent_portsKept _ s, takeEvent_leavesDue hd, ?_⟩
    obtain ⟨u, hu⟩ : ∃ u : State, u = State.latch l { s with due := s.due.erase (.trip l sample) } := ⟨_, rfl⟩
    have map : (u.line l).map = (s.line l).map := by rw [hu, latch_map]; rfl
    have lines (l' : LineNo) : u.line l'
        = if l' = l then { s.line l with filterCount := (s.line l).filterLength, latched := true } else s.line l' := by
      rw [hu, latch_line]
      rfl
    have rest : u = { s with tripLines := u.tripLines, due := u.due } := by rw [hu]; rfl
    have frees (law : s.holdingLaw) (o : OutputNo) (ho : inSet (s.line l).map o = true) :=
      closeAll_frees (s := { s with due := s.due.erase (.trip l sample) }) he law ho
    have run := closeAll_tripRun (l := l) allSlots u
    have closed := closeAll_tripClosed (l := l) allSlots u
    have closes (i : SlotNo) (q : Permit) (run : RunPart) := closeAll_closes (l := l) (u := u) (q := q) (run := run) allSlots
      (mem_allSlots i)
    have stays (i : SlotNo) := closeAll_stays (l := l) (u := u) (j := i) allSlots
    rw [← hu] at eq frees
    generalize allSlots.foldl (State.closeTripped l) u = v at *
    generalize s.takeEvent (.trip l sample) = t at *
    have like : (v.postBoth (.trip l)).like t := ⟨_, _, due, eq⟩
    have slot (i : SlotNo) : t.slot i = v.slot i := like.slot i
    have line (l' : LineNo) : t.line l' = u.line l' := by rw [eq, ← tripRun_line run l']; rfl
    have tripLines : t.tripLines = u.tripLines := ext_get line
    have slots (i : SlotNo) : u.slot i = s.slot i := by rw [rest]; rfl
    have notices : u.notices = s.notices := by rw [rest]
    have handle (i : SlotNo) : u.handle i = s.handle i := by rw [rest]; rfl
    have holds (i : SlotNo) (o : OutputNo) : u.holds i o = s.holds i o := by rw [rest]; rfl
    have before : u.like { s with tripLines := t.tripLines } := ⟨s.ports, s.lastServed, s.due, by rw [rest, tripLines]⟩
    have posts := postBoth_noticesAfter v (.trip l)
    refine ⟨(line l).trans ((lines l).trans (if_pos rfl)), fun l' hl => (line l').trans ((lines l').trans (if_neg hl)),
      before.settingsKept like (settingsKept_trans run.settings (settingsKept_postBoth v _)),
      like.noticed (postBoth_noticed v _ .control), like.noticed (postBoth_noticed v _ .supervisor), fun ordered => ?_,
      fun i => ?_, fun i q r hs => ⟨?_, ?_⟩, fun i hs => ?_, ⟨u, v, by rw [tripLines]; exact rest, closed, ?_, ?_⟩,
      fun law o ho => ?_⟩
    · obtain ⟨hv, kept⟩ := run.entries (by rw [State.noticesOrdered, notices]; exact ordered)
      obtain ⟨-, posted⟩ := posts hv
      have keptSince (p : Port) (n : Notice) (hn : n.slot = none ∨ n.kind = .completed) : s.entryKept v p n := fun e he => by
        have same := kept p n hn e he
        rwa [notices] at same
      refine fun p => ⟨?_, fun n hn hne => entryKept_trans (keptSince p n hn) fun e he => ?_⟩
      · refine postedOnce_of_kept (keptSince p _ (.inl rfl)) ?_ ?_
        · rw [← notices]
          exact (run.settings.2 p).1
        · have once := (posted p _).1 rfl
          simp only [State.postedOnce, State.entryKept] at once ⊢
          rw [like.notices]
          exact once
      · rw [like.notices]
        exact (posted p n).2.2 hne id e he
    · rw [slot, run.generation, slots]
    · rintro ⟨o, ho, hh⟩
      obtain ⟨state, noticed, -⟩ := closes i q r (by rw [slots]; exact hs)
        (holdsMapped_iff.2 ⟨o, by rw [map]; exact ho, (holds i o).trans hh⟩)
      rw [handle] at noticed
      exact ⟨by rw [slot]; exact state, like.noticed (noticed_postBoth noticed _)⟩
    · intro hn
      have unmapped : u.holdsMapped i (u.line l).map = false := Bool.eq_false_iff.2 fun hm => by
        obtain ⟨o, ho, hh⟩ := holdsMapped_iff.1 hm
        rw [map] at ho
        rw [holds, hn o ho] at hh
        cases hh
      rw [slot, (stays i (by rw [slots, hs]; rfl) (.inr (.inr unmapped))).1, slots]
    · have settled : (u.slot i).state.settled = true ∧ (u.slot i).state.isLive = false := by
        rw [slots]
        obtain hs | ⟨q, c, hs⟩ := hs <;> (rw [hs]; exact ⟨rfl, rfl⟩)
      rw [slot, (stays i settled.1 (.inr (.inl settled.2))).1, slots]
    · rw [eq]
      rfl
    · exact noticesAfter_congr posts rfl like.notices (fun _ _ => Iff.rfl) fun _ _ => Iff.rfl
    · rw [like.channel]
      exact frees law o ho

end Sys2Proof.Machine
end

section
/-! PROOFS. TICK and REFCLK_PERIOD: the counts that fall, the samples, the events that are left due, and the events of an
earlier tick, which are taken first (R161). -/

set_option Elab.async false

namespace Sys2Proof.Machine

/-! ## The events of an earlier tick are taken -/

section
variable {t : State} {d : List TickEvent}

theorem dueWithin_setSlot (i : SlotNo) (x : Slot) (h : t.due.Sublist d) : (t.setSlot i x).due.Sublist d :=
  List.filter_sublist.trans h

theorem dueWithin_enterEnd {i : SlotNo} {r : Permit} (ending : Option Closure) (hr : (t.slot i).state.record = some r)
    (h : t.due.Sublist d) : (t.enterEnd i ending).due.Sublist d := by
  cases ending with
  | some c => rw [State.enterEnd, enterClosed_eq c hr]; exact List.filter_sublist.trans h
  | none => rw [State.enterEnd, enterFree_eq hr]; exact List.filter_sublist.trans h

end

/-- The work of an event makes no other event due (R21). -/
theorem dueWithin_eventLaw (d : List TickEvent) : EventLaw fun t => t.due.Sublist d :=
  have parts : EventParts fun t => t.due.Sublist d :=
    { settled := fun _ _ _ hs ht => hs.trans ht
      granted := fun t j r _ ht _ _ _ => dueWithin_setSlot (t := t) j { t.slot j with state := .live r (newRun r) } ht
      queued := fun t j r _ ht _ _ => dueWithin_setSlot (t := t) j { t.slot j with state := .waiting r r.waitLimit } ht
      started := fun t j r a ht _ _ => dueWithin_setSlot (t := t) j { t.slot j with state := .armed r (.delaying a.delay) } ht
      failed := fun t o ht _ => by obtain ⟨_, _, _, eq⟩ := failOutput_eq t o; rw [eq]; exact ht
      ended := fun _ _ _ ending ht hr _ _ => dueWithin_enterEnd ending hr ht
      endWaiting := fun t i r w ending ht h =>
        dueWithin_enterEnd (t := t.leaveQueue i) (r := r) ending (by rw [State.leaveQueue_slot, h]; rfl) ht
      endLive := fun t i r run ending ht h => by
        rw [State.letGo_due]
        exact dueWithin_enterEnd (r := r) ending (by rw [h]; rfl) ht
      endFailed := fun t o i b r run ht _ h => by
        rw [State.letGo_due]
        refine dueWithin_enterEnd (r := r) _ (by rw [failOutput_slot, h]; rfl) ?_
        obtain ⟨_, _, _, eq⟩ := failOutput_eq t o
        rw [eq]
        exact ht }
  parts.eventLaw (parts.asserted fun _ _ ht _ => ht)

theorem takeEvent_due_length {s : State} {e : TickEvent} (h : e ∈ s.due) : (s.takeEvent e).due.length + 1 ≤ s.due.length := by
  have within : (State.tickWork e { s with due := s.due.erase e }).due.Sublist (s.due.erase e) :=
    (dueWithin_eventLaw (s.due.erase e)).tickWork e { s with due := s.due.erase e } (List.Sublist.refl _)
  have shorter : (s.takeEvent e).due.length ≤ (s.due.erase e).length := by
    rw [State.takeEvent, if_pos h]
    exact (List.filter_sublist.trans within).length_le
  rw [List.length_erase_of_mem h] at shorter
  have pos := List.length_pos_of_mem h
  omega

/-- The events are taken one by one until none is due (log entry 4). -/
theorem finishTick_takes (n : Nat) (s : State) (h : s.due.length ≤ n) :
    Relation.ReflTransGen State.tookOne s (finishTick n s) ∧ (finishTick n s).due = [] := by
  induction n generalizing s with
  | zero => exact ⟨.refl, List.length_eq_zero_iff.1 (Nat.le_zero.1 h)⟩
  | succ n ih =>
    have next (e : TickEvent) (k : Nat) (he : e ∈ s.due) :
        Relation.ReflTransGen State.tookOne s (finishTick n (State.takeEvent e { s with choices := k }))
          ∧ (finishTick n (State.takeEvent e { s with choices := k })).due = [] := by
      have shorter := takeEvent_due_length (s := { s with choices := k }) he
      obtain ⟨path, none⟩ := ih (State.takeEvent e { s with choices := k })
        (Nat.le_of_succ_le_succ (shorter.trans h))
      exact ⟨.head ⟨e, he, k, rfl⟩ path, none⟩
    cases hd : s.due with
    | nil =>
      have stop : finishTick (n + 1) s = s := by simp only [finishTick, hd]
      rw [stop]
      exact ⟨.refl, hd⟩
    | cons e rest =>
      cases rest with
      | nil =>
        have one : finishTick (n + 1) s = finishTick n (State.takeEvent e { s with choices := s.choices }) := by
          simp only [finishTick, hd]
        rw [one]
        exact next e _ (by simp [hd])
      | cons e' rest =>
        have chosen : finishTick (n + 1) s = finishTick n (State.takeEvent
            (s.due.getD (Config.tickOrder s.choices % s.due.length) e) { s with choices := s.choices + 1 }) := by
          conv_lhs => simp only [finishTick, hd]
          rw [hd]
        rw [chosen]
        refine next _ _ ?_
        have inside : Config.tickOrder s.choices % s.due.length < s.due.length := Nat.mod_lt _ (by simp [hd])
        rw [List.getD_eq_getElem _ _ inside]
        exact List.getElem_mem inside

/-! ## The counts that end -/

theorem mem_dueIf {n : Nat} {e x : TickEvent} : x ∈ dueIf n e ↔ x = e ∧ n ≤ 1 := by
  unfold dueIf
  split <;> simp [*]

theorem mem_dueIfSome {n : Option Nat} {e x : TickEvent} : x ∈ dueIfSome n e ↔ x = e ∧ ∃ k, n = some k ∧ k ≤ 1 := by
  cases n <;> simp [dueIfSome, mem_dueIf]

/-- The events that a tick leaves due for a slot (R35, R61, R78, R103). -/
theorem mem_slot_dueEvents {i : SlotNo} {st : SlotState} {x : TickEvent} :
    x ∈ st.dueEvents i ↔
      (x = .wait i ∧ ∃ q w, st = .waiting q w ∧ w ≤ 1)
        ∨ (x = .delay i ∧ ∃ q d, st = .armed q (.delaying d) ∧ d ≤ 1)
        ∨ (x = .lease i ∧ ∃ q run n, st = .live q run ∧ run.leaseRemaining = some n ∧ n ≤ 1)
        ∨ (x = .phase i ∧ ∃ q run n, st = .live q run ∧ run.phaseRemaining = some n ∧ n ≤ 1) := by
  cases st with
  | free | closed q c => simp [SlotState.dueEvents]
  | waiting q w => simp [SlotState.dueEvents, mem_dueIf]
  | armed q part => cases part <;> simp [SlotState.dueEvents, mem_dueIf]
  | live q run => simp [SlotState.dueEvents, mem_dueIfSome]

theorem mem_group_dueEvents {g : GroupNo} {y : Group} {x : TickEvent} :
    x ∈ y.dueEvents g ↔ x = .quiet g ∧ y.quietRemaining = 1 := by
  unfold Group.dueEvents
  split <;> simp [*]

theorem mem_channel_dueEvents {o : OutputNo} {c : Channel} {x : TickEvent} :
    x ∈ c.dueEvents o ↔ x = .settle o ∧ ∃ n, c.supervision = .settling n ∧ n ≤ 1 := by
  unfold Channel.dueEvents
  cases c.supervision <;> simp [mem_dueIf]

theorem mem_line_dueEvents {l : LineNo} {y : TripLine} {sample : Electrical} {x : TickEvent} :
    x ∈ y.dueEvents sample l ↔ x = .trip l sample ∧ y.asserts sample = true := by
  unfold TripLine.dueEvents
  split <;> simp [*]

theorem mem_tickEvents {s : State} {trips : BitVec 4} {x : TickEvent} :
    x ∈ s.tickEvents trips ↔
      (∃ i, x ∈ (s.slot i).state.dueEvents i) ∨ (∃ g, x ∈ (s.group g).dueEvents g)
        ∨ (∃ o, x ∈ (s.channel o).dueEvents o)
        ∨ ∃ l : LineNo, x ∈ (s.line l).dueEvents (sampledLevel trips l.val) l := by
  simp [State.tickEvents]

/-! ## The samples -/

/-- A feedback sample is ON where the input stands at the level that the polarity gives ON (R116). -/
theorem levelOfInput_sampled {feedback : BitVec 16} {o : OutputNo} {pol : Polarity} {sample : Level}
    (h : sample = .on ↔ feedback.getLsbD o.val = decide (pol = .activeHigh)) :
    levelOfInput pol (sampledLevel feedback o.val) = sample := by
  unfold levelOfInput sampledLevel
  generalize feedback.getLsbD o.val = high at h ⊢
  cases high <;> cases pol <;> cases sample <;> simp_all [electrical]

/-- A trip line at a tick, with the assertion of its sample (R131). -/
theorem line_tick {x : TripLine} {trips : BitVec 4} {l : LineNo} {active : Bool}
    (h : active = true ↔ trips.getLsbD l.val = decide (x.activeLevel = .high)) :
    x.tick (sampledLevel trips l.val) =
      if x.enabled = false then x
      else if active = false then { x with filterCount := 0 }
      else if x.filterCount + 1 < x.filterLength then { x with filterCount := x.filterCount + 1 }
      else x := by
  have sampled : sampledLevel trips l.val = x.activeLevel ↔ active = true := by
    rw [h]
    unfold sampledLevel
    generalize trips.getLsbD l.val = high
    cases high <;> cases x.activeLevel <;> simp
  by_cases ha : x.asserts (sampledLevel trips l.val) = true
  · obtain ⟨he, hs, hc⟩ := asserts_iff.1 ha
    rw [TripLine.tick, if_pos ha, if_neg (by simp [he]), if_neg (by simp [sampled.1 hs]), if_neg (by omega)]
  · rw [TripLine.tick, if_neg ha, takeSample_of_not_asserts]
    · simp only [ne_eq, sampled, Bool.not_eq_true]
    · by_contra hn
      rw [asserts_iff] at ha
      simp only [not_or, Bool.not_eq_false, not_not] at hn
      exact ha hn

/-- A channel at a tick, with its sample (R116, R117, R119). -/
theorem channel_tick {c : Channel} {feedback : BitVec 16} {o : OutputNo} {sample : Level}
    (h : sample = .on ↔ feedback.getLsbD o.val = decide (c.polarity = .activeHigh)) :
    c.tick (sampledLevel feedback o.val) =
      { c with
        feedback := sample
        supervision :=
          match c.supervision with
          | .unsupervised => .unsupervised
          | .settling n => .settling (countDown n)
          | .watching =>
            if sample = c.expected then .watching
            else if c.settleTime = 0 then .unsupervised
            else .settling c.settleTime
          | .suspended => .suspended } := by
  rw [Channel.tick, levelOfInput_sampled h]
  cases c.supervision <;> rfl

/-! ## Which events a tick leaves due -/

section
variable {s : State} {trips : BitVec 4}

/-- The events of a slot are its own. -/
theorem mem_tickEvents_slot {x : TickEvent} {i : SlotNo}
    (own : ∀ j : SlotNo, x = .wait j ∨ x = .delay j ∨ x = .lease j ∨ x = .phase j → j = i)
    (notGroup : ∀ g, x ≠ .quiet g) (notOutput : ∀ o, x ≠ .settle o) (notLine : ∀ l y, x ≠ .trip l y) :
    x ∈ s.tickEvents trips ↔ x ∈ (s.slot i).state.dueEvents i := by
  rw [mem_tickEvents]
  constructor
  · rintro (⟨j, h⟩ | ⟨g, h⟩ | ⟨o, h⟩ | ⟨l, h⟩)
    · have named := mem_slot_dueEvents.1 h
      have : j = i := own j (by
        obtain h | h | h | h := named
        · exact .inl h.1
        · exact .inr (.inl h.1)
        · exact .inr (.inr (.inl h.1))
        · exact .inr (.inr (.inr h.1)))
      rwa [this] at h
    · exact absurd (mem_group_dueEvents.1 h).1 (notGroup g)
    · exact absurd (mem_channel_dueEvents.1 h).1 (notOutput o)
    · exact absurd (mem_line_dueEvents.1 h).1 (notLine l _)
  · exact fun h => .inl ⟨i, h⟩

theorem wait_mem_tickEvents {i : SlotNo} :
    .wait i ∈ s.tickEvents trips ↔ ∃ q w, (s.slot i).state = .waiting q w ∧ w ≤ 1 := by
  rw [mem_tickEvents_slot (i := i) (by simp) (by simp) (by simp) (by simp)]
  simp [mem_slot_dueEvents]

theorem delay_mem_tickEvents {i : SlotNo} :
    .delay i ∈ s.tickEvents trips ↔ ∃ q d, (s.slot i).state = .armed q (.delaying d) ∧ d ≤ 1 := by
  rw [mem_tickEvents_slot (i := i) (by simp) (by simp) (by simp) (by simp)]
  simp [mem_slot_dueEvents]

theorem lease_mem_tickEvents {i : SlotNo} :
    .lease i ∈ s.tickEvents trips ↔
      ∃ q run n, (s.slot i).state = .live q run ∧ run.leaseRemaining = some n ∧ n ≤ 1 := by
  rw [mem_tickEvents_slot (i := i) (by simp) (by simp) (by simp) (by simp)]
  simp [mem_slot_dueEvents]

theorem phase_mem_tickEvents {i : SlotNo} :
    .phase i ∈ s.tickEvents trips ↔
      ∃ q run n, (s.slot i).state = .live q run ∧ run.phaseRemaining = some n ∧ n ≤ 1 := by
  rw [mem_tickEvents_slot (i := i) (by simp) (by simp) (by simp) (by simp)]
  simp [mem_slot_dueEvents]

theorem quiet_mem_tickEvents {g : GroupNo} : .quiet g ∈ s.tickEvents trips ↔ (s.group g).quietRemaining = 1 := by
  simp [mem_tickEvents, mem_slot_dueEvents, mem_group_dueEvents, mem_channel_dueEvents, mem_line_dueEvents]

theorem settle_mem_tickEvents {o : OutputNo} :
    .settle o ∈ s.tickEvents trips ↔ ∃ n, (s.channel o).supervision = .settling n ∧ n ≤ 1 := by
  simp [mem_tickEvents, mem_slot_dueEvents, mem_group_dueEvents, mem_channel_dueEvents, mem_line_dueEvents]

theorem trip_mem_tickEvents {l : LineNo} {sample : Electrical} :
    .trip l sample ∈ s.tickEvents trips ↔
      (s.line l).enabled = true ∧ sample = (s.line l).activeLevel ∧ (s.line l).filterCount + 1 = (s.line l).filterLength
        ∧ sample = sampledLevel trips l.val := by
  have taken : .trip l sample ∈ s.tickEvents trips ↔
      sample = sampledLevel trips l.val ∧ (s.line l).asserts (sampledLevel trips l.val) = true := by
    simp only [mem_tickEvents, mem_slot_dueEvents, mem_group_dueEvents, mem_channel_dueEvents, mem_line_dueEvents]
    constructor
    · rintro (⟨_, h⟩ | ⟨_, h⟩ | ⟨_, h⟩ | ⟨_, h⟩)
      · simp at h
      · cases h.1
      · cases h.1
      · obtain ⟨eq, asserted⟩ := h
        cases eq
        exact ⟨rfl, asserted⟩
    · rintro ⟨rfl, asserted⟩
      exact .inr (.inr (.inr ⟨l, rfl, asserted⟩))
  rw [taken, asserts_iff]
  constructor
  · rintro ⟨rfl, he, ha, hc⟩
    exact ⟨he, ha, hc, rfl⟩
  · rintro ⟨he, ha, hc, rfl⟩
    exact ⟨rfl, he, ha, hc⟩

end

/-! ## The rows -/

section
variable {s : State}

theorem exec_tick {feedback : BitVec 16} {trips : BitVec 4} (hw : s.working = true)
    (h : s.tickDivider ≤ s.dividerCount + 1) :
    exec (.tick feedback trips) s = .next (s.tickFinished.tickAll feedback trips) := if_pos ⟨hw, h⟩

theorem exec_refclkPeriod (hw : s.working = true) (h : s.dividerCount + 1 < s.tickDivider) :
    exec .refclkPeriod s = .next { s.tickFinished with dividerCount := s.dividerCount + 1 } := if_pos ⟨hw, h⟩

/-- The row of a phase end takes the event or nothing, by the phase that the permit is in. -/
theorem exec_phaseRows_not_due {i : SlotNo} (h : TickEvent.phase i ∉ s.due) :
    exec (.onPhaseEnd i) s = .next s ∧ exec (.cycleBoundary i) s = .next s := by
  have taken (c : Prop) [Decidable c] :
      (if c then Host.Outcome.next (s.takeEvent (.phase i)) else .next s : Host.Outcome State Fault Refusal) = .next s := by
    rw [takeEvent_of_not_due h, ite_self]
  exact ⟨taken _, taken _⟩

theorem exec_filteredAssertion_not_due {l : LineNo} (h : ∀ x : Electrical, TickEvent.trip l x ∉ s.due) :
    exec (.filteredAssertion l) s = .next s := by
  have row : exec (.filteredAssertion l) s = .next (State.takeEvent (.trip l .high) (s.takeEvent (.trip l .low))) := rfl
  rw [row, takeEvent_of_not_due (h .low), takeEvent_of_not_due (h .high)]

/-- The part that a finished tick leaves: nothing is due, and the time base stands as it was. -/
theorem tickFinished_timeBase (s : State) :
    Relation.ReflTransGen State.tookOne s s.tickFinished ∧ s.tickFinished.due = []
      ∧ s.tickFinished.working = s.working ∧ s.tickFinished.tickDivider = s.tickDivider
      ∧ s.tickFinished.dividerCount = s.dividerCount := by
  obtain ⟨path, none⟩ := finishTick_takes s.due.length s le_rfl
  obtain ⟨power, reset, -⟩ := (deviceKept_eventLaw s).tickFinished s (deviceKept_refl s)
  obtain ⟨hdiv, hcount⟩ := tickFinished_divider s
  exact ⟨path, none, by rw [State.working, power, reset, State.working], hdiv, hcount⟩

end

/-! ## The obligation -/

/-- Settles O40: each count of a tick has its own lemma, and a tick or a period with events outstanding is that of the part
that their taking leaves. -/
theorem timeBaseCountsPeriodsAndTicks : Obligations.TimeBaseCountsPeriodsAndTicks := by
  unfold Obligations.TimeBaseCountsPeriodsAndTicks
  refine ⟨fun s feedback trips fall hw hdiv hdue hfall => ?_, fun s hw hdiv hdue => ?_, fun s => ?_,
    fun s feedback trips hw => ?_⟩
  · obtain rfl : fall = countDown := funext hfall
    refine ⟨s.tickAll feedback trips, ?_, rfl, fun i => ?_, fun g => tickAll_group s feedback trips g,
      fun o sample h => ?_, fun l active h => ?_, fun e => ?_⟩
    · rw [exec_tick hw hdiv, tickFinished_of_nothing_due hdue]
    · rw [tickAll_slot]
      exact ⟨rfl, rfl⟩
    · rw [tickAll_channel]
      exact channel_tick h
    · rw [tickAll_line]
      exact line_tick h
    · cases e with
      | wait i => exact wait_mem_tickEvents
      | delay i => exact delay_mem_tickEvents
      | lease i => exact lease_mem_tickEvents
      | phase i => exact phase_mem_tickEvents
      | quiet g => exact quiet_mem_tickEvents
      | settle o => exact settle_mem_tickEvents
      | trip l sample => exact trip_mem_tickEvents
  · rw [exec_refclkPeriod hw hdiv, tickFinished_of_nothing_due hdue]
  · exact ⟨fun i h => congrArg _ (takeEvent_of_not_due h), fun i h => congrArg _ (takeEvent_of_not_due h),
      fun i h => exec_phaseRows_not_due h, fun i h => congrArg _ (takeEvent_of_not_due h),
      fun g h => congrArg _ (takeEvent_of_not_due h), fun o h => congrArg _ (takeEvent_of_not_due h),
      fun l h => exec_filteredAssertion_not_due h⟩
  · obtain ⟨path, none, works, divider, count⟩ := tickFinished_timeBase s
    have finished := tickFinished_of_nothing_due none
    refine ⟨s.tickFinished, path, none, works.trans hw, divider, count, fun h => ?_, fun h => ?_⟩
    · rw [exec_tick hw h, exec_tick (works.trans hw) (by rwa [divider, count]), finished]
    · rw [exec_refclkPeriod hw h, exec_refclkPeriod (works.trans hw) (by rwa [divider, count]), finished, count]

end Sys2Proof.Machine
end
